-- ==== Sys2Proof/Word.lean ====
section
/-!
DEFINITION. Bytes, the check register, and the small fixed families the part is built from:
two composing lines, four map slots, eight tracks.
-/
namespace Sys2Proof

/-- One data byte of a character. -/
abbrev Byte := BitVec 8

/-- A character as the line carries it: its marker bit, 1 on a station character and 0 on a body character, and its data
byte (R181). The start and stop bits are the same in every character. -/
structure Character where
  marker : Bool
  data : Byte
deriving DecidableEq, Repr

/-- The 16-bit register of the frame check (R200). -/
abbrev Word := BitVec 16

/-- A track of the disc, 0 to 7 (Table 1-2). -/
abbrev Track := Fin 8

/-- The tracks in ascending order. -/
def allTracks : List Track := [0, 1, 2, 3, 4, 5, 6, 7]

/-- A composing line, A or B (R180). -/
inductive CLine where
  | a
  | b
deriving DecidableEq, Repr

/-- The other composing line. -/
def CLine.other : CLine → CLine
  | .a => .b
  | .b => .a

/-- One thing for each composing line. -/
structure Pair (α : Type) where
  a : α
  b : α
deriving DecidableEq, Repr

def Pair.get {α : Type} (p : Pair α) : CLine → α
  | .a => p.a
  | .b => p.b

def Pair.set {α : Type} (p : Pair α) (l : CLine) (v : α) : Pair α :=
  match l with
  | .a => { p with a := v }
  | .b => { p with b := v }

/-- Four things, as the map slots 0 to 3 (R1). -/
structure Quad (α : Type) where
  q0 : α
  q1 : α
  q2 : α
  q3 : α
deriving DecidableEq, Repr

def Quad.toList {α : Type} (q : Quad α) : List α := [q.q0, q.q1, q.q2, q.q3]

def Quad.map {α β : Type} (f : α → β) (q : Quad α) : Quad β := ⟨f q.q0, f q.q1, f q.q2, f q.q3⟩

/-- One thing for each track. -/
structure Oct (α : Type) where
  t0 : α
  t1 : α
  t2 : α
  t3 : α
  t4 : α
  t5 : α
  t6 : α
  t7 : α
deriving DecidableEq, Repr

def Oct.fill {α : Type} (v : α) : Oct α := ⟨v, v, v, v, v, v, v, v⟩

def Oct.toList {α : Type} (o : Oct α) : List α := [o.t0, o.t1, o.t2, o.t3, o.t4, o.t5, o.t6, o.t7]

def Oct.get {α : Type} (o : Oct α) (t : Track) : α :=
  match t.val with
  | 0 => o.t0
  | 1 => o.t1
  | 2 => o.t2
  | 3 => o.t3
  | 4 => o.t4
  | 5 => o.t5
  | 6 => o.t6
  | _ => o.t7

def Oct.set {α : Type} (o : Oct α) (t : Track) (v : α) : Oct α :=
  match t.val with
  | 0 => { o with t0 := v }
  | 1 => { o with t1 := v }
  | 2 => { o with t2 := v }
  | 3 => { o with t3 := v }
  | 4 => { o with t4 := v }
  | 5 => { o with t5 := v }
  | 6 => { o with t6 := v }
  | _ => { o with t7 := v }

end Sys2Proof
end

