-- ==== Sys2Proof/Syntax.lean ====
section
/-!
DEFINITION. The commands of the part, one constructor for each row of spec/opcode_table.json, with the operands
the outside world gives.
-/
namespace Sys2Proof

/-- The sense of an encoder edge (R72). -/
inductive EdgeDir where
  | up
  | down
deriving DecidableEq, Repr

/-- The three mechanisms that settle and home (R118, R124). -/
inductive Mech where
  | carriage
  | deflector
  | turret
deriving DecidableEq, Repr

/-- A strapped bit rate (R180). -/
inductive Rate where
  | r9600
  | r19200
  | r38400
  | r76800
deriving DecidableEq, Repr

/-- The levels of the home sensors: active or not (R124). The deflector's sensor has two parts. -/
structure Sensors where
  carriage : Bool
  deflTrack : Bool
  deflRise : Bool
  turret : Bool
deriving DecidableEq, Repr

/-- What the part reads from its harness as it starts: the straps of both lines (R180), and the levels at which
the home sensors stand (log 5). -/
structure StartInputs where
  stationA : BitVec 5
  rateA : Rate
  stationB : BitVec 5
  rateB : Rate
  sensors : Sensors
deriving DecidableEq, Repr

/-- The commands. A message command carries the composing line whose pending slot the Message Handler takes; the
message stands in that slot (R187, R192, log 1). -/
inductive Instr where
  | enquireUnit (l : CLine)
  | enquireJob (l : CLine)
  | enquireTrims (l : CLine)
  | enquireLine (l : CLine)
  | poll (l : CLine)
  | jobOpen (l : CLine)
  | jobEnd (l : CLine)
  | jobCancel (l : CLine)
  | jobHold (l : CLine)
  | jobRelease (l : CLine)
  | lineOpen (l : CLine)
  | linePart (l : CLine)
  | mapLoad (l : CLine)
  | mapClear (l : CLine)
  | trimRestart (l : CLine)
  | trimLimits (l : CLine)
  | bankSet (l : CLine)
  | filmSet (l : CLine)
  | spinSet (l : CLine)
  | unitHold (l : CLine)
  | unitRun (l : CLine)
  | restart (l : CLine)
  | panelSet (l : CLine)
  | resetUnit (l : CLine)
  | resetLine (l : CLine)
  | checkFailedEntry (l : CLine)
  | unknownKind (l : CLine)
  | stationCharacter (l : CLine) (c : Byte)
  | frameEnd (l : CLine) (c : Byte)
  | framingError (l : CLine)
  | lengthOutOfRange (l : CLine) (c : Byte)
  | frameGap (l : CLine)
  | lineBreak (l : CLine)
  | silence (l : CLine)
  | markingResumed (l : CLine)
  | replyEnd (l : CLine)
  | encoderEdge (d : EdgeDir)
  | indexEvent (ring : BitVec 4)
  | spinupFault
  | stall
  | speedFault
  | bankSample (level : Byte)
  | chargeFault
  | hitPulse
  | resultWatchClose
  | carriageStep (home : Bool)
  | deflectorStep (trackHome riseHome : Bool)
  | turretStep (home : Bool)
  | filmStep
  | settleEnd (m : Mech)
  | cutEnd
  | homeFault (m : Mech)
  | holdKey
  | runKey
  | discDoneKey
  | filmLoadedKey
  | resetKey
  | assemblyTimeout (l : CLine)
  | starvationTimeout
  | parkTimeout
  | supplyLow
  | supplyStart (inp : StartInputs)
  | powerStart (inp : StartInputs)
  | bodyCharacter (l : CLine) (c : Byte)
deriving DecidableEq, Repr

end Sys2Proof
end

