-- ==== Sys2Proof/Decode.lean ====
section
/-!
DEFINITION. The command that a word of the table's bits spells. The table gives no row any bits ("fields": []),
so no word spells a command (log 34).
-/
namespace Sys2Proof

/-- The rows of spec/opcode_table.json that give bits: none. A row would be its width, mask, pattern and command. -/
def bitRows : List (Nat × Nat × Nat × Instr) := []

/-- The command whose row matches the word. -/
def decodeTableWord (nbits w : Nat) : Option Instr :=
  (bitRows.find? fun r => r.1 == nbits && (w &&& r.2.1) == r.2.2.1).map fun r => r.2.2.2

end Sys2Proof
end

