-- ==== Sys2Proof/Config.lean ====
section
/-!
DEFINITION. What one part fixes: the lengths of its timers and steps in ticks of 10 microseconds, the capacities
of its stores, and the free values the spec leaves open.
-/
namespace Sys2Proof.Config

/-- Ticks of 10 microseconds in one millisecond (R77). -/
def ms : Nat := 100

/-- Assembly deadline, 2 s (R23). -/
def deadline : Nat := 2000 * ms
/-- Result watch, 0.3 ms (R44). -/
def resultWatch : Nat := 30
/-- Spin-up limit, 8 s (R81). -/
def spinupLimit : Nat := 8000 * ms
/-- Stall limit, 300 ms (R82). -/
def stallLimit : Nat := 300 * ms
/-- Unlock limit, 2 s (R82). -/
def unlockLimit : Nat := 2000 * ms
/-- Recharge watch, 150 ms (R112). -/
def rechargeWatch : Nat := 150 * ms
/-- Starvation timer, 5 s (R155). -/
def starvation : Nat := 5000 * ms
/-- Homing limit, 6 s (R124). -/
def homingLimit : Nat := 6000 * ms
/-- One minute of the park delay (R162). -/
def minute : Nat := 60000 * ms

/-- Carriage step, 0.25 ms, and settle, 2 ms (Table 7-1). -/
def carriageStep : Nat := 25
def carriageSettle : Nat := 2 * ms
/-- Deflector track step, 1.5 ms, rise step, 0.5 ms, and settle, 1.0 ms (Table 7-1). -/
def trackStep : Nat := 150
def riseStep : Nat := 50
def deflectorSettle : Nat := 1 * ms
/-- Turret step, 40 ms, and settle, 20 ms (Table 7-1). -/
def turretStep : Nat := 40 * ms
def turretSettle : Nat := 20 * ms
/-- Film step, 0.2 ms, and cut, 300 ms (Table 7-1). -/
def filmStep : Nat := 20
def cutTime : Nat := 300 * ms

/-- Cells of the pool and line records (R20, R21). -/
def poolCells : Nat := 4096
def lineRecords : Nat := 64
/-- Records of an event queue (R196). -/
def queueCap : Nat := 32
/-- Entries of a map slot (R1). -/
def mapCap : Nat := 760
/-- Live jobs (R137). -/
def jobCap : Nat := 8
/-- Results of a monitor window (R103). -/
def windowCap : Nat := 32
/-- Counts of one revolution (R72). -/
def countsPerRev : Nat := 2880
/-- The last carriage position (Table 1-4). -/
def carriageMax : Nat := 14399
/-- The head margin and the longest advance of a galley close (R48, R132). -/
def headMargin : Nat := 720
/-- FILM_LOW is posted below this (R130). -/
def filmLow : Nat := 14400

/-- FREE VALUE (log 24). The n-th byte of a REPORT that no rule gives a value: a search field with no search, the
target rise with no move. Nothing is known of it. -/
opaque freeByte : Nat → Byte

/-- FREE VALUE (log 24). Whether a time that is no whole number of the report's units is reported rounded up
(true) or down (false), for the times R90, R116 and R161 give no rounding for. -/
opaque partUnitUp : Nat → Bool

end Sys2Proof.Config
end

