-- ==== Sys2Proof/Machine/State.lean ====
section
/-!
DEFINITION. Everything the part holds, as plain data, block by block (Table 1-1), and the machine after a power
start. Absent things are `none`, a stopped timer is `none`, and a running timer is the ticks of 10 microseconds
it has left.
-/
namespace Sys2Proof.Machine

/-! ### Names of states, causes and kinds -/

/-- Unit states, in the order of R162. -/
inductive UnitState where
  | parked | spinUp | identify | ready | exposing | discChange | faulted
deriving DecidableEq, Repr

/-- Engine states, in the order of R44. -/
inductive EngineState where
  | idle | prepare | move | flash | waitFilm | waitTrack | closing
deriving DecidableEq, Repr

/-- Trim states, in the order of R91. -/
inductive TrimState where
  | untrimmed | queued | searching | trimmed | unusable
deriving DecidableEq, Repr

/-- Bank states, in the order of R109. -/
inductive BankState where
  | drained | charging | ready | heavyReady
deriving DecidableEq, Repr

/-- A leg of homing: stepping out of an active sensor, or seeking it (R124). -/
inductive HomeLeg where
  | out | seek
deriving DecidableEq, Repr

/-- Activities of a mechanism, in the order of Table 7-2. -/
inductive Activity where
  | atRest | stepping | settling | homing (leg : HomeLeg)
deriving DecidableEq, Repr

/-- Carriage directions and sweep directions (R47, R120). -/
inductive Dir where
  | ascending | descending
deriving DecidableEq, Repr

/-- A step of the deflector (R122). -/
inductive DefStep where
  | trackUp | trackDown | riseUp | riseDown
deriving DecidableEq, Repr

/-- Direction of a set line (Table 2-2). -/
inductive Direction where
  | ltr | rtl
deriving DecidableEq, Repr

/-- Job classes in ascending rank (R137). -/
inductive JobClass where
  | routine | priority | bulletin
deriving DecidableEq, Repr

/-- Job states, in the order of R138. -/
inductive JobState where
  | queued | active | suspended | held
deriving DecidableEq, Repr

/-- Suspension reasons, in the order of Table 8-1. -/
inductive SuspendReason where
  | preempted | starved | fault | held
deriving DecidableEq, Repr

/-- Causes of abandonment, in the order R67 lists them (log 31). -/
inductive AbandonCause where
  | cancel | fault | stuck | reset
deriving DecidableEq, Repr

/-- Reasons of ASSEMBLY_DROPPED, in the order of Table 2-3. -/
inductive DropReason where
  | timeout | replaced | lineBreak | lineReset | cancel | failed
deriving DecidableEq, Repr

/-- Start causes (R162). -/
inductive StartCause where
  | power | supply | message | panel
deriving DecidableEq, Repr

/-- READY lamp sources (R176). -/
inductive ReadySource where
  | lineA | lineB | either | both
deriving DecidableEq, Repr

/-- The faults handed to Spin Control (Table 9-3). -/
inductive FaultKind where
  | charge | stall | spinup | speed | encoder | id | home
deriving DecidableEq, Repr

/-- Supply monitor (R162). -/
inductive Supply where
  | normal | low
deriving DecidableEq, Repr

/-- Refusal reasons, in the order of Table 11-2 and its step 6 (R202). -/
inductive Reason where
  | check | unknownKind | malformed | notPassed | notOwner | noJob | idInUse | tableFull | noMap | noSlot
  | inUse | sequence | full | noGlyph | overset | range | count | state
deriving DecidableEq, Repr

/-! ### Events and replies -/

/-- An event record (R196), with the detail fields of Table 12-5. -/
inductive Event where
  | lineSet (job line misreg deferral : Nat)
  | lineAbandoned (job line : Nat) (cause : AbandonCause) (stops misreg deferral : Nat) (track : Option Track)
  | assemblyDropped (job line : Nat) (reason : DropReason)
  | jobDone (job final : Nat)
  | jobCancelled (job committed setCount : Nat)
  | jobFailed (job : Nat) (track : Track) (committed setCount : Nat)
  | jobSuspended (job : Nat) (reason : SuspendReason) (committed setCount : Nat)
  | jobResumed (job : Nat) (reason : Option SuspendReason) (setCount : Nat)
  | galleyClosed (job steps : Nat) (cut : Bool) (remaining : Nat)
  | filmLow (remaining : Nat)
  | filmOut (job line needed remaining : Nat)
  | discRequest (job requested present : Nat)
  | discMounted (disc : Nat)
  | trackTrimmed (disc : Nat) (track : Track) (code tried misses : Nat)
  | trackUnusable (disc : Nat) (track : Track) (code tried : Nat)
  | fault (kind : FaultKind) (detail : Int)
  | slip (value : Int)
  | lineFault (silent : CLine)
  | start (cause : StartCause)
  | unitReset (cause : StartCause)
  | lineReset
deriving DecidableEq, Repr

/-- An event queue (R196). -/
structure Queue where
  events : List Event
  lost : Bool
deriving DecidableEq, Repr

/-- The status byte's flags (R194). -/
structure Status where
  pass : Bool
  eventsWaiting : Bool
  eventsLost : Bool
  overrun : Bool
  hold : Bool
  faulted : Bool
  discChange : Bool
  filmOut : Bool
deriving DecidableEq, Repr

/-- What a reply carries beyond its status byte (R193). -/
inductive ReplyBody where
  | accepted
  | refused (reason : Reason) (detail : Nat)
  | report (topic : Nat) (data : List Byte)
  | events (records : List Event)
deriving DecidableEq, Repr

/-- A reply (R188, R202). -/
structure Reply where
  station : BitVec 5
  tag : Byte
  status : Status
  body : ReplyBody
deriving DecidableEq, Repr

/-! ### Composing line interfaces (chapter 10) -/

/-- The frame in progress (R180). -/
structure Partial where
  broadcast : Bool
  kind : Option Byte
  tag : Option Byte
  len : Option Byte
  data : List Byte
  check : Word
  checkHi : Option Byte
deriving DecidableEq, Repr

/-- Receiver states (R180); TAKING holds the frame in progress. -/
inductive Rx where
  | silent
  | hunt
  | taking (f : Partial)
  | passing
  | discard
deriving DecidableEq, Repr

/-- An entry of a pending slot (R187). -/
inductive Entry where
  | frame (broadcast : Bool) (kind tag : Byte) (data : List Byte)
  | checkFailed (tag : Byte)
deriving DecidableEq, Repr

/-- What the present spell of spacing has given (R185, log 7). -/
inductive Spell where
  | nothing | broke | silenced
deriving DecidableEq, Repr

/-- A Composing Line Interface (R180). -/
structure Iface where
  station : BitVec 5
  rate : Rate
  rx : Rx
  gap : Option Nat
  pass : Bool
  run : Nat
  slot : Option Entry
  overrun : Bool
  spell : Spell
  tx : Option Reply
deriving DecidableEq, Repr

/-! ### Glyph Map Store and trim records (chapters 1 and 5) -/

/-- A map entry (Table 1-9). -/
structure MapEntry where
  font : Nat
  code : Nat
  track : Track
  position : Nat
  heavy : Bool
deriving DecidableEq, Repr

/-- The prior state and prior code of a QUEUED or SEARCHING record (R91). -/
structure Prior where
  state : TrimState
  code : Nat
deriving DecidableEq, Repr

/-- A trim record (R91). -/
structure TrimRec where
  code : Nat
  state : TrimState
  prior : Option Prior
deriving DecidableEq, Repr

/-- An IN_USE map slot (R1). The entries stand sorted by key; the per-track counts are computed from them. -/
structure MapSlot where
  disc : Nat
  entries : List MapEntry
  trims : Oct TrimRec
deriving DecidableEq, Repr

/-! ### Line Store (chapter 2) -/

/-- A sort as received (Table 2-1). -/
structure SetSort where
  font : Nat
  code : Nat
  advance : Nat
  rise : Int
  reversed : Bool
deriving DecidableEq, Repr

/-- The resolution commit writes into a cell (R18). -/
inductive Resolution where
  | space
  | placed (track : Track) (position : Nat) (heavy : Bool) (x : Nat)
deriving DecidableEq, Repr

/-- A held cell of a committed line (R18, R20). -/
structure Cell where
  glyph : SetSort
  res : Resolution
deriving DecidableEq, Repr

/-- A line header (Table 2-2). -/
structure Header where
  job : Nat
  line : Nat
  direction : Direction
  lens : Nat
  leading : Nat
  indent : Nat
  measure : Nat
  count : Nat
deriving DecidableEq, Repr

/-- An assembly context with its ASSEMBLING record (R21, R23). The received count is the number of sorts. -/
structure Assembly where
  header : Header
  sorts : List SetSort
  deadline : Nat
deriving DecidableEq, Repr

/-- A COMMITTED or CURRENT line record (R21). -/
structure LineRecord where
  header : Header
  origin : CLine
  cells : List Cell
  current : Bool
deriving DecidableEq, Repr

/-- The Line Store (R20 to R23). -/
structure LineStore where
  freeCells : Nat
  assembly : Pair (Option Assembly)
  lines : List LineRecord
deriving DecidableEq, Repr

/-! ### Job Table and Galley Sequencer (chapter 8) -/

/-- A job record (Table 8-1). -/
structure Job where
  number : Nat
  cls : JobClass
  disc : Nat
  owner : CLine
  cut : Bool
  final : Option Nat
  committed : Nat
  setCount : Nat
  order : Nat
  state : JobState
  held : Bool
  started : Bool
  reason : Option SuspendReason
deriving DecidableEq, Repr

/-- The sequencer's own state (R140, R149, R155). -/
structure Seq where
  openCounter : Nat
  starve : Option Nat
  grace : Bool
  pendingSel : Bool
deriving DecidableEq, Repr

/-! ### Exposure engine (chapter 3) -/

/-- A stop entry (R46). -/
structure StopEntry where
  index : Nat
  track : Track
  position : Nat
  rise : Int
  heavy : Bool
deriving DecidableEq, Repr

/-- A stop (R46). -/
structure Stop where
  x : Nat
  entries : List StopEntry
deriving DecidableEq, Repr

/-- An item of the flash ring (R51). -/
inductive Item where
  | exposure (e : StopEntry) (target deferred : Nat)
  | test (track : Track) (target : Nat)
deriving DecidableEq, Repr

/-- Whose flash the result watch belongs to (R59, R60, R67, R99): an exposure of a track, counted for the line or
not, or a test flash, counted for the search or not. -/
inductive WatchOf where
  | exposure (track : Track) (forLine : Bool)
  | test (track : Track) (counts : Bool)
deriving DecidableEq, Repr

/-- An open result watch (R59). -/
structure Watch where
  of : WatchOf
  hit : Bool
  left : Nat
deriving DecidableEq, Repr

/-- Phases of a galley close (R132). -/
inductive ClosePhase where
  | ordered | advancing | cutting
deriving DecidableEq, Repr

/-- A galley close (R132, R133): the job it names with its owner line, and the steps advanced. -/
structure Close where
  job : Option (Nat × CLine)
  phase : ClosePhase
  steps : Nat
deriving DecidableEq, Repr

/-- The current line's job and line number (R44). -/
structure LineRef where
  job : Nat
  line : Nat
deriving DecidableEq, Repr

/-- The exposure engine (R44). The compare channel stands in `Disc`; the sweep is none until a line is handed over
(Table 3-6). -/
structure Engine where
  state : EngineState
  current : Option LineRef
  stops : List Stop
  sweep : Option Dir
  stopNo : Nat
  ring : List Item
  watch : Option Watch
  stuck : Nat
  misreg : Nat
  deferral : Nat
  firedSinceIndex : Bool
  close : Option Close
deriving DecidableEq, Repr

/-! ### Disc Timing Unit (chapter 4) -/

/-- The Disc Timing Unit (R72 to R87). -/
structure Disc where
  counter : Int
  valid : Bool
  period : Nat
  lastCapture : Int
  lastPeriod : Nat
  locked : Bool
  lockRun : Nat
  slipCount : Nat
  slipMark : Bool
  reached : Bool
  spinup : Option Nat
  stall : Option Nat
  unlock : Option Nat
  samples : List Nat
  channel : Option Nat
deriving DecidableEq, Repr

/-! ### Registration Monitor and Trim Unit (chapter 5) -/

/-- Trim limits (Table 5-4). -/
structure Limits where
  floor : Nat
  ceiling : Nat
  dwell : Nat
  searchMiss : Nat
  monitorMiss : Nat
deriving DecidableEq, Repr

/-- The search state (R98). -/
structure Search where
  track : Track
  code : Nat
  tried : Nat
  limit : Nat
  dwell : Nat
  missLimit : Nat
  fired : Nat
  misses : Nat
deriving DecidableEq, Repr

/-- The Trim Unit; a window is a list of results, oldest first, true for a miss (R103). -/
structure Trim where
  limits : Limits
  queue : List Track
  queueDisc : Nat
  search : Option Search
  windows : Oct (List Bool)
deriving DecidableEq, Repr

/-! ### Flash Bank Monitor (chapter 6) -/

/-- The Flash Bank Monitor (R109); recharge times in units of 0.1 ms. -/
structure Bank where
  set : Nat
  qualMs : Nat
  level : Nat
  readyRun : Nat
  heavyRun : Nat
  state : BankState
  watch : Option Nat
  lastRecharge : Nat
  longestRecharge : Nat
  charger : Bool
  strobeHeld : Bool
deriving DecidableEq, Repr

/-! ### Mechanism Drive (chapter 7) -/

/-- The carriage (R118, R120): `stepDir` is the direction of the step in progress, `left` the ticks left of the
step or settle. -/
structure Carriage where
  position : Nat
  dir : Dir
  takeUp : Nat
  act : Activity
  target : Option Nat
  stepDir : Dir
  left : Nat
  phase : Nat
deriving DecidableEq, Repr

/-- The deflector (R118, R122); `homingRise` tells the rise phase of a homing. -/
structure Deflector where
  track : Nat
  rise : Int
  act : Activity
  target : Option (Track × Int)
  step : DefStep
  homingRise : Bool
  left : Nat
  phase : Nat
deriving DecidableEq, Repr

/-- The lens turret (R118, R123). -/
structure Turret where
  position : Nat
  act : Activity
  target : Option Nat
  forward : Bool
  left : Nat
  phase : Nat
deriving DecidableEq, Repr

/-- The film state (R127) and the advance in progress, in steps left (R126). -/
structure Film where
  remaining : Nat
  load : Nat
  galleyOpen : Bool
  lowArm : Bool
  low : Bool
  out : Bool
  advance : Option Nat
  left : Nat
  phase : Nat
deriving DecidableEq, Repr

/-- The Mechanism Drive (chapter 7). -/
structure Drive where
  carriage : Carriage
  deflector : Deflector
  turret : Turret
  film : Film
  held : Option (Track × Int)
  homingDone : Bool
  limitC : Option Nat
  limitD : Option Nat
  limitT : Option Nat
  cutLeft : Nat
  sensors : Sensors
  patternsOn : Bool
deriving DecidableEq, Repr

/-! ### Spin Control and Operator Panel (chapter 9) -/

/-- The last fault (R162). -/
structure FaultRec where
  kind : FaultKind
  detail : Int
deriving DecidableEq, Repr

/-- Spin Control and the panel's READY source (R162, R176). -/
structure Spin where
  unit : UnitState
  hold : Bool
  parkDelay : Nat
  parkTimer : Option Nat
  mounted : Nat
  requested : Option Nat
  present : Nat
  cause : StartCause
  lastFault : Option FaultRec
  supply : Supply
  motor : Bool
  readySource : ReadySource
deriving DecidableEq, Repr

/-! ### The whole part -/

/-- The part's state, the queue of commands that wait, and the counter that picks the next free value (log 24). -/
structure State where
  iface : Pair Iface
  queues : Pair Queue
  maps : Quad (Option MapSlot)
  store : LineStore
  jobs : List Job
  seq : Seq
  engine : Engine
  disc : Disc
  trim : Trim
  bank : Bank
  drive : Drive
  spin : Spin
  pending : List Instr
  freeCount : Nat
deriving DecidableEq, Repr

/-- Reasons the machine could stop with a fault: none. Every fault of the photo unit is an effect on State (R170),
and no command stops the part. Nothing raises a value of this type (safe: there is none). -/
inductive Fault where
deriving DecidableEq, Repr

/-- Reasons a command could have no meaning. -/
inductive Refusal where
  /-- Raised by exec's arm of a command that has no meaning yet (safe: no claim about it can be proved). -/
  | notModelled (mnemonic : String)
deriving DecidableEq, Repr

/-! ### Values after a power start, block by block -/

/-- An interface after a start, with its straps (R190). -/
def Iface.started (station : BitVec 5) (rate : Rate) : Iface :=
  { station := station, rate := rate, rx := .hunt, gap := none, pass := false, run := 0, slot := none,
    overrun := false, spell := .nothing, tx := none }

/-- Table 2-5. -/
def LineStore.started : LineStore :=
  { freeCells := Config.poolCells, assembly := ⟨none, none⟩, lines := [] }

/-- Table 8-8. -/
def Seq.started : Seq := { openCounter := 0, starve := none, grace := false, pendingSel := false }

/-- Table 3-6. -/
def Engine.started : Engine :=
  { state := .idle, current := none, stops := [], sweep := none, stopNo := 0, ring := [], watch := none,
    stuck := 0, misreg := 0, deferral := 0, firedSinceIndex := false, close := none }

/-- Table 4-5. -/
def Disc.started : Disc :=
  { counter := 0, valid := false, period := 0, lastCapture := 0, lastPeriod := 0, locked := false, lockRun := 0,
    slipCount := 0, slipMark := false, reached := false, spinup := none, stall := none, unlock := none,
    samples := [], channel := none }

/-- Table 5-3. -/
def Trim.started : Trim :=
  { limits := { floor := 4, ceiling := 12, dwell := 4, searchMiss := 0, monitorMiss := 3 }, queue := [],
    queueDisc := 0, search := none, windows := Oct.fill [] }

/-- Table 6-4. -/
def Bank.started : Bank :=
  { set := 1, qualMs := 1, level := 0, readyRun := 0, heavyRun := 0, state := .drained, watch := none,
    lastRecharge := 0, longestRecharge := 0, charger := false, strobeHeld := true }

/-- Table 7-5; the phases are a DESIGN CHOICE (log 6). -/
def Drive.started (sensors : Sensors) : Drive :=
  { carriage := { position := 0, dir := .descending, takeUp := 0, act := .atRest, target := none,
                  stepDir := .descending, left := 0, phase := 0 }
    deflector := { track := 0, rise := 0, act := .atRest, target := none, step := .trackDown, homingRise := false,
                   left := 0, phase := 0 }
    turret := { position := 0, act := .atRest, target := none, forward := false, left := 0, phase := 0 }
    film := { remaining := 0, load := 0, galleyOpen := false, lowArm := true, low := false, out := false,
              advance := none, left := 0, phase := 0 }
    held := none, homingDone := false, limitC := none, limitD := none, limitT := none, cutLeft := 0,
    sensors := sensors, patternsOn := true }

/-- Table 9-5. -/
def Spin.started (cause : StartCause) : Spin :=
  { unit := .parked, hold := false, parkDelay := 10, parkTimer := none, mounted := 0, requested := none,
    present := 0, cause := cause, lastFault := none, supply := .normal, motor := false, readySource := .either }

/-- What the part reads at the start that State.reset stands after. DESIGN CHOICE: both stations strapped 1 at
9600 bit/s (log 4), no home sensor active (log 5). -/
def resetInputs : StartInputs :=
  { stationA := 1, rateA := .r9600, stationB := 1, rateB := .r9600,
    sensors := { carriage := false, deflTrack := false, deflRise := false, turret := false } }

/-- The machine right after a power start (R173): START stands in both queues, no command waits. -/
def State.reset : State :=
  { iface := ⟨Iface.started resetInputs.stationA resetInputs.rateA, Iface.started resetInputs.stationB resetInputs.rateB⟩
    queues := ⟨⟨[.start .power], false⟩, ⟨[.start .power], false⟩⟩
    maps := ⟨none, none, none, none⟩
    store := LineStore.started
    jobs := []
    seq := Seq.started
    engine := Engine.started
    disc := Disc.started
    trim := Trim.started
    bank := Bank.started
    drive := Drive.started resetInputs.sensors
    spin := Spin.started .power
    pending := []
    freeCount := 0 }

end Sys2Proof.Machine
end

