-- ==== Sys2Proof/Machine/Ops.lean ====
section
/-!
DEFINITION. The shared operations over State: one update for each block, posting of events, looking up of slots,
records and jobs, and the passing of time.
-/
namespace Sys2Proof.Machine

/-! ### One update for each block -/

def State.modIface (s : State) (f : Pair Iface → Pair Iface) : State := { s with iface := f s.iface }
def State.modQueues (s : State) (f : Pair Queue → Pair Queue) : State := { s with queues := f s.queues }
def State.modMaps (s : State) (f : Quad (Option MapSlot) → Quad (Option MapSlot)) : State := { s with maps := f s.maps }
def State.modStore (s : State) (f : LineStore → LineStore) : State := { s with store := f s.store }
def State.modJobs (s : State) (f : List Job → List Job) : State := { s with jobs := f s.jobs }
def State.modSeq (s : State) (f : Seq → Seq) : State := { s with seq := f s.seq }
def State.modEngine (s : State) (f : Engine → Engine) : State := { s with engine := f s.engine }
def State.modDisc (s : State) (f : Disc → Disc) : State := { s with disc := f s.disc }
def State.modTrim (s : State) (f : Trim → Trim) : State := { s with trim := f s.trim }
def State.modBank (s : State) (f : Bank → Bank) : State := { s with bank := f s.bank }
def State.modDrive (s : State) (f : Drive → Drive) : State := { s with drive := f s.drive }
def State.modSpin (s : State) (f : Spin → Spin) : State := { s with spin := f s.spin }

/-! ### Event queues (R196) -/

/-- An event joins the end of a queue that holds fewer than 32, and is lost otherwise (R196). -/
def Queue.post (q : Queue) (e : Event) : Queue :=
  if q.events.length < Config.queueCap then { q with events := q.events ++ [e] } else { q with lost := true }

/-- An empty queue with its lost flag clear (R199). -/
def Queue.empty : Queue := { events := [], lost := false }

/-- Posts an event to the queue of one composing line (R198). -/
def post (l : CLine) (e : Event) (s : State) : State :=
  s.modQueues fun q => q.set l ((q.get l).post e)

/-- Posts an event to both queues; each takes it or loses it by itself (R196). -/
def postBoth (e : Event) (s : State) : State := post .b e (post .a e s)

/-! ### Supply (R173) -/

/-- Does `f` unless the supply monitor is LOW, when no event, message or key is taken (R173, log 28). -/
def powered (s : State) (f : State → State) : State :=
  match s.spin.supply with
  | .low => s
  | .normal => f s

/-! ### Unit states -/

/-- The spinning states (R74, R162). -/
def UnitState.spinning : UnitState → Bool
  | .spinUp | .identify | .ready | .exposing => true
  | .parked | .discChange | .faulted => false

/-- The states in which the stall limit runs (R82). -/
def UnitState.stallRuns : UnitState → Bool
  | .identify | .ready | .exposing => true
  | .parked | .spinUp | .discChange | .faulted => false

/-! ### Jobs (R137) -/

def findJob (jobs : List Job) (n : Nat) : Option Job := jobs.find? fun j => j.number == n

/-- Changes the record of one job. -/
def updateJob (n : Nat) (f : Job → Job) (s : State) : State :=
  s.modJobs fun js => js.map fun j => if j.number = n then f j else j

/-- Removes the record of one job (R137). -/
def removeJob (n : Nat) (s : State) : State := s.modJobs fun js => js.filter fun j => j.number != n

/-- The ACTIVE job, if any (R138). -/
def activeJob (s : State) : Option Job := s.jobs.find? fun j => j.state == .active

/-- A live job names a disc (R6). -/
def discNamed (jobs : List Job) (d : Nat) : Bool := jobs.any fun j => j.disc == d

/-! ### Map slots and trim records (R1, R91) -/

/-- The IN_USE slot that holds a disc. -/
def slotFor (maps : Quad (Option MapSlot)) (d : Nat) : Option MapSlot :=
  (maps.toList.filterMap id).find? fun m => m.disc == d

/-- Changes the slot that holds a disc. -/
def updateSlot (maps : Quad (Option MapSlot)) (d : Nat) (f : MapSlot → MapSlot) : Quad (Option MapSlot) :=
  maps.map fun o => o.map fun m => if m.disc = d then f m else m

/-- A new record: UNTRIMMED with code 8 (R8). -/
def TrimRec.fresh : TrimRec := { code := 8, state := .untrimmed, prior := none }

/-- The record of a track in the mounted disc's slot, as the exposure engine reads it (R91). -/
def mountedRec (s : State) (t : Track) : TrimRec :=
  match slotFor s.maps s.spin.mounted with
  | some m => m.trims.get t
  | none => TrimRec.fresh

/-- The record of a track in the queue disc's slot, as the Trim Unit holds it (R95). -/
def queueRec (s : State) (t : Track) : TrimRec :=
  match slotFor s.maps s.trim.queueDisc with
  | some m => m.trims.get t
  | none => TrimRec.fresh

/-- The track waits for its search or is being searched. -/
def TrimState.inSearch : TrimState → Bool
  | .queued | .searching => true
  | .untrimmed | .trimmed | .unusable => false

/-! ### The passing of time (log 2) -/

/-- A running timer has one tick less; a stopped timer stays stopped. -/
def tickTimer (t : Option Nat) : Option Nat := t.map fun n => n - 1

/-- A timer has run out: it runs, and no tick of it is left (log 3). A timer that was started again has not. -/
def runOut (t : Option Nat) : Bool := t == some 0

def Iface.tick (i : Iface) : Iface := { i with gap := tickTimer i.gap }

def Assembly.tick (a : Assembly) : Assembly := { a with deadline := a.deadline - 1 }

def LineStore.tick (st : LineStore) : LineStore :=
  { st with assembly := ⟨st.assembly.a.map Assembly.tick, st.assembly.b.map Assembly.tick⟩ }

/-- The period timer stops at 65,535 ticks (R77). -/
def Disc.tick (d : Disc) : Disc :=
  { d with period := min 65535 (d.period + 1), spinup := tickTimer d.spinup, stall := tickTimer d.stall,
           unlock := tickTimer d.unlock }

def Drive.tick (d : Drive) : Drive :=
  { d with carriage := { d.carriage with left := d.carriage.left - 1 }
           deflector := { d.deflector with left := d.deflector.left - 1 }
           turret := { d.turret with left := d.turret.left - 1 }
           film := { d.film with left := d.film.left - 1 }
           limitC := tickTimer d.limitC, limitD := tickTimer d.limitD, limitT := tickTimer d.limitT
           cutLeft := d.cutLeft - 1 }

/-- Ten microseconds pass: every running timer has one tick less, and the period timer one more (log 2). Nothing
else changes; what follows when a timer runs out is a command of its own (log 3). -/
def tick (s : State) : State :=
  powered s fun s =>
    { s with
      iface := ⟨s.iface.a.tick, s.iface.b.tick⟩
      store := s.store.tick
      seq := { s.seq with starve := tickTimer s.seq.starve }
      engine := { s.engine with watch := s.engine.watch.map fun w => { w with left := w.left - 1 } }
      disc := s.disc.tick
      bank := { s.bank with watch := tickTimer s.bank.watch }
      drive := s.drive.tick
      spin := { s.spin with parkTimer := tickTimer s.spin.parkTimer } }

end Sys2Proof.Machine
end

