-- ==== Sys2Proof/Machine/Flags.lean ====
section
/-!
DEFINITION. What the part computes from its state as flags and codes: the frame check, the status byte, the
panel lamps, and the numbers by which enumerated fields are sent.
-/
namespace Sys2Proof.Machine

/-! ### The frame check (R183, R200) -/

/-- One shift of the check register. -/
def crcShift (r : Word) : Word := if r.msb then (r <<< 1) ^^^ 0x1021 else r <<< 1

/-- Takes one byte into the check register. -/
def crcByte (r : Word) (b : Byte) : Word :=
  crcShift (crcShift (crcShift (crcShift (crcShift (crcShift (crcShift (crcShift (r ^^^ (b.zeroExtend 16 <<< 8)))))))))

/-- The register's starting value. -/
def crcStart : Word := 0xFFFF

/-- Takes a list of bytes into the register. -/
def crcBytes (r : Word) (bs : List Byte) : Word := bs.foldl crcByte r

/-! ### The status byte (R194) -/

/-- The flags of a reply built on line `l` now; `lost` is the lost flag it shows. -/
def statusOf (l : CLine) (lost : Bool) (s : State) : Status :=
  { pass := (s.iface.get l).pass
    eventsWaiting := !(s.queues.get l).events.isEmpty
    eventsLost := lost
    overrun := (s.iface.get l).overrun
    hold := s.spin.hold
    faulted := s.spin.unit == .faulted
    discChange := s.spin.unit == .discChange
    filmOut := s.drive.film.out }

/-- The status byte, PASS in bit 7 down to FILM_OUT in bit 0 (R202). -/
def Status.byte (st : Status) : Byte :=
  BitVec.ofNat 8 (st.pass.toNat * 128 + st.eventsWaiting.toNat * 64 + st.eventsLost.toNat * 32
    + st.overrun.toNat * 16 + st.hold.toNat * 8 + st.faulted.toNat * 4 + st.discChange.toNat * 2
    + st.filmOut.toNat)

/-! ### The panel lamps (R176) -/

/-- The READY lamp's source holds. -/
def readySourceHolds (s : State) : Bool :=
  match s.spin.readySource with
  | .lineA => s.iface.a.pass
  | .lineB => s.iface.b.pass
  | .either => s.iface.a.pass || s.iface.b.pass
  | .both => s.iface.a.pass && s.iface.b.pass

/-- The five lamps; the DISC lamp shows its digit. -/
structure Lamps where
  ready : Bool
  disc : Option Nat
  filmSteady : Bool
  filmBlinking : Bool
  hold : Bool
  fault : Bool
deriving DecidableEq, Repr

/-- The lamps follow the state; all are dark while the supply monitor is LOW (R176). -/
def lamps (s : State) : Lamps :=
  match s.spin.supply with
  | .low => { ready := false, disc := none, filmSteady := false, filmBlinking := false, hold := false, fault := false }
  | .normal =>
    { ready := readySourceHolds s && s.spin.unit != .faulted
      disc := if s.spin.unit = .discChange then s.spin.requested else none
      filmSteady := s.drive.film.out
      filmBlinking := s.drive.film.low && !s.drive.film.out
      hold := s.spin.hold
      fault := s.spin.unit == .faulted }

/-- The lamps in a REPORT, bit 0 READY to bit 5 FAULT (Table 12-6). -/
def Lamps.bits (l : Lamps) : Nat :=
  l.ready.toNat + l.disc.isSome.toNat * 2 + l.filmSteady.toNat * 4 + l.filmBlinking.toNat * 8
    + l.hold.toNat * 16 + l.fault.toNat * 32

/-! ### Codes of enumerated fields (R200, R202, R203) -/

/-- Reason codes run from 1 (R202). -/
def Reason.code : Reason → Nat
  | .check => 1
  | .unknownKind => 2
  | .malformed => 3
  | .notPassed => 4
  | .notOwner => 5
  | .noJob => 6
  | .idInUse => 7
  | .tableFull => 8
  | .noMap => 9
  | .noSlot => 10
  | .inUse => 11
  | .sequence => 12
  | .full => 13
  | .noGlyph => 14
  | .overset => 15
  | .range => 16
  | .count => 17
  | .state => 18

/-- Composing lines are A 0 and B 1 (R200). -/
def lineCode : CLine → Nat
  | .a => 0
  | .b => 1

def UnitState.code : UnitState → Nat
  | .parked => 0
  | .spinUp => 1
  | .identify => 2
  | .ready => 3
  | .exposing => 4
  | .discChange => 5
  | .faulted => 6

def EngineState.code : EngineState → Nat
  | .idle => 0
  | .prepare => 1
  | .move => 2
  | .flash => 3
  | .waitFilm => 4
  | .waitTrack => 5
  | .closing => 6

def TrimState.code : TrimState → Nat
  | .untrimmed => 0
  | .queued => 1
  | .searching => 2
  | .trimmed => 3
  | .unusable => 4

def BankState.code : BankState → Nat
  | .drained => 0
  | .charging => 1
  | .ready => 2
  | .heavyReady => 3

def Activity.code : Activity → Nat
  | .atRest => 0
  | .stepping => 1
  | .settling => 2
  | .homing _ => 3

def Rx.code : Rx → Nat
  | .silent => 0
  | .hunt => 1
  | .taking _ => 2
  | .passing => 3
  | .discard => 4

def Dir.code : Dir → Nat
  | .ascending => 0
  | .descending => 1

def JobClass.code : JobClass → Nat
  | .routine => 0
  | .priority => 1
  | .bulletin => 2

def JobState.code : JobState → Nat
  | .queued => 0
  | .active => 1
  | .suspended => 2
  | .held => 3

def SuspendReason.code : SuspendReason → Nat
  | .preempted => 0
  | .starved => 1
  | .fault => 2
  | .held => 3

/-- A reason that is absent is sent as 255 (R200). -/
def suspendCode : Option SuspendReason → Nat
  | none => 255
  | some r => r.code

/-- The order of R67's list (log 31). -/
def AbandonCause.code : AbandonCause → Nat
  | .cancel => 0
  | .fault => 1
  | .stuck => 2
  | .reset => 3

/-- The order of Table 2-3 (R203). -/
def DropReason.code : DropReason → Nat
  | .timeout => 0
  | .replaced => 1
  | .lineBreak => 2
  | .lineReset => 3
  | .cancel => 4
  | .failed => 5

def StartCause.code : StartCause → Nat
  | .power => 0
  | .supply => 1
  | .message => 2
  | .panel => 3

def ReadySource.code : ReadySource → Nat
  | .lineA => 0
  | .lineB => 1
  | .either => 2
  | .both => 3

/-- Event codes of the faults (Table 12-5). -/
def FaultKind.code : FaultKind → Nat
  | .charge => 16
  | .stall => 17
  | .spinup => 18
  | .speed => 19
  | .encoder => 20
  | .id => 22
  | .home => 23

/-- Rates are numbered in ascending bit rate (R200). -/
def rateCode : Rate → Nat
  | .r9600 => 0
  | .r19200 => 1
  | .r38400 => 2
  | .r76800 => 3

/-- The detail of HOME_FAULT (R125). -/
def mechCode : Mech → Nat
  | .carriage => 1
  | .deflector => 2
  | .turret => 3

end Sys2Proof.Machine
end

