-- ==== Sys2Proof/Machine/Bank.lean ====
section
/-!
DEFINITION. The Flash Bank Monitor (chapter 6): judging a sample, the flash, and BANK-SET's effect.
-/
namespace Sys2Proof.Machine

/-- Drop thresholds (Table 6-1). -/
def dropLevel : Nat → Nat
  | 0 => 150
  | 1 => 160
  | 2 => 170
  | _ => 180

/-- Ready thresholds (Table 6-1). -/
def readyLevel : Nat → Nat
  | 0 => 170
  | 1 => 180
  | 2 => 190
  | _ => 200

/-- Heavy thresholds (Table 6-1). -/
def heavyLevel : Nat → Nat
  | 0 => 200
  | 1 => 210
  | 2 => 220
  | _ => 230

/-- The qualification count: 3 samples for 1 ms, 7 for 3 ms (R109). -/
def Bank.qualCount (b : Bank) : Nat := if b.qualMs = 1 then 3 else 7

/-- The bank allows a flash of an item that is not heavy (R109). -/
def BankState.isReady : BankState → Bool
  | .ready | .heavyReady => true
  | .drained | .charging => false

/-- The runs and the state after one sample (Table 6-2). -/
def Bank.judge (b : Bank) (level : Nat) : Bank :=
  let n := b.qualCount
  if level < dropLevel b.set then
    { b with level := level, readyRun := 0, heavyRun := 0, state := .drained }
  else if level < readyLevel b.set then
    { b with level := level, readyRun := 0, heavyRun := 0, state := .charging }
  else
    let r := min n (b.readyRun + 1)
    let h := if level < heavyLevel b.set then 0 else min n (b.heavyRun + 1)
    { b with level := level, readyRun := r, heavyRun := h
             state := if r = n then (if h = n then .heavyReady else .ready) else .charging }

/-- The time since the flash, in units of 0.1 ms rounded up, from the ticks the watch has left (R110). -/
def rechargeTime (left : Nat) : Nat := (Config.rechargeWatch - left + 9) / 10

/-- A sample (R110): judged, and a running recharge watch stops when the bank becomes READY. -/
def Bank.sample (b : Bank) (level : Nat) : Bank :=
  let b1 := b.judge level
  match b.watch with
  | none => b1
  | some left =>
    if !b.state.isReady && b1.state.isReady then
      { b1 with watch := none, lastRecharge := rechargeTime left
                longestRecharge := max b.longestRecharge (rechargeTime left) }
    else b1

/-- A flash has been taken (R112). -/
def Bank.flash (b : Bank) : Bank :=
  { b with readyRun := 0, heavyRun := 0, state := .charging, watch := some Config.rechargeWatch }

/-- An accepted BANK-SET (R111): the bank must qualify afresh; the recharge watch is not touched. -/
def Bank.select (b : Bank) (set qualMs : Nat) : Bank :=
  { b with set := set, qualMs := qualMs, readyRun := 0, heavyRun := 0
           state := if b.state.isReady then .charging else b.state }

end Sys2Proof.Machine
end

