-- ==== Sys2Proof/Machine/Operands.lean ====
section
/-!
DEFINITION. Reading message bodies: the kinds and lengths of Table 12-2, the sort and map entry of Table 12-3, and
the structural and range checks that look at the body alone.
-/
namespace Sys2Proof.Machine

/-! ### Kinds (Table 12-2) -/

/-- The 21 kinds of message (Table 11-1). -/
inductive MsgKind where
  | enquire | poll | jobOpen | jobEnd | jobCancel | jobHold | jobRelease | lineOpen | linePart | mapLoad
  | mapClear | trimRestart | trimLimits | bankSet | filmSet | spinSet | unitHold | unitRun | restart | panelSet
  | reset
deriving DecidableEq, Repr

/-- The kind byte of a message (Table 12-2). -/
def MsgKind.code : MsgKind → Nat
  | .enquire => 0x01
  | .poll => 0x02
  | .jobOpen => 0x03
  | .jobEnd => 0x04
  | .jobCancel => 0x05
  | .jobHold => 0x06
  | .jobRelease => 0x07
  | .lineOpen => 0x08
  | .linePart => 0x09
  | .mapLoad => 0x0A
  | .mapClear => 0x0B
  | .trimRestart => 0x0C
  | .trimLimits => 0x0D
  | .bankSet => 0x0E
  | .filmSet => 0x0F
  | .spinSet => 0x10
  | .unitHold => 0x11
  | .unitRun => 0x12
  | .restart => 0x13
  | .panelSet => 0x14
  | .reset => 0x15

/-- A kind byte is one of the 21 (R192). -/
def knownKind (k : Byte) : Bool := 1 ≤ k.toNat && k.toNat ≤ 0x15

/-! ### Fields -/

/-- The byte at a place of the body, as a number. -/
def byteAt (d : List Byte) (i : Nat) : Nat := (d.getD i 0).toNat

/-- Two bytes, high byte first (R200). -/
def u16At (d : List Byte) (i : Nat) : Nat := byteAt d i * 256 + byteAt d (i + 1)

/-- Three bytes, high byte first (R200). -/
def u24At (d : List Byte) (i : Nat) : Nat := u16At d i * 256 + byteAt d (i + 2)

/-- A flag byte: any non-zero value is yes (R200). -/
def flagAt (d : List Byte) (i : Nat) : Bool := byteAt d i != 0

/-- A signed byte, two's complement (R200). -/
def signed8 (n : Nat) : Int := if n < 128 then (n : Int) else (n : Int) - 256

/-- A track number, if it lies within 0 to 7. -/
def trackOf? (n : Nat) : Option Track := if h : n < 8 then some ⟨n, h⟩ else none

/-! ### Sorts (Table 12-3, R201) -/

/-- One sort of six bytes. -/
def sortAt (d : List Byte) (i : Nat) : SetSort :=
  { font := byteAt d i % 128
    code := u16At d (i + 1)
    advance := u16At d (i + 3)
    rise := signed8 (byteAt d (i + 5))
    reversed := 128 ≤ byteAt d i }

/-- `n` sorts from place `i` on. -/
def sortsFrom (d : List Byte) (i : Nat) : Nat → List SetSort
  | 0 => []
  | n + 1 => sortAt d i :: sortsFrom d (i + 6) n

/-- A sort's font, rise and advance lie within Table 2-1 (R27). -/
def SetSort.inRange (g : SetSort) : Bool :=
  1 ≤ g.font && g.font ≤ 63 && decide (-7 ≤ g.rise) && decide (g.rise ≤ 7) && g.advance ≤ 4095

/-- The place in a list of the first element that fails a check. -/
def firstFailing {α : Type} (ok : α → Bool) : List α → Nat → Option Nat
  | [], _ => none
  | x :: xs, i => if ok x then firstFailing ok xs (i + 1) else some i

/-! ### Map entries (Table 12-3, R4) -/

/-- A map entry as received, before its range check. -/
structure RawEntry where
  font : Nat
  code : Nat
  track : Nat
  position : Nat
  heavy : Bool
deriving DecidableEq, Repr

/-- One entry of five bytes; bit 7 of byte 3 is the heavy flag whatever the track bits hold (R201). -/
def entryAt (d : List Byte) (i : Nat) : RawEntry :=
  { font := byteAt d i
    code := u16At d (i + 1)
    track := byteAt d (i + 3) % 128
    position := byteAt d (i + 4)
    heavy := 128 ≤ byteAt d (i + 3) }

/-- `n` entries from place `i` on. -/
def entriesFrom (d : List Byte) (i : Nat) : Nat → List RawEntry
  | 0 => []
  | n + 1 => entryAt d i :: entriesFrom d (i + 5) n

/-- The entry's fields lie within Table 1-9 (R4). -/
def RawEntry.inRange (e : RawEntry) : Bool :=
  1 ≤ e.font && e.font ≤ 63 && 1 ≤ e.code && e.track ≤ 7 && 1 ≤ e.position && e.position ≤ 95

/-- The key (font, code) of an entry (R2). -/
def RawEntry.key (e : RawEntry) : Nat × Nat := (e.font, e.code)
def MapEntry.key (e : MapEntry) : Nat × Nat := (e.font, e.code)

/-- The entry as the store keeps it, once its range check has passed. -/
def RawEntry.entry (e : RawEntry) : Option MapEntry :=
  (trackOf? e.track).map fun t =>
    { font := e.font, code := e.code, track := t, position := e.position, heavy := e.heavy }

/-- The index of the first entry whose key an earlier entry of the message has (R4, log 27). -/
def firstRepeat (seen : List (Nat × Nat)) : List RawEntry → Nat → Option Nat
  | [], _ => none
  | e :: es, i => if seen.contains e.key then some i else firstRepeat (e.key :: seen) es (i + 1)

/-! ### Line headers (Table 2-2, R19) -/

/-- The header of a LINE-OPEN body whose range check has passed. -/
def headerOf (d : List Byte) : Header :=
  { job := byteAt d 0
    line := u16At d 1
    direction := if byteAt d 3 = 0 then .ltr else .rtl
    lens := byteAt d 4
    leading := u16At d 5
    indent := u16At d 7
    measure := u16At d 9
    count := byteAt d 11 }

/-- The detail of a header out of range: the first failing field in the order of Table 2-2 (R19). -/
def headerFault (d : List Byte) : Option Nat :=
  if 1 < byteAt d 3 then some 1
  else if 7 < byteAt d 4 then some 2
  else if 2880 < u16At d 5 then some 3
  else if 14399 < u16At d 7 then some 4
  else if u16At d 9 < 1 || 14400 < u16At d 9 || 14400 < u16At d 7 + u16At d 9 then some 5
  else if byteAt d 11 < 1 || 240 < byteAt d 11 then some 6
  else none

/-! ### The MALFORMED step (R192, R201) -/

/-- The body length of a kind; for MAP-LOAD and LINE-PART the count in the body fixes it (Table 12-2). -/
def MsgKind.bodyLength (k : MsgKind) (d : List Byte) : Nat :=
  match k with
  | .enquire => 2
  | .poll => 0
  | .jobOpen => 4
  | .jobEnd => 3
  | .jobCancel => 1
  | .jobHold => 1
  | .jobRelease => 1
  | .lineOpen => 12
  | .linePart => 5 + 6 * byteAt d 4
  | .mapLoad => 2 + 5 * byteAt d 1
  | .mapClear => 1
  | .trimRestart => 1
  | .trimLimits => 5
  | .bankSet => 2
  | .filmSet => 3
  | .spinSet => 1
  | .unitHold => 0
  | .unitRun => 0
  | .restart => 0
  | .panelSet => 1
  | .reset => 1

/-- The part would pass the declared sort count of the assembly it names (R27). -/
def partPasses (asm : Option Assembly) (d : List Byte) : Bool :=
  match asm with
  | some a =>
    a.header.job == byteAt d 0 && a.header.line == u16At d 1 && decide (a.header.count < byteAt d 3 + byteAt d 4)
  | none => false

/-- The detail of a MALFORMED body, if it is malformed (R4, R27, R201). `asm` is the assembly open on the line. -/
def malformed (k : MsgKind) (asm : Option Assembly) (d : List Byte) : Option Nat :=
  if d.length ≠ k.bodyLength d then some 255
  else match k with
    | .mapLoad =>
      if byteAt d 1 < 1 || 49 < byteAt d 1 then some 255 else firstRepeat [] (entriesFrom d 2 (byteAt d 1)) 0
    | .linePart =>
      if byteAt d 4 < 1 || 40 < byteAt d 4 then some 255 else if partPasses asm d then some 255 else none
    | .enquire | .poll | .jobOpen | .jobEnd | .jobCancel | .jobHold | .jobRelease | .lineOpen | .mapClear
    | .trimRestart | .trimLimits | .bankSet | .filmSet | .spinSet | .unitHold | .unitRun | .restart | .panelSet
    | .reset => none

/-- The job a message names for the ownership check (R142). -/
def MsgKind.namesJob : MsgKind → Bool
  | .jobEnd | .jobCancel | .jobHold | .jobRelease | .lineOpen | .linePart => true
  | .enquire | .poll | .jobOpen | .mapLoad | .mapClear | .trimRestart | .trimLimits | .bankSet | .filmSet
  | .spinSet | .unitHold | .unitRun | .restart | .panelSet | .reset => false

/-- The message needs PASS (Table 11-1): all but ENQUIRE, POLL and RESET with scope LINE. -/
def MsgKind.needsPass (k : MsgKind) (d : List Byte) : Bool :=
  match k with
  | .enquire | .poll => false
  | .reset => byteAt d 0 != 1
  | .jobOpen | .jobEnd | .jobCancel | .jobHold | .jobRelease | .lineOpen | .linePart | .mapLoad | .mapClear
  | .trimRestart | .trimLimits | .bankSet | .filmSet | .spinSet | .unitHold | .unitRun | .restart | .panelSet =>
    true

end Sys2Proof.Machine
end

