-- ==== Sys2Proof/Machine/Layout.lean ====
section
/-!
DEFINITION. Resolution, layout and the commit's checks (R29 to R36): runs, pen intervals and carriage positions.
-/
namespace Sys2Proof.Machine

/-- The sum of the advances, spaces included (R30). -/
def totalAdvance (gs : List SetSort) : Nat := (gs.map SetSort.advance).sum

/-- The run flags (R33): a mark takes the flag of the sort before it, and "not reversed" at index 0. -/
def runFlags (before : Bool) : List SetSort → List Bool
  | [] => []
  | g :: gs =>
    let f := if g.advance = 0 then before else g.reversed
    f :: runFlags f gs

/-- Puts a sort in front of the runs that follow it. -/
def addToRuns (g : SetSort) (f : Bool) : List (Bool × List SetSort) → List (Bool × List SetSort)
  | [] => [(f, [g])]
  | (f', gs) :: rs => if f = f' then (f', g :: gs) :: rs else (f, [g]) :: (f', gs) :: rs

/-- The runs of a line: maximal sequences of equal run flag (R33). -/
def runsOf : List (SetSort × Bool) → List (Bool × List SetSort)
  | [] => []
  | (g, f) :: rest => addToRuns g f (runsOf rest)

/-- Where the sorts of a run that is not reversed begin, from the pen on (R34). -/
def normalStarts (pen : Nat) : List SetSort → List Nat
  | [] => []
  | g :: gs => pen :: normalStarts (pen + g.advance) gs

/-- Where the sorts of a reversed run begin, from the far end of its block backward (R35). -/
def reversedStarts (top : Nat) : List SetSort → List Nat
  | [] => []
  | g :: gs => (top - g.advance) :: reversedStarts (top - g.advance) gs

/-- Where the sorts of the runs begin, with the pen moving by each run's width (R34, R35). -/
def startsOf (pen : Nat) : List (Bool × List SetSort) → List Nat
  | [] => []
  | (f, gs) :: rs =>
    (if f then reversedStarts (pen + totalAdvance gs) gs else normalStarts pen gs)
      ++ startsOf (pen + totalAdvance gs) rs

/-- The lower end of each sort's pen interval, in logical order (R33 to R35). -/
def penStarts (gs : List SetSort) : List Nat := startsOf 0 (runsOf (gs.zip (runFlags false gs)))

/-- The carriage x of a sort that occupies [u, u + a] (R36). -/
def carriageX (h : Header) (u a : Nat) : Nat :=
  match h.direction with
  | .ltr => h.indent + u
  | .rtl => h.indent + h.measure - (u + a)

/-- The entry a key names in a slot (R12). -/
def lookup (entries : List MapEntry) (font code : Nat) : Option MapEntry :=
  entries.find? fun e => e.font == font && e.code == code

/-- Resolution in logical order: the resolved entries, or the index of the first key not found (R29). -/
def resolve (entries : List MapEntry) : List SetSort → Nat → Except Nat (List (Option MapEntry))
  | [], _ => .ok []
  | g :: gs, i =>
    if g.code = 0 then
      match resolve entries gs (i + 1) with
      | .ok r => .ok (none :: r)
      | .error j => .error j
    else
      match lookup entries g.font g.code with
      | none => .error i
      | some e =>
        match resolve entries gs (i + 1) with
        | .ok r => .ok (some e :: r)
        | .error j => .error j

/-- The held cells: a space takes the space marker, any other sort its place and carriage x (R18, R32). -/
def cellsOf (h : Header) : List SetSort → List Nat → List (Option MapEntry) → List Cell
  | g :: gs, u :: us, some e :: es =>
    { glyph := g, res := .placed e.track e.position e.heavy (carriageX h u g.advance) } :: cellsOf h gs us es
  | g :: gs, _ :: us, none :: es => { glyph := g, res := .space } :: cellsOf h gs us es
  | _, _, _ => []

/-- A cell's carriage x lies beyond the carriage (R30). -/
def Cell.beyond (c : Cell) : Bool :=
  match c.res with
  | .space => false
  | .placed _ _ _ x => Config.carriageMax < x

/-- What commit answers for a line (R29, R30). -/
inductive CommitResult where
  | noGlyph (index : Nat)
  | overset (total : Nat)
  | cells (cs : List Cell)
deriving DecidableEq, Repr

/-- Resolution, then the check against the measure and the carriage's end (R29, R30). -/
def commitCells (entries : List MapEntry) (h : Header) (gs : List SetSort) : CommitResult :=
  match resolve entries gs 0 with
  | .error i => .noGlyph i
  | .ok es =>
    if h.measure < totalAdvance gs then .overset (totalAdvance gs)
    else
      let cs := cellsOf h gs (penStarts gs) es
      if cs.any Cell.beyond then .overset (totalAdvance gs) else .cells cs

end Sys2Proof.Machine
end

