-- ==== Sys2Proof/Machine/Lines.lean ====
section
/-!
DEFINITION. The Line Store (chapter 2): the pool, assemblies and line records, and what discards and frees them.
-/
namespace Sys2Proof.Machine

/-- Cells of the records and assemblies go back to the pool (R20). -/
def LineStore.release (st : LineStore) (n : Nat) : LineStore := { st with freeCells := st.freeCells + n }

/-- Cells reserved by an assembly context (R20). -/
def reservedBy : Option Assembly → Nat
  | none => 0
  | some a => a.header.count

/-- The end of an assembly context whose record and cells become free (R31, R37). -/
def LineStore.endAssembly (st : LineStore) (l : CLine) : LineStore :=
  { st with assembly := st.assembly.set l none, freeCells := st.freeCells + reservedBy (st.assembly.get l) }

/-- The number of FREE line records (R21). -/
def LineStore.freeRecords (st : LineStore) : Nat :=
  Config.lineRecords - (st.lines.length + st.assembly.a.isSome.toNat + st.assembly.b.isSome.toNat)

/-- The cells held by a list of records (R20). -/
def heldBy (rs : List LineRecord) : Nat := (rs.map fun r => r.header.count).sum

/-- Frees the records that do not meet `keep`, with their held cells (R20, R39). -/
def LineStore.keepLines (st : LineStore) (keep : LineRecord → Bool) : LineStore :=
  { st with lines := st.lines.filter keep, freeCells := st.freeCells + heldBy (st.lines.filter fun r => !keep r) }

/-- The discard of an assembly, telling the front-end why unless the cause is a unit reset (R37). -/
def discardAssembly (l : CLine) (reason : Option DropReason) (s : State) : State :=
  match s.store.assembly.get l with
  | none => s
  | some a =>
    let s1 := s.modStore fun st => st.endAssembly l
    match reason with
    | none => s1
    | some r => post l (.assemblyDropped a.header.job a.header.line r) s1

/-- An assembly belongs to a job. -/
def assemblyOfJob (n : Nat) : Option Assembly → Bool
  | none => false
  | some a => a.header.job == n

/-- Discards a job's open assembly, on whichever line it stands (R39). -/
def discardOfJob (n : Nat) (reason : DropReason) (l : CLine) (s : State) : State :=
  if assemblyOfJob n (s.store.assembly.get l) then discardAssembly l (some reason) s else s

/-- A job's lines are freed: every record of its line list with its cells, and its open assembly (R39). -/
def freeLines (n : Nat) (reason : DropReason) (s : State) : State :=
  let s1 := s.modStore fun st => st.keepLines fun r => r.header.job != n
  discardOfJob n reason .b (discardOfJob n reason .a s1)

/-- The head of a job's line list, its lowest unset line (R22). -/
def headLine (lines : List LineRecord) (n : Nat) : Option LineRecord := lines.find? fun r => r.header.job == n

/-- The CURRENT record (R21). -/
def currentRecord (s : State) : Option LineRecord := s.store.lines.find? fun r => r.current

/-- The sorts' rows of a record that becomes CURRENT, or returns to COMMITTED (R21). -/
def setCurrent (n line : Nat) (cur : Bool) (s : State) : State :=
  s.modStore fun st => { st with lines := st.lines.map fun r =>
    if r.header.job = n ∧ r.header.line = line then { r with current := cur } else r }

/-- The record of a committed line (R32). -/
def recordOf (l : CLine) (a : Assembly) (cs : List Cell) : LineRecord :=
  { header := a.header, origin := l, cells := cs, current := false }

/-- The store takes a committed line at the end of its job's list; the reserved cells become held cells without
moving (R20, R32). -/
def LineStore.commit (st : LineStore) (l : CLine) (a : Assembly) (cs : List Cell) : LineStore :=
  { st with assembly := st.assembly.set l none, lines := st.lines ++ [recordOf l a cs] }

/-- An accepted LINE-OPEN reserves a record and cells and starts the deadline (R26). -/
def LineStore.openLine (st : LineStore) (l : CLine) (h : Header) : LineStore :=
  { st with assembly := st.assembly.set l (some { header := h, sorts := [], deadline := Config.deadline })
            freeCells := st.freeCells - h.count }

end Sys2Proof.Machine
end

