-- ==== Sys2Proof/Machine/Drive.lean ====
section
/-!
DEFINITION. The Mechanism Drive (chapter 7): orders, steps, stops and homing of the carriage, the deflector and
the turret, and the film counter.
-/
namespace Sys2Proof.Machine

/-! ### Pattern generators (R118) -/

/-- The next of the four patterns forward, or the one before (log 6). -/
def nextPhase (phase : Nat) (forward : Bool) : Nat := if forward then (phase + 1) % 4 else (phase + 3) % 4

/-! ### Carriage (R120, R121, R124) -/

/-- A change of position by one step, within 0 to 14,399 (R120). -/
def carriageMoved (d : Dir) (p : Nat) : Nat :=
  match d with
  | .ascending => min Config.carriageMax (p + 1)
  | .descending => p - 1

/-- A step against the engaged direction first engages it (R120). -/
def Carriage.engage (c : Carriage) : Carriage :=
  if c.stepDir = c.dir then c else { c with dir := c.stepDir, takeUp := 6 - c.takeUp }

/-- The count of the carriage step in progress (R120). Here and in the other mechanisms the generator's next pattern is
taken as the step ends, with its count (log 6). -/
def Carriage.countStep (c : Carriage) : Carriage :=
  let e := c.engage
  let f := { e with phase := nextPhase e.phase (e.stepDir == Dir.ascending) }
  if 0 < f.takeUp then { f with takeUp := f.takeUp - 1 } else { f with position := carriageMoved f.dir f.position }

/-- Starts the next step toward `x` (R121). -/
def Carriage.begin (c : Carriage) (x : Nat) : Carriage :=
  { c with act := .stepping, target := some x, left := Config.carriageStep
           stepDir := if c.position < x then .ascending else .descending }

def Carriage.settle (c : Carriage) : Carriage := { c with act := .settling, left := Config.carriageSettle }

/-- A move order (R118, R121); a carriage at rest at `x` ends its move at once. For orders that find the carriage
moving see log 18. -/
def Carriage.order (c : Carriage) (x : Nat) : Carriage :=
  match c.act with
  | .atRest => if c.position = x then c else c.begin x
  | .settling => if c.position = x then { c with target := some x }.settle else c.begin x
  | .stepping => { c with target := some x }
  | .homing _ => c.begin x

/-- A stop (R119): the step in progress is the last. -/
def Carriage.stop (c : Carriage) : Carriage :=
  match c.act with
  | .stepping => { c with target := none }
  | .atRest | .settling | .homing _ => c

/-- The stop of a homing in progress (R119, R125). -/
def Carriage.stopHoming (c : Carriage) : Carriage :=
  match c.act with
  | .homing _ => { c with act := .stepping, target := none }
  | .atRest | .settling | .stepping => c

/-- Starts homing; the homing direction is DESCENDING (R124). -/
def Carriage.startHoming (c : Carriage) (home : Bool) : Carriage :=
  { c with act := .homing (if home then .out else .seek), target := none, left := Config.carriageStep
           stepDir := if home then .ascending else .descending }

/-- Home found: position 0, engaged DESCENDING, take-up 0, and the settle begins (R124). -/
def Carriage.homed (c : Carriage) : Carriage :=
  { c with position := 0, dir := .descending, takeUp := 0, target := none }.settle

/-- The end of a step that homes, not found yet (R124). -/
def Carriage.homeOn (c : Carriage) (leg : HomeLeg) : Carriage :=
  { c with act := .homing leg, left := Config.carriageStep
           stepDir := match leg with
             | .out => .ascending
             | .seek => .descending }

/-- What follows a counted step of a move: on to the target, or the settle (R119, R121). -/
def Carriage.goOn (c : Carriage) : Carriage :=
  match c.target with
  | some x => if c.position = x then c.settle else c.begin x
  | none => c.settle

/-! ### Deflector (R122, R124) -/

def trackMoved (up : Bool) (t : Nat) : Nat := if up then min 7 (t + 1) else t - 1

def riseMoved (up : Bool) (r : Int) : Int := if up then min 7 (r + 1) else max (-7) (r - 1)

/-- The count of the deflector step in progress (R122). -/
def Deflector.countStep (d : Deflector) : Deflector :=
  match d.step with
  | .trackUp => { d with track := trackMoved true d.track, phase := nextPhase d.phase true }
  | .trackDown => { d with track := trackMoved false d.track, phase := nextPhase d.phase false }
  | .riseUp => { d with rise := riseMoved true d.rise, phase := nextPhase d.phase true }
  | .riseDown => { d with rise := riseMoved false d.rise, phase := nextPhase d.phase false }

def DefStep.time : DefStep → Nat
  | .trackUp | .trackDown => Config.trackStep
  | .riseUp | .riseDown => Config.riseStep

/-- The next step toward a setting, track steps first (R122). -/
def Deflector.nextStep (d : Deflector) (t : Track) (r : Int) : Option DefStep :=
  if d.track < t.val then some .trackUp
  else if t.val < d.track then some .trackDown
  else if d.rise < r then some .riseUp
  else if r < d.rise then some .riseDown
  else none

def Deflector.settle (d : Deflector) : Deflector := { d with act := .settling, left := Config.deflectorSettle }

/-- Goes on toward a setting, or settles there (R122). -/
def Deflector.begin (d : Deflector) (t : Track) (r : Int) : Deflector :=
  match d.nextStep t r with
  | some st => { d with act := .stepping, target := some (t, r), step := st, left := st.time }
  | none => { d with target := some (t, r) }.settle

/-- The deflector stands at a setting and no move is in progress, including the settle (R53). -/
def Deflector.settledAt (d : Deflector) (t : Track) (r : Int) : Bool :=
  d.act == .atRest && d.track == t.val && d.rise == r

/-- An order that reaches a deflector that is not HOMING (R122). -/
def Deflector.order (d : Deflector) (t : Track) (r : Int) : Deflector :=
  match d.act with
  | .atRest => if d.settledAt t r then d else d.begin t r
  | .settling => d.begin t r
  | .stepping => { d with target := some (t, r) }
  | .homing _ => d

/-- A stop (R119). A stopped move has no target, so that none is reported while it finishes and settles (log 39). -/
def Deflector.stop (d : Deflector) : Deflector :=
  match d.act with
  | .stepping => { d with target := none }
  | .atRest | .settling | .homing _ => d

def Deflector.stopHoming (d : Deflector) : Deflector :=
  match d.act with
  | .homing _ => { d with act := .stepping, target := none }
  | .atRest | .settling | .stepping => d

/-- A homing step of one leg of the track phase or the rise phase (R124). -/
def Deflector.homeOn (d : Deflector) (rise : Bool) (leg : HomeLeg) : Deflector :=
  let st : DefStep := match rise, leg with
    | false, .out => .trackUp
    | false, .seek => .trackDown
    | true, .out => .riseUp
    | true, .seek => .riseDown
  { d with act := .homing leg, homingRise := rise, target := none, step := st, left := st.time }

/-- A homing leg: out of an active sensor first, else toward it (R124). -/
def firstLeg (active : Bool) : HomeLeg := if active then .out else .seek

/-- Home found: track 0, rise 0, and the settle begins (R124). -/
def Deflector.homed (d : Deflector) : Deflector :=
  { d with track := 0, rise := 0, target := none, homingRise := false }.settle

/-- What follows a counted step of a move (R119, R122). -/
def Deflector.goOn (d : Deflector) : Deflector :=
  match d.target with
  | some (t, r) => d.begin t r
  | none => d.settle

/-! ### Lens turret (R123, R124) -/

def Turret.countStep (t : Turret) : Turret :=
  { t with position := if t.forward then (t.position + 1) % 8 else (t.position + 7) % 8
           phase := nextPhase t.phase t.forward }

def Turret.settle (t : Turret) : Turret := { t with act := .settling, left := Config.turretSettle }

/-- The next step the shorter way round; at a distance of 4 it goes forward (R123). -/
def Turret.begin (t : Turret) (p : Nat) : Turret :=
  { t with act := .stepping, target := some p, left := Config.turretStep
           forward := decide ((p + 8 - t.position) % 8 ≤ 4) }

/-- A move order; a move to the position held ends at once (R123). -/
def Turret.order (t : Turret) (p : Nat) : Turret :=
  match t.act with
  | .atRest => if t.position = p then t else t.begin p
  | .settling => if t.position = p then { t with target := some p }.settle else t.begin p
  | .stepping => { t with target := some p }
  | .homing _ => t.begin p

def Turret.stopHoming (t : Turret) : Turret :=
  match t.act with
  | .homing _ => { t with act := .stepping, target := none }
  | .atRest | .settling | .stepping => t

/-- A homing step; the homing direction is backward (R124). -/
def Turret.homeOn (t : Turret) (leg : HomeLeg) : Turret :=
  { t with act := .homing leg, target := none, forward := leg == .out, left := Config.turretStep }

def Turret.homed (t : Turret) : Turret := { t with position := 0, target := none }.settle

def Turret.goOn (t : Turret) : Turret :=
  match t.target with
  | some p => if t.position = p then t.settle else t.begin p
  | none => t.settle

/-! ### The drive as a whole -/

/-- The deflector is sent toward a setting unless it is settled there or moving toward it; while it is HOMING the
order is held (R53, R122). -/
def Drive.aim (d : Drive) (t : Track) (r : Int) : Drive :=
  match d.deflector.act with
  | .homing _ => { d with held := some (t, r) }
  | .atRest => { d with deflector := d.deflector.order t r }
  | .stepping | .settling =>
    if d.deflector.target = some (t, r) then d else { d with deflector := d.deflector.order t r }

/-- The stop of an abandonment and of a unit reset: carriage, deflector and film (R67, R119). A film advance ends
with its step in progress (R126). -/
def Drive.stop (d : Drive) : Drive :=
  { d with carriage := d.carriage.stop, deflector := d.deflector.stop
           film := { d.film with advance := d.film.advance.map fun _ => 1 } }

/-- Homing in progress is stopped and every homing limit with it (R125). -/
def Drive.stopHoming (d : Drive) : Drive :=
  { d with carriage := d.carriage.stopHoming, deflector := d.deflector.stopHoming, turret := d.turret.stopHoming
           limitC := none, limitD := none, limitT := none }

/-- A carriage AT_REST starts homing; one in motion ends its move first (R119, Table 7-2, log 18). -/
def Drive.homeCarriage (d : Drive) : Carriage :=
  if d.carriage.act = .atRest then d.carriage.startHoming d.sensors.carriage else d.carriage

/-- A deflector AT_REST starts homing with its track phase (R124, log 18). -/
def Drive.homeDeflector (d : Drive) : Deflector :=
  if d.deflector.act = .atRest then d.deflector.homeOn false (firstLeg d.sensors.deflTrack) else d.deflector

/-- A turret AT_REST starts homing; a turret move runs to its target first (R119, R123, log 18). -/
def Drive.homeTurret (d : Drive) : Turret :=
  if d.turret.act = .atRest then d.turret.homeOn (firstLeg d.sensors.turret) else d.turret

/-- Homing of the three mechanisms is begun together, each with its own limit (R124); a mechanism in motion starts
homing as its move has ended (log 18). -/
def Drive.startHoming (d : Drive) : Drive :=
  { d with carriage := d.homeCarriage, deflector := d.homeDeflector, turret := d.homeTurret, homingDone := false
           limitC := some Config.homingLimit, limitD := some Config.homingLimit, limitT := some Config.homingLimit }

/-- Homing is done when all three limits have been stopped by a found sensor (R124, log 16). -/
def Drive.judgeHoming (d : Drive) : Drive :=
  { d with homingDone := d.limitC.isNone && d.limitD.isNone && d.limitT.isNone }

/-- The end of a carriage step, with the home sensor's level (R120, R124). -/
def Drive.carriageStepEnd (d : Drive) (home : Bool) : Drive :=
  let d1 := { d with sensors := { d.sensors with carriage := home } }
  let c := d.carriage.countStep
  match d.carriage.act with
  | .stepping => { d1 with carriage := c.goOn }
  | .homing .out => { d1 with carriage := c.homeOn (firstLeg home) }
  | .homing .seek =>
    if home then { d1 with carriage := c.homed, limitC := none }.judgeHoming
    else { d1 with carriage := c.homeOn .seek }
  | .atRest | .settling => d

/-- Home found by the deflector: the last target held begins a move as homing ends (R122, R124, log 17). -/
def Drive.deflectorHomed (d : Drive) (c : Deflector) : Drive :=
  match d.held with
  | none => { d with deflector := c.homed, limitD := none }.judgeHoming
  | some (t, r) => { d with deflector := c.homed.begin t r, limitD := none, held := none }.judgeHoming

/-- The end of a deflector step, with the levels of both sensor parts (R122, R124). -/
def Drive.deflectorStepEnd (d : Drive) (trackHome riseHome : Bool) : Drive :=
  let d1 := { d with sensors := { d.sensors with deflTrack := trackHome, deflRise := riseHome } }
  let c := d.deflector.countStep
  match d.deflector.act with
  | .stepping => { d1 with deflector := c.goOn }
  | .homing .out =>
    { d1 with deflector := c.homeOn c.homingRise (firstLeg (if c.homingRise then riseHome else trackHome)) }
  | .homing .seek =>
    if c.homingRise then
      if riseHome then d1.deflectorHomed c else { d1 with deflector := c.homeOn true .seek }
    else if trackHome then { d1 with deflector := c.homeOn true (firstLeg riseHome) }
    else { d1 with deflector := c.homeOn false .seek }
  | .atRest | .settling => d

/-- The end of a turret step, with the home sensor's level (R123, R124). -/
def Drive.turretStepEnd (d : Drive) (home : Bool) : Drive :=
  let d1 := { d with sensors := { d.sensors with turret := home } }
  let t := d.turret.countStep
  match d.turret.act with
  | .stepping => { d1 with turret := t.goOn }
  | .homing .out => { d1 with turret := t.homeOn (firstLeg home) }
  | .homing .seek =>
    if home then { d1 with turret := t.homed, limitT := none }.judgeHoming
    else { d1 with turret := t.homeOn .seek }
  | .atRest | .settling => d

/-- The end of a settle: the mechanism is AT_REST (R118). If its homing limit still runs, it settled a move that was
in progress as homing was begun, and starts homing now (R119, R124, log 18). -/
def Drive.settleEnd (d : Drive) : Mech → Drive
  | .carriage =>
    if d.carriage.act = .settling then
      let e := { d with carriage := { d.carriage with act := .atRest, target := none, left := 0 } }
      if d.limitC.isSome then { e with carriage := e.homeCarriage } else e
    else d
  | .deflector =>
    if d.deflector.act = .settling then
      let e := { d with deflector := { d.deflector with act := .atRest, target := none, left := 0 } }
      if d.limitD.isSome then { e with deflector := e.homeDeflector } else e
    else d
  | .turret =>
    if d.turret.act = .settling then
      let e := { d with turret := { d.turret with act := .atRest, target := none, left := 0 } }
      if d.limitT.isSome then { e with turret := e.homeTurret } else e
    else d

/-- A mechanism's 6 s limit has run out (R125). -/
def Drive.limitRunOut (d : Drive) : Mech → Bool
  | .carriage => runOut d.limitC
  | .deflector => runOut d.limitD
  | .turret => runOut d.limitT

/-- The carriage, deflector and film are AT_REST and the turret has ended any move (R68, R132); a turret that is HOMING
has a move in progress (Table 7-2, log 41). -/
def Drive.allAtRest (d : Drive) : Bool :=
  d.carriage.act == .atRest && d.deflector.act == .atRest && d.film.advance.isNone && d.turret.act == .atRest

/-! ### Film (R126 to R130) -/

/-- FILM_LOW is due: the low arm is set and the film remaining is below 14,400 (R130). -/
def Film.lowDue (f : Film) : Bool := f.lowArm && f.remaining < Config.filmLow

/-- Posts FILM_LOW if it is due; posting it clears the low arm and sets the low flag (R130). -/
def judgeFilmLow (s : State) : State :=
  if s.drive.film.lowDue then
    (postBoth (.filmLow s.drive.film.remaining) s).modDrive fun d =>
      { d with film := { d.film with lowArm := false, low := true } }
  else s

/-- The count of one film step: the film remaining falls by 1, the first step after a cut or load sets the
galley-open flag, and the advance has one step less (R126, R127). -/
def Film.countStep (f : Film) (stepsLeft : Nat) : Film :=
  { f with remaining := f.remaining - 1, galleyOpen := true, phase := nextPhase f.phase true
           advance := if stepsLeft ≤ 1 then none else some (stepsLeft - 1)
           left := if stepsLeft ≤ 1 then 0 else Config.filmStep }

/-- Starts an advance; an advance of no step ends at once (R118, R126). -/
def Film.begin (f : Film) (steps : Nat) : Film :=
  if steps = 0 then f else { f with advance := some steps, left := Config.filmStep }

/-- A press of FILM LOADED loads the film (R129, steps 1 to 3 before the judgement of FILM_LOW). -/
def Film.loaded (f : Film) : Film :=
  { f with remaining := f.load, galleyOpen := false, out := false, low := false, lowArm := true }

/-- A film advance or a cut is in progress (R128, R129). -/
def filmBusy (s : State) : Bool :=
  s.drive.film.advance.isSome || (match s.engine.close with
    | some c => c.phase == .cutting
    | none => false)

end Sys2Proof.Machine
end

