-- ==== Sys2Proof/Machine/Ring.lean ====
section
/-!
DEFINITION. The flash ring (R51 to R57): target angles, the order ahead of the disc, insertion, removal and
re-placement, the loading of the compare channel and the ordering of the deflector.
-/
namespace Sys2Proof.Machine

/-- The angle of a position under a trim code (R51): (position × 30 + (code − 8)) mod 2880. -/
def targetAngle (position code : Nat) : Nat := (position * 30 + code + 2872) % Config.countsPerRev

def Item.target : Item → Nat
  | .exposure _ t _ => t
  | .test _ t => t

def Item.track : Item → Track
  | .exposure e _ _ => e.track
  | .test t _ => t

/-- The rise the deflector takes for an item; a test item has rise 0 (R51, R53). -/
def Item.rise : Item → Int
  | .exposure e _ _ => e.rise
  | .test _ _ => 0

def Item.isExposure : Item → Bool
  | .exposure _ _ _ => true
  | .test _ _ => false

/-- A deferred item; a defer count stops rising at 65,535, and a test item has none (R51, R54). -/
def Item.defer : Item → Item
  | .exposure e t d => .exposure e t (min 65535 (d + 1))
  | .test tr t => .test tr t

/-- How far ahead of the counter an angle lies: from 1 to 2880 counts while the counter holds an angle, and
counted forward from 0 while it does not (R52). -/
def ahead (counter : Int) (target : Nat) : Nat :=
  if 0 ≤ counter ∧ counter < 2880 then
    let d := (target + Config.countsPerRev - counter.toNat) % Config.countsPerRev
    if d = 0 then Config.countsPerRev else d
  else target

/-- Inserts an item after every item the counter reaches before it and after every item of equal target (R52,
log 10). -/
def insertItem (counter : Int) (it : Item) : List Item → List Item
  | [] => [it]
  | x :: xs =>
    if (x :: xs).any (fun y => decide (ahead counter y.target ≤ ahead counter it.target)) then
      x :: insertItem counter it xs
    else it :: x :: xs

/-- Inserts items one at a time, in order. -/
def insertAll (counter : Int) (items ring : List Item) : List Item :=
  items.foldl (fun r it => insertItem counter it r) ring

/-- The compare channel holds the target of the first item, and is unloaded while the ring is empty (R53). -/
def reload (s : State) : State :=
  s.modDisc fun d => { d with channel := s.engine.ring.head?.map Item.target }

/-- Changes the ring and reloads the channel (R53). -/
def setRing (ring : List Item) (s : State) : State := reload (s.modEngine fun e => { e with ring := ring })

/-- The deflector is compared with the first item's setting, and sent there if need be (R53, log 11). -/
def aim (s : State) : State :=
  match s.engine.ring.head? with
  | none => s
  | some it => s.modDrive fun d => d.aim it.track it.rise

/-- An item with its target worked out from a trim code (R51, R56). -/
def Item.retarget (code : Nat) : Item → Item
  | .exposure e _ d => .exposure e (targetAngle e.position code) d
  | .test t _ => .test t (targetAngle 0 code)

/-- Re-places every item of a track whose code has changed: they are reinserted in their ring order, exposure
items before a test item, with their defer counts (R56). -/
def replaceTrack (t : Track) (code : Nat) (s : State) : State :=
  let mine := s.engine.ring.filter fun it => it.track == t
  let others := s.engine.ring.filter fun it => it.track != t
  let again := (mine.filter Item.isExposure ++ mine.filter fun it => !it.isExposure).map (Item.retarget code)
  setRing (insertAll s.disc.counter again others) s

/-- The exposure item of a stop entry, with a defer count of 0 (R52). -/
def exposureOf (s : State) (e : StopEntry) : Item :=
  .exposure e (targetAngle e.position (mountedRec s e.track).code) 0

/-- Inserts the test item of a search (R57). -/
def insertTest (t : Track) (code : Nat) (s : State) : State :=
  setRing (insertItem s.disc.counter (.test t (targetAngle 0 code)) s.engine.ring) s

/-- Removes the test item (R57). -/
def removeTest (s : State) : State := setRing (s.engine.ring.filter Item.isExposure) s

/-- Removes every exposure item (R67). -/
def removeExposures (s : State) : State := setRing (s.engine.ring.filter fun it => !it.isExposure) s

/-- The exposure items in the ring. -/
def exposures (s : State) : List Item := s.engine.ring.filter Item.isExposure

/-- Some exposure item in the ring is on a track whose state meets `p`. -/
def exposureOn (p : TrimState → Bool) (s : State) : Bool :=
  (exposures s).any fun it => p (mountedRec s it.track).state

/-- A change of a record reaches the engine: FLASH gives way to WAIT_TRACK when an item's track is UNUSABLE, and
WAIT_TRACK to FLASH when none is UNUSABLE, QUEUED or SEARCHING (R63, R92). -/
def trackNotice (s : State) : State :=
  match s.engine.state with
  | .flash =>
    if exposureOn (fun st => st == .unusable) s then s.modEngine fun e => { e with state := .waitTrack } else s
  | .waitTrack =>
    if exposureOn (fun st => st == .unusable || st.inSearch) s then s
    else s.modEngine fun e => { e with state := .flash }
  | .idle | .prepare | .move | .waitFilm | .closing => s

end Sys2Proof.Machine
end

