-- ==== Sys2Proof/Machine/Trimming.lean ====
section
/-!
DEFINITION. The Registration Monitor and Trim Unit (chapter 5): the trim queue, the search, flush and halt, and
the monitor windows.
-/
namespace Sys2Proof.Machine

/-- Writes a track's record in the queue disc's slot, and tells the engine: a changed code re-places the track's
items, and a changed state may begin or end WAIT_TRACK (R56, R92). -/
def putRec (t : Track) (r : TrimRec) (s : State) : State :=
  let old := queueRec s t
  let s1 := s.modMaps fun q => updateSlot q s.trim.queueDisc fun m => { m with trims := m.trims.set t r }
  let s2 := if r.code ≠ old.code ∧ s.trim.queueDisc = s.spin.mounted then replaceTrack t r.code s1 else s1
  trackNotice s2

/-- The result of an open test watch counts for no search from now on (R99). -/
def voidWatch (s : State) : State :=
  s.modEngine fun e => { e with watch := e.watch.map fun w =>
    match w.of with
    | .test t _ => { w with of := .test t false }
    | .exposure _ _ => w }

/-- The code after `c`: c + 1 within the floor and ceiling, else the floor (R101). -/
def nextCode (l : Limits) (c : Nat) : Nat := if l.floor ≤ c + 1 ∧ c + 1 ≤ l.ceiling then c + 1 else l.floor

/-- The start code of a search, from the prior state (R98). -/
def startCode (l : Limits) (p : Prior) : Nat :=
  match p.state with
  | .trimmed => nextCode l p.code
  | .untrimmed | .unusable | .queued | .searching => l.floor

/-- A search at its first code (R98). -/
def freshSearch (l : Limits) (t : Track) (code : Nat) : Search :=
  { track := t, code := code, tried := 1, limit := l.ceiling + 1 - l.floor, dwell := l.dwell,
    missLimit := l.searchMiss, fired := 0, misses := 0 }

/-- The head of the queue is searched, if no search runs and speed lock is LOCKED (R98). -/
def startSearch (s : State) : State :=
  if s.trim.search.isSome || !s.disc.locked then s
  else match s.trim.queue with
    | [] => s
    | t :: rest =>
      let r := queueRec s t
      let code := startCode s.trim.limits (r.prior.getD { state := .untrimmed, code := r.code })
      let s1 := s.modTrim fun u => { u with queue := rest, search := some (freshSearch u.limits t code) }
      insertTest t code (putRec t { r with code := code, state := .searching } s1)

/-- Clears one track's monitor window (R105). -/
def clearWindow (t : Track) (s : State) : State := s.modTrim fun u => { u with windows := u.windows.set t [] }

/-- Clears all eight windows (R105). -/
def clearWindows (s : State) : State := s.modTrim fun u => { u with windows := Oct.fill [] }

/-- A track joins the end of the queue with its state and code saved, unless it is QUEUED or SEARCHING already
(R92, R95). -/
def joinQueue (s : State) (t : Track) : State :=
  let r := queueRec s t
  if r.state.inSearch then s
  else
    let s1 := if r.state = .trimmed then clearWindow t s else s
    let s2 := putRec t { code := r.code, state := .queued, prior := some { state := r.state, code := r.code } } s1
    startSearch (s2.modTrim fun u => { u with queue := u.queue ++ [t] })

/-- Tracks join in the order given; the deflector follows the ring (R53, R95). -/
def joinTracks (ts : List Track) (s : State) : State := aim (ts.foldl joinQueue s)

/-- A QUEUED or SEARCHING record takes back its prior state and code (R92). -/
def takeBack (s : State) (t : Track) : State :=
  let r := queueRec s t
  match r.prior with
  | some p => if r.state.inSearch then putRec t { code := p.code, state := p.state, prior := none } s else s
  | none => s

/-- A search in progress ends without result and without event (R93, R96). -/
def dropSearch (s : State) : State :=
  match s.trim.search with
  | none => s
  | some _ => voidWatch (removeTest (s.modTrim fun u => { u with search := none }))

/-- The flush of the queue (R96): the search ends, every record takes back its prior state and code, the queue
and the windows are emptied, and the queue disc takes the new ID. -/
def flushTrims (disc : Nat) (s : State) : State :=
  let s1 := allTracks.foldl takeBack (dropSearch s)
  (clearWindows s1).modTrim fun u => { u with queue := [], queueDisc := disc }

/-- The halt of a search as the unit enters PARKED or FAULTED: the track takes back its prior code and stands at
the head of the queue with its prior state kept (R97). -/
def haltSearch (s : State) : State :=
  match s.trim.search with
  | none => s
  | some c =>
    let r := queueRec s c.track
    let code := (r.prior.map Prior.code).getD r.code
    let s1 := putRec c.track { r with code := code, state := .queued } (dropSearch s)
    s1.modTrim fun u => { u with queue := c.track :: u.queue }

/-- The tracks of a slot that have map entries, in ascending order (R14). -/
def usedTracks (m : MapSlot) : List Track := allTracks.filter fun t => m.entries.any fun e => e.track == t

/-- The trim unit takes the mounted disc ID after an identification: another disc flushes the queue, and the
UNTRIMMED tracks with entries are queued (R96). -/
def queryMap (s : State) : State :=
  let d := s.spin.mounted
  let s1 := if d = s.trim.queueDisc then s else flushTrims d s
  match slotFor s1.maps d with
  | none => s1
  | some m =>
    if d = 0 then s1 else joinTracks ((usedTracks m).filter fun t => (queueRec s1 t).state == .untrimmed) s1

/-! ### The search (R99 to R102) -/

/-- A code whose dwell passes (R100). -/
def searchPasses (c : Search) (s : State) : State :=
  let s1 := putRec c.track { code := c.code, state := .trimmed, prior := none } s
  let s2 := removeTest (s1.modTrim fun u => { u with search := none })
  startSearch (postBoth (.trackTrimmed s.trim.queueDisc c.track c.code c.tried c.misses) s2)

/-- A failed code with codes left to try (R101). -/
def searchSteps (c : Search) (s : State) : State :=
  let code := nextCode s.trim.limits c.code
  let s1 := s.modTrim fun u =>
    { u with search := some { c with code := code, tried := c.tried + 1, fired := 0, misses := 0 } }
  putRec c.track { queueRec s c.track with code := code } s1

/-- A failed code at the code limit: the record becomes UNUSABLE at its prior code (R101). -/
def searchFails (c : Search) (s : State) : State :=
  let r := queueRec s c.track
  let code := (r.prior.map Prior.code).getD r.code
  let s1 := putRec c.track { code := code, state := .unusable, prior := none } s
  let s2 := removeTest (s1.modTrim fun u => { u with search := none })
  startSearch (postBoth (.trackUnusable s.trim.queueDisc c.track code c.tried) s2)

/-- A judged code (R100, R101). -/
def judgeCode (c : Search) (s : State) : State :=
  if c.misses ≤ c.missLimit then searchPasses c s
  else if c.tried < c.limit then searchSteps c s
  else searchFails c s

/-- The result of a test flash is counted at the present code, and the code is judged at the dwell (R99, R100). -/
def testResult (miss : Bool) (s : State) : State :=
  match s.trim.search with
  | none => s
  | some c0 =>
    let c := { c0 with fired := c0.fired + 1, misses := c0.misses + miss.toNat }
    if c.fired < c.dwell then s.modTrim fun u => { u with search := some c }
    else aim (judgeCode c s)

/-- TRIM-RESTART of the track being searched: the search starts again at the floor (R102). -/
def restartSearch (c : Search) (s : State) : State :=
  let code := s.trim.limits.floor
  let s1 := s.modTrim fun u => { u with search := some (freshSearch u.limits c.track code) }
  aim (voidWatch (putRec c.track { queueRec s c.track with code := code } s1))

/-! ### Monitor windows (R103, R104) -/

/-- The misses of a window. -/
def missCount (w : List Bool) : Nat := w.countP fun b => b

/-- A result joins the end of a window of at most 32 (R103). -/
def windowAdd (w : List Bool) (miss : Bool) : List Bool :=
  let w1 := w ++ [miss]
  if Config.windowCap < w1.length then w1.drop 1 else w1

/-- An exposure result of a TRIMMED track is recorded and the window judged; a result of any other track is
dropped (R103, R104). -/
def monitorResult (t : Track) (miss : Bool) (s : State) : State :=
  if (queueRec s t).state = .trimmed then
    let w := windowAdd (s.trim.windows.get t) miss
    let s1 := s.modTrim fun u => { u with windows := u.windows.set t w }
    if s.trim.limits.monitorMiss < missCount w then joinTracks [t] s1 else s1
  else s

end Sys2Proof.Machine
end

