-- ==== Sys2Proof/Machine/Spinning.lean ====
section
/-!
DEFINITION. Entry to each unit state (R163 to R169): the output lines, the disc timing, the trim queue, homing and
the park timer.
-/
namespace Sys2Proof.Machine

/-- The unit state with the motor, charger and strobe lines that go with it (Table 9-2); the park timer stops on
entry to any state but READY (R163). -/
def setUnit (u : UnitState) (s : State) : State :=
  let on := u.spinning
  (s.modSpin fun sp =>
      { sp with unit := u, motor := on, parkTimer := if u = .ready then sp.parkTimer else none }).modBank fun b =>
    { b with charger := on, strobeHeld := !on }

/-- What entry to PARKED, DISC_CHANGE and FAULTED does in every block but the Trim Unit (R163). -/
def stopDisc (s : State) : State :=
  ((s.modDisc fun d => { d with valid := false, locked := false, lockRun := 0, spinup := none, stall := none,
                                unlock := none }).modDrive fun d => d.stopHoming).modBank fun b =>
    { b with watch := none }

/-- The park timer starts at the park delay when the unit is READY and the engine IDLE (R168). -/
def parkStart (s : State) : State :=
  if s.spin.unit = .ready ∧ s.engine.state = .idle then
    s.modSpin fun sp => { sp with parkTimer := some (sp.parkDelay * Config.minute) }
  else s

/-- The park timer stops (R168). -/
def parkStop (s : State) : State := s.modSpin fun sp => { sp with parkTimer := none }

def enterParked (s : State) : State := haltSearch (stopDisc (setUnit .parked s))

/-- Entry to FAULTED with the fault kept as the last fault (R170). -/
def enterFaulted (kind : FaultKind) (detail : Int) (s : State) : State :=
  (haltSearch (stopDisc (setUnit .faulted s))).modSpin fun sp =>
    { sp with lastFault := some { kind := kind, detail := detail } }

/-- Entry to SPIN_UP: motor and charger on, homing of the three mechanisms, the spin-up timer, and the disc timing
starting afresh (R80, R81, R124, R164). -/
def enterSpinUp (s : State) : State :=
  (((setUnit .spinUp s).modDisc fun d =>
      { d with valid := false, slipCount := 0, reached := false, spinup := some Config.spinupLimit }).modDrive
    fun d => d.startHoming).modSpin fun sp => { sp with requested := none, lastFault := none }

/-- Entry to IDENTIFY (R82, R84, R165). -/
def enterIdentify (s : State) : State :=
  (setUnit .identify s).modDisc fun d => { d with samples := [], spinup := none, stall := some Config.stallLimit }

/-- SPIN_UP gives way to IDENTIFY once homing is done and speed lock is LOCKED (R165). -/
def judgeSpinUp (s : State) : State :=
  if s.spin.unit = .spinUp ∧ s.drive.homingDone = true ∧ s.disc.locked = true then enterIdentify s else s

/-- Entry to DISC_CHANGE with a requested disc: the mounted ID becomes 0, the trim queue is flushed, and
DISC_REQUEST is posted with the job that wants the disc or 0 (R97, R166, R169). -/
def enterDiscChange (disc job : Nat) (s : State) : State :=
  let s1 := flushTrims 0 (stopDisc (setUnit .discChange s))
  let s2 := s1.modSpin fun sp => { sp with mounted := 0, requested := some disc }
  postBoth (.discRequest job disc s2.spin.present) s2

/-- A re-aim of the request; a request for the disc already requested changes nothing (R156, R169). -/
def reaim (disc job : Nat) (s : State) : State :=
  if s.spin.requested = some disc then s
  else postBoth (.discRequest job disc s.spin.present) (s.modSpin fun sp => { sp with requested := some disc })

end Sys2Proof.Machine
end

