-- ==== Sys2Proof/Machine/Exposure.lean ====
section
/-!
DEFINITION. The exposure engine (chapter 3): stops and sweep, preparation, the take rule, the judging of a compare
event, abandonment, and the ordering of a galley close.
-/
namespace Sys2Proof.Machine

/-! ### Stops and sweep (R46, R47) -/

/-- The stop entry of a cell with its x, if it is no space (R46). -/
def entryOf (i : Nat) (c : Cell) : Option (Nat × StopEntry) :=
  match c.res with
  | .space => none
  | .placed t p h x => some (x, { index := i, track := t, position := p, rise := c.glyph.rise, heavy := h })

/-- Puts an entry into the stops, which stand in ascending x. -/
def addToStops (x : Nat) (e : StopEntry) : List Stop → List Stop
  | [] => [{ x := x, entries := [e] }]
  | st :: sts =>
    if x = st.x then { st with entries := st.entries ++ [e] } :: sts
    else if x < st.x then { x := x, entries := [e] } :: st :: sts
    else st :: addToStops x e sts

/-- The stops of the cells from index `i` on, in ascending x, each with its entries in ascending sort index. -/
def stopsFrom (i : Nat) (acc : List Stop) : List Cell → List Stop
  | [] => acc
  | c :: cs =>
    match entryOf i c with
    | none => stopsFrom (i + 1) acc cs
    | some (x, e) => stopsFrom (i + 1) (addToStops x e acc) cs

/-- The stops of a line in ascending x (R46). -/
def stopsOf (cs : List Cell) : List Stop := stopsFrom 0 [] cs

/-- The distance of two carriage positions. -/
def distance (a b : Nat) : Nat := (a - b) + (b - a)

/-- The sweep direction from the carriage position (R47); the stops stand in ascending x. -/
def sweepFrom (position : Nat) (stops : List Stop) : Dir :=
  match stops.head?, stops.getLast? with
  | some lo, some hi => if distance position lo.x ≤ distance position hi.x then .ascending else .descending
  | _, _ => .ascending

/-- The stop list in sweep order (R46). -/
def inSweep (d : Dir) (stops : List Stop) : List Stop :=
  match d with
  | .ascending => stops
  | .descending => stops.reverse

/-! ### Loading a stop (R48, R52, R55, R61) -/

/-- The tracks of a stop that are UNTRIMMED, in ascending order (R55). -/
def untrimmedTracks (st : Stop) (s : State) : List Track :=
  allTracks.filter fun t =>
    st.entries.any (fun e => e.track == t) && (mountedRec s t).state == .untrimmed

/-- A stop's items are inserted in ascending sort index, its UNTRIMMED tracks are handed to the Trim Unit, and the
deflector is ordered (R52, R53, R55). -/
def loadStop (st : Stop) (s : State) : State :=
  let s1 := setRing (insertAll s.disc.counter (st.entries.map (exposureOf s)) s.engine.ring) s
  let s2 := s1.modEngine fun e => { e with firedSinceIndex := false }
  joinTracks (untrimmedTracks st s2) s2

/-! ### Preparation (R48 to R50) -/

/-- The film a line needs (R48). -/
def filmNeeded (leading : Nat) (galleyOpen : Bool) : Nat :=
  if galleyOpen then leading else Config.headMargin + leading

/-- WAIT_FILM for want of film, with FILM_OUT (R48, R131). -/
def waitForFilm (h : Header) (need : Nat) (s : State) : State :=
  postBoth (.filmOut h.job h.line need s.drive.film.remaining)
    ((s.modEngine fun e => { e with state := .waitFilm }).modDrive fun d => { d with film := { d.film with out := true } })

/-- The three moves of preparation start together (R48, R126). -/
def startMoves (h : Header) (need : Nat) (first : Option Stop) (s : State) : State :=
  s.modDrive fun d =>
    { d with turret := d.turret.order h.lens, film := d.film.begin need
             carriage := match first with
               | none => d.carriage
               | some st => d.carriage.order st.x }

/-- Entry to PREPARE (R48). -/
def prepare (h : Header) (s : State) : State :=
  let need := filmNeeded h.leading s.drive.film.galleyOpen
  if s.drive.film.remaining < need then waitForFilm h need s
  else
    let first := s.engine.stops.head?
    let s1 := startMoves h need first (s.modEngine fun e => { e with state := .prepare })
    match first with
    | none => s1
    | some st => loadStop st s1

/-- The stop at a number counted from 1. -/
def stopAt (stops : List Stop) (n : Nat) : Option Stop :=
  match n with
  | 0 => none
  | k + 1 => stops[k]?

/-- At the current stop with the carriage settled: WAIT_TRACK if an item's track is UNUSABLE, FLASH otherwise
(R49, R62). -/
def enterStop (s : State) : State :=
  s.modEngine fun e =>
    { e with state := if exposureOn (fun st => st == .unusable) s then .waitTrack else .flash }

/-- The hand-over of a job's head line (R45): tallies and stuck count 0, stop list and sweep, PREPARE; the unit
becomes EXPOSING (R167), the starvation timer stops and its mark is cleared (R155). -/
def handOver (n : Nat) (s : State) : State :=
  match headLine s.store.lines n with
  | none => s
  | some r =>
    let asc := stopsOf r.cells
    let dir := sweepFrom s.drive.carriage.position asc
    let s1 := (setCurrent n r.header.line true s).modEngine fun e =>
      { e with state := .prepare, current := some { job := n, line := r.header.line }, stops := inSweep dir asc,
               sweep := some dir, stopNo := 1, stuck := 0, misreg := 0, deferral := 0, firedSinceIndex := false }
    let s2 := s1.modSeq fun q => { q with starve := none, grace := false }
    prepare r.header (setUnit .exposing s2)

/-! ### The take rule and the compare event (R54, R58 to R60) -/

/-- The five conditions of the take rule (R58). -/
def takes (it : Item) (s : State) : Bool :=
  let place := match it with
    | .exposure _ _ _ => s.engine.state == .flash || s.engine.state == .waitTrack
    | .test _ _ => s.drive.carriage.act == .atRest
  let charge := match it with
    | .exposure e _ _ => if e.heavy then s.bank.state == .heavyReady else s.bank.state.isReady
    | .test _ _ => s.bank.state.isReady
  let track := match it with
    | .exposure e _ _ => (mountedRec s e.track).state == .trimmed
    | .test t _ => (mountedRec s t).state == .searching
  s.disc.locked && place && s.drive.deflector.settledAt it.track it.rise && charge && track

/-- The strobe fires for an item: the bank is told and the result watch opens (R59, R60, R112). -/
def fire (it : Item) (s : State) : State :=
  let s1 := s.modBank Bank.flash
  match it with
  | .exposure e _ _ => s1.modEngine fun g =>
    { g with stuck := 0, firedSinceIndex := true
             watch := some { of := .exposure e.track true, hit := false, left := Config.resultWatch } }
  | .test t _ => s1.modEngine fun g =>
    { g with watch := some { of := .test t true, hit := false, left := Config.resultWatch } }

/-- The items that stand in the ring after the first item has been judged (R54): the others, then those passed at
the same angle, deferred, then the first item unless it was an exposure item that fired. -/
def judgedRing (it : Item) (rest : List Item) (fired : Bool) : List Item :=
  let passed := (rest.filter fun y => y.target == it.target).map Item.defer
  let others := rest.filter fun y => y.target != it.target
  let last := if fired then (if it.isExposure then [] else [it]) else [it.defer]
  others ++ passed ++ last

/-- How many exposure items a judgement defers (R54, log 12). -/
def deferredCount (it : Item) (rest : List Item) (fired : Bool) : Nat :=
  ((rest.filter fun y => y.target == it.target).filter Item.isExposure).length
    + (if !fired && it.isExposure then 1 else 0)

/-- A compare event: the first item of the ring is judged by the take rule (R54). -/
def compareEvent (s : State) : State :=
  match s.engine.ring with
  | [] => s
  | it :: rest =>
    let fired := takes it s
    let s1 := if fired then fire it s else s
    let s2 := s1.modEngine fun e => { e with deferral := min 65535 (e.deferral + deferredCount it rest fired) }
    aim (setRing (judgedRing it rest fired) s2)

/-! ### Abandonment and the galley close (R67, R68) -/

/-- A galley close is ordered: CLOSING, a selection pending, the park timer stopped (R68, R149, R153, R168). -/
def orderClose (job : Option (Nat × CLine)) (s : State) : State :=
  parkStop ((s.modEngine fun e =>
      { e with state := .closing, close := some { job := job, phase := .ordered, steps := 0 } }).modSeq fun q =>
    { q with pendingSel := true })

/-- The owner line of a live job. -/
def ownerOf (s : State) (n : Nat) : CLine :=
  match findJob s.jobs n with
  | some j => j.owner
  | none => .a

/-- An open watch of an exposure no longer counts for the line (R67). -/
def detachWatch (s : State) : State :=
  s.modEngine fun e => { e with watch := e.watch.map fun w =>
    match w.of with
    | .exposure t _ => { w with of := .exposure t false }
    | .test _ _ => w }

/-- LINE_ABANDONED for the current line, unless the cause is a unit reset (R67, Table 3-4). -/
def postAbandoned (r : LineRef) (cause : AbandonCause) (track : Option Track) (s : State) : State :=
  match cause with
  | .reset => s
  | .cancel | .fault | .stuck =>
    post (ownerOf s r.job)
      (.lineAbandoned r.job r.line cause (s.engine.stopNo - 1) s.engine.misreg s.engine.deferral track) s

/-- The current line is abandoned (R67); its record is COMMITTED again, and what frees it follows by its cause. A
unit that was EXPOSING is READY (R167). The deflector, stopped, is sent to a test item that is left first (R53). -/
def abandon (cause : AbandonCause) (track : Option Track) (s : State) : State :=
  match s.engine.current with
  | none => s
  | some r =>
    let s1 := detachWatch (removeExposures (postAbandoned r cause track s))
    let s2 := (setCurrent r.job r.line false s1).modDrive Drive.stop
    let s3 := aim (s2.modEngine fun e =>
      { e with state := .idle, current := none, stops := [], stopNo := 0, stuck := 0, misreg := 0, deferral := 0,
               firedSinceIndex := false })
    if s3.spin.unit = .exposing then setUnit .ready s3 else s3

end Sys2Proof.Machine
end

