-- ==== Sys2Proof/Machine/Sequencer.lean ====
section
/-!
DEFINITION. The Galley Sequencer (chapter 8) and what it does with the engine, the drive and Spin Control: who is
eligible and who wins, the line boundary, galley closes, faults, stuck stops and the end of an identification.
-/
namespace Sys2Proof.Machine

/-! ### Eligibility and the winner (R147, R148) -/

/-- A job that may be chosen (R147). -/
def Job.eligible (j : Job) : Bool := j.state != .held && !j.held && decide (j.setCount < j.committed)

def JobClass.rank : JobClass → Nat
  | .routine => 0
  | .priority => 1
  | .bulletin => 2

/-- The jobs of the highest class present (R148, step 1). -/
def highestClass (js : List Job) : List Job := js.filter fun j => js.all fun k => decide (k.cls.rank ≤ j.cls.rank)

/-- The jobs that name the mounted disc, or all when none does (R148, step 2). -/
def onMounted (disc : Nat) (js : List Job) : List Job :=
  if js.any fun j => j.disc == disc then js.filter fun j => j.disc == disc else js

/-- The job of the lowest open order (R148, step 3). -/
def lowestOrder (js : List Job) : Option Job := js.find? fun j => js.all fun k => decide (j.order ≤ k.order)

/-- The winner of a selection (R148). The mounted ID is 0 in DISC_CHANGE, and no job names disc 0. -/
def winner (s : State) : Option Job :=
  lowestOrder (onMounted s.spin.mounted (highestClass (s.jobs.filter Job.eligible)))

/-- Another job than `n` is eligible. -/
def otherEligible (n : Nat) (s : State) : Bool := s.jobs.any fun j => j.eligible && j.number != n

/-! ### Leaving and becoming ACTIVE (R150, R153, R155) -/

/-- The starvation timer stops and its mark is cleared as a job leaves ACTIVE (R155). -/
def leaveActive (s : State) : State := s.modSeq fun q => { q with starve := none, grace := false }

/-- The ACTIVE job leaves as SUSPENDED or HELD, with its reason and JOB_SUSPENDED (R151, R153, R157). Its held flag
stands, in a departure by fault too (log 42). -/
def suspendJob (j : Job) (left : JobState) (reason : SuspendReason) (s : State) : State :=
  let s1 := leaveActive (updateJob j.number (fun k => { k with state := left, reason := some reason }) s)
  post j.owner (.jobSuspended j.number reason j.committed j.setCount) s1

/-- A departure of the ACTIVE job that closes its galley (R153). -/
def depart (j : Job) (left : JobState) (reason : SuspendReason) (s : State) : State :=
  orderClose (some (j.number, j.owner)) (suspendJob j left reason s)

/-- The winner becomes ACTIVE and its head line is handed over (R150). -/
def activate (j : Job) (s : State) : State :=
  let s1 :=
    if j.state = .suspended then
      post j.owner (.jobResumed j.number j.reason j.setCount)
        (updateJob j.number (fun k => { k with state := .active, started := true, reason := none }) s)
    else updateJob j.number (fun k => { k with state := .active, started := true }) s
  handOver j.number s1

/-! ### Selection with no ACTIVE job (R150) -/

/-- The outcome of a selection for a winner, by unit state (R150, R156). -/
def selectWinner (j : Job) (s : State) : State :=
  match s.spin.unit with
  | .ready => if j.disc = s.spin.mounted then activate j s else enterDiscChange j.disc j.number s
  | .parked => enterSpinUp s
  | .discChange => reaim j.disc j.number s
  | .spinUp | .identify | .exposing | .faulted => s

/-- A selection made while no job is ACTIVE, unless the unit is held or FAULTED (R149, R150). -/
def selectFree (s : State) : State :=
  if s.spin.hold then s
  else match winner s with
    | none => s
    | some j => selectWinner j s

/-! ### The line boundary (R151 to R155) -/

/-- A completed job ends as DONE; the galley is closed or selection follows at once (R154). -/
def completeActive (j : Job) (final : Nat) (s : State) : State :=
  let s1 := post j.owner (.jobDone j.number final) (leaveActive (removeJob j.number s))
  if j.cut then orderClose (some (j.number, j.owner)) s1 else selectFree s1

/-- Continuation: the head line is handed over in READY on the job's disc; otherwise the unit is brought there or
waited for (R151 step 5, R152). -/
def continueJob (j : Job) (s : State) : State :=
  match s.spin.unit with
  | .ready => if j.disc = s.spin.mounted then handOver j.number s else enterDiscChange j.disc j.number s
  | .parked => enterSpinUp s
  | .spinUp | .identify | .exposing | .discChange | .faulted => s

/-- Starvation: the timer starts if it is stopped with its mark clear (R151 step 6, R155, log 21). -/
def starved (s : State) : State :=
  if !s.seq.grace && s.seq.starve.isNone then s.modSeq fun q => { q with starve := some Config.starvation } else s

/-- A starved job past its grace, with another job eligible: it gives up the unit as STARVED, whatever the other's
class (R155, log 36). A job whose mark is still set but which has gained an unset line is starved no more, and keeps the
unit (log 43). -/
def graceIsOver (j : Job) (s : State) : Bool :=
  s.seq.grace && (headLine s.store.lines j.number).isNone && otherEligible j.number s

/-- The steps of R151 from the unit hold on, for a job that is neither complete nor held. A starved job whose mark is
set goes by R155 before pre-emption is judged (log 36). -/
def boundaryGoesOn (j : Job) (s : State) : State :=
  if s.spin.hold then s
  else if graceIsOver j s then depart j .suspended .starved s
  else if s.jobs.any fun k => k.eligible && decide (j.cls.rank < k.cls.rank) then depart j .suspended .preempted s
  else if (headLine s.store.lines j.number).isSome then continueJob j s
  else starved s

/-- The ACTIVE job at a line boundary: the first step of R151 whose condition holds. -/
def atBoundary (j : Job) (s : State) : State :=
  if j.final = some j.setCount then completeActive j j.setCount s
  else if j.held then depart j .held .held s
  else boundaryGoesOn j s

/-- A selection point (Table 8-3, R149): while the engine is CLOSING it is marked pending; the ACTIVE job is judged
at its line boundary if it stands there; with no job ACTIVE a selection is made. -/
def selectionPoint (s : State) : State :=
  if s.engine.state = .closing then s.modSeq fun q => { q with pendingSel := true }
  else match activeJob s with
    | some j => if s.engine.current.isSome then s else atBoundary j s
    | none => selectFree s

/-! ### The galley close (R132, R133) -/

/-- Posts GALLEY_CLOSED to the named job's owner line, or to both queues (R133). -/
def postClosed (c : Close) (cut : Bool) (s : State) : State :=
  match c.job with
  | some (n, l) => post l (.galleyClosed n c.steps cut s.drive.film.remaining) s
  | none => postBoth (.galleyClosed 0 c.steps cut s.drive.film.remaining) s

/-- The pending selection as a close ends; the mark is cleared whether or not it is acted on (R149, R153). -/
def pendingSelection (s : State) : State :=
  if s.seq.pendingSel then selectionPoint (s.modSeq fun q => { q with pendingSel := false }) else s

/-- The end of a close: GALLEY_CLOSED, the engine IDLE, the park timer, and a pending selection (R68, R133, R168). -/
def endClose (c : Close) (cut : Bool) (s : State) : State :=
  let s1 := (postClosed c cut s).modEngine fun e => { e with state := .idle, close := none }
  pendingSelection (parkStart s1)

/-- The cut starts (R132, step 2). -/
def startCut (c : Close) (s : State) : State :=
  (s.modEngine fun e => { e with close := some { c with phase := .cutting } }).modDrive fun d =>
    { d with cutLeft := Config.cutTime }

/-- A close begins: with the galley open the film advances by the lesser of 720 and the film remaining and is then
cut; with it clear there is neither advance nor cut (R132). The flag is judged here, as the close begins, and not as
the close was ordered (log 37). -/
def beginClose (c : Close) (s : State) : State :=
  if s.drive.film.galleyOpen then
    let n := min Config.headMargin s.drive.film.remaining
    if n = 0 then startCut c s
    else
      (s.modEngine fun e => { e with close := some { c with phase := .advancing, steps := n } }).modDrive fun d =>
        { d with film := d.film.begin n }
  else endClose c false s

/-! ### A line set, and stop to stop (R49, R61, R62, R66) -/

/-- LINE_SET with its tallies goes to the job's owner line (R66, step 2). -/
def postLineSet (r : LineRef) (s : State) : State :=
  post (ownerOf s r.job) (.lineSet r.job r.line s.engine.misreg s.engine.deferral) s

/-- A line is set (R66): its record and cells are freed, LINE_SET is posted, the set count rises, the engine is
IDLE and the unit READY; then the line boundary (R151, R167). -/
def lineSet (s : State) : State :=
  match s.engine.current with
  | none => s
  | some r =>
    let s1 := s.modStore fun st => st.keepLines fun x => !(x.header.job == r.job && x.header.line == r.line)
    let s2 := updateJob r.job (fun j => { j with setCount := j.setCount + 1 }) (postLineSet r s1)
    let s3 := s2.modEngine fun e => { e with state := .idle, current := none, stops := [], stopNo := 0, stuck := 0 }
    let s4 := parkStart (setUnit .ready s3)
    match activeJob s4 with
    | some j => atBoundary j s4
    | none => selectFree s4

/-- The next stop is loaded and the carriage ordered there, in MOVE (R61). -/
def nextStop (st : Stop) (s : State) : State :=
  let s1 := s.modEngine fun e => { e with state := .move, stopNo := e.stopNo + 1, stuck := 0 }
  (loadStop st s1).modDrive fun d => { d with carriage := d.carriage.order st.x }

/-- The current stop, once complete, gives way to the next, or the line is set (R61). -/
def stopDone (s : State) : State :=
  match stopAt s.engine.stops (s.engine.stopNo + 1) with
  | some st => nextStop st s
  | none => lineSet (s.modEngine fun e => { e with stuck := 0 })

/-- The stop is complete: in FLASH or WAIT_TRACK the ring holds no exposure item and no result watch is open
(R61). -/
def stopComplete (s : State) : Bool :=
  (s.engine.state == .flash || s.engine.state == .waitTrack) && (exposures s).isEmpty && s.engine.watch.isNone

/-! ### Ends of moves (R49, R62, R68, log 26) -/

/-- The three moves of preparation have ended (R49). -/
def prepared (s : State) : Bool :=
  s.drive.turret.act == .atRest && s.drive.film.advance.isNone && s.drive.carriage.act == .atRest

/-- What an engine whose moves have ended does next: PREPARE and MOVE end, or a galley close begins. -/
def moveEnded (s : State) : State :=
  match s.engine.state with
  | .prepare =>
    if prepared s then (if s.engine.stops.isEmpty then lineSet s else enterStop s) else s
  | .move => if s.drive.carriage.act = .atRest then enterStop s else s
  | .closing =>
    match s.engine.close with
    | none => s
    | some c => if c.phase = .ordered ∧ s.drive.allAtRest = true then beginClose c s else s
  | .idle | .flash | .waitFilm | .waitTrack => s

/-- Goes on as long as moves that have ended already let the engine go on: moves that take no step end at once
(log 26). -/
def carryOnFor : Nat → State → State
  | 0, s => s
  | n + 1, s => carryOnFor n (moveEnded s)

/-- Each pass that does anything more than the one before sets a line or ends a close, and a close is followed by
a line of its own, so twice the number of lines and a few passes are enough (log 26). -/
def carryOn (s : State) : State := carryOnFor (2 * s.store.lines.length + 4) s

/-- What an empty queue lets happen: ten microseconds pass, and a galley close that a JOB-CANCEL in WAIT_FILM ordered
begins (R68, logs 2 and 38). -/
def idle (s : State) : State :=
  powered s fun s => if s.engine.state = .closing then carryOn (tick s) else tick s

/-! ### Faults and stuck stops (R65, R157, R170) -/

/-- The ACTIVE job at a fault: its line is abandoned and kept, and it is SUSPENDED with reason FAULT (R157). -/
def faultJob (s : State) : State :=
  let s1 := abandon .fault none s
  match activeJob s1 with
  | none => s1
  | some j => suspendJob j .suspended .fault s1

/-- The galley close after a fault, ordered only while the galley is open and no close is in progress; it names the
job that was ACTIVE (R153, R157, R170 step 4). With no job ACTIVE it names none and still marks a selection pending
(log 22). -/
def faultClose (job : Option (Nat × CLine)) (s : State) : State :=
  if s.drive.film.galleyOpen && s.engine.state != .closing then orderClose job s else s

/-- A fault handed to Spin Control: disregarded unless the unit is in a spinning state (R170). -/
def handFault (kind : FaultKind) (detail : Int) (s : State) : State :=
  if s.spin.unit.spinning then
    let job := (activeJob s).map fun j => (j.number, j.owner)
    carryOn (faultClose job (faultJob (enterFaulted kind detail (postBoth (.fault kind detail) s))))
  else s

/-- A stuck stop: the line is abandoned, the job's lines are freed, the job FAILED, and the galley closed (R65,
R157). -/
def stuckStop (t : Track) (s : State) : State :=
  let s1 := abandon .stuck (some t) s
  match activeJob s1 with
  | none => s1
  | some j =>
    let s2 := freeLines j.number .failed s1
    let s3 := post j.owner (.jobFailed j.number t j.committed j.setCount) s2
    orderClose (some (j.number, j.owner)) (leaveActive (removeJob j.number s3))

/-! ### The end of an identification (R166) -/

/-- The job for which a disc is wanted: none while the unit is held or a galley close holds the selection (R166). -/
def wantedBy (s : State) : Option Job :=
  if s.spin.hold || s.engine.state == .closing then none
  else match activeJob s with
    | some j => some j
    | none => winner s

/-- READY with the identified disc mounted (R166, steps 2 and 4). -/
def mountDisc (d : Nat) (s : State) : State :=
  let s1 := postBoth (.discMounted d) (s.modSpin fun sp => { sp with mounted := d })
  queryMap (parkStart (setUnit .ready s1))

/-- DISC_CHANGE after an identification (R166, steps 3 and 4). -/
def refuseDisc (want : Option Job) (s : State) : State :=
  queryMap (enterDiscChange ((want.map Job.disc).getD 0) ((want.map Job.number).getD 0) s)

/-- The outcome may be mounted: an ID that is the disc wanted, or any ID when none is wanted (R166). -/
def discSuits (d : Nat) (want : Option Job) : Bool :=
  d != 0 && (match want with
    | none => true
    | some j => j.disc == d)

/-- What the sequencer does once the unit is READY or in DISC_CHANGE: the steps of R151 for the ACTIVE job, or the
winner made ACTIVE (R150, R152, R166 step 5, log 20). -/
def afterIdentify (want : Option Job) (mounted : Bool) (s : State) : State :=
  if s.engine.state = .closing then s.modSeq fun q => { q with pendingSel := true }
  else match activeJob s with
    | some j => atBoundary j s
    | none =>
      match want with
      | some j => if mounted then activate j s else s
      | none => s

/-- Identification ends with an ID, or 0 for a blank disc (R166). -/
def identified (d : Nat) (s : State) : State :=
  let want := wantedBy s
  let s1 := s.modSpin fun sp => { sp with present := d }
  if discSuits d want then afterIdentify want true (mountDisc d s1)
  else afterIdentify want false (refuseDisc want s1)

end Sys2Proof.Machine
end

