-- ==== Sys2Proof/Machine/DiscEvents.lean ====
section
/-!
DEFINITION. Encoder edges, the index event in the order of R73, the revolution monitor's limits, and the ID ring
(chapter 4).
-/
namespace Sys2Proof.Machine

/-! ### Encoder edges (R72, R76, R87) -/

/-- The counter goes up by 1, and stops at 8191 (R72). -/
def countedUp (c : Int) : Int := min 8191 (c + 1)

/-- The counter goes down by 1, and stops at -4096 (R72). -/
def countedDown (c : Int) : Int := max (-4096) (c - 1)

/-- An up-count that brings the counter onto the loaded angle, with the angle valid, is an arrival (R87). -/
def arrives (d : Disc) : Bool :=
  d.valid && decide (d.counter < 8191) && d.channel.any fun n => (n : Int) == d.counter + 1

/-- An up-count edge (R72, R87). -/
def edgeUp (s : State) : State :=
  let s1 := s.modDisc fun d => { d with counter := countedUp d.counter }
  if arrives s.disc then carryOn (compareEvent s1) else s1

/-- A down-count edge; while LOCKED it is a slip, posted once per revolution (R72, R76). -/
def edgeDown (s : State) : State :=
  let c := countedDown s.disc.counter
  let s1 := s.modDisc fun d => { d with counter := c }
  if s.disc.locked && !s.disc.slipMark && decide (-4096 < s.disc.counter) then
    (postBoth (.slip c) s1).modDisc fun d => { d with slipMark := true }
  else s1

/-! ### Speed lock (R78, R79) -/

/-- Speed lock is LOCKED: the spin-up and unlock timers stop, Spin Control may leave SPIN_UP, and the Trim Unit may
start a search (R78). -/
def becomeLocked (s : State) : State :=
  let s1 := s.modDisc fun d => { d with locked := true, lockRun := 8, reached := true, spinup := none, unlock := none }
  aim (startSearch (judgeSpinUp s1))

/-- Speed lock is UNLOCKED; the unlock timer starts if LOCKED has been reached (R79, R82). -/
def becomeUnlocked (s : State) : State :=
  s.modDisc fun d =>
    { d with locked := false, lockRun := 0, unlock := if d.reached then some Config.unlockLimit else d.unlock }

/-- A judged revolution's period is tested against the band that applies (R78, R79). -/
def testPeriod (p : Nat) (s : State) : State :=
  if s.disc.locked then
    if 9900 ≤ p ∧ p ≤ 10100 then s else becomeUnlocked s
  else if 9950 ≤ p ∧ p ≤ 10050 then
    if s.disc.lockRun + 1 < 8 then s.modDisc fun d => { d with lockRun := d.lockRun + 1 } else becomeLocked s
  else s.modDisc fun d => { d with lockRun := 0 }

/-! ### Slip (R75, R76) -/

/-- A slipped revolution: SLIP unless it is marked already, and at the third in a row ENCODER_FAULT (R75). -/
def slipped (capture : Int) (s : State) : State :=
  let s1 := if s.disc.slipMark then s else postBoth (.slip capture) s
  let n := min 3 (s.disc.slipCount + 1)
  let s2 := s1.modDisc fun d => { d with slipCount := n }
  if n = 3 then handFault .encoder capture s2 else s2

/-- Step 3 of the index event: the angle becomes valid, or the revolution is judged for slip and then for lock
(R73 to R79). -/
def judgeRevolution (capture : Int) (period : Nat) (s : State) : State :=
  if !s.disc.valid then s.modDisc fun d => { d with valid := true }
  else if capture ≠ 2880 ∨ s.disc.slipMark = true then slipped capture s
  else testPeriod period (s.modDisc fun d => { d with slipCount := 0 })

/-! ### The engine's and the reader's part of an index event (R64, R84) -/

/-- The four conditions under which an index event counts toward the stuck count (R64). -/
def stuckCounts (s : State) : Bool :=
  s.engine.state == .flash && !(exposures s).isEmpty && !s.engine.firedSinceIndex && s.disc.locked
    && !exposureOn TrimState.inSearch s

/-- Step 4 for the engine: the stuck count, and at 16 the stuck stop with the track of the first exposure item
(R64, R65). -/
def indexToEngine (s : State) : State :=
  let s1 := s.modEngine fun e => { e with firedSinceIndex := false }
  if stuckCounts s then
    let s2 := s1.modEngine fun e => { e with stuck := e.stuck + 1 }
    match (exposures s).head? with
    | some it => if 16 ≤ s2.engine.stuck then stuckStop it.track s2 else s2
    | none => s2
  else s1

/-- The samples an identification takes at most (R84). -/
def sampleMax : Nat := 8

/-- A sample of the ID ring is added and the list judged (R84). -/
def sampleRing (v : Nat) (s : State) : State :=
  let s1 := s.modDisc fun d => { d with samples := d.samples ++ [v] }
  if s.disc.samples.getLast? = some v then identified v s1
  else if s.disc.samples.length + 1 < sampleMax then s1
  else handFault .id v s1

/-! ### The index event (R73) -/

/-- Steps 1 and 2: capture and period are taken, the counter and the period timer start from 0, and the stall timer
starts again where it runs (R73, R77, R82). -/
def capture (s : State) : State :=
  s.modDisc fun d =>
    { d with lastCapture := d.counter, counter := 0, lastPeriod := d.period, period := 0
             stall := if s.spin.unit.stallRuns then some Config.stallLimit else d.stall }

/-- Steps 3 to 5, in a spinning state: the judgement, then, unless it led to FAULTED, the engine, the reader, and
the arrival at angle 0 if the channel held 0 as the counter was cleared (R73, R87, logs 13 and 14). -/
def indexWork (ring : Nat) (s : State) : State :=
  let s1 := judgeRevolution s.disc.counter s.disc.period (capture s)
  if s1.spin.unit = .faulted then s1
  else
    let s2 := indexToEngine s1
    let s3 := if s.spin.unit = .identify ∧ s2.spin.unit = .identify then sampleRing ring s2 else s2
    if s.disc.channel = some 0 ∧ s3.disc.channel = some 0 ∧ s3.disc.valid = true then compareEvent s3 else s3

/-- The index event (R73); the slip mark is cleared at its end (R76). -/
def indexEvent (ring : Nat) (s : State) : State :=
  let s1 := if s.spin.unit.spinning then indexWork ring s else capture s
  carryOn (s1.modDisc fun d => { d with slipMark := false })

/-! ### Meanings -/

/-- ENCODER_EDGE (R72). -/
def execEncoderEdge (d : EdgeDir) (s : State) : Host.Outcome State Fault Refusal :=
  .next (powered s fun s =>
    match d with
    | .up => edgeUp s
    | .down => edgeDown s)

/-- INDEX_EVENT (R73). -/
def execIndexEvent (ring : BitVec 4) (s : State) : Host.Outcome State Fault Refusal :=
  .next (powered s (indexEvent ring.toNat))

/-- A limit that has run out raises its fault; a stopped timer raises nothing, and neither does one that has been
started again and has time left (R83, R88, log 3). -/
def limitFault (timer : Option Nat) (kind : FaultKind) (detail : Int) (s : State) : State :=
  if runOut timer then handFault kind detail s else s

/-- SPINUP_FAULT, with the lock run as detail (R81). -/
def execSpinupFault (s : State) : Host.Outcome State Fault Refusal :=
  .next (powered s fun s => limitFault s.disc.spinup .spinup s.disc.lockRun s)

/-- STALL, with the unit state as detail (R82). -/
def execStall (s : State) : Host.Outcome State Fault Refusal :=
  .next (powered s fun s => limitFault s.disc.stall .stall s.spin.unit.code s)

/-- SPEED_FAULT, with the last period as detail (R82). -/
def execSpeedFault (s : State) : Host.Outcome State Fault Refusal :=
  .next (powered s fun s => limitFault s.disc.unlock .speed s.disc.lastPeriod s)

end Sys2Proof.Machine
end

