-- ==== Sys2Proof/Machine/Receiver.lean ====
section
/-!
DEFINITION. The receiver of a Composing Line Interface (chapter 10): station and body characters, the end of a
frame, spoiled frames, breaks and silence, and the offer to the pending slot.
-/
namespace Sys2Proof.Machine

/-- PASS and the good-frame run are cleared together (R186). -/
def Iface.clearPass (i : Iface) : Iface := { i with pass := false, run := 0 }

/-- The gap limit of two character times, in ticks of 10 microseconds rounded up (Table 10-1). -/
def gapLimit : Rate → Nat
  | .r9600 => 230
  | .r19200 => 115
  | .r38400 => 58
  | .r76800 => 29

/-- The gap timing starts again at each character of a frame (R184). -/
def Iface.restartGap (i : Iface) : Iface := { i with gap := some (gapLimit i.rate) }

/-- The receiver leaves TAKING, or does not enter it: the gap timing stops. -/
def Iface.receive (i : Iface) (rx : Rx) : Iface := { i with rx := rx, gap := none }

/-- A new frame in progress (R182). -/
def Partial.start (broadcast : Bool) : Partial :=
  { broadcast := broadcast, kind := none, tag := none, len := none, data := [], check := crcStart, checkHi := none }

/-- The station strap puts the line in service (R180). -/
def Iface.inService (i : Iface) : Bool := i.station.toNat != 0 && i.station.toNat != 31

/-- A station character judged as in HUNT (R180, R182). -/
def Iface.judgeStation (i : Iface) (c : Byte) : Iface :=
  if i.inService then
    if c.toNat = i.station.toNat then (i.receive (.taking (Partial.start false))).restartGap
    else if c.toNat = 31 then (i.receive (.taking (Partial.start true))).restartGap
    else i.receive .passing
  else i.receive .passing

/-- A station character (R182): a frame in progress is dropped with PASS cleared; in SILENT nothing is taken. -/
def Iface.stationCharacter (i : Iface) (c : Byte) : Iface :=
  match i.rx with
  | .silent => i
  | .taking _ => i.clearPass.judgeStation c
  | .hunt | .passing | .discard => i.judgeStation c

/-- An entry is offered to the pending slot: it is placed in an empty slot, and discarded with overrun set by a
full one (R187). -/
def Iface.offer (i : Iface) (e : Entry) : Iface :=
  match i.slot with
  | none => { i with slot := some e }
  | some _ => { i with overrun := true }

/-- A good frame raises the run, which does not rise past 4, and sets PASS at 4 (R186). -/
def Iface.goodFrame (i : Iface) : Iface :=
  { i with run := min 4 (i.run + 1), pass := i.pass || decide (4 ≤ i.run + 1) }

/-- The check as computed agrees with the two bytes received, high byte first (R183). -/
def Partial.checkGood (f : Partial) (hi lo : Byte) : Bool := f.check == hi ++ lo

/-- The end of a frame at its second check byte (R183): a good frame is offered as such, an addressed frame with a
mismatch as a check-failed entry, and a broadcast frame with a mismatch not at all. -/
def Iface.frameEnds (i : Iface) (f : Partial) (kind tag hi lo : Byte) : Iface :=
  let i1 := i.receive .hunt
  if f.checkGood hi lo then i1.goodFrame.offer (.frame f.broadcast kind tag f.data)
  else if f.broadcast then i1.clearPass
  else i1.clearPass.offer (.checkFailed tag)

/-- A spoiled frame: DISCARD, with PASS cleared (R184). -/
def Iface.spoil (i : Iface) : Iface := (i.clearPass).receive .discard

/-- The frame in progress with one more body character taken, and the gap timed afresh (R183). -/
def Iface.takes (i : Iface) (f : Partial) : Iface := { i with rx := .taking f }.restartGap

/-- A body character taken in TAKING: kind, tag, length, data and check bytes in this order (R183, R184, log 8). -/
def Iface.takeBody (i : Iface) (f : Partial) (c : Byte) : Iface :=
  match f.kind, f.tag, f.len, f.checkHi with
  | none, _, _, _ => i.takes { f with kind := some c, check := crcByte f.check c }
  | some _, none, _, _ => i.takes { f with tag := some c, check := crcByte f.check c }
  | some _, some _, none, _ =>
    if 250 < c.toNat then i.spoil else i.takes { f with len := some c, check := crcByte f.check c }
  | some _, some _, some n, none =>
    if f.data.length < n.toNat then i.takes { f with data := f.data ++ [c], check := crcByte f.check c }
    else i.takes { f with checkHi := some c }
  | some kind, some tag, some _, some hi => i.frameEnds f kind tag hi c

/-- A body character: disregarded but in TAKING (R181, R182). -/
def Iface.bodyCharacter (i : Iface) (c : Byte) : Iface :=
  match i.rx with
  | .taking f => i.takeBody f c
  | .silent | .hunt | .passing | .discard => i

/-- A character with a framing error spoils a frame in TAKING and is disregarded elsewhere (R181, R184). -/
def Iface.framingError (i : Iface) : Iface :=
  match i.rx with
  | .taking _ => i.spoil
  | .silent | .hunt | .passing | .discard => i

/-- A gap of more than two character times in TAKING drops the frame (R184); a character taken meanwhile has started the
gap timing again (log 3). -/
def Iface.gapEnds (i : Iface) : Iface :=
  match i.rx with
  | .taking _ => if runOut i.gap then i.clearPass.receive .hunt else i
  | .silent | .hunt | .passing | .discard => i

/-- A character was taken whole, or marking stood: the spell of spacing before it has ended (R185, log 7). -/
def Iface.spellEnds (i : Iface) : Iface := { i with spell := .nothing }

/-- Changes one interface. -/
def modLine (l : CLine) (f : Iface → Iface) (s : State) : State := s.modIface fun p => p.set l (f (p.get l))

/-- The interface takes a break (R185): at most one in a spell, and none in SILENT. -/
def Iface.takeBreak (i : Iface) : Iface := { (i.clearPass.receive .hunt) with spell := .broke }

/-- The spacing detector acts in every receiver state but SILENT (R185). -/
def Iface.detectorActs (i : Iface) : Bool := i.rx != .silent

/-- The receiver falls SILENT (R185). -/
def Iface.fallSilent (i : Iface) : Iface := { (i.clearPass.receive .silent) with spell := .silenced }

/-- A break on a line: the interface's part and the Line Store's (R37, R185). -/
def lineBroken (l : CLine) (s : State) : State :=
  if (s.iface.get l).detectorActs then discardAssembly l (some .lineBreak) (modLine l Iface.takeBreak s) else s

/-- A silence on a line: LINE_FAULT goes to the other line's queue (R185). -/
def lineSilent (l : CLine) (s : State) : State :=
  if (s.iface.get l).detectorActs then post l.other (.lineFault l) (modLine l Iface.fallSilent s) else s

/-- Marking for one character time: a SILENT receiver enters HUNT (R185). -/
def Iface.marking (i : Iface) : Iface :=
  match i.rx with
  | .silent => (i.receive .hunt).spellEnds
  | .hunt | .taking _ | .passing | .discard => i.spellEnds

end Sys2Proof.Machine
end

