-- ==== Sys2Proof/Machine/Report.lean ====
section
/-!
DEFINITION. What goes out on the up pair (chapter 12): event records, the four kinds of reply as frames, and the
data of the four REPORT topics (R202 to R204). A byte that no rule gives a value is a free value (log 24).
-/
namespace Sys2Proof.Machine

/-! ### Fields (R200) -/

def u8 (n : Nat) : Byte := BitVec.ofNat 8 n

/-- Two bytes, high byte first. -/
def u16 (n : Nat) : List Byte := [u8 (n / 256), u8 n]

/-- Three bytes, high byte first. -/
def u24 (n : Nat) : List Byte := [u8 (n / 65536), u8 (n / 256), u8 n]

/-- Two bytes of a signed value, two's complement. -/
def i16 (n : Int) : List Byte := u16 (n % 65536).toNat

/-- One byte of a signed value. -/
def i8 (n : Int) : Byte := u8 (n % 256).toNat

def flag (b : Bool) : Byte := u8 b.toNat

/-- A list of bytes brought to a length with a filler byte. -/
def padTo (n : Nat) (fill : Byte) (bs : List Byte) : List Byte := bs ++ List.replicate (n - bs.length) fill

/-! ### Event records (R203) -/

/-- The kind code of an event (Table 12-5). -/
def Event.code : Event → Nat
  | .lineSet .. => 1
  | .lineAbandoned .. => 2
  | .assemblyDropped .. => 3
  | .jobDone .. => 4
  | .jobCancelled .. => 5
  | .jobFailed .. => 6
  | .jobSuspended .. => 7
  | .jobResumed .. => 8
  | .galleyClosed .. => 9
  | .filmLow .. => 10
  | .filmOut .. => 11
  | .discRequest .. => 12
  | .discMounted .. => 13
  | .trackTrimmed .. => 14
  | .trackUnusable .. => 15
  | .fault k _ => k.code
  | .slip .. => 21
  | .lineFault .. => 24
  | .start .. => 25
  | .unitReset .. => 26
  | .lineReset => 27

/-- The job byte of a record, 0 when none. -/
def Event.job : Event → Nat
  | .lineSet n .. | .lineAbandoned n .. | .assemblyDropped n .. | .jobDone n .. | .jobCancelled n .. => n
  | .jobFailed n .. | .jobSuspended n .. | .jobResumed n .. | .galleyClosed n .. | .filmOut n .. => n
  | .discRequest n .. => n
  | .filmLow .. | .discMounted .. | .trackTrimmed .. | .trackUnusable .. | .fault .. | .slip .. | .lineFault ..
  | .start .. | .unitReset .. | .lineReset => 0

/-- The line number of a record, 0 when none. -/
def Event.lineNo : Event → Nat
  | .lineSet _ n .. | .lineAbandoned _ n .. | .assemblyDropped _ n _ | .filmOut _ n .. => n
  | .jobDone .. | .jobCancelled .. | .jobFailed .. | .jobSuspended .. | .jobResumed .. | .galleyClosed ..
  | .filmLow .. | .discRequest .. | .discMounted .. | .trackTrimmed .. | .trackUnusable .. | .fault .. | .slip ..
  | .lineFault .. | .start .. | .unitReset .. | .lineReset => 0

/-- The track byte of LINE_ABANDONED: 255 unless STUCK (Table 12-5). -/
def trackByte : Option Track → Byte
  | none => u8 255
  | some t => u8 t.val

/-- The detail fields of a record (Table 12-5). -/
def Event.detail : Event → List Byte
  | .lineSet _ _ m d => u8 m :: u16 d
  | .lineAbandoned _ _ c st m d t => [u8 c.code, u8 st, u8 m] ++ u16 d ++ [trackByte t]
  | .assemblyDropped _ _ r => [u8 r.code]
  | .jobDone _ f => u16 f
  | .jobCancelled _ c n => u16 c ++ u16 n
  | .jobFailed _ t c n => [u8 0, u8 t.val] ++ u16 c ++ u16 n
  | .jobSuspended _ r c n => [u8 r.code] ++ u16 c ++ u16 n
  | .jobResumed _ r n => u8 (suspendCode r) :: u16 n
  | .galleyClosed _ n cut rem => u16 n ++ [flag cut] ++ u24 rem
  | .filmLow rem => u24 rem
  | .filmOut _ _ need rem => u16 need ++ u24 rem
  | .discRequest _ d p => [u8 d, u8 p]
  | .discMounted d => [u8 d]
  | .trackTrimmed d t c n m => [u8 d, u8 t.val, u8 c, u8 n, u8 m]
  | .trackUnusable d t c n => [u8 d, u8 t.val, u8 c, u8 n, u8 0]
  | .fault _ x => i16 x
  | .slip x => i16 x
  | .lineFault l => [u8 (lineCode l)]
  | .start c => [u8 c.code]
  | .unitReset c => [u8 c.code]
  | .lineReset => []

/-- An event record of 12 bytes (R203). -/
def Event.bytes (e : Event) : List Byte :=
  [u8 e.code, u8 e.job] ++ u16 e.lineNo ++ padTo 8 0 e.detail

/-! ### Reply frames (R188, R202) -/

/-- The kind byte of a reply (Table 12-4). -/
def ReplyBody.code : ReplyBody → Nat
  | .accepted => 0x81
  | .refused _ _ => 0x82
  | .report _ _ => 0x83
  | .events _ => 0x84

/-- The data of a reply after its status byte; a detail wider than two bytes is sent as 65,535 (R200, R202). -/
def ReplyBody.data : ReplyBody → List Byte
  | .accepted => []
  | .refused r d => u8 r.code :: u16 (min 65535 d)
  | .report topic bs => u8 topic :: bs
  | .events es => u8 es.length :: es.flatMap Event.bytes

/-- The bytes of a reply from its kind to its last data byte: those the check covers (R183). -/
def Reply.covered (r : Reply) : List Byte :=
  let data := r.status.byte :: r.body.data
  [u8 r.body.code, r.tag, u8 data.length] ++ data

/-- A station character: marker 1, naming a station (R181). -/
def stationChar (station : Byte) : Character := { marker := true, data := station }

/-- A body character: marker 0, one byte of a frame (R181). -/
def bodyChar (b : Byte) : Character := { marker := false, data := b }

/-- The characters of a reply in the order they are driven on the up pair: the station character, then body characters,
the check last, high byte first (R188, R202, log 30). -/
def Reply.frame (r : Reply) : List Character :=
  stationChar (u8 r.station.toNat) :: (r.covered ++ u16 (crcBytes crcStart r.covered).toNat).map bodyChar

/-! ### Free values of a report (log 24) -/

/-- How many free values one REPORT may read. -/
def freePerReport : Nat := 64

/-- The `k`-th unstated byte of the report built now. -/
def freeByteAt (s : State) (k : Nat) : Byte := Config.freeByte (s.freeCount + k)

/-- `n` unstated bytes from the `k`-th on. -/
def freeBytes (s : State) (k n : Nat) : List Byte := (List.range n).map fun i => freeByteAt s (k + i)

/-- A time in ticks as whole units, rounded up. -/
def unitsUp (unit n : Nat) : Nat := (n + unit - 1) / unit

/-- A time in whole units where the spec gives no rounding: either neighbour of a time that is no whole number of
units. -/
def unitsFree (s : State) (k unit n : Nat) : Nat :=
  if n % unit = 0 then n / unit else n / unit + (Config.partUnitUp (s.freeCount + k)).toNat

/-- The time left on a timer, 0 when it is stopped. -/
def timeLeft (t : Option Nat) : Nat := t.getD 0

/-! ### UNIT topic (R178, R90, R116, R135, R190, R196) -/

def spinPart (s : State) : List Byte :=
  let sp := s.spin
  let requested := if sp.unit = .discChange then sp.requested.getD 0 else 0
  let fault := match sp.lastFault with
    | none => u8 0 :: freeBytes s 0 2
    | some f => u8 f.kind.code :: i16 f.detail
  [u8 sp.unit.code, flag sp.hold, u8 sp.mounted, u8 sp.present, u8 requested, u8 sp.parkDelay]
    ++ u16 (unitsUp (1000 * Config.ms) (timeLeft sp.parkTimer)) ++ [u8 sp.cause.code] ++ fault
    ++ [u8 sp.readySource.code, u8 (lamps s).bits]

def discPart (s : State) : List Byte :=
  let d := s.disc
  [flag d.valid] ++ i16 d.counter ++ i16 d.lastCapture ++ u16 d.lastPeriod
    ++ [flag d.locked, u8 d.lockRun, u8 d.slipCount, flag d.reached]
    ++ u16 (unitsFree s 2 (10 * Config.ms) (timeLeft d.unlock)) ++ u16 (d.channel.getD 65535)
    ++ [u8 d.samples.length] ++ padTo 8 0 (d.samples.map u8)

def bankPart (s : State) : List Byte :=
  let b := s.bank
  [u8 b.set, u8 b.qualMs, u8 b.level, u8 b.state.code, u8 b.readyRun, u8 b.heavyRun]
    ++ u16 (unitsFree s 3 10 (timeLeft b.watch)) ++ u16 b.lastRecharge ++ u16 b.longestRecharge ++ [flag b.charger]

/-- A cut is in progress (R132). -/
def cutRuns (s : State) : Bool :=
  match s.engine.close with
  | some c => c.phase == .cutting
  | none => false

def filmFlags (s : State) : Nat :=
  let f := s.drive.film
  f.galleyOpen.toNat + f.lowArm.toNat * 2 + f.low.toNat * 4 + f.out.toNat * 8 + f.advance.isSome.toNat * 16
    + (cutRuns s).toNat * 32

/-- The drive's part of the UNIT topic (R135). A move that has been stopped has no target to report (log 39), and the
rise of no target is a free value (log 24). -/
def drivePart (s : State) : List Byte :=
  let d := s.drive
  let target := match d.deflector.target with
    | none => [u8 255, freeByteAt s 4]
    | some (t, r) => [u8 t.val, i8 r]
  u16 d.carriage.position ++ [u8 d.carriage.dir.code, u8 d.carriage.takeUp, u8 d.carriage.act.code]
    ++ [u8 d.deflector.track, i8 d.deflector.rise, u8 d.deflector.act.code] ++ target
    ++ [u8 d.turret.position, u8 d.turret.act.code, flag d.homingDone]
    ++ u24 d.film.remaining ++ u24 d.film.load ++ [u8 (filmFlags s)]

def Iface.part (i : Iface) : List Byte :=
  [u8 i.station.toNat, u8 (rateCode i.rate), u8 i.rx.code, flag i.pass, u8 i.run]

def Queue.part (q : Queue) : List Byte := [u8 q.events.length, flag q.lost]

/-- The UNIT topic, 14 + 24 + 13 + 20 + 2 × 5 + 2 × 2 bytes. -/
def unitTopic (s : State) : List Byte :=
  spinPart s ++ discPart s ++ bankPart s ++ drivePart s ++ s.iface.a.part ++ s.iface.b.part
    ++ s.queues.a.part ++ s.queues.b.part

/-! ### JOB topic (R161) -/

/-- The line number a job expects next, as sent: 0 beyond 65,535 (Table 12-6). -/
def expectedByte (committed : Nat) : Nat := if 65535 < committed + 1 then 0 else committed + 1

/-- One job's record, 20 bytes. -/
def Job.part (j : Job) : List Byte :=
  [u8 j.number, u8 j.cls.code, u8 j.disc, u8 (lineCode j.owner), flag j.cut, flag j.final.isSome]
    ++ u16 (j.final.getD 0) ++ u16 j.committed ++ u16 j.setCount ++ u16 j.order
    ++ [u8 j.state.code, flag j.held, flag j.started, u8 (suspendCode j.reason)] ++ u16 (expectedByte j.committed)

/-- Puts a job into a list in ascending open order. -/
def insertByOrder (j : Job) : List Job → List Job
  | [] => [j]
  | k :: ks => if j.order ≤ k.order then j :: k :: ks else k :: insertByOrder j ks

/-- The live jobs in ascending open order. -/
def byOrder : List Job → List Job
  | [] => []
  | j :: js => insertByOrder j (byOrder js)

/-- A job's line of the table summary: number, class, state, unset lines. -/
def Job.row (j : Job) : List Byte :=
  [u8 j.number, u8 j.cls.code, u8 j.state.code] ++ u16 (j.committed - j.setCount)

/-- The table summary, 8 bytes and 5 per live job. -/
def jobTable (s : State) : List Byte :=
  [u8 (((activeJob s).map Job.number).getD 0)]
    ++ u16 (unitsFree s 5 (10 * Config.ms) (timeLeft s.seq.starve))
    ++ [flag s.seq.grace, flag s.seq.pendingSel] ++ u16 s.seq.openCounter ++ [u8 s.jobs.length]
    ++ (byOrder s.jobs).flatMap Job.row

/-! ### TRIMS topic (R15, R107) -/

/-- A trim record: code, state, and the prior code or 255. -/
def TrimRec.part (r : TrimRec) : List Byte :=
  [u8 r.code, u8 r.state.code, u8 (if r.state.inSearch then (r.prior.map Prior.code).getD r.code else 255)]

/-- The entries of a slot on one track (R1). -/
def MapSlot.trackCount (m : MapSlot) (t : Track) : Nat := m.entries.countP fun e => e.track == t

/-- A slot report with its trim records, 43 bytes; a FREE slot reports disc 0 (R15, R107). -/
def slotPart : Option MapSlot → List Byte
  | none => [u8 0] ++ u16 0 ++ List.replicate 16 0 ++ (List.replicate 8 [u8 0, u8 0, u8 255]).flatten
  | some m =>
    [u8 m.disc] ++ u16 m.entries.length ++ (allTracks.flatMap fun t => u16 (m.trackCount t))
      ++ m.trims.toList.flatMap TrimRec.part

/-- The search: with none, track 255 and six bytes no rule gives. -/
def searchPart (s : State) : List Byte :=
  match s.trim.search with
  | none => u8 255 :: freeBytes s 6 6
  | some c => [u8 c.track.val, u8 c.code, u8 c.tried, u8 c.limit, u8 c.dwell, u8 c.fired, u8 c.misses]

/-- The Trim Unit, 38 bytes. -/
def trimPart (s : State) : List Byte :=
  let u := s.trim
  [u8 u.limits.floor, u8 u.limits.ceiling, u8 u.limits.dwell, u8 u.limits.searchMiss, u8 u.limits.monitorMiss,
    u8 u.queueDisc, u8 u.queue.length]
    ++ padTo 8 255 (u.queue.map fun t => u8 t.val) ++ searchPart s
    ++ u.windows.toList.flatMap fun w => [u8 w.length, u8 (missCount w)]

/-- The TRIMS topic, 4 × 43 + 38 bytes. -/
def trimsTopic (s : State) : List Byte := s.maps.toList.flatMap slotPart ++ trimPart s

/-! ### LINE topic (R42, R71) -/

/-- A composing line's assembly; with none, job 0 and five bytes no rule gives. -/
def assemblyPart (s : State) (k : Nat) : Option Assembly → List Byte
  | none => u8 0 :: freeBytes s k 5
  | some a => [u8 a.header.job] ++ u16 a.header.line
      ++ [u8 a.header.count, u8 a.sorts.length, u8 (unitsUp (10 * Config.ms) a.deadline)]

/-- The Line Store, 17 bytes. -/
def storePart (s : State) : List Byte :=
  let st := s.store
  u16 st.freeCells
    ++ [u8 st.freeRecords, u8 (st.lines.countP fun r => !r.current), u8 (st.lines.countP fun r => r.current)]
    ++ assemblyPart s 12 st.assembly.a ++ assemblyPart s 17 st.assembly.b

/-- The defer count of an item; a test item has none. -/
def Item.deferCount : Item → Nat
  | .exposure _ _ d => d
  | .test _ _ => 0

/-- The sweep as sent; none since the last start or unit reset is a byte no rule gives. -/
def sweepByte (s : State) : Option Dir → Byte
  | none => freeByteAt s 24
  | some d => u8 d.code

/-- The exposure engine, 17 bytes; the x of a line that has no stop is not stated. -/
def enginePart (s : State) : List Byte :=
  let e := s.engine
  let place := match e.current with
    | none => [u8 0] ++ u16 0 ++ [u8 0, u8 0] ++ u16 0
    | some r => [u8 r.job] ++ u16 r.line ++ [u8 e.stops.length, u8 e.stopNo]
        ++ (match stopAt e.stops e.stopNo with
          | some st => u16 st.x
          | none => freeBytes s 22 2)
  let test := (e.ring.find? fun it => !it.isExposure).map Item.track
  [u8 e.state.code] ++ place
    ++ [sweepByte s e.sweep, u8 (exposures s).length]
    ++ u16 ((exposures s).foldl (fun m it => max m it.deferCount) 0)
    ++ [u8 e.stuck, u8 e.misreg] ++ u16 e.deferral ++ [trackByte test]

/-- The LINE topic. -/
def lineTopic (s : State) : List Byte := storePart s ++ enginePart s

end Sys2Proof.Machine
end

