-- ==== Sys2Proof/Machine/Handler.lean ====
section
/-!
DEFINITION. The Message Handler (chapter 11): taking an entry from a pending slot, the leading checks of Table 11-2,
and the building of the reply.
-/
namespace Sys2Proof.Machine

/-- What handling a message leaves: the part after it, and the body of its reply. -/
abbrev Handled := State × ReplyBody

def accept (s : State) : Handled := (s, .accepted)

def refuse (r : Reason) (detail : Nat) (s : State) : Handled := (s, .refused r detail)

/-- The entry the handler may take: the slot's, while the line's reply transmitter is idle (R187). -/
def takeable (l : CLine) (s : State) : Option Entry :=
  match (s.iface.get l).tx with
  | some _ => none
  | none => (s.iface.get l).slot

/-- Taking the entry empties the slot (R187). -/
def emptySlot (l : CLine) (s : State) : State := modLine l (fun i => { i with slot := none }) s

/-- The owner line of the live job a message names, if that is the other line (R142). -/
def wrongOwner (k : MsgKind) (l : CLine) (d : List Byte) (s : State) : Option CLine :=
  if k.namesJob then
    match findJob s.jobs (byteAt d 0) with
    | some j => if j.owner = l then none else some j.owner
    | none => none
  else none

/-- The leading checks of Table 11-2 from MALFORMED on: the first that fails, with its detail (R192). -/
def leadingFault (k : MsgKind) (l : CLine) (d : List Byte) (s : State) : Option (Reason × Nat) :=
  match malformed k (s.store.assembly.get l) d with
  | some n => some (.malformed, n)
  | none =>
    if k.needsPass d && !(s.iface.get l).pass then some (.notPassed, 0)
    else match wrongOwner k l d s with
      | some o => some (.notOwner, lineCode o)
      | none => none

/-- A message is judged by the leading checks, and then by its owning block (R192). -/
def judgeMsg (k : MsgKind) (l : CLine) (d : List Byte) (act : State → Handled) (s : State) : Handled :=
  match leadingFault k l d s with
  | some (r, n) => refuse r n s
  | none => act s

/-- The lost flag a reply shows: for an EVENTS reply as it stood when the POLL was taken (R194, R197). -/
def shownLost (b : ReplyBody) (before now : Bool) : Bool :=
  match b with
  | .events _ => before
  | .accepted | .refused _ _ | .report _ _ => now

/-- Free values a reply has read are not read again (log 24). -/
def freeRead : ReplyBody → Nat
  | .report _ _ => freePerReport
  | .accepted | .refused _ _ | .events _ => 0

/-- The reply as built from the part after the message: status byte, and overrun as it stands (R193, R194). -/
def replyOf (l : CLine) (tag : Byte) (lost : Bool) (h : Handled) : Reply :=
  { station := (h.1.iface.get l).station, tag := tag
    status := statusOf l (shownLost h.2 lost (h.1.queues.get l).lost) h.1, body := h.2 }

/-- The reply is built and given to the transmitter; building it clears the overrun flag (R187, R193, R194). -/
def sendReply (l : CLine) (tag : Byte) (lost : Bool) (h : Handled) : State :=
  { modLine l (fun i => { i with tx := some (replyOf l tag lost h), overrun := false }) h.1 with
    freeCount := h.1.freeCount + freeRead h.2 }

/-- An entry of a broadcast frame gets no reply, and leaves the overrun flag as it stands (R187, R189). -/
def answer (l : CLine) (broadcast : Bool) (tag : Byte) (lost : Bool) (h : Handled) : State :=
  if broadcast then h.1 else sendReply l tag lost h

/-- The handler takes a frame of kind `k` that `mine` picks out of the line's slot, makes its checks and its effect,
and answers it. Any other slot leaves the part as it was (log 1). -/
def handle (k : MsgKind) (l : CLine) (mine : List Byte → Bool) (act : Bool → List Byte → State → Handled)
    (s : State) : State :=
  match takeable l s with
  | some (.frame bc kind tag d) =>
    if kind.toNat = k.code && mine d then
      answer l bc tag (s.queues.get l).lost (judgeMsg k l d (act bc d) (emptySlot l s))
    else s
  | some (.checkFailed _) => s
  | none => s

/-- Any body of the kind. -/
def anyBody : List Byte → Bool := fun _ => true

/-- The bodies a row of a kind with a first byte of choices takes: its own choice, and what the kind's checks refuse,
a body of wrong length or a choice beyond the list (log 9). -/
def choiceOr (len choice choices : Nat) (d : List Byte) : Bool :=
  d.length != len || byteAt d 0 == choice || decide (choices ≤ byteAt d 0)

end Sys2Proof.Machine
end

