-- ==== Sys2Proof/Machine/Enquiries.lean ====
section
/-!
DEFINITION. The messages that read the part: ENQUIRE with its four topics, POLL, and the two entries the handler
refuses before it reads a kind (chapter 11).
-/
namespace Sys2Proof.Machine

/-- The last step of an ENQUIRE's checks: a topic beyond the list is refused RANGE (R195). -/
def enquire (topic : Nat) (data : List Byte → State → Handled) (d : List Byte) (s : State) : Handled :=
  if byteAt d 0 = topic then data d s else refuse .range 1 s

/-- A REPORT of a topic. -/
def report (topic : Nat) (bs : List Byte) (s : State) : Handled := (s, .report topic bs)

/-- ENQUIRE of topic UNIT (R195). -/
def execEnquireUnit (l : CLine) (s : State) : Host.Outcome State Fault Refusal :=
  .next (powered s (handle .enquire l (choiceOr 2 0 4) fun _ d =>
    enquire 0 (fun _ s => report 0 (unitTopic s) s) d))

/-- The JOB topic: the table for n = 0, the record of a live job, else NO_JOB (R161, R195). -/
def reportJob (d : List Byte) (s : State) : Handled :=
  if byteAt d 1 = 0 then report 1 (jobTable s) s
  else match findJob s.jobs (byteAt d 1) with
    | some j => report 1 j.part s
    | none => refuse .noJob 0 s

/-- ENQUIRE of topic JOB (R161, R195). -/
def execEnquireJob (l : CLine) (s : State) : Host.Outcome State Fault Refusal :=
  .next (powered s (handle .enquire l (choiceOr 2 1 4) fun _ d => enquire 1 reportJob d))

/-- ENQUIRE of topic TRIMS (R15, R107, R195). -/
def execEnquireTrims (l : CLine) (s : State) : Host.Outcome State Fault Refusal :=
  .next (powered s (handle .enquire l (choiceOr 2 2 4) fun _ d =>
    enquire 2 (fun _ s => report 2 (trimsTopic s) s) d))

/-- ENQUIRE of topic LINE (R42, R71, R195). -/
def execEnquireLine (l : CLine) (s : State) : Host.Outcome State Fault Refusal :=
  .next (powered s (handle .enquire l (choiceOr 2 3 4) fun _ d =>
    enquire 3 (fun _ s => report 3 (lineTopic s) s) d))

/-- How many events one POLL removes at most (R197). -/
def pollMax : Nat := 8

/-- The queue after a POLL; an empty queue clears the lost flag (R197). -/
def Queue.polled (q : Queue) : Queue :=
  { events := q.events.drop pollMax, lost := q.lost && decide (pollMax < q.events.length) }

/-- POLL's effect: the oldest events go out in the reply; a broadcast POLL removes none (R189, R197). -/
def pollQueue (l : CLine) (broadcast : Bool) (s : State) : Handled :=
  if broadcast then accept s
  else (s.modQueues fun q => q.set l (q.get l).polled, .events ((s.queues.get l).events.take pollMax))

/-- POLL (R197). -/
def execPoll (l : CLine) (s : State) : Host.Outcome State Fault Refusal :=
  .next (powered s (handle .poll l anyBody fun bc _ => pollQueue l bc))

/-- A check-failed entry is taken and answered REFUSED CHECK (R183, R192). -/
def refuseCheck (l : CLine) (s : State) : State :=
  match takeable l s with
  | some (.checkFailed tag) => sendReply l tag (s.queues.get l).lost (refuse .check 0 (emptySlot l s))
  | some (.frame _ _ _ _) => s
  | none => s

/-- CHECK_FAILED_ENTRY (R192). -/
def execCheckFailedEntry (l : CLine) (s : State) : Host.Outcome State Fault Refusal :=
  .next (powered s (refuseCheck l))

/-- A good frame of none of the 21 kinds is taken and refused with its kind as detail (R192). -/
def refuseKind (l : CLine) (s : State) : State :=
  match takeable l s with
  | some (.frame bc kind tag _) =>
    if knownKind kind then s
    else answer l bc tag (s.queues.get l).lost (refuse .unknownKind kind.toNat (emptySlot l s))
  | some (.checkFailed _) => s
  | none => s

/-- UNKNOWN_KIND (R192). -/
def execUnknownKind (l : CLine) (s : State) : Host.Outcome State Fault Refusal :=
  .next (powered s (refuseKind l))

end Sys2Proof.Machine
end

