-- ==== Sys2Proof/Machine/FlashEvents.lean ====
section
/-!
DEFINITION. The bank's samples and its recharge watch, the photocell and the result watch (chapters 3, 5 and 6).
-/
namespace Sys2Proof.Machine

/-- BANK_SAMPLE (R110). -/
def execBankSample (level : Byte) (s : State) : Host.Outcome State Fault Refusal :=
  .next (powered s fun s => s.modBank fun b => b.sample level.toNat)

/-- CHARGE_FAULT, with the last level as detail (R113). -/
def execChargeFault (s : State) : Host.Outcome State Fault Refusal :=
  .next (powered s fun s => limitFault s.bank.watch .charge s.bank.level s)

/-- A hit pulse within an open watch makes the result a hit (R59). -/
def hit (s : State) : State :=
  s.modEngine fun e => { e with watch := e.watch.map fun w => { w with hit := true } }

/-- HIT_PULSE (R59). -/
def execHitPulse (s : State) : Host.Outcome State Fault Refusal :=
  .next (powered s hit)

/-- A miss of an exposure that belongs to the line is tallied (R59). -/
def tallyMiss (s : State) : State := s.modEngine fun e => { e with misreg := e.misreg + 1 }

/-- A result goes to the monitor window and the line's tally, or to the search (R59, R60, R67, R99, R103). -/
def giveResult (w : Watch) (s : State) : State :=
  match w.of with
  | .exposure t forLine =>
    let s1 := monitorResult t (!w.hit) s
    if forLine && !w.hit then tallyMiss s1 else s1
  | .test _ counts => if counts then testResult (!w.hit) s else s

/-- The result watch closes; the stop may be complete by it (R59, R61). -/
def closeWatch (s : State) : State :=
  match s.engine.watch with
  | none => s
  | some w =>
    let s1 := giveResult w (s.modEngine fun e => { e with watch := none })
    carryOn (if stopComplete s1 then stopDone s1 else s1)

/-- RESULT_WATCH_CLOSE (R59). -/
def execResultWatchClose (s : State) : Host.Outcome State Fault Refusal :=
  .next (powered s closeWatch)

end Sys2Proof.Machine
end

