-- ==== Sys2Proof/Machine/JobMessages.lean ====
section
/-!
DEFINITION. The job messages: JOB-OPEN, JOB-END, JOB-CANCEL, JOB-HOLD and JOB-RELEASE (sections 8.2 and 8.3).
-/
namespace Sys2Proof.Machine

/-- A class from its code (R200). -/
def classOf? : Nat → Option JobClass
  | 0 => some .routine
  | 1 => some .priority
  | 2 => some .bulletin
  | _ => none

/-! ### JOB-OPEN (R140, R141) -/

/-- The live jobs' open orders renumbered 1 to n in their order (R140). -/
def renumbered (js : List Job) : List Job :=
  js.map fun j => { j with order := js.countP fun k => decide (k.order ≤ j.order) }

/-- The counter at 65,535 is first brought down to the number of live jobs (R140). -/
def makeOrders (s : State) : State :=
  if s.seq.openCounter = 65535 then
    (s.modJobs renumbered).modSeq fun q => { q with openCounter := s.jobs.length }
  else s

/-- The record of a new job (R141). -/
def newJob (l : CLine) (d : List Byte) (cls : JobClass) (order : Nat) : Job :=
  { number := byteAt d 0, cls := cls, disc := byteAt d 2, owner := l, cut := flagAt d 3, final := none,
    committed := 0, setCount := 0, order := order, state := .queued, held := false, started := false,
    reason := none }

/-- The accepted JOB-OPEN (R141). -/
def openJob (l : CLine) (d : List Byte) (cls : JobClass) (s : State) : State :=
  let s1 := makeOrders s
  let n := s1.seq.openCounter + 1
  (s1.modSeq fun q => { q with openCounter := n }).modJobs fun js => js ++ [newJob l d cls n]

/-- JOB-OPEN's own checks, in order (R141). -/
def jobOpen (l : CLine) (d : List Byte) (s : State) : Handled :=
  if byteAt d 0 = 0 then refuse .range 1 s
  else match classOf? (byteAt d 1) with
    | none => refuse .range 2 s
    | some cls =>
      if byteAt d 2 < 1 || 15 < byteAt d 2 then refuse .range 3 s
      else if (findJob s.jobs (byteAt d 0)).isSome then refuse .idInUse (byteAt d 0) s
      else if (slotFor s.maps (byteAt d 2)).isNone then refuse .noMap (byteAt d 2) s
      else if Config.jobCap ≤ s.jobs.length then refuse .tableFull 8 s
      else accept (openJob l d cls s)

/-- JOB_OPEN (R141). -/
def execJobOpen (l : CLine) (s : State) : Host.Outcome State Fault Refusal :=
  .next (powered s (handle .jobOpen l anyBody fun _ d => jobOpen l d))

/-! ### JOB-END (R143, R154) -/

/-- A job that is not ACTIVE ends with no galley to close; its removal is a selection point if none is ACTIVE
(R154). -/
def completeIdle (j : Job) (final : Nat) (s : State) : State :=
  let s1 := post j.owner (.jobDone j.number final) (removeJob j.number s)
  match activeJob s1 with
  | some _ => s1
  | none => selectionPoint s1

/-- The final count is stored; a job that has set that many lines is complete at once (R143, R154). -/
def endJob (j : Job) (final : Nat) (s : State) : State :=
  let s1 := updateJob j.number (fun k => { k with final := some final }) s
  if j.setCount = final then
    carryOn (if j.state = .active then completeActive j final s1 else completeIdle j final s1)
  else s1

/-- The line number of an assembly for a job on its owner line (R143). -/
def openLineOf (j : Job) (s : State) : Option Nat :=
  match s.store.assembly.get j.owner with
  | some a => if a.header.job = j.number then some a.header.line else none
  | none => none

/-- JOB-END's own checks, in order (R143). -/
def jobEnd (d : List Byte) (s : State) : Handled :=
  match findJob s.jobs (byteAt d 0) with
  | none => refuse .noJob 0 s
  | some j =>
    if j.final.isSome then refuse .state 0 s
    else if u16At d 1 < j.committed then refuse .count j.committed s
    else match openLineOf j s with
      | some n => refuse .count n s
      | none => accept (endJob j (u16At d 1) s)

/-- JOB_END (R143). -/
def execJobEnd (l : CLine) (s : State) : Host.Outcome State Fault Refusal :=
  .next (powered s (handle .jobEnd l anyBody fun _ d => jobEnd d))

/-! ### JOB-CANCEL (R144) -/

/-- The galley close after the cancel of the ACTIVE job, found in engine state `was` (R144 step 4, R153). A close
ordered in WAIT_FILM, where every mechanism may stand at rest, begins no sooner than the next tick, so that a FILM
LOADED taken right after the cancel still finds no advance in progress (R69, Table 3-5, log 38). -/
def closeAfterCancel (was : EngineState) (j : Job) (s : State) : State :=
  let s1 := orderClose (some (j.number, j.owner)) (leaveActive s)
  if was = .waitFilm then s1 else carryOn s1

/-- The cancel of a job, in the order of R144. -/
def cancelJob (j : Job) (s : State) : State :=
  let s1 := if j.state = .active then abandon .cancel none s else s
  let s2 := freeLines j.number .cancel s1
  let s3 := removeJob j.number (post j.owner (.jobCancelled j.number j.committed j.setCount) s2)
  if j.state = .active then closeAfterCancel s.engine.state j s3
  else match activeJob s3 with
    | some _ => s3
    | none => carryOn (selectionPoint s3)

/-- JOB-CANCEL's own check (R144). -/
def jobCancel (d : List Byte) (s : State) : Handled :=
  match findJob s.jobs (byteAt d 0) with
  | none => refuse .noJob 0 s
  | some j => accept (cancelJob j s)

/-- JOB_CANCEL (R144). -/
def execJobCancel (l : CLine) (s : State) : Host.Outcome State Fault Refusal :=
  .next (powered s (handle .jobCancel l anyBody fun _ d => jobCancel d))

/-! ### JOB-HOLD and JOB-RELEASE (R145, R146) -/

/-- The hold of a job: HELD at once unless it is ACTIVE; then at its line boundary, which may be now (R145). -/
def holdJob (j : Job) (s : State) : State :=
  if j.state = .active then
    carryOn (selectionPoint (updateJob j.number (fun k => { k with held := true }) s))
  else
    let s1 := updateJob j.number (fun k => { k with held := true, state := .held }) s
    match activeJob s1 with
    | some _ => s1
    | none => carryOn (selectionPoint s1)

/-- JOB-HOLD's own checks (R145). -/
def jobHold (d : List Byte) (s : State) : Handled :=
  match findJob s.jobs (byteAt d 0) with
  | none => refuse .noJob 0 s
  | some j => if j.state = .held || j.held then refuse .state 0 s else accept (holdJob j s)

/-- JOB_HOLD (R145). -/
def execJobHold (l : CLine) (s : State) : Host.Outcome State Fault Refusal :=
  .next (powered s (handle .jobHold l anyBody fun _ d => jobHold d))

/-- The record of a released job (R146). -/
def Job.released (j : Job) : Job := { j with held := false, state := if j.started then .suspended else .queued }

/-- The release of a HELD job; its return is a selection point if it is eligible again (R146, log 29). -/
def releaseJob (j : Job) (s : State) : State :=
  let s1 := updateJob j.number Job.released s
  if j.released.eligible then carryOn (selectionPoint s1) else s1

/-- JOB-RELEASE's own checks (R146). -/
def jobRelease (d : List Byte) (s : State) : Handled :=
  match findJob s.jobs (byteAt d 0) with
  | none => refuse .noJob 0 s
  | some j => if j.state = .held then accept (releaseJob j s) else refuse .state 0 s

/-- JOB_RELEASE (R146). -/
def execJobRelease (l : CLine) (s : State) : Host.Outcome State Fault Refusal :=
  .next (powered s (handle .jobRelease l anyBody fun _ d => jobRelease d))

end Sys2Proof.Machine
end

