-- ==== Sys2Proof/Machine/LineEvents.lean ====
section
/-!
DEFINITION. Characters and conditions of a composing line (chapter 10), and the end of a reply.
-/
namespace Sys2Proof.Machine

/-- A character is taken by a receiver that is not SILENT; its stop bit was marking, so the spell of spacing before
it has ended (R181, R185, log 7). -/
def Iface.taken (f : Iface → Iface) (i : Iface) : Iface :=
  match i.rx with
  | .silent => i
  | .hunt | .taking _ | .passing | .discard => (f i).spellEnds

/-- STATION_CHARACTER (R182). -/
def execStationCharacter (l : CLine) (c : Byte) (s : State) : Host.Outcome State Fault Refusal :=
  .next (powered s (modLine l (Iface.taken fun i => i.stationCharacter c)))

/-- BODY_CHARACTER (R183). -/
def execBodyCharacter (l : CLine) (c : Byte) (s : State) : Host.Outcome State Fault Refusal :=
  .next (powered s (modLine l (Iface.taken fun i => i.bodyCharacter c)))

/-- FRAME_END: the second check byte is a body character in its place (R183, log 8). -/
def execFrameEnd (l : CLine) (c : Byte) (s : State) : Host.Outcome State Fault Refusal :=
  .next (powered s (modLine l (Iface.taken fun i => i.bodyCharacter c)))

/-- LENGTH_OUT_OF_RANGE: a length character above 250 is a body character in its place (R184, log 8). -/
def execLengthOutOfRange (l : CLine) (c : Byte) (s : State) : Host.Outcome State Fault Refusal :=
  .next (powered s (modLine l (Iface.taken fun i => i.bodyCharacter c)))

/-- FRAMING_ERROR (R184). -/
def execFramingError (l : CLine) (s : State) : Host.Outcome State Fault Refusal :=
  .next (powered s (modLine l Iface.framingError))

/-- FRAME_GAP (R184). -/
def execFrameGap (l : CLine) (s : State) : Host.Outcome State Fault Refusal :=
  .next (powered s (modLine l Iface.gapEnds))

/-- BREAK (R185). -/
def execLineBreak (l : CLine) (s : State) : Host.Outcome State Fault Refusal :=
  .next (powered s (lineBroken l))

/-- SILENCE (R185). -/
def execSilence (l : CLine) (s : State) : Host.Outcome State Fault Refusal :=
  .next (powered s (lineSilent l))

/-- MARKING_RESUMED (R185). -/
def execMarkingResumed (l : CLine) (s : State) : Host.Outcome State Fault Refusal :=
  .next (powered s (modLine l Iface.marking))

/-- REPLY_END: the transmitter is idle (R188). -/
def execReplyEnd (l : CLine) (s : State) : Host.Outcome State Fault Refusal :=
  .next (powered s (modLine l fun i => { i with tx := none }))

end Sys2Proof.Machine
end

