-- ==== Sys2Proof/Machine/LineMessages.lean ====
section
/-!
DEFINITION. LINE-OPEN and LINE-PART, with the commit (sections 2.3 and 2.4).
-/
namespace Sys2Proof.Machine

/-! ### LINE-OPEN (R24 to R26) -/

/-- The line number a job expects next (R24). -/
def Job.expected (j : Job) : Nat := j.committed + 1

/-- A line number lies above a final count that is present (R24, R27). -/
def Job.pastFinal (j : Job) (line : Nat) : Bool :=
  match j.final with
  | some f => f < line
  | none => false

/-- LINE-OPEN's checks against the store and the job, after the replacement (R25, R26). -/
def openLine (l : CLine) (d : List Byte) (s : State) : Handled :=
  match findJob s.jobs (byteAt d 0) with
  | none => refuse .noJob 0 s
  | some j =>
    match headerFault d with
    | some n => refuse .range n s
    | none =>
      let h := headerOf d
      if h.line ≠ j.expected || j.pastFinal h.line then refuse .sequence j.expected s
      else if s.store.freeRecords = 0 then refuse .full 65535 s
      else if s.store.freeCells < h.count then refuse .full s.store.freeCells s
      else accept (s.modStore fun st => st.openLine l h)

/-- LINE-OPEN first discards any assembly open on its line, with reason REPLACED, and is then checked (R25). -/
def lineOpen (l : CLine) (d : List Byte) (s : State) : Handled :=
  openLine l d (discardAssembly l (some .replaced) s)

/-- LINE_OPEN (R25). -/
def execLineOpen (l : CLine) (s : State) : Host.Outcome State Fault Refusal :=
  .next (powered s (handle .lineOpen l anyBody fun _ d => lineOpen l d))

/-! ### LINE-PART (R27 to R32) -/

/-- The job has a new unset line: a selection point if the job became eligible by it, or is ACTIVE and stands at a
line boundary (R32, R149, R152). -/
def gainLine (j : Job) (s : State) : State :=
  let s1 := updateJob j.number (fun k => { k with committed := k.committed + 1 }) s
  let now := { j with committed := j.committed + 1 }
  if (now.eligible && !j.eligible) || j.state == .active then carryOn (selectionPoint s1) else s1

/-- The commit of a fully received line (R29 to R32): committed, or refused with its record and cells free. -/
def commitLine (l : CLine) (j : Job) (a : Assembly) (s : State) : Handled :=
  let entries := ((slotFor s.maps j.disc).map MapSlot.entries).getD []
  match commitCells entries a.header a.sorts with
  | .noGlyph i => refuse .noGlyph i (s.modStore fun st => st.endAssembly l)
  | .overset n => refuse .overset n (s.modStore fun st => st.endAssembly l)
  | .cells cs => accept (gainLine j (s.modStore fun st => st.commit l a cs))

/-- An accepted part: its sorts are stored; a complete line is committed, and an incomplete one has its deadline
started again (R28). -/
def takePart (l : CLine) (j : Job) (a : Assembly) (gs : List SetSort) (s : State) : Handled :=
  let b := { a with sorts := a.sorts ++ gs, deadline := Config.deadline }
  let s1 := s.modStore fun st => { st with assembly := st.assembly.set l (some b) }
  if b.sorts.length < b.header.count then accept s1 else commitLine l j b s1

/-- The part belongs to the assembly, follows the sorts received, and does not pass the job's final count (R27). -/
def partInSequence (j : Job) (a : Assembly) (d : List Byte) : Bool :=
  a.header.job == byteAt d 0 && a.header.line == u16At d 1 && byteAt d 3 == a.sorts.length
    && !j.pastFinal (u16At d 1)

/-- LINE-PART's own checks, in order (R27). -/
def linePart (l : CLine) (d : List Byte) (s : State) : Handled :=
  match findJob s.jobs (byteAt d 0) with
  | none => refuse .noJob 0 s
  | some j =>
    match s.store.assembly.get l with
    | none => refuse .sequence 255 s
    | some a =>
      if !partInSequence j a d then refuse .sequence a.sorts.length s
      else
        let gs := sortsFrom d 5 (byteAt d 4)
        match firstFailing SetSort.inRange gs (byteAt d 3) with
        | some i => refuse .range i s
        | none => takePart l j a gs s

/-- LINE_PART (R28). -/
def execLinePart (l : CLine) (s : State) : Host.Outcome State Fault Refusal :=
  .next (powered s (handle .linePart l anyBody fun _ d => linePart l d))

end Sys2Proof.Machine
end

