-- ==== Sys2Proof/Machine/MapMessages.lean ====
section
/-!
DEFINITION. The messages about maps and trim: MAP-LOAD, MAP-CLEAR, TRIM-RESTART and TRIM-LIMITS (chapters 1 and 5).
-/
namespace Sys2Proof.Machine

/-! ### MAP-LOAD (R4 to R9) -/

/-- The order of keys (R2, log 32). -/
def keyBefore (a b : Nat × Nat) : Bool := a.1 < b.1 || (a.1 == b.1 && a.2 < b.2)

/-- Adds an entry, or replaces the entry of its key; the list stays sorted by key (R8). -/
def putEntry (e : MapEntry) : List MapEntry → List MapEntry
  | [] => [e]
  | x :: xs =>
    if e.key = x.key then e :: xs
    else if keyBefore e.key x.key then e :: x :: xs
    else x :: putEntry e xs

/-- Applies a message's entries, in their order (R8). -/
def putEntries (es : List MapEntry) (m : List MapEntry) : List MapEntry := es.foldl (fun acc e => putEntry e acc) m

/-- The slot holds the key. -/
def hasKey (m : List MapEntry) (k : Nat × Nat) : Bool := m.any fun e => e.key == k

/-- A slot as taken for a disc: no entry yet, 8 records UNTRIMMED with code 8 (R8). -/
def MapSlot.taken (disc : Nat) : MapSlot := { disc := disc, entries := [], trims := Oct.fill TrimRec.fresh }

/-- The lowest-numbered FREE slot is taken (R5). -/
def takeSlot (q : Quad (Option MapSlot)) (m : MapSlot) : Quad (Option MapSlot) :=
  if q.q0.isNone then { q with q0 := some m }
  else if q.q1.isNone then { q with q1 := some m }
  else if q.q2.isNone then { q with q2 := some m }
  else if q.q3.isNone then { q with q3 := some m }
  else q

/-- Some slot is FREE (R5). -/
def slotFree (q : Quad (Option MapSlot)) : Bool := q.toList.any Option.isNone

/-- The tracks whose count rises from 0, and whose record is UNTRIMMED, in ascending order (R9). -/
def risenTracks (before after : MapSlot) : List Track :=
  allTracks.filter fun t =>
    before.entries.all (fun e => e.track != t) && after.entries.any (fun e => e.track == t)
      && (before.trims.get t).state == .untrimmed

/-- The accepted MAP-LOAD: the entries are applied, and on the mounted disc the risen tracks are queued (R8, R9). -/
def loadMap (disc : Nat) (es : List MapEntry) (s : State) : State :=
  let before := (slotFor s.maps disc).getD (MapSlot.taken disc)
  let after := { before with entries := putEntries es before.entries }
  let s1 := s.modMaps fun q =>
    match slotFor q disc with
    | some _ => updateSlot q disc fun _ => after
    | none => takeSlot q after
  if disc = s.spin.mounted then joinTracks (risenTracks before after) s1 else s1

/-- The entry count the slot would reach (R7). -/
def countAfter (m : List MapEntry) (es : List MapEntry) : Nat :=
  m.length + es.countP fun e => !hasKey m e.key

/-- The checks against the slots, in order (R5 to R7). -/
def loadInto (disc : Nat) (es : List MapEntry) (s : State) : Handled :=
  let m := ((slotFor s.maps disc).map MapSlot.entries).getD []
  if (slotFor s.maps disc).isNone && !slotFree s.maps then refuse .noSlot 0 s
  else
    let replaced := if discNamed s.jobs disc then firstFailing (fun e => !hasKey m e.key) es 0 else none
    match replaced with
    | some i => refuse .inUse i s
    | none =>
      if Config.mapCap < countAfter m es then refuse .full (countAfter m es) s else accept (loadMap disc es s)

/-- MAP-LOAD's own checks (R4 to R8). -/
def mapLoad (d : List Byte) (s : State) : Handled :=
  let raw := entriesFrom d 2 (byteAt d 1)
  if byteAt d 0 < 1 || 15 < byteAt d 0 then refuse .range 255 s
  else match firstFailing RawEntry.inRange raw 0 with
    | some i => refuse .range i s
    | none => loadInto (byteAt d 0) (raw.filterMap RawEntry.entry) s

/-- MAP_LOAD (R8). -/
def execMapLoad (l : CLine) (s : State) : Host.Outcome State Fault Refusal :=
  .next (powered s (handle .mapLoad l anyBody fun _ d => mapLoad d))

/-! ### MAP-CLEAR (R10, R11) -/

/-- The lowest number of the live jobs that name a disc (R10). -/
def lowestNaming (disc : Nat) (js : List Job) : Option Nat :=
  ((js.filter fun j => j.disc == disc).map Job.number).min?

/-- The disc's slot becomes FREE; the windows of the mounted disc are cleared (R10, R11). -/
def clearMap (disc : Nat) (s : State) : State :=
  let s1 := s.modMaps fun q => q.map fun o => o.filter fun m => m.disc != disc
  if disc = s.spin.mounted then clearWindows s1 else s1

/-- MAP-CLEAR's own checks, in order (R10). -/
def mapClear (d : List Byte) (s : State) : Handled :=
  let disc := byteAt d 0
  if disc < 1 || 15 < disc then refuse .range 255 s
  else match slotFor s.maps disc with
    | none => refuse .noMap 0 s
    | some m =>
      match lowestNaming disc s.jobs with
      | some n => refuse .inUse n s
      | none =>
        if m.trims.toList.any fun r => r.state.inSearch then refuse .inUse 0 s else accept (clearMap disc s)

/-- MAP_CLEAR (R10). -/
def execMapClear (l : CLine) (s : State) : Host.Outcome State Fault Refusal :=
  .next (powered s (handle .mapClear l anyBody fun _ d => mapClear d))

/-! ### TRIM-RESTART (R102) -/

/-- The accepted TRIM-RESTART, by the track's state (R102). A track whose search the monitor's join has started at once
is SEARCHING by then, and its search is restarted (log 40). -/
def restartTrack (t : Track) (s : State) : State :=
  match s.trim.search with
  | some c => if c.track = t then restartSearch c s else joinTracks [t] s
  | none => joinTracks [t] s

/-- TRIM-RESTART's own checks, in order (R102). -/
def trimRestart (d : List Byte) (s : State) : Handled :=
  match trackOf? (byteAt d 0) with
  | none => refuse .range 0 s
  | some t =>
    if s.spin.mounted = 0 || s.spin.unit = .discChange then refuse .state 0 s
    else if (slotFor s.maps s.spin.mounted).isNone then refuse .noMap 0 s
    else accept (restartTrack t s)

/-- TRIM_RESTART (R102). -/
def execTrimRestart (l : CLine) (s : State) : Host.Outcome State Fault Refusal :=
  .next (powered s (handle .trimRestart l anyBody fun _ d => trimRestart d))

/-! ### TRIM-LIMITS (R94) -/

/-- The limits a body carries, in its order. -/
def limitsOf (d : List Byte) : Limits :=
  { floor := byteAt d 0, ceiling := byteAt d 1, dwell := byteAt d 2, searchMiss := byteAt d 3,
    monitorMiss := byteAt d 4 }

/-- The place of the first limit out of range; a ceiling below the floor is out of its range (R94, Table 5-4). -/
def Limits.fault (u : Limits) : Option Nat :=
  if 15 < u.floor then some 1
  else if 15 < u.ceiling || u.ceiling < u.floor then some 2
  else if u.dwell < 1 || 16 < u.dwell then some 3
  else if 3 < u.searchMiss then some 4
  else if u.monitorMiss < 1 || 16 < u.monitorMiss then some 5
  else none

/-- All five limits are replaced at once, or none (R94). -/
def trimLimits (d : List Byte) (s : State) : Handled :=
  match (limitsOf d).fault with
  | some n => refuse .range n s
  | none => accept (s.modTrim fun u => { u with limits := limitsOf d })

/-- TRIM_LIMITS (R94). -/
def execTrimLimits (l : CLine) (s : State) : Host.Outcome State Fault Refusal :=
  .next (powered s (handle .trimLimits l anyBody fun _ d => trimLimits d))

end Sys2Proof.Machine
end

