-- ==== Sys2Proof/Machine/MechEvents.lean ====
section
/-!
DEFINITION. The ends of steps, settles and the cut, and the homing limits (chapter 7).
-/
namespace Sys2Proof.Machine

/-- What follows a change of the drive: homing done may bring IDENTIFY, and the end of a move is told to the engine
(R49, R62, R68, R165). -/
def driveChanged (f : Drive → Drive) (s : State) : State := carryOn (judgeSpinUp (s.modDrive f))

/-- CARRIAGE_STEP, with the home sensor's level at its end (R120, R124). -/
def execCarriageStep (home : Bool) (s : State) : Host.Outcome State Fault Refusal :=
  .next (powered s (driveChanged fun d => d.carriageStepEnd home))

/-- DEFLECTOR_STEP, with the levels of both parts of the home sensor (R122, R124). -/
def execDeflectorStep (trackHome riseHome : Bool) (s : State) : Host.Outcome State Fault Refusal :=
  .next (powered s (driveChanged fun d => d.deflectorStepEnd trackHome riseHome))

/-- TURRET_STEP, with the home sensor's level at its end (R123, R124). -/
def execTurretStep (home : Bool) (s : State) : Host.Outcome State Fault Refusal :=
  .next (powered s (driveChanged fun d => d.turretStepEnd home))

/-- The advance of a galley close has ended: the cut follows (R132). -/
def advanceEnded (s : State) : State :=
  match s.engine.close with
  | some c => if c.phase = .advancing ∧ s.drive.film.advance.isNone = true then startCut c s else s
  | none => s

/-- A film step ends (R126, R127, R130); without an advance in progress no step can end. -/
def filmStepEnd (s : State) : State :=
  match s.drive.film.advance with
  | none => s
  | some n => carryOn (advanceEnded (judgeFilmLow (s.modDrive fun d => { d with film := d.film.countStep n })))

/-- FILM_STEP (R127). -/
def execFilmStep (s : State) : Host.Outcome State Fault Refusal :=
  .next (powered s filmStepEnd)

/-- SETTLE_END (R118). -/
def execSettleEnd (m : Mech) (s : State) : Host.Outcome State Fault Refusal :=
  .next (powered s fun s => carryOn (s.modDrive fun d => d.settleEnd m))

/-- The cut ends: the galley-open flag is cleared and the close ends with GALLEY_CLOSED (R132, R133). -/
def cutEnds (s : State) : State :=
  match s.engine.close with
  | some c =>
    if c.phase = .cutting then
      carryOn (endClose c true
        (s.modDrive fun d => { d with cutLeft := 0, film := { d.film with galleyOpen := false } }))
    else s
  | none => s

/-- CUT_END (R132). -/
def execCutEnd (s : State) : Host.Outcome State Fault Refusal :=
  .next (powered s cutEnds)

/-- HOME_FAULT, with the mechanism as detail, if its limit has run out (R125). -/
def execHomeFault (m : Mech) (s : State) : Host.Outcome State Fault Refusal :=
  .next (powered s fun s => if s.drive.limitRunOut m then handFault .home (mechCode m) s else s)

end Sys2Proof.Machine
end

