-- ==== Sys2Proof/Machine/UnitMessages.lean ====
section
/-!
DEFINITION. The messages about the unit: BANK-SET, FILM-SET, SPIN-SET, UNIT-HOLD, UNIT-RUN, RESTART, PANEL-SET and
RESET with its two scopes (chapters 6, 7 and 9).
-/
namespace Sys2Proof.Machine

/-! ### BANK-SET (R111) -/

def bankSet (d : List Byte) (s : State) : Handled :=
  if 3 < byteAt d 0 then refuse .range 1 s
  else if byteAt d 1 != 1 && byteAt d 1 != 3 then refuse .range 2 s
  else accept (s.modBank fun b => b.select (byteAt d 0) (byteAt d 1))

/-- BANK_SET (R111). -/
def execBankSet (l : CLine) (s : State) : Host.Outcome State Fault Refusal :=
  .next (powered s (handle .bankSet l anyBody fun _ d => bankSet d))

/-! ### FILM-SET (R128) -/

/-- The film remaining and the load value are set alike; FILM_LOW is judged (R128, R130). -/
def setFilm (steps : Nat) (s : State) : State :=
  judgeFilmLow (s.modDrive fun d => { d with film := { d.film with remaining := steps, load := steps } })

/-- FILM-SET's own checks (R128); a point is 20 film steps. -/
def filmSet (d : List Byte) (s : State) : Handled :=
  if 100000 < u24At d 0 then refuse .range 1 s
  else if filmBusy s then refuse .state 0 s
  else accept (setFilm (u24At d 0 * 20) s)

/-- FILM_SET (R128). -/
def execFilmSet (l : CLine) (s : State) : Host.Outcome State Fault Refusal :=
  .next (powered s (handle .filmSet l anyBody fun _ d => filmSet d))

/-! ### SPIN-SET (R168) -/

def spinSet (d : List Byte) (s : State) : Handled :=
  let n := byteAt d 0
  if n < 1 || 60 < n then refuse .range 1 s
  else accept (s.modSpin fun sp =>
    { sp with parkDelay := n, parkTimer := sp.parkTimer.map fun _ => n * Config.minute })

/-- SPIN_SET (R168). -/
def execSpinSet (l : CLine) (s : State) : Host.Outcome State Fault Refusal :=
  .next (powered s (handle .spinSet l anyBody fun _ d => spinSet d))

/-! ### UNIT-HOLD and UNIT-RUN (R155, R172) -/

/-- The hold flag is set, and the starvation timer stops with its mark kept (R155, R172). -/
def setHold (s : State) : State :=
  (s.modSpin fun sp => { sp with hold := true }).modSeq fun q => { q with starve := none }

/-- The ACTIVE job is starved: no line of it is current, and it has none to hand over. -/
def isStarved (s : State) : Bool :=
  match activeJob s with
  | some j => s.engine.current.isNone && (headLine s.store.lines j.number).isNone
  | none => false

/-- A job still starved as the hold is cleared has its 5 s again (R155, log 21). -/
def restartStarvation (s : State) : State :=
  if isStarved s then s.modSeq fun q => { q with starve := some Config.starvation } else s

/-- The hold flag is cleared: a selection point, and a starved job's timer starts again (R155, R172, log 33). -/
def clearHold (s : State) : State :=
  if s.spin.hold then
    carryOn (restartStarvation (selectionPoint (s.modSpin fun sp => { sp with hold := false })))
  else s

/-- UNIT_HOLD (R172). -/
def execUnitHold (l : CLine) (s : State) : Host.Outcome State Fault Refusal :=
  .next (powered s (handle .unitHold l anyBody fun _ _ s => accept (setHold s)))

/-- UNIT_RUN (R172). -/
def execUnitRun (l : CLine) (s : State) : Host.Outcome State Fault Refusal :=
  .next (powered s (handle .unitRun l anyBody fun _ _ s => accept (clearHold s)))

/-! ### RESTART (R171) -/

def restart (s : State) : Handled :=
  if s.spin.unit = .faulted then accept (enterSpinUp s) else refuse .state 0 s

/-- RESTART (R171). -/
def execRestart (l : CLine) (s : State) : Host.Outcome State Fault Refusal :=
  .next (powered s (handle .restart l anyBody fun _ _ => restart))

/-! ### PANEL-SET (R176) -/

/-- A READY lamp source from its code (R200). -/
def sourceOf? : Nat → Option ReadySource
  | 0 => some .lineA
  | 1 => some .lineB
  | 2 => some .either
  | 3 => some .both
  | _ => none

def panelSet (d : List Byte) (s : State) : Handled :=
  match sourceOf? (byteAt d 0) with
  | none => refuse .range 1 s
  | some src => accept (s.modSpin fun sp => { sp with readySource := src })

/-- PANEL_SET (R176). -/
def execPanelSet (l : CLine) (s : State) : Host.Outcome State Fault Refusal :=
  .next (powered s (handle .panelSet l anyBody fun _ d => panelSet d))

/-! ### RESET, scope UNIT (R174) -/

/-- Jobs, lines and assemblies go silently, and with them the ring, the sweep, the tallies, the trim queue, the search
and the windows (R39, R70, R93, R160, R174 step 1). -/
def clearWork (s : State) : State :=
  let s1 := (abandon .reset none (setRing [] s)).modEngine fun e => { e with sweep := none, misreg := 0, deferral := 0 }
  let s2 := ((s1.modJobs fun _ => []).modStore fun _ => LineStore.started).modSeq fun _ => Seq.started
  flushTrims s2.spin.mounted s2

/-- What the drive and the disc timing lose beyond the entry to PARKED (R89, R134). -/
def resetMotion (s : State) : State :=
  (s.modDrive fun d =>
      { d with carriage := d.carriage.stop, deflector := d.deflector.stop, homingDone := false, held := none
               film := { d.film with out := false } }).modDisc fun d =>
    { d with slipCount := 0, slipMark := false, reached := false }

/-- Spin Control's part: PARKED, the hold flag clear, no last fault, no requested disc, and the cause (R174). -/
def parkForReset (cause : StartCause) (s : State) : State :=
  (resetMotion (enterParked s)).modSpin fun sp =>
    { sp with hold := false, lastFault := none, requested := none, cause := cause }

/-- Both queues are emptied, and UNIT_RESET is posted to both (R174, R199). -/
def resetQueues (cause : StartCause) (s : State) : State :=
  postBoth (.unitReset cause) (s.modQueues fun _ => ⟨Queue.empty, Queue.empty⟩)

/-- The reset's close: a close in progress stands as it and names no job; else one is ordered if the galley is open,
with no selection pending (R68, R133, R160, R174 step 5). -/
def resetClose (s : State) : State :=
  match s.engine.close with
  | some c => s.modEngine fun e => { e with close := some { c with job := none } }
  | none =>
    if s.drive.film.galleyOpen then (orderClose none s).modSeq fun q => { q with pendingSel := false } else s

/-- A unit reset, in the order of R174. -/
def unitReset (cause : StartCause) (s : State) : State :=
  carryOn (resetClose (resetQueues cause (parkForReset cause (clearWork s))))

/-- RESET's own check: a scope beyond the list is refused RANGE (R175). -/
def resetUnit (d : List Byte) (s : State) : Handled :=
  if byteAt d 0 = 0 then accept (unitReset .message s) else refuse .range 1 s

/-- RESET_UNIT (R174). -/
def execResetUnit (l : CLine) (s : State) : Host.Outcome State Fault Refusal :=
  .next (powered s (handle .reset l (choiceOr 1 0 2) fun _ d => resetUnit d))

/-! ### RESET, scope LINE (R175) -/

/-- A line reset, in the order of R175. -/
def lineReset (l : CLine) (s : State) : State :=
  let s1 := modLine l (fun i => { i.clearPass with slot := none, overrun := false }) s
  let s2 := s1.modQueues fun q => q.set l Queue.empty
  post l .lineReset (discardAssembly l (some .lineReset) s2)

def resetLine (l : CLine) (d : List Byte) (s : State) : Handled :=
  if byteAt d 0 = 1 then accept (lineReset l s) else refuse .range 1 s

/-- RESET_LINE (R175). -/
def execResetLine (l : CLine) (s : State) : Host.Outcome State Fault Refusal :=
  .next (powered s (handle .reset l (choiceOr 1 1 2) fun _ d => resetLine l d))

end Sys2Proof.Machine
end

