-- ==== Sys2Proof/Machine/PanelEvents.lean ====
section
/-!
DEFINITION. The panel keys, and the running out of the assembly, starvation and park timers (chapters 2, 8 and 9).
-/
namespace Sys2Proof.Machine

/-- HOLD_KEY (R172). -/
def execHoldKey (s : State) : Host.Outcome State Fault Refusal :=
  .next (powered s setHold)

/-- The RUN key restarts a FAULTED unit, and clears the hold flag in any other state (R171, R172). -/
def runKey (s : State) : State := if s.spin.unit = .faulted then enterSpinUp s else clearHold s

/-- RUN_KEY (R171). -/
def execRunKey (s : State) : Host.Outcome State Fault Refusal :=
  .next (powered s runKey)

/-- DISC_DONE_KEY: spin-up in DISC_CHANGE, nothing elsewhere (R169). -/
def execDiscDoneKey (s : State) : Host.Outcome State Fault Refusal :=
  .next (powered s fun s => if s.spin.unit = .discChange then enterSpinUp s else s)

/-- An engine in WAIT_FILM enters PREPARE afresh (R50). -/
def prepareAfresh (s : State) : State :=
  if s.engine.state = .waitFilm then
    match currentRecord s with
    | some r => prepare r.header s
    | none => s
  else s

/-- The film is loaded, unless an advance or a cut is in progress (R129). -/
def loadFilm (s : State) : State :=
  if filmBusy s then s
  else carryOn (prepareAfresh (judgeFilmLow (s.modDrive fun d => { d with film := d.film.loaded })))

/-- FILM_LOADED_KEY (R129). -/
def execFilmLoadedKey (s : State) : Host.Outcome State Fault Refusal :=
  .next (powered s loadFilm)

/-- RESET_KEY: a unit reset with cause PANEL (R174). -/
def execResetKey (s : State) : Host.Outcome State Fault Refusal :=
  .next (powered s (unitReset .panel))

/-- An assembly whose deadline has run out is discarded; one whose deadline a part has started again is not (R38, R40,
log 3). -/
def deadlineEnds (l : CLine) (s : State) : State :=
  if runOut ((s.store.assembly.get l).map Assembly.deadline) then discardAssembly l (some .timeout) s else s

/-- ASSEMBLY_TIMEOUT (R38). -/
def execAssemblyTimeout (l : CLine) (s : State) : Host.Outcome State Fault Refusal :=
  .next (powered s (deadlineEnds l))

/-- The starvation timer has run out: the mark is set, and another eligible job takes the unit (R155, log 3). -/
def graceEnds (s : State) : State :=
  if runOut s.seq.starve then
    let s1 := s.modSeq fun q => { q with starve := none, grace := true }
    match activeJob s1 with
    | none => s1
    | some j => if otherEligible j.number s1 then carryOn (depart j .suspended .starved s1) else s1
  else s

/-- STARVATION_TIMEOUT (R155). -/
def execStarvationTimeout (s : State) : Host.Outcome State Fault Refusal :=
  .next (powered s graceEnds)

/-- PARK_TIMEOUT: the park timer has run out and the unit parks (R168, log 3). -/
def execParkTimeout (s : State) : Host.Outcome State Fault Refusal :=
  .next (powered s fun s => if runOut s.spin.parkTimer then enterParked s else s)

end Sys2Proof.Machine
end

