-- ==== Sys2Proof/Machine/Starts.lean ====
section
/-!
DEFINITION. The supply monitor, and the two starts (R172, R173).
-/
namespace Sys2Proof.Machine

/-- The outputs while the supply is LOW: motor, charger and pattern lines off, the strobe held, both up pairs
released; a reply in transmission is lost (R173, R188). The lamps follow (R176). -/
def outputsOff (s : State) : State :=
  (((s.modSpin fun sp => { sp with supply := .low, motor := false }).modBank fun b =>
      { b with charger := false, strobeHeld := true }).modDrive fun d => { d with patternsOn := false }).modIface
    fun p => ⟨{ p.a with tx := none }, { p.b with tx := none }⟩

/-- SUPPLY_LOW: a supply below 4.5 V for 50 microseconds in NORMAL (R173). -/
def execSupplyLow (s : State) : Host.Outcome State Fault Refusal :=
  .next (powered s outputsOff)

/-- The part after a start: straps read, every block at its start values, START in both queues; the commands that
wait, and the model's counter of free values, stand (R173, logs 5 and 24). -/
def started (cause : StartCause) (inp : StartInputs) (s : State) : State :=
  { iface := ⟨Iface.started inp.stationA inp.rateA, Iface.started inp.stationB inp.rateB⟩
    queues := ⟨Queue.empty.post (.start cause), Queue.empty.post (.start cause)⟩
    maps := ⟨none, none, none, none⟩
    store := LineStore.started
    jobs := []
    seq := Seq.started
    engine := Engine.started
    disc := Disc.started
    trim := Trim.started
    bank := Bank.started
    drive := Drive.started inp.sensors
    spin := Spin.started cause
    pending := s.pending
    freeCount := s.freeCount }

/-- SUPPLY_START: only out of LOW (R173, log 28). -/
def execSupplyStart (inp : StartInputs) (s : State) : Host.Outcome State Fault Refusal :=
  .next (match s.spin.supply with
    | .low => started .supply inp s
    | .normal => s)

/-- POWER_START (R173). -/
def execPowerStart (inp : StartInputs) (s : State) : Host.Outcome State Fault Refusal :=
  .next (started .power inp s)

end Sys2Proof.Machine
end

