-- ==== Sys2Proof/Machine/Dispatch.lean ====
section
/-!
DEFINITION. The meaning of each command, one arm per row of spec/opcode_table.json.
-/
namespace Sys2Proof.Machine

def exec (i : Instr) (s : State) : Host.Outcome State Fault Refusal :=
  match i with
  | .enquireUnit l => Sys2Proof.Machine.execEnquireUnit l s
  | .enquireJob l => Sys2Proof.Machine.execEnquireJob l s
  | .enquireTrims l => Sys2Proof.Machine.execEnquireTrims l s
  | .enquireLine l => Sys2Proof.Machine.execEnquireLine l s
  | .poll l => Sys2Proof.Machine.execPoll l s
  | .jobOpen l => Sys2Proof.Machine.execJobOpen l s
  | .jobEnd l => Sys2Proof.Machine.execJobEnd l s
  | .jobCancel l => Sys2Proof.Machine.execJobCancel l s
  | .jobHold l => Sys2Proof.Machine.execJobHold l s
  | .jobRelease l => Sys2Proof.Machine.execJobRelease l s
  | .lineOpen l => Sys2Proof.Machine.execLineOpen l s
  | .linePart l => Sys2Proof.Machine.execLinePart l s
  | .mapLoad l => Sys2Proof.Machine.execMapLoad l s
  | .mapClear l => Sys2Proof.Machine.execMapClear l s
  | .trimRestart l => Sys2Proof.Machine.execTrimRestart l s
  | .trimLimits l => Sys2Proof.Machine.execTrimLimits l s
  | .bankSet l => Sys2Proof.Machine.execBankSet l s
  | .filmSet l => Sys2Proof.Machine.execFilmSet l s
  | .spinSet l => Sys2Proof.Machine.execSpinSet l s
  | .unitHold l => Sys2Proof.Machine.execUnitHold l s
  | .unitRun l => Sys2Proof.Machine.execUnitRun l s
  | .restart l => Sys2Proof.Machine.execRestart l s
  | .panelSet l => Sys2Proof.Machine.execPanelSet l s
  | .resetUnit l => Sys2Proof.Machine.execResetUnit l s
  | .resetLine l => Sys2Proof.Machine.execResetLine l s
  | .checkFailedEntry l => Sys2Proof.Machine.execCheckFailedEntry l s
  | .unknownKind l => Sys2Proof.Machine.execUnknownKind l s
  | .stationCharacter l c => Sys2Proof.Machine.execStationCharacter l c s
  | .frameEnd l c => Sys2Proof.Machine.execFrameEnd l c s
  | .framingError l => Sys2Proof.Machine.execFramingError l s
  | .lengthOutOfRange l c => Sys2Proof.Machine.execLengthOutOfRange l c s
  | .frameGap l => Sys2Proof.Machine.execFrameGap l s
  | .lineBreak l => Sys2Proof.Machine.execLineBreak l s
  | .silence l => Sys2Proof.Machine.execSilence l s
  | .markingResumed l => Sys2Proof.Machine.execMarkingResumed l s
  | .replyEnd l => Sys2Proof.Machine.execReplyEnd l s
  | .encoderEdge d => Sys2Proof.Machine.execEncoderEdge d s
  | .indexEvent ring => Sys2Proof.Machine.execIndexEvent ring s
  | .spinupFault => Sys2Proof.Machine.execSpinupFault s
  | .stall => Sys2Proof.Machine.execStall s
  | .speedFault => Sys2Proof.Machine.execSpeedFault s
  | .bankSample level => Sys2Proof.Machine.execBankSample level s
  | .chargeFault => Sys2Proof.Machine.execChargeFault s
  | .hitPulse => Sys2Proof.Machine.execHitPulse s
  | .resultWatchClose => Sys2Proof.Machine.execResultWatchClose s
  | .carriageStep home => Sys2Proof.Machine.execCarriageStep home s
  | .deflectorStep trackHome riseHome => Sys2Proof.Machine.execDeflectorStep trackHome riseHome s
  | .turretStep home => Sys2Proof.Machine.execTurretStep home s
  | .filmStep => Sys2Proof.Machine.execFilmStep s
  | .settleEnd m => Sys2Proof.Machine.execSettleEnd m s
  | .cutEnd => Sys2Proof.Machine.execCutEnd s
  | .homeFault m => Sys2Proof.Machine.execHomeFault m s
  | .holdKey => Sys2Proof.Machine.execHoldKey s
  | .runKey => Sys2Proof.Machine.execRunKey s
  | .discDoneKey => Sys2Proof.Machine.execDiscDoneKey s
  | .filmLoadedKey => Sys2Proof.Machine.execFilmLoadedKey s
  | .resetKey => Sys2Proof.Machine.execResetKey s
  | .assemblyTimeout l => Sys2Proof.Machine.execAssemblyTimeout l s
  | .starvationTimeout => Sys2Proof.Machine.execStarvationTimeout s
  | .parkTimeout => Sys2Proof.Machine.execParkTimeout s
  | .supplyLow => Sys2Proof.Machine.execSupplyLow s
  | .supplyStart inp => Sys2Proof.Machine.execSupplyStart inp s
  | .powerStart inp => Sys2Proof.Machine.execPowerStart inp s
  | .bodyCharacter l c => Sys2Proof.Machine.execBodyCharacter l c s

end Sys2Proof.Machine
end

