-- ==== Sys2Proof/Machine/Step.lean ====
section
/-!
DEFINITION. One step: the command at the front of the queue, or the passing of ten microseconds when none waits.
-/
namespace Sys2Proof.Machine

/-- The command at the front of the queue is taken and runs on the part with the queue's rest; with no command
waiting, one tick of ten microseconds passes (logs 2 and 38). -/
def step (s : State) : Host.Outcome State Fault Refusal :=
  match s.pending with
  | [] => .next (idle s)
  | c :: rest => exec c { s with pending := rest }

/-- The command a word spells, put at the front of the queue; no row of the table has bits, so none is spelled
(log 34). -/
def State.withFetchWord (s : State) (nbits w : Nat) : State :=
  match decodeTableWord nbits w with
  | some c => { s with pending := c :: s.pending }
  | none => s

end Sys2Proof.Machine
end

