-- ==== Sys2Proof/Safety.lean ====
section
/-!
DEFINITION. What the statements are made of: the invariant of the part, and the hypotheses under which a message is
waiting to be handled.
-/
namespace Sys2Proof.Machine

/-! ### The invariant -/

/-- Each queue holds at most 32 events (R196). -/
def QueuesBounded (s : State) : Prop :=
  s.queues.a.events.length ≤ 32 ∧ s.queues.b.events.length ≤ 32

/-- Free cells, cells reserved by open assemblies and cells held by committed lines (R20). -/
def poolTotal (st : LineStore) : Nat :=
  st.freeCells + reservedBy st.assembly.a + reservedBy st.assembly.b + heldBy st.lines

/-- The pool always has 4096 cells (R20). -/
def PoolAccounted (s : State) : Prop := poolTotal s.store = 4096

/-- The compare channel holds the target of the ring's first item, and is unloaded while the ring is empty (R53). -/
def ChannelFollowsRing (s : State) : Prop := s.disc.channel = s.engine.ring.head?.map Item.target

/-- In NORMAL the motor and charger are on, and the strobe free, in the spinning states alone (R114, R163); in LOW
motor, charger and pattern lines are off and the strobe is held (R173). -/
def OutputsFollowUnit (s : State) : Prop :=
  match s.spin.supply with
  | .normal => s.spin.motor = s.spin.unit.spinning ∧ s.bank.charger = s.spin.unit.spinning
      ∧ s.bank.strobeHeld = !s.spin.unit.spinning
  | .low => s.spin.motor = false ∧ s.bank.charger = false ∧ s.bank.strobeHeld = true ∧ s.drive.patternsOn = false

/-- No two live jobs have one number, and at most 8 are live (R137). -/
def JobsDistinct (s : State) : Prop := (s.jobs.map Job.number).Nodup ∧ s.jobs.length ≤ 8

/-- The counter, the period timer, the lock run and the slip count keep their ranges (R72, R75, R77, R78). -/
def DiscInRange (s : State) : Prop :=
  -4096 ≤ s.disc.counter ∧ s.disc.counter ≤ 8191 ∧ s.disc.period ≤ 65535 ∧ s.disc.lockRun ≤ 8 ∧ s.disc.slipCount ≤ 3

/-- PASS stands exactly while the good-frame run stands at 4, its greatest value (R186). -/
def PassEarned (s : State) : Prop :=
  (s.iface.a.run ≤ 4 ∧ s.iface.a.pass = (s.iface.a.run == 4))
    ∧ (s.iface.b.run ≤ 4 ∧ s.iface.b.pass = (s.iface.b.run == 4))

/-- The bounds and ties of the single blocks. -/
structure Bounds (s : State) : Prop where
  queues : QueuesBounded s
  pool : PoolAccounted s
  channel : ChannelFollowsRing s
  outputs : OutputsFollowUnit s
  jobs : JobsDistinct s
  disc : DiscInRange s
  pass : PassEarned s

/-- At most one job is ACTIVE (R138). -/
def OneActive (jobs : List Job) : Prop := (jobs.filter fun j => j.state == .active).length ≤ 1

/-- Set count ≤ committed count, and committed count ≤ final count when that is present (R139). -/
def CountsOrdered (j : Job) : Prop := j.setCount ≤ j.committed ∧ ∀ f, j.final = some f → j.committed ≤ f

/-- The line numbers of a job's line list, in its order (R22). -/
def lineNumbers (lines : List LineRecord) (n : Nat) : List Nat :=
  (lines.filter fun r => r.header.job == n).map fun r => r.header.line

/-- The job that an assembly open on a line belongs to: it is live and owned by that line, and the assembly is of the
next line it expects, which does not pass its final count (R24, R142, R143). -/
def AssemblesFor (l : CLine) (a : Assembly) (j : Job) : Prop :=
  j.number = a.header.job ∧ j.owner = l ∧ a.header.line = j.committed + 1 ∧ ∀ f, j.final = some f → a.header.line ≤ f

/-- The Job Table and the Line Store agree: a job's line list holds its unset committed lines and no other, each line
belongs to a live job, and so does each open assembly (R22, R138, R139). -/
structure Rolls (jobs : List Job) (st : LineStore) : Prop where
  oneActive : OneActive jobs
  counts : ∀ j ∈ jobs, CountsOrdered j
  lists : ∀ j ∈ jobs, lineNumbers st.lines j.number = List.range' (j.setCount + 1) (j.committed - j.setCount)
  live : ∀ r ∈ st.lines, ∃ j ∈ jobs, j.number = r.header.job
  assemblies : ∀ l a, st.assembly.get l = some a → ∃ j ∈ jobs, AssemblesFor l a j

/-- The current line is the head of the ACTIVE job's line list, the unit is EXPOSING for it, and neither the starvation
timer nor the park timer runs (R22, R138, R155, R167, R168). -/
def CurrentIsHead (s : State) : Prop :=
  ∀ r, s.engine.current = some r →
    (∃ j ∈ s.jobs, j.number = r.job ∧ j.state = .active) ∧ (lineNumbers s.store.lines r.job).head? = some r.line
      ∧ s.spin.unit = .exposing ∧ s.seq.starve = none ∧ s.spin.parkTimer = none

/-- The invariant that every step keeps. -/
structure Inv (s : State) : Prop where
  bounds : Bounds s
  rolls : Rolls s.jobs s.store
  current : CurrentIsHead s

/-! ### Hypotheses of the statements -/

/-- The supply monitor is NORMAL (R173). -/
def Up (s : State) : Prop := s.spin.supply = .normal

/-- A good addressed frame waits in the line's slot, the transmitter is idle, and the supply is NORMAL (R187). -/
def Waits (l : CLine) (kind : Nat) (tag : Byte) (d : List Byte) (s : State) : Prop :=
  Up s ∧ (s.iface.get l).tx = none ∧ (s.iface.get l).slot = some (.frame false (u8 kind) tag d)

/-- The line has PASS (R186). -/
def Passed (l : CLine) (s : State) : Prop := (s.iface.get l).pass = true

/-- If the job a message names is live, the line of arrival owns it (R142). -/
def Owned (l : CLine) (n : Nat) (s : State) : Prop := ∀ j, findJob s.jobs n = some j → j.owner = l

/-- A line of the ACTIVE job is being flashed: no selection acts, and no move waits to end (R149, R152). -/
def Flashing (s : State) : Prop :=
  s.engine.state = .flash ∧ s.engine.current.isSome = true ∧ (activeJob s).isSome = true

/-- The record of a job with a new value in each of the records that bear its number. -/
def withJob (n : Nat) (f : Job → Job) (s : State) : State :=
  { s with jobs := s.jobs.map fun j => if j.number = n then f j else j }

/-- The part without a job's record. -/
def withoutJob (n : Nat) (s : State) : State := { s with jobs := s.jobs.filter fun j => j.number != n }

/-- The part with another Line Store. -/
def withStore (st : LineStore) (s : State) : State := { s with store := st }

/-- The entries of the slot that holds a disc. -/
def mapOf (disc : Nat) (s : State) : List MapEntry := ((slotFor s.maps disc).map MapSlot.entries).getD []

/-- A LINE-PART body that passes every check and completes the assembly `a` of job `j` open on its line, bringing its
sorts to `gs` (R27, R28). -/
def Completes (l : CLine) (d : List Byte) (j : Job) (a : Assembly) (gs : List SetSort) (s : State) : Prop :=
  findJob s.jobs (byteAt d 0) = some j ∧ j.owner = l ∧ s.store.assembly.get l = some a
    ∧ malformed .linePart (some a) d = none ∧ a.header.job = byteAt d 0 ∧ a.header.line = u16At d 1
    ∧ a.sorts.length = byteAt d 3 ∧ (∀ f, j.final = some f → u16At d 1 ≤ f)
    ∧ (∀ g ∈ sortsFrom d 5 (byteAt d 4), g.inRange = true)
    ∧ gs = a.sorts ++ sortsFrom d 5 (byteAt d 4) ∧ gs.length = a.header.count

/-- The part with another interface on a line. -/
def withLine (l : CLine) (i : Iface) (s : State) : State := { s with iface := s.iface.set l i }

/-- Nothing that the engine waits for has ended already: in PREPARE one of its three moves goes on, in MOVE the
carriage does, and a close that has not begun waits for a mechanism (R49, R62, R68). A step leaves no such end unused
(log 26), but for a close that a JOB-CANCEL in WAIT_FILM has ordered, which the next tick begins (log 38). -/
def NoEndWaits (s : State) : Prop :=
  match s.engine.state with
  | .prepare => prepared s = false
  | .move => s.drive.carriage.act ≠ .atRest
  | .closing => ∀ c, s.engine.close = some c → c.phase = .ordered → s.drive.allAtRest = false
  | .idle | .flash | .waitFilm | .waitTrack => True

/-- The engine waits for no move to end: it is in IDLE, FLASH, WAIT_FILM or WAIT_TRACK (R49, R62, R68). -/
def NoMoveAwaited (s : State) : Prop :=
  s.engine.state ≠ .prepare ∧ s.engine.state ≠ .move ∧ s.engine.state ≠ .closing

/-- The commands run one after another, up to the last; `none` if one does not answer with a next state. -/
def runAll : List Instr → State → Option State
  | [], s => some s
  | c :: cs, s =>
    match exec c s with
    | .next t => runAll cs t
    | .fault _ => none
    | .refused _ => none

/-- The row is one of the five by which a limit's running out raises a fault (R81, R82, R113, R125). -/
def isLimit : Instr → Bool
  | .spinupFault | .stall | .speedFault | .chargeFault | .homeFault _ => true
  | _ => false

/-- The fault a limit raises, with its detail, once it has run out (R81, R82, R113, R125, log 3). -/
def raises (c : Instr) (s : State) : Option (FaultKind × Int) :=
  match c with
  | .spinupFault => if s.disc.spinup = some 0 then some (.spinup, (s.disc.lockRun : Int)) else none
  | .stall => if s.disc.stall = some 0 then some (.stall, (s.spin.unit.code : Int)) else none
  | .speedFault => if s.disc.unlock = some 0 then some (.speed, (s.disc.lastPeriod : Int)) else none
  | .chargeFault => if s.bank.watch = some 0 then some (.charge, (s.bank.level : Int)) else none
  | .homeFault .carriage => if s.drive.limitC = some 0 then some (.home, 1) else none
  | .homeFault .deflector => if s.drive.limitD = some 0 then some (.home, 2) else none
  | .homeFault .turret => if s.drive.limitT = some 0 then some (.home, 3) else none
  | _ => none

/-- The row that handles a message of a kind: of the two kinds with several rows, the first. -/
def messageRow (k : MsgKind) (l : CLine) : Instr :=
  match k with
  | .enquire => .enquireUnit l
  | .poll => .poll l
  | .jobOpen => .jobOpen l
  | .jobEnd => .jobEnd l
  | .jobCancel => .jobCancel l
  | .jobHold => .jobHold l
  | .jobRelease => .jobRelease l
  | .lineOpen => .lineOpen l
  | .linePart => .linePart l
  | .mapLoad => .mapLoad l
  | .mapClear => .mapClear l
  | .trimRestart => .trimRestart l
  | .trimLimits => .trimLimits l
  | .bankSet => .bankSet l
  | .filmSet => .filmSet l
  | .spinSet => .spinSet l
  | .unitHold => .unitHold l
  | .unitRun => .unitRun l
  | .restart => .restart l
  | .panelSet => .panelSet l
  | .reset => .resetUnit l

/-- The lost flag of the line's queue, as a message finds it. -/
def lostOf (l : CLine) (s : State) : Bool := (s.queues.get l).lost

/-- The part after the line's message has been taken from its slot, has had the effect `f`, and has been answered
with `body` on that line (R187, R193). -/
def answered (l : CLine) (tag : Byte) (body : ReplyBody) (f : State → State) (s : State) : State :=
  sendReply l tag (lostOf l s) (f (emptySlot l s), body)

end Sys2Proof.Machine
end

