-- ==== Sys2Proof/Certificates/Slice0/Obligations.lean ====
section
/-!
DEFINITION. The statements for the provers. Each is named after what it states; OBLIGATIONS.json says which rules of
spec/ each rests on.
-/

section
open Sys2Proof Sys2Proof.Machine

/-! ### The machine -/

/-- A step takes the command at the front of the queue and runs it on the part with the queue's rest. -/
def Obligations.StepTakesTheFrontCommand : Prop :=
  ∀ (c : Instr) (rest : List Instr) (s : State), s.pending = c :: rest → step s = exec c { s with pending := rest }

/-- With no command waiting one tick of 10 microseconds passes (the model's choice, log 2): every running timer has
one tick less, the period timer one more up to 65,535, and nothing else changes. One thing more: a galley close that a
JOB-CANCEL in WAIT_FILM has ordered begins with that tick, if the mechanisms are at rest (the model's choice, log 38). -/
def Obligations.AnEmptyQueueLetsOneTickPass : Prop :=
  (∀ (s : State), s.pending = [] → Up s → (s.engine.state = .closing → NoEndWaits s) → step s = .next { s with
    iface := ⟨{ s.iface.a with gap := s.iface.a.gap.map (· - 1) }, { s.iface.b with gap := s.iface.b.gap.map (· - 1) }⟩
    store := { s.store with assembly :=
      ⟨s.store.assembly.a.map fun a => { a with deadline := a.deadline - 1 },
       s.store.assembly.b.map fun a => { a with deadline := a.deadline - 1 }⟩ }
    seq := { s.seq with starve := s.seq.starve.map (· - 1) }
    engine := { s.engine with watch := s.engine.watch.map fun w => { w with left := w.left - 1 } }
    disc := { s.disc with
      period := min 65535 (s.disc.period + 1), spinup := s.disc.spinup.map (· - 1)
      stall := s.disc.stall.map (· - 1), unlock := s.disc.unlock.map (· - 1) }
    bank := { s.bank with watch := s.bank.watch.map (· - 1) }
    drive := { s.drive with
      carriage := { s.drive.carriage with left := s.drive.carriage.left - 1 }
      deflector := { s.drive.deflector with left := s.drive.deflector.left - 1 }
      turret := { s.drive.turret with left := s.drive.turret.left - 1 }
      film := { s.drive.film with left := s.drive.film.left - 1 }
      limitC := s.drive.limitC.map (· - 1), limitD := s.drive.limitD.map (· - 1)
      limitT := s.drive.limitT.map (· - 1), cutLeft := s.drive.cutLeft - 1 }
    spin := { s.spin with parkTimer := s.spin.parkTimer.map (· - 1) } })
    ∧ (∀ (job : Option (Nat × CLine)) (s : State), s.pending = [] → Up s → s.engine.state = .closing →
      s.engine.close = some { job := job, phase := .ordered, steps := 0 } → s.drive.allAtRest = true →
      s.drive.film.galleyOpen = true → 0 < s.drive.film.remaining →
      let steps := min 720 s.drive.film.remaining
      ∃ t, step s = .next t ∧ t.engine.state = .closing
        ∧ t.engine.close = some { job := job, phase := .advancing, steps := steps }
        ∧ t.drive.film.advance = some steps ∧ t.drive.film.remaining = s.drive.film.remaining
        ∧ t.jobs = s.jobs ∧ t.queues = s.queues ∧ t.maps = s.maps ∧ t.trim = s.trim)

/-- What the reset tables give after a power start (Tables 2-5, 3-6, 4-5, 5-3, 6-4, 7-5, 8-8, 9-5 and R190, R199): every
value they state, in every block. -/
def Obligations.ResetLeavesTheSpecsValues : Prop :=
  let s := State.reset
  (s.spin.unit = .parked ∧ s.spin.hold = false ∧ s.spin.parkDelay = 10 ∧ s.spin.parkTimer = none
      ∧ s.spin.mounted = 0 ∧ s.spin.present = 0 ∧ s.spin.requested = none ∧ s.spin.lastFault = none
      ∧ s.spin.cause = .power ∧ s.spin.readySource = .either ∧ s.spin.motor = false ∧ s.spin.supply = .normal)
    ∧ (∀ l, (s.queues.get l).events = [.start .power] ∧ (s.queues.get l).lost = false)
    ∧ (∀ l, (s.iface.get l).rx = .hunt ∧ (s.iface.get l).pass = false ∧ (s.iface.get l).run = 0
      ∧ (s.iface.get l).slot = none ∧ (s.iface.get l).overrun = false ∧ (s.iface.get l).tx = none)
    ∧ (∀ m ∈ s.maps.toList, m = none)
    ∧ (s.store.freeCells = 4096 ∧ s.store.lines = [] ∧ ∀ l, s.store.assembly.get l = none)
    ∧ (s.jobs = [] ∧ s.seq.openCounter = 0 ∧ s.seq.starve = none ∧ s.seq.grace = false ∧ s.seq.pendingSel = false)
    ∧ (s.engine.state = .idle ∧ s.engine.current = none ∧ s.engine.ring = [] ∧ s.engine.watch = none
      ∧ s.engine.close = none ∧ s.engine.stops = [] ∧ s.engine.stopNo = 0 ∧ s.engine.sweep = none
      ∧ s.engine.stuck = 0 ∧ s.engine.misreg = 0 ∧ s.engine.deferral = 0 ∧ s.engine.firedSinceIndex = false)
    ∧ (s.disc.counter = 0 ∧ s.disc.valid = false ∧ s.disc.period = 0 ∧ s.disc.lastCapture = 0
      ∧ s.disc.lastPeriod = 0 ∧ s.disc.locked = false ∧ s.disc.lockRun = 0 ∧ s.disc.reached = false
      ∧ s.disc.slipCount = 0 ∧ s.disc.slipMark = false ∧ s.disc.spinup = none ∧ s.disc.stall = none
      ∧ s.disc.unlock = none ∧ s.disc.samples = [] ∧ s.disc.channel = none)
    ∧ (s.trim.limits = { floor := 4, ceiling := 12, dwell := 4, searchMiss := 0, monitorMiss := 3 }
      ∧ s.trim.queue = [] ∧ s.trim.queueDisc = 0 ∧ s.trim.search = none ∧ ∀ t, s.trim.windows.get t = [])
    ∧ (s.bank.set = 1 ∧ s.bank.qualMs = 1 ∧ s.bank.level = 0 ∧ s.bank.readyRun = 0 ∧ s.bank.heavyRun = 0
      ∧ s.bank.state = .drained ∧ s.bank.watch = none ∧ s.bank.lastRecharge = 0 ∧ s.bank.longestRecharge = 0
      ∧ s.bank.charger = false ∧ s.bank.strobeHeld = true)
    ∧ (s.drive.carriage.position = 0 ∧ s.drive.carriage.dir = .descending ∧ s.drive.carriage.takeUp = 0
      ∧ s.drive.deflector.track = 0 ∧ s.drive.deflector.rise = 0 ∧ s.drive.turret.position = 0
      ∧ s.drive.homingDone = false ∧ s.drive.held = none)
    ∧ (s.drive.carriage.act = .atRest ∧ s.drive.carriage.target = none ∧ s.drive.deflector.act = .atRest
      ∧ s.drive.deflector.target = none ∧ s.drive.turret.act = .atRest ∧ s.drive.turret.target = none
      ∧ s.drive.film.advance = none ∧ s.drive.limitC = none ∧ s.drive.limitD = none ∧ s.drive.limitT = none)
    ∧ (s.drive.film.remaining = 0 ∧ s.drive.film.load = 0 ∧ s.drive.film.galleyOpen = false
      ∧ s.drive.film.lowArm = true ∧ s.drive.film.low = false ∧ s.drive.film.out = false)

/-- The invariant holds after a power start: the bounds of the blocks, and the agreement of Job Table and Line Store,
with no job yet and no line. -/
def Obligations.TheInvariantHoldsAtReset : Prop := Inv State.reset

/-- Every step keeps the invariant: the queues stay bounded, the pool accounted for, the compare channel at the head
of the ring, the output lines with the unit state, the jobs distinct and at most 8, the disc's counters in their
ranges, and PASS with the good-frame run. The Job Table and the Line Store agree: at most one job is ACTIVE (R138); set
count, committed count and final count stand in this order (R139); a job's line list holds its unset committed lines,
ascending and without a gap, and no line is without a live job (R22, R139); an open assembly is for the next line of a
live job of its line (R24, R142, R143). The current line is the head of the ACTIVE job's list. -/
def Obligations.EveryStepKeepsTheInvariant : Prop :=
  ∀ (s t : State), Inv s → step s = .next t → Inv t

/-! ### The Message Handler -/

/-- A reply goes out on the line of the message, with its tag, with the flags of the part after the message, and the
overrun flag as it stood is reported and cleared. -/
def Obligations.AReplyShowsThePartAfterTheMessage : Prop :=
  ∀ (l : CLine) (tag : Byte) (body : ReplyBody) (f : State → State) (s : State),
    let u := f (emptySlot l s)
    let t := answered l tag body f s
    ((t.iface.get l).tx = some
        { station := (u.iface.get l).station, tag := tag, body := body
          status := { pass := (u.iface.get l).pass
                      eventsWaiting := !(u.queues.get l).events.isEmpty
                      eventsLost := match body with
                        | .events _ => (s.queues.get l).lost
                        | _ => (u.queues.get l).lost
                      overrun := (u.iface.get l).overrun
                      hold := u.spin.hold
                      faulted := decide (u.spin.unit = .faulted)
                      discChange := decide (u.spin.unit = .discChange)
                      filmOut := u.drive.film.out } })
      ∧ (t.iface.get l).overrun = false ∧ t.iface.get l.other = u.iface.get l.other
      ∧ (t.iface.get l).slot = (u.iface.get l).slot ∧ (t.iface.get l).pass = (u.iface.get l).pass
      ∧ t.queues = u.queues ∧ t.maps = u.maps ∧ t.store = u.store ∧ t.jobs = u.jobs ∧ t.seq = u.seq
      ∧ t.engine = u.engine ∧ t.disc = u.disc ∧ t.trim = u.trim ∧ t.bank = u.bank ∧ t.drive = u.drive
      ∧ t.spin = u.spin

/-- The frame of a reply: a station character with marker 1 that names the part's own station, then body characters with
marker 0: a covered part whose check follows high byte first. The check is the CRC-16 of R183 over kind, tag, length and
data. -/
def Obligations.AReplyFrameCarriesItsCheck : Prop :=
  (∀ (r : Reply), ∃ (data : List Byte), data = r.status.byte :: r.body.data
      ∧ r.covered = [u8 r.body.code, r.tag, u8 data.length] ++ data
      ∧ r.frame = { marker := true, data := u8 r.station.toNat } :: (r.covered
          ++ [u8 ((crcBytes crcStart r.covered).toNat / 256), u8 (crcBytes crcStart r.covered).toNat]).map
            fun b => { marker := false, data := b })
    ∧ crcBytes crcStart [0x31, 0x32, 0x33, 0x34, 0x35, 0x36, 0x37, 0x38, 0x39] = 0x29B1

/-- The first steps of the refusal order, each answered and without any effect on another block. A message other than
ENQUIRE, POLL and RESET with scope LINE is refused NOT_PASSED on a line that lacks PASS, and changes nothing else.
Before that, on any line, a body of wrong length is refused MALFORMED with detail 255, and so are the structural faults
of MAP-LOAD (a count outside 1 to 49, or, with its index as detail, an entry whose key an earlier one has) and of
LINE-PART (a count outside 1 to 40, or a part that would pass the sort count of the assembly it names); a body of
either kind with none of these is not malformed. That of several repeated keys the first repeat is named is the model's
choice (log 27). The six messages that name a job are refused NOT_OWNER, with the owner line as detail, when the job is
live and the other line owns it. -/
def Obligations.TheLeadingChecksRefuseWithoutEffect : Prop :=
  ((∀ (l : CLine) (tag : Byte) (s : State), Up s → (s.iface.get l).tx = none →
        (s.iface.get l).slot = some (.checkFailed tag) →
        exec (.checkFailedEntry l) s = .next (answered l tag (.refused .check 0) id s))
      ∧ (∀ (l : CLine) (kind tag : Byte) (d : List Byte) (s : State), Up s → (s.iface.get l).tx = none →
        (s.iface.get l).slot = some (.frame false kind tag d) → (kind = 0 ∨ 0x15 < kind.toNat) →
        exec (.unknownKind l) s = .next (answered l tag (.refused .unknownKind kind.toNat) id s))
      ∧ (∀ (l : CLine) (kind tag : Byte) (d : List Byte) (s : State), Up s → (s.iface.get l).tx = none →
        (s.iface.get l).slot = some (.frame true kind tag d) → (kind = 0 ∨ 0x15 < kind.toNat) →
        exec (.unknownKind l) s = .next (emptySlot l s)))
    ∧ (∀ (k : MsgKind) (l : CLine) (tag : Byte) (d : List Byte) (s : State), k ≠ .enquire → k ≠ .poll →
      (k = .reset → byteAt d 0 ≠ 1) → Waits l k.code tag d s → ¬ Passed l s →
      malformed k (s.store.assembly.get l) d = none →
      exec (messageRow k l) s = .next (answered l tag (.refused .notPassed 0) id s))
    ∧ (∀ (k : MsgKind) (l : CLine) (tag : Byte) (d : List Byte) (s : State), Waits l k.code tag d s →
      d.length ≠ k.bodyLength d → exec (messageRow k l) s = .next (answered l tag (.refused .malformed 255) id s))
    ∧ (∀ (l : CLine) (tag : Byte) (d : List Byte) (s : State), Waits l 0x0A tag d s → d.length = 2 + 5 * byteAt d 1 →
      let refused (k : Nat) := answered l tag (.refused .malformed k) id s
      let keys := (entriesFrom d 2 (byteAt d 1)).map fun e => (e.font, e.code)
      ((byteAt d 1 < 1 ∨ 49 < byteAt d 1) → exec (.mapLoad l) s = .next (refused 255))
        ∧ (1 ≤ byteAt d 1 → byteAt d 1 ≤ 49 →
          (∀ i key, keys[i]? = some key → key ∈ keys.take i → (keys.take i).Nodup →
            exec (.mapLoad l) s = .next (refused i))
          ∧ (keys.Nodup → malformed .mapLoad (s.store.assembly.get l) d = none)))
    ∧ (∀ (l : CLine) (tag : Byte) (d : List Byte) (s : State), Waits l 0x09 tag d s → d.length = 5 + 6 * byteAt d 4 →
      let passes := ∃ a, s.store.assembly.get l = some a ∧ a.header.job = byteAt d 0 ∧ a.header.line = u16At d 1
        ∧ a.header.count < byteAt d 3 + byteAt d 4
      ((byteAt d 4 < 1 ∨ 40 < byteAt d 4 ∨ passes) →
          exec (.linePart l) s = .next (answered l tag (.refused .malformed 255) id s))
        ∧ (1 ≤ byteAt d 4 → byteAt d 4 ≤ 40 → ¬ passes →
          malformed .linePart (s.store.assembly.get l) d = none))
    ∧ (∀ (k : MsgKind) (l : CLine) (tag : Byte) (d : List Byte) (j : Job) (s : State),
      k ∈ [.jobEnd, .jobCancel, .jobHold, .jobRelease, .lineOpen, .linePart] → Waits l k.code tag d s → Passed l s →
      malformed k (s.store.assembly.get l) d = none → findJob s.jobs (byteAt d 0) = some j → j.owner = l.other →
      exec (messageRow k l) s = .next (answered l tag (.refused .notOwner (match l.other with
        | .a => 0
        | .b => 1)) id s))

/-! ### Jobs -/

/-- JOB-OPEN: its checks in order, and the record it creates with the next open order. -/
def Obligations.JobOpenChecksAndCreatesARecord : Prop :=
  ∀ (l : CLine) (tag n c d f : Byte) (s : State), Waits l 0x03 tag [n, c, d, f] s → Passed l s →
    let refused (r : Reason) (k : Nat) := answered l tag (.refused r k) id s
    let record (cls : JobClass) (order : Nat) : Job :=
      { number := n.toNat, cls := cls, disc := d.toNat, owner := l, cut := decide (f ≠ 0), final := none
        committed := 0, setCount := 0, order := order, state := .queued, held := false, started := false
        reason := none }
    let created (cls : JobClass) := answered l tag .accepted (fun s =>
      if s.seq.openCounter = 65535 then
        { s with seq := { s.seq with openCounter := s.jobs.length + 1 }
                 jobs := renumbered s.jobs ++ [record cls (s.jobs.length + 1)] }
      else
        { s with seq := { s.seq with openCounter := s.seq.openCounter + 1 }
                 jobs := s.jobs ++ [record cls (s.seq.openCounter + 1)] }) s
    exec (.jobOpen l) s = .next
      (if n = 0 then refused .range 1
      else if 2 < c.toNat then refused .range 2
      else if d.toNat < 1 ∨ 15 < d.toNat then refused .range 3
      else if (findJob s.jobs n.toNat).isSome then refused .idInUse n.toNat
      else if (slotFor s.maps d.toNat).isNone then refused .noMap d.toNat
      else if 8 ≤ s.jobs.length then refused .tableFull 8
      else created (if c = 0 then .routine else if c = 1 then .priority else .bulletin))

/-- Renumbering gives the live jobs the open orders 1 to n and keeps their relative order. -/
def Obligations.RenumberingKeepsTheOrderOfOpening : Prop :=
  ∀ (js : List Job), (js.map Job.order).Nodup →
    (∀ i ∈ (renumbered js).map Job.order, 1 ≤ i ∧ i ≤ js.length)
      ∧ ((renumbered js).map Job.order).Nodup
      ∧ (∀ (i k : Nat) (a b a' b' : Job), js[i]? = some a → js[k]? = some b → (renumbered js)[i]? = some a' →
        (renumbered js)[k]? = some b' → (a'.order < b'.order ↔ a.order < b.order))
      ∧ (renumbered js).map Job.number = js.map Job.number

/-- JOB-END: its checks in order; the final count stored; and a job that is not ACTIVE and has set that many lines
ends at once with JOB_DONE. -/
def Obligations.JobEndStoresTheFinalCountOrCompletes : Prop :=
  ∀ (l : CLine) (tag n hi lo : Byte) (s : State), Waits l 0x04 tag [n, hi, lo] s → Passed l s → Owned l n.toNat s →
    let final := hi.toNat * 256 + lo.toNat
    let refused (r : Reason) (k : Nat) := answered l tag (.refused r k) id s
    (findJob s.jobs n.toNat = none → exec (.jobEnd l) s = .next (refused .noJob 0))
      ∧ ∀ j, findJob s.jobs n.toNat = some j →
        (j.final ≠ none → exec (.jobEnd l) s = .next (refused .state 0))
        ∧ (j.final = none → final < j.committed → exec (.jobEnd l) s = .next (refused .count j.committed))
        ∧ (j.final = none → j.committed ≤ final → ∀ a, s.store.assembly.get l = some a → a.header.job = n.toNat →
          exec (.jobEnd l) s = .next (refused .count a.header.line))
        ∧ (j.final = none → j.committed ≤ final → assemblyOfJob n.toNat (s.store.assembly.get l) = false →
          (j.setCount ≠ final → exec (.jobEnd l) s = .next
            (answered l tag .accepted (withJob n.toNat fun k => { k with final := some final }) s))
          ∧ (j.setCount = final → j.state ≠ .active → Flashing s → JobsDistinct s → exec (.jobEnd l) s = .next
            (answered l tag .accepted (fun s => post l (.jobDone n.toNat final) (withoutJob n.toNat s)) s)))

/-- JOB-CANCEL of a job that is not ACTIVE, while a line of the ACTIVE job is being flashed: its lines and its open
assembly are freed, ASSEMBLY_DROPPED and JOB_CANCELLED are posted in this order, and its record is removed. JOB-CANCEL
of the ACTIVE job with a current line: the line is abandoned with cause CANCEL, the job's record and lines go, and the
engine goes into CLOSING with a close that names the job. Taken in WAIT_FILM it leaves that close ordered, with no step
advanced, for the next tick to begin (the model's choice, log 38). -/
def Obligations.JobCancelEndsTheJob : Prop :=
  (∀ (l : CLine) (tag n : Byte) (s : State), Waits l 0x05 tag [n] s → Passed l s → Owned l n.toNat s →
      (findJob s.jobs n.toNat = none → exec (.jobCancel l) s = .next (answered l tag (.refused .noJob 0) id s))
        ∧ ∀ j, findJob s.jobs n.toNat = some j → j.state ≠ .active → Flashing s → JobsDistinct s →
          assemblyOfJob n.toNat (s.store.assembly.get l.other) = false →
          let kept := s.store.lines.filter fun r => r.header.job != n.toNat
          let gone := s.store.lines.filter fun r => r.header.job == n.toNat
          let cells := s.store.freeCells + (gone.map fun r => r.header.count).sum
          exec (.jobCancel l) s = .next (answered l tag .accepted (fun s =>
            withoutJob n.toNat (post l (.jobCancelled n.toNat j.committed j.setCount)
              (match s.store.assembly.get l with
              | some a =>
                if a.header.job = n.toNat then
                  post l (.assemblyDropped n.toNat a.header.line .cancel)
                    (withStore { s.store with lines := kept, freeCells := cells + a.header.count
                                              assembly := s.store.assembly.set l none } s)
                else withStore { s.store with lines := kept, freeCells := cells } s
              | none => withStore { s.store with lines := kept, freeCells := cells } s))) s))
    ∧ (∀ (l : CLine) (tag n : Byte) (j : Job) (line : Nat) (s : State), Waits l 0x05 tag [n] s → Passed l s →
      findJob s.jobs n.toNat = some j → j.owner = l → j.state = .active →
      s.engine.current = some { job := n.toNat, line := line } → s.spin.unit = .exposing →
      s.drive.carriage.act = .stepping → (s.queues.get l).events.length ≤ 29 →
      (s.store.assembly.get l = none ∧ s.store.assembly.get l.other = none) →
      ∃ t, exec (.jobCancel l) s = .next t
        ∧ (t.iface.get l).tx.map Reply.body = some .accepted
        ∧ findJob t.jobs n.toNat = none
        ∧ t.store.lines = (s.store.lines.filter fun r => r.header.job != n.toNat)
        ∧ t.engine.state = .closing ∧ t.engine.current = none ∧ t.engine.stops = []
        ∧ t.engine.close = some { job := some (n.toNat, l), phase := .ordered, steps := 0 }
        ∧ t.engine.ring = (s.engine.ring.filter fun it => !it.isExposure)
        ∧ t.seq.pendingSel = true ∧ t.seq.starve = none ∧ t.seq.grace = false
        ∧ t.spin.unit = .ready ∧ t.drive.carriage.target = none
        ∧ (t.queues.get l).events = (s.queues.get l).events
          ++ [.lineAbandoned n.toNat line .cancel (s.engine.stopNo - 1) s.engine.misreg s.engine.deferral none,
            .jobCancelled n.toNat j.committed j.setCount]
        ∧ t.queues.get l.other = s.queues.get l.other
        ∧ t.maps = s.maps ∧ t.trim = s.trim ∧ t.drive.film.remaining = s.drive.film.remaining)
    ∧ (∀ (l : CLine) (tag n : Byte) (j : Job) (line : Nat) (s : State), Waits l 0x05 tag [n] s → Passed l s →
      findJob s.jobs n.toNat = some j → j.owner = l → j.state = .active →
      s.engine.current = some { job := n.toNat, line := line } → s.engine.state = .waitFilm →
      ∃ t, exec (.jobCancel l) s = .next t ∧ t.jobs = s.jobs.filter (fun k => k.number != n.toNat)
        ∧ t.engine.state = .closing ∧ t.engine.current = none
        ∧ t.engine.close = some { job := some (n.toNat, l), phase := .ordered, steps := 0 }
        ∧ t.drive.film.galleyOpen = s.drive.film.galleyOpen ∧ t.drive.film.remaining = s.drive.film.remaining)

/-- JOB-HOLD: its checks in order; a waiting job becomes HELD at once with its suspension reason kept, and an ACTIVE job
with a current line keeps the unit with its held flag set. JOB-RELEASE: its checks in order; a HELD job is SUSPENDED
if it was ever ACTIVE, and QUEUED otherwise. -/
def Obligations.JobHoldAndJobRelease : Prop :=
  (∀ (l : CLine) (tag n : Byte) (s : State), Waits l 0x06 tag [n] s → Passed l s → Owned l n.toNat s →
      (findJob s.jobs n.toNat = none → exec (.jobHold l) s = .next (answered l tag (.refused .noJob 0) id s))
        ∧ ∀ j, findJob s.jobs n.toNat = some j →
          ((j.state = .held ∨ j.held = true) → exec (.jobHold l) s = .next (answered l tag (.refused .state 0) id s))
          ∧ (j.state ≠ .held → j.held = false → j.state ≠ .active → Flashing s → JobsDistinct s →
            exec (.jobHold l) s = .next (answered l tag .accepted (withJob n.toNat fun k => { k with held := true, state := .held }) s))
          ∧ (j.state = .active → j.held = false → Flashing s → exec (.jobHold l) s = .next
            (answered l tag .accepted (withJob n.toNat fun k => { k with held := true }) s)))
    ∧ (∀ (l : CLine) (tag n : Byte) (s : State), Waits l 0x07 tag [n] s → Passed l s → Owned l n.toNat s →
      (findJob s.jobs n.toNat = none → exec (.jobRelease l) s = .next (answered l tag (.refused .noJob 0) id s))
        ∧ ∀ j, findJob s.jobs n.toNat = some j →
          (j.state ≠ .held → exec (.jobRelease l) s = .next (answered l tag (.refused .state 0) id s))
          ∧ (j.state = .held → Flashing s → JobsDistinct s → exec (.jobRelease l) s = .next (answered l tag .accepted
            (withJob n.toNat fun k => { k with held := false, state := if k.started then .suspended else .queued }) s)))

/-! ### Lines -/

/-- LINE-OPEN: an assembly open on the line is first replaced; then the checks in order; an accepted one reserves its
record and cells and starts the deadline at 2 s. The header's range check names the first failing field in the order
of Table 2-2. -/
def Obligations.LineOpenChecksAndReserves : Prop :=
  (∀ (l : CLine) (tag : Byte) (d : List Byte) (s : State), Waits l 0x08 tag d s → Passed l s → d.length = 12 →
      Owned l (byteAt d 0) s →
      let h := headerOf d
      let free := s.store.freeCells + reservedBy (s.store.assembly.get l)
      let replaced (s : State) : State := match s.store.assembly.get l with
        | none => s
        | some a => post l (.assemblyDropped a.header.job a.header.line .replaced)
            (withStore { s.store with assembly := s.store.assembly.set l none, freeCells := free } s)
      let refused (r : Reason) (k : Nat) := answered l tag (.refused r k) replaced s
      let records := s.store.lines.length + (s.store.assembly.get l.other).isSome.toNat
      exec (.lineOpen l) s = .next
        (match findJob s.jobs (byteAt d 0) with
        | none => refused .noJob 0
        | some j =>
          match headerFault d with
          | some k => refused .range k
          | none =>
            if h.line ≠ j.committed + 1 ∨ (∃ f, j.final = some f ∧ f < h.line) then refused .sequence (j.committed + 1)
            else if 64 ≤ records then refused .full 65535
            else if free < h.count then refused .full free
            else answered l tag .accepted (fun s =>
              let u := replaced s
              withStore { u.store with
                assembly := u.store.assembly.set l (some { header := h, sorts := [], deadline := 200000 })
                freeCells := free - h.count } u) s))
    ∧ (∀ (d : List Byte),
      let h := headerOf d
      headerFault d =
        if 1 < byteAt d 3 then some 1
        else if 7 < h.lens then some 2
        else if 2880 < h.leading then some 3
        else if 14399 < h.indent then some 4
        else if h.measure < 1 ∨ 14400 < h.measure ∨ 14400 < h.indent + h.measure then some 5
        else if h.count < 1 ∨ 240 < h.count then some 6
        else none)

/-- A sort's six bytes are read as they were sent: font with the reversed flag, code, advance and signed rise. -/
def Obligations.ASortIsReadAsItWasSent : Prop :=
  ∀ (g : SetSort) (rest : List Byte), g.font < 128 → g.code < 65536 → g.advance < 65536 → -128 ≤ g.rise →
    g.rise < 128 →
    sortAt ([u8 (g.font + if g.reversed then 128 else 0)] ++ u16 g.code ++ u16 g.advance ++ [i8 g.rise] ++ rest) 0 = g

/-- LINE-PART: its checks in order, which leave the assembly as it was; and an accepted part that does not complete
its line stores its sorts and starts the deadline again. -/
def Obligations.LinePartChecksAndStoresItsSorts : Prop :=
  ∀ (l : CLine) (tag : Byte) (d : List Byte) (s : State), Waits l 0x09 tag d s → Passed l s → Owned l (byteAt d 0) s →
    malformed .linePart (s.store.assembly.get l) d = none →
    let refused (r : Reason) (k : Nat) := answered l tag (.refused r k) id s
    let sorts := sortsFrom d 5 (byteAt d 4)
    (findJob s.jobs (byteAt d 0) = none → exec (.linePart l) s = .next (refused .noJob 0))
      ∧ ∀ j, findJob s.jobs (byteAt d 0) = some j →
        (s.store.assembly.get l = none → exec (.linePart l) s = .next (refused .sequence 255))
        ∧ ∀ a, s.store.assembly.get l = some a →
          ((a.header.job ≠ byteAt d 0 ∨ a.header.line ≠ u16At d 1 ∨ a.sorts.length ≠ byteAt d 3
              ∨ (∃ f, j.final = some f ∧ f < u16At d 1)) →
            exec (.linePart l) s = .next (refused .sequence a.sorts.length))
          ∧ (a.header.job = byteAt d 0 → a.header.line = u16At d 1 → a.sorts.length = byteAt d 3 →
            (∀ f, j.final = some f → u16At d 1 ≤ f) →
            (∀ i, (sorts.map SetSort.inRange).idxOf? false = some i →
              exec (.linePart l) s = .next (refused .range (byteAt d 3 + i)))
            ∧ ((∀ g ∈ sorts, g.inRange = true) → a.sorts.length + sorts.length < a.header.count →
              exec (.linePart l) s = .next (answered l tag .accepted (fun s => withStore { s.store with
                assembly := s.store.assembly.set l
                  (some { a with sorts := a.sorts ++ sorts, deadline := 200000 }) } s) s)))

/-- A commit refused NO_GLYPH or OVERSET: the assembly, its record and its cells are gone, nothing else changes. -/
def Obligations.ARefusedCommitDiscardsTheLine : Prop :=
  ∀ (l : CLine) (tag : Byte) (d : List Byte) (j : Job) (a : Assembly) (gs : List SetSort) (s : State),
    Waits l 0x09 tag d s → Passed l s → Completes l d j a gs s →
    let freed (s : State) := withStore { s.store with
      assembly := s.store.assembly.set l none, freeCells := s.store.freeCells + a.header.count } s
    (∀ i, commitCells (mapOf j.disc s) a.header gs = .noGlyph i →
        exec (.linePart l) s = .next (answered l tag (.refused .noGlyph i) freed s))
      ∧ (∀ n, commitCells (mapOf j.disc s) a.header gs = .overset n →
        exec (.linePart l) s = .next (answered l tag (.refused .overset n) freed s))

/-- An accepted commit: the record joins the end of its job's list, the committed count rises, the assembly ends and
its cells stay held. -/
def Obligations.AnAcceptedCommitJoinsTheJobsList : Prop :=
  ∀ (l : CLine) (tag : Byte) (d : List Byte) (j : Job) (a : Assembly) (gs : List SetSort) (cs : List Cell) (s : State),
    Waits l 0x09 tag d s → Passed l s → Completes l d j a gs s → Flashing s →
    commitCells (mapOf j.disc s) a.header gs = .cells cs →
    exec (.linePart l) s = .next (answered l tag .accepted (fun s =>
      withJob j.number (fun k => { k with committed := k.committed + 1 }) (withStore { s.store with
        assembly := s.store.assembly.set l none
        lines := s.store.lines ++ [{ header := a.header, origin := l, cells := cs, current := false }] } s)) s)

/-- Resolution stops at the first key the map lacks, which NO_GLYPH names; an overset names the total advance. A line
whose keys are all found and whose advances stay within the measure is committed exactly if the carriage x of each
placed sort lies on the carriage. The cells of a committed line: each sort keeps its fields, takes its map entry's
place, and gets the carriage x of its pen interval, which lies on the carriage and within the measure's ends. -/
def Obligations.CommitResolvesAndPlacesTheSorts : Prop :=
  (∀ (entries : List MapEntry) (h : Header) (gs : List SetSort),
      let found (g : SetSort) := g.code = 0 ∨ (lookup entries g.font g.code).isSome = true
      (∀ i, commitCells entries h gs = .noGlyph i ↔
          (∃ g, gs[i]? = some g ∧ ¬ found g) ∧ ∀ k < i, ∀ g, gs[k]? = some g → found g)
        ∧ (∀ n, commitCells entries h gs = .overset n → n = totalAdvance gs)
        ∧ ((∀ g ∈ gs, found g) → h.measure < totalAdvance gs →
          commitCells entries h gs = .overset (totalAdvance gs))
        ∧ ((∀ g ∈ gs, found g) → totalAdvance gs ≤ h.measure →
          let onCarriage := ∀ (i : Nat) (g : SetSort) (u : Nat), gs[i]? = some g → g.code ≠ 0 →
            (penStarts gs)[i]? = some u →
            (match h.direction with
            | .ltr => h.indent + u
            | .rtl => h.indent + h.measure - (u + g.advance)) ≤ 14399
          (onCarriage → ∃ cs, commitCells entries h gs = .cells cs)
            ∧ (¬ onCarriage → commitCells entries h gs = .overset (totalAdvance gs))))
    ∧ (∀ (entries : List MapEntry) (h : Header) (gs : List SetSort) (cs : List Cell),
      commitCells entries h gs = .cells cs →
      totalAdvance gs ≤ h.measure ∧ cs.map Cell.glyph = gs
        ∧ ∀ (i : Nat) (c : Cell), cs[i]? = some c → match c.res with
          | .space => c.glyph.code = 0
          | .placed t p heavy x => c.glyph.code ≠ 0
            ∧ (∃ e, lookup entries c.glyph.font c.glyph.code = some e ∧ e.track = t ∧ e.position = p ∧ e.heavy = heavy)
            ∧ (∃ u, (penStarts gs)[i]? = some u ∧ x = match h.direction with
              | .ltr => h.indent + u
              | .rtl => h.indent + h.measure - (u + c.glyph.advance))
            ∧ h.indent ≤ x ∧ x ≤ h.indent + h.measure ∧ x ≤ 14399)

/-- The run flags, and where each sort of a maximal run begins: in a run that is not reversed after the advances
before it, in a reversed run counted back from the far end of its block. -/
def Obligations.LayoutFollowsTheRuns : Prop :=
  ∀ (gs : List SetSort),
    let flags := runFlags false gs
    let sum (k : Nat) := totalAdvance (gs.take k)
    (∀ i g, gs[i]? = some g → flags[i]? = some (if g.advance = 0 then (i != 0 && flags.getD (i - 1) false)
        else g.reversed))
      ∧ (penStarts gs).length = gs.length
      ∧ ∀ b e i, b ≤ i → i < e → e ≤ gs.length → (∀ k, b ≤ k → k < e → flags[k]? = flags[i]?) →
        (b = 0 ∨ flags[b - 1]? ≠ flags[i]?) → (e = gs.length ∨ flags[e]? ≠ flags[i]?) →
        (penStarts gs)[i]? = some (if flags[i]? = some true then sum b + sum e - sum (i + 1) else sum i)

/-! ### Maps and trim -/

/-- MAP-LOAD's range and slot checks in order, each without effect. An accepted MAP-LOAD: afterwards the disc's slot
answers each key with the last entry the message gives it, or as before; its trim records stand, or are created UNTRIMMED
with code 8; every other disc's slot stands. Of the mounted disc, while no search can start and no line is set, the
tracks whose count has risen from 0 and whose record is UNTRIMMED join the end of the trim queue in ascending order, and
their records are QUEUED with the state and code kept as prior; of any other disc no track does. Nothing else changes. -/
def Obligations.MapLoadChecksAndApplies : Prop :=
  (∀ (l : CLine) (tag : Byte) (d : List Byte) (s : State), Waits l 0x0A tag d s → Passed l s →
      malformed .mapLoad (s.store.assembly.get l) d = none →
      let refused (r : Reason) (k : Nat) := answered l tag (.refused r k) id s
      let raw := entriesFrom d 2 (byteAt d 1)
      let disc := byteAt d 0
      let es := raw.filterMap RawEntry.entry
      let slot := slotFor s.maps disc
      let held := (slot.map MapSlot.entries).getD []
      (disc < 1 ∨ 15 < disc → exec (.mapLoad l) s = .next (refused .range 255))
        ∧ (1 ≤ disc → disc ≤ 15 → (∀ i, (raw.map RawEntry.inRange).idxOf? false = some i →
            exec (.mapLoad l) s = .next (refused .range i))
          ∧ ((∀ e ∈ raw, e.inRange = true) →
            (slot = none → (∀ m ∈ s.maps.toList, m ≠ none) → exec (.mapLoad l) s = .next (refused .noSlot 0))
            ∧ (∀ m i, slot = some m → discNamed s.jobs disc = true →
              (es.map fun e => hasKey m.entries e.key).idxOf? true = some i →
              exec (.mapLoad l) s = .next (refused .inUse i))
            ∧ (∀ m, slot = some m → (discNamed s.jobs disc = true → ∀ e ∈ es, hasKey m.entries e.key = false) →
              760 < countAfter held es → exec (.mapLoad l) s = .next (refused .full (countAfter held es))))))
    ∧ (∀ (l : CLine) (tag : Byte) (d : List Byte) (s : State), Waits l 0x0A tag d s → Passed l s →
      malformed .mapLoad (s.store.assembly.get l) d = none →
      let raw := entriesFrom d 2 (byteAt d 1)
      let disc := byteAt d 0
      let es := raw.filterMap RawEntry.entry
      let old := slotFor s.maps disc
      let held := (old.map MapSlot.entries).getD []
      let record (t : Track) : TrimRec := match old with
        | some o => o.trims.get t
        | none => { code := 8, state := .untrimmed, prior := none }
      1 ≤ disc → disc ≤ 15 → (∀ e ∈ raw, e.inRange = true) →
      (disc = s.spin.mounted → s.trim.queueDisc = disc ∧ (s.disc.locked = false ∨ s.trim.search.isSome = true)
        ∧ s.engine.ring = [] ∧ s.engine.state = .idle) →
      (old = none → ∃ m ∈ s.maps.toList, m = none) →
      (discNamed s.jobs disc = true → ∀ e ∈ es, hasKey held e.key = false) → countAfter held es ≤ 760 →
      ∃ maps risen, exec (.mapLoad l) s = .next (answered l tag .accepted (fun s => { s with
          maps := maps, trim := { s.trim with queue := s.trim.queue ++ risen } }) s)
        ∧ ∃ m, slotFor maps disc = some m ∧ m.disc = disc
          ∧ risen = (if disc = s.spin.mounted then allTracks.filter (fun t => held.all (fun e => e.track != t)
            && m.entries.any (fun e => e.track == t) && (record t).state == .untrimmed) else [])
          ∧ (∀ t, m.trims.get t = if t ∈ risen then { code := (record t).code, state := .queued
                                                      prior := some ⟨.untrimmed, (record t).code⟩ } else record t)
          ∧ (∀ font code, lookup m.entries font code =
            match es.reverse.find? (fun e => e.font == font && e.code == code) with
            | some e => some e
            | none => lookup held font code)
          ∧ ∀ other, other ≠ disc → slotFor maps other = slotFor s.maps other)

/-- MAP-CLEAR: its four checks in order, and the slot freed. -/
def Obligations.MapClearChecksAndFreesTheSlot : Prop :=
  ∀ (l : CLine) (tag n : Byte) (s : State), Waits l 0x0B tag [n] s → Passed l s →
    let refused (r : Reason) (k : Nat) := answered l tag (.refused r k) id s
    let naming := (s.jobs.filter fun j => j.disc == n.toNat).map Job.number
    (n.toNat < 1 ∨ 15 < n.toNat → exec (.mapClear l) s = .next (refused .range 255))
      ∧ (1 ≤ n.toNat → n.toNat ≤ 15 →
        (slotFor s.maps n.toNat = none → exec (.mapClear l) s = .next (refused .noMap 0))
        ∧ ∀ m, slotFor s.maps n.toNat = some m →
          (∀ k, k ∈ naming → (∀ i ∈ naming, k ≤ i) → exec (.mapClear l) s = .next (refused .inUse k))
          ∧ (naming = [] → (∃ t, (m.trims.get t).state = .queued ∨ (m.trims.get t).state = .searching) →
            exec (.mapClear l) s = .next (refused .inUse 0))
          ∧ (naming = [] → (∀ t, (m.trims.get t).state ≠ .queued ∧ (m.trims.get t).state ≠ .searching) →
            exec (.mapClear l) s = .next (answered l tag .accepted (fun s => { s with
              maps := s.maps.map fun o => o.filter fun m => m.disc != n.toNat
              trim := if n.toNat = s.spin.mounted then { s.trim with windows := Oct.fill [] } else s.trim }) s)))

/-- TRIM-RESTART: its checks in order; a QUEUED track keeps its place; a track in no search joins the end of the queue
with its state and code kept as prior, while speed lock is UNLOCKED or another search runs, and the line that is set
holds no item of it. -/
def Obligations.TrimRestartChecksAndQueues : Prop :=
  ∀ (l : CLine) (tag n : Byte) (s : State), Waits l 0x0C tag [n] s → Passed l s →
    let refused (r : Reason) (k : Nat) := answered l tag (.refused r k) id s
    let joined (t : Track) : TrimRec := { code := (queueRec s t).code, state := .queued
                                          prior := some ⟨(queueRec s t).state, (queueRec s t).code⟩ }
    (8 ≤ n.toNat → exec (.trimRestart l) s = .next (refused .range 0))
      ∧ ∀ t : Track, t.val = n.toNat →
        (s.spin.mounted = 0 ∨ s.spin.unit = .discChange → exec (.trimRestart l) s = .next (refused .state 0))
        ∧ (s.spin.mounted ≠ 0 → s.spin.unit ≠ .discChange →
          (slotFor s.maps s.spin.mounted = none → exec (.trimRestart l) s = .next (refused .noMap 0))
          ∧ ((slotFor s.maps s.spin.mounted).isSome = true → s.trim.queueDisc = s.spin.mounted →
            (s.disc.locked = false ∨ s.trim.search.isSome = true) → (∀ c, s.trim.search = some c → c.track ≠ t) →
            s.engine.ring = [] → s.engine.state = .idle →
            ((queueRec s t).state = .queued → exec (.trimRestart l) s = .next (answered l tag .accepted id s))
            ∧ ((queueRec s t).state.inSearch = false →
              exec (.trimRestart l) s = .next (answered l tag .accepted (fun s => { s with
                maps := updateSlot s.maps s.spin.mounted fun m => { m with trims := m.trims.set t (joined t) }
                trim := { s.trim with
                  queue := s.trim.queue ++ [t]
                  windows := if (queueRec s t).state = .trimmed then s.trim.windows.set t [] else s.trim.windows } })
                s))))

/-- TRIM-LIMITS: the first value out of range is named by its place, and an accepted message replaces all five. -/
def Obligations.TrimLimitsReplacesAllFiveOrNone : Prop :=
  ∀ (l : CLine) (tag f c w m n : Byte) (s : State), Waits l 0x0D tag [f, c, w, m, n] s → Passed l s →
    let refused (k : Nat) := answered l tag (.refused .range k) id s
    let limits : Limits :=
      { floor := f.toNat, ceiling := c.toNat, dwell := w.toNat, searchMiss := m.toNat, monitorMiss := n.toNat }
    exec (.trimLimits l) s = .next
      (if 15 < f.toNat then refused 1
      else if 15 < c.toNat ∨ c.toNat < f.toNat then refused 2
      else if w.toNat < 1 ∨ 16 < w.toNat then refused 3
      else if 3 < m.toNat then refused 4
      else if n.toNat < 1 ∨ 16 < n.toNat then refused 5
      else answered l tag .accepted (fun s => { s with trim := { s.trim with limits := limits } }) s)

/-! ### The unit's messages and keys -/

/-- BANK-SET: the set is checked before the time; an accepted one takes both and makes the bank qualify afresh. A broadcast
one has the same effect and gets no reply. -/
def Obligations.BankSetMakesTheBankQualifyAfresh : Prop :=
  ∀ (l : CLine) (tag n q : Byte) (s : State), Passed l s →
    let selected (s : State) : State := { s with bank := { s.bank with
      set := n.toNat, qualMs := q.toNat, readyRun := 0, heavyRun := 0
      state := if s.bank.state = .ready ∨ s.bank.state = .heavyReady then .charging else s.bank.state } }
    (Waits l 0x0E tag [n, q] s → exec (.bankSet l) s = .next
        (if 3 < n.toNat then answered l tag (.refused .range 1) id s
        else if q.toNat ≠ 1 ∧ q.toNat ≠ 3 then answered l tag (.refused .range 2) id s
        else answered l tag .accepted selected s))
      ∧ (Up s → (s.iface.get l).tx = none → (s.iface.get l).slot = some (.frame true 0x0E tag [n, q]) →
        exec (.bankSet l) s = .next (if 3 < n.toNat ∨ (q.toNat ≠ 1 ∧ q.toNat ≠ 3) then emptySlot l s
          else selected (emptySlot l s)))

/-- FILM-SET: its checks in order; an accepted one sets the film remaining and the load value to 20 steps a point, and
posts FILM_LOW to both queues if the arm is set and less than 14,400 steps remain. -/
def Obligations.FilmSetSetsTheFilm : Prop :=
  ∀ (l : CLine) (tag a b c : Byte) (s : State), Waits l 0x0F tag [a, b, c] s → Passed l s →
    let points := (a.toNat * 256 + b.toNat) * 256 + c.toNat
    let steps := points * 20
    let set (s : State) : State :=
      { s with drive := { s.drive with film := { s.drive.film with remaining := steps, load := steps } } }
    let low (s : State) : State :=
      { s with drive := { s.drive with film := { s.drive.film with lowArm := false, low := true } } }
    exec (.filmSet l) s = .next
      (if 100000 < points then answered l tag (.refused .range 1) id s
      else if filmBusy s = true then answered l tag (.refused .state 0) id s
      else if s.drive.film.lowArm = true ∧ steps < 14400 then
        answered l tag .accepted (fun s => low (post .b (.filmLow steps) (post .a (.filmLow steps) (set s)))) s
      else answered l tag .accepted set s)

/-- SPIN-SET takes a park delay of 1 to 60 minutes and starts a running park timer again at it; PANEL-SET takes one of
the four sources. The panel lamps follow the state (R176): READY while its source holds outside FAULTED, DISC with the
requested disc in DISC_CHANGE, FILM steady while out and blinking while low and not out, HOLD with the hold flag, FAULT
in FAULTED; while the supply monitor is LOW all are dark. -/
def Obligations.SpinSetAndPanelSetTakeTheirValue : Prop :=
  (∀ (l : CLine) (tag n : Byte) (s : State), Waits l 0x10 tag [n] s → Passed l s →
      exec (.spinSet l) s = .next
        (if n.toNat < 1 ∨ 60 < n.toNat then answered l tag (.refused .range 1) id s
        else answered l tag .accepted (fun s => { s with spin := { s.spin with
          parkDelay := n.toNat
          parkTimer := if s.spin.parkTimer = none then none else some (n.toNat * 6000000) } }) s))
    ∧ (∀ (l : CLine) (tag : Byte) (src : ReadySource) (s : State), Waits l 0x14 tag [u8 src.code] s → Passed l s →
      exec (.panelSet l) s = .next
        (answered l tag .accepted (fun s => { s with spin := { s.spin with readySource := src } }) s))
    ∧ (∀ (l : CLine) (tag n : Byte) (s : State), Waits l 0x14 tag [n] s → Passed l s → 4 ≤ n.toNat →
      exec (.panelSet l) s = .next (answered l tag (.refused .range 1) id s))
    ∧ (∀ (s : State), Up s →
      let holds : Prop := match s.spin.readySource with
        | .lineA => Passed .a s
        | .lineB => Passed .b s
        | .either => Passed .a s ∨ Passed .b s
        | .both => Passed .a s ∧ Passed .b s
      ((lamps s).ready = true ↔ holds ∧ s.spin.unit ≠ .faulted)
        ∧ (lamps s).disc = (if s.spin.unit = .discChange then s.spin.requested else none)
        ∧ (lamps s).filmSteady = s.drive.film.out
        ∧ ((lamps s).filmBlinking = true ↔ s.drive.film.low = true ∧ s.drive.film.out = false)
        ∧ (lamps s).hold = s.spin.hold ∧ ((lamps s).fault = true ↔ s.spin.unit = .faulted))
    ∧ (∀ (s : State), s.spin.supply = .low → lamps s = { ready := false, disc := none, filmSteady := false
                                                         filmBlinking := false, hold := false, fault := false })

/-- UNIT-HOLD and the HOLD key set the hold flag, stop the starvation timer and keep its mark, and change nothing else.
UNIT-RUN, and the RUN key outside FAULTED, clear the hold flag: while a line is being flashed nothing else follows; a
part without jobs makes no selection; and an ACTIVE job that starves has its 5 s again. -/
def Obligations.HoldAndRunSetAndClearTheFlag : Prop :=
  let holds (s : State) : State := { s with spin := { s.spin with hold := true }, seq := { s.seq with starve := none } }
  let runs (s : State) : State := { s with spin := { s.spin with hold := false } }
  let restarts (s : State) : State := { runs s with seq := { s.seq with starve := some 500000 } }
  let quiet (s : State) : Prop := Flashing s ∨ (s.jobs = [] ∧ s.engine.state = .idle)
  let starves (s : State) : Prop := ∃ j, s.jobs = [j] ∧ j.state = .active ∧ j.held = false ∧ j.final = none
    ∧ s.store.lines = [] ∧ s.engine.state = .idle ∧ s.engine.current = none ∧ s.seq.grace = false
  (∀ (l : CLine) (tag : Byte) (s : State), Waits l 0x11 tag [] s → Passed l s →
      exec (.unitHold l) s = .next (answered l tag .accepted holds s))
    ∧ (∀ (s : State), Up s → exec .holdKey s = .next (holds s))
    ∧ (∀ (l : CLine) (tag : Byte) (s : State), Waits l 0x12 tag [] s → Passed l s →
      (quiet s → exec (.unitRun l) s = .next (answered l tag .accepted runs s))
      ∧ (s.spin.hold = true → starves s → exec (.unitRun l) s = .next (answered l tag .accepted restarts s)))
    ∧ (∀ (s : State), Up s → s.spin.unit ≠ .faulted →
      (quiet s → exec .runKey s = .next (runs s))
      ∧ (s.spin.hold = true → starves s → exec .runKey s = .next (restarts s)))

/-- What every entry to SPIN_UP does: motor and charger come on, the three mechanisms home, the spin-up timer runs, and
the disc timing starts afresh; the mounted disc and the hold flag stand. Three of its points are the model's choices:
the first leg is read from the sensor level last reported (log 5), a held deflector order stands (log 17), and a
mechanism that is still in motion ends its move first, its limit running (log 18). -/
def Obligations.SpinUpStartsMotorHomingAndTimer : Prop :=
  let spunUp (s t : State) : Prop :=
    t.spin = { s.spin with unit := .spinUp, motor := true, parkTimer := none, requested := none, lastFault := none }
      ∧ t.bank = { s.bank with charger := true, strobeHeld := false }
      ∧ t.disc = { s.disc with valid := false, slipCount := 0, reached := false, spinup := some 800000 }
      ∧ (t.drive.homingDone = false ∧ t.drive.limitC = some 600000 ∧ t.drive.limitD = some 600000
        ∧ t.drive.limitT = some 600000 ∧ t.drive.film = s.drive.film ∧ t.drive.held = s.drive.held)
      ∧ (s.drive.carriage.act = .atRest → ∃ leg, t.drive.carriage.act = .homing leg
        ∧ (leg = .out ↔ s.drive.sensors.carriage = true)
        ∧ t.drive.carriage.stepDir = if leg = .out then .ascending else .descending)
      ∧ (s.drive.deflector.act = .atRest → ∃ leg, t.drive.deflector.act = .homing leg
        ∧ (leg = .out ↔ s.drive.sensors.deflTrack = true)
        ∧ t.drive.deflector.step = if leg = .out then .trackUp else .trackDown)
      ∧ (s.drive.turret.act = .atRest → ∃ leg, t.drive.turret.act = .homing leg
        ∧ (leg = .out ↔ s.drive.sensors.turret = true) ∧ t.drive.turret.forward = decide (leg = .out))
      ∧ (s.drive.carriage.act ≠ .atRest → t.drive.carriage = s.drive.carriage)
      ∧ (s.drive.deflector.act ≠ .atRest → t.drive.deflector = s.drive.deflector)
      ∧ (s.drive.turret.act ≠ .atRest → t.drive.turret = s.drive.turret)
      ∧ t.queues = s.queues ∧ t.maps = s.maps ∧ t.store = s.store ∧ t.jobs = s.jobs ∧ t.seq = s.seq
      ∧ t.engine = s.engine ∧ t.trim = s.trim
  (∀ (l : CLine) (tag : Byte) (s : State), Waits l 0x13 tag [] s → Passed l s → s.spin.unit = .faulted →
      ∃ f, spunUp (emptySlot l s) (f (emptySlot l s))
        ∧ exec (.restart l) s = .next (answered l tag .accepted f s))
    ∧ (∀ (l : CLine) (tag : Byte) (s : State), Waits l 0x13 tag [] s → Passed l s → s.spin.unit ≠ .faulted →
      exec (.restart l) s = .next (answered l tag (.refused .state 0) id s))
    ∧ (∀ (s : State), Up s → s.spin.unit = .faulted → ∃ t, exec .runKey s = .next t ∧ spunUp s t)
    ∧ (∀ (s : State), Up s → s.spin.unit = .discChange → ∃ t, exec .discDoneKey s = .next t ∧ spunUp s t)
    ∧ (∀ (s : State), Up s → s.spin.unit ≠ .discChange → exec .discDoneKey s = .next s)

/-- A unit reset, by message or by key, in every state: jobs, lines, ring, trim queue, search and windows go, with the
sweep and the tallies; each slot keeps its disc and its entries, a QUEUED or SEARCHING record of the queue disc takes back
its prior state and code, and every other record stands; the unit is PARKED, UNIT_RESET leads both queues, and film,
limits, bank settings, panel source, mounted and present disc, lines and PASS stand. With the galley-open flag clear and
no close in progress the engine is IDLE and UNIT_RESET stands alone. With the galley open the engine is CLOSING, with a
close that names no job and waits here for the carriage's last step; a close in progress goes on and names no job. -/
def Obligations.AUnitResetClearsTheWorkAndParks : Prop :=
  let cleared (cause : StartCause) (s t : State) : Prop :=
    (t.jobs = [] ∧ t.store.lines = [] ∧ t.store.freeCells = 4096 ∧ (∀ l, t.store.assembly.get l = none)
        ∧ t.seq = { openCounter := 0, starve := none, grace := false, pendingSel := false })
      ∧ (t.engine.ring = [] ∧ t.disc.channel = none ∧ t.engine.current = none ∧ t.engine.sweep = none
        ∧ t.engine.misreg = 0 ∧ t.engine.deferral = 0
        ∧ (s.engine.current.isSome = true → t.engine.stops = [] ∧ t.engine.stopNo = 0 ∧ t.engine.stuck = 0))
      ∧ (t.trim = { s.trim with queue := [], search := none, queueDisc := s.spin.mounted, windows := Oct.fill [] })
      ∧ (t.maps.toList.map (Option.map fun m => (m.disc, m.entries))
        = s.maps.toList.map (Option.map fun m => (m.disc, m.entries)))
      ∧ (∀ d m, slotFor s.maps d = some m → ∃ m', slotFor t.maps d = some m' ∧ ∀ tr : Track,
        (d ≠ s.trim.queueDisc → m'.trims.get tr = m.trims.get tr)
        ∧ ((m.trims.get tr).state ≠ .queued → (m.trims.get tr).state ≠ .searching →
          m'.trims.get tr = m.trims.get tr)
        ∧ (d = s.trim.queueDisc → ((m.trims.get tr).state = .queued ∨ (m.trims.get tr).state = .searching) →
          ∀ p, (m.trims.get tr).prior = some p → m'.trims.get tr = { code := p.code, state := p.state, prior := none }))
      ∧ (t.spin = { s.spin with unit := .parked, hold := false, parkTimer := none, lastFault := none
                                requested := none, cause := cause, motor := false })
      ∧ (t.disc.valid = false ∧ t.disc.locked = false ∧ t.disc.lockRun = 0 ∧ t.disc.reached = false
        ∧ t.disc.slipCount = 0 ∧ t.disc.slipMark = false ∧ t.disc.spinup = none ∧ t.disc.stall = none
        ∧ t.disc.unlock = none)
      ∧ (t.disc.counter = s.disc.counter ∧ t.disc.period = s.disc.period ∧ t.disc.lastCapture = s.disc.lastCapture
        ∧ t.disc.lastPeriod = s.disc.lastPeriod ∧ t.disc.samples = s.disc.samples)
      ∧ (t.bank = { s.bank with watch := none, charger := false, strobeHeld := true })
      ∧ (t.drive.homingDone = false ∧ t.drive.limitC = none ∧ t.drive.limitD = none ∧ t.drive.limitT = none
        ∧ t.drive.held = none ∧ t.drive.film.out = false ∧ t.drive.film.remaining = s.drive.film.remaining
        ∧ t.drive.film.load = s.drive.film.load ∧ t.drive.film.galleyOpen = s.drive.film.galleyOpen
        ∧ t.drive.film.low = s.drive.film.low ∧ t.drive.film.lowArm = s.drive.film.lowArm)
      ∧ (∀ l, (t.queues.get l).events.head? = some (.unitReset cause))
      ∧ t.iface = s.iface
  let alone (cause : StartCause) (t : State) : Prop :=
    ∀ l, t.queues.get l = { events := [.unitReset cause], lost := false }
  let reset (cause : StartCause) (s t : State) : Prop :=
    cleared cause s t
      ∧ (s.drive.film.galleyOpen = false → s.engine.close = none →
        (s.engine.current = none → s.engine.state = .idle) →
        t.engine.state = .idle ∧ t.engine.close = none ∧ alone cause t)
      ∧ (s.drive.film.galleyOpen = true → s.engine.close = none → s.drive.carriage.act = .stepping →
        t.engine.state = .closing ∧ t.engine.close = some { job := none, phase := .ordered, steps := 0 }
        ∧ t.drive.carriage.target = none ∧ alone cause t)
      ∧ (∀ c, s.engine.close = some c → s.engine.state = .closing → s.engine.current = none → c.phase ≠ .ordered →
        t.engine.state = .closing ∧ t.engine.close = some { c with job := none } ∧ alone cause t)
  (∀ (l : CLine) (tag : Byte) (s : State), Waits l 0x15 tag [0] s → Passed l s →
      ∃ f, exec (.resetUnit l) s = .next (answered l tag .accepted f s)
        ∧ reset .message (emptySlot l s) (f (emptySlot l s)))
    ∧ (∀ (s : State), Up s → ∃ t, exec .resetKey s = .next t ∧ reset .panel s t)

/-- RESET with scope LINE: accepted without PASS; PASS, run, slot and overrun of the line go, its queue is emptied, its
assembly is dropped with LINE_RESET, and LINE_RESET is posted; everything else stands. A scope of 2 or more is refused
RANGE with detail 1, and that each of the two RESET rows takes such a message is the model's choice (log 9). -/
def Obligations.ALineResetReachesItsLineOnly : Prop :=
  (∀ (l : CLine) (tag : Byte) (s : State), Waits l 0x15 tag [1] s →
      exec (.resetLine l) s = .next (answered l tag .accepted (fun s => { s with
        iface := s.iface.set l { s.iface.get l with pass := false, run := 0, slot := none, overrun := false }
        queues := s.queues.set l { lost := false, events := match s.store.assembly.get l with
          | none => [.lineReset]
          | some a => [.assemblyDropped a.header.job a.header.line .lineReset, .lineReset] }
        store := match s.store.assembly.get l with
          | none => s.store
          | some a => { s.store with assembly := s.store.assembly.set l none
                                     freeCells := s.store.freeCells + a.header.count } }) s))
    ∧ (∀ (l : CLine) (tag n : Byte) (s : State), Waits l 0x15 tag [n] s → Passed l s → 2 ≤ n.toNat →
      exec (.resetLine l) s = .next (answered l tag (.refused .range 1) id s)
        ∧ exec (.resetUnit l) s = .next (answered l tag (.refused .range 1) id s))

/-! ### The receivers -/

/-- A station character: a frame in progress is dropped and PASS cleared; the own number starts an addressed frame, 31
a broadcast one, and any other value, or any value on a line out of service, lets the frame pass. In SILENT nothing is
taken. -/
def Obligations.AStationCharacterStartsOrPassesAFrame : Prop :=
  ∀ (l : CLine) (c : Byte) (s : State), Up s →
    let i := s.iface.get l
    let out := i.station.toNat = 0 ∨ i.station.toNat = 31
    let limit : Nat := match i.rate with
      | .r9600 => 230
      | .r19200 => 115
      | .r38400 => 58
      | .r76800 => 29
    let fresh (broadcast : Bool) : Partial :=
      { broadcast := broadcast, kind := none, tag := none, len := none, data := [], check := 0xFFFF, checkHi := none }
    (i.rx = .silent → exec (.stationCharacter l c) s = .next s)
      ∧ (i.rx ≠ .silent → ∀ k : Iface,
        ((∃ f, i.rx = .taking f) → k = { i with pass := false, run := 0, spell := .nothing }) →
        ((∀ f, i.rx ≠ .taking f) → k = { i with spell := .nothing }) →
        ((out ∨ (c.toNat ≠ i.station.toNat ∧ c.toNat ≠ 31)) →
          exec (.stationCharacter l c) s = .next (withLine l { k with rx := .passing, gap := none } s))
        ∧ (¬ out → c.toNat = i.station.toNat → exec (.stationCharacter l c) s
          = .next (withLine l { k with rx := .taking (fresh false), gap := some limit } s))
        ∧ (¬ out → c.toNat = 31 → exec (.stationCharacter l c) s
          = .next (withLine l { k with rx := .taking (fresh true), gap := some limit } s)))

/-- A body character before the last check byte takes its place: kind, tag, length up to 250, data, first check byte; all
but the check byte go into the check, and the gap is timed afresh. Elsewhere it is disregarded. The second check byte
ends the frame: a good frame counts toward PASS before it is offered to the slot; an addressed frame with a mismatch
is offered as a check-failed entry, a broadcast one not at all, with PASS cleared; a full slot keeps its entry and
sets overrun. -/
def Obligations.CharactersBuildAFrameAndItsEndIsOffered : Prop :=
  (∀ (l : CLine) (c : Byte) (s : State), Up s →
      let i := s.iface.get l
      let takes (f : Partial) := exec (.bodyCharacter l c) s
        = .next (withLine l { i with rx := .taking f, gap := some (gapLimit i.rate), spell := .nothing } s)
      ((i.rx = .hunt ∨ i.rx = .passing ∨ i.rx = .discard) →
          exec (.bodyCharacter l c) s = .next (withLine l { i with spell := .nothing } s))
        ∧ (i.rx = .silent → exec (.bodyCharacter l c) s = .next s)
        ∧ ∀ f, i.rx = .taking f →
          (f.kind = none → takes { f with kind := some c, check := crcByte f.check c })
          ∧ (f.kind ≠ none → f.tag = none → takes { f with tag := some c, check := crcByte f.check c })
          ∧ (f.kind ≠ none → f.tag ≠ none → f.len = none → c.toNat ≤ 250 →
            takes { f with len := some c, check := crcByte f.check c })
          ∧ (∀ n, f.kind ≠ none → f.tag ≠ none → f.len = some n → f.checkHi = none → f.data.length < n.toNat →
            takes { f with data := f.data ++ [c], check := crcByte f.check c })
          ∧ (∀ n, f.kind ≠ none → f.tag ≠ none → f.len = some n → f.checkHi = none → n.toNat ≤ f.data.length →
            takes { f with checkHi := some c }))
    ∧ (∀ (l : CLine) (hi lo kind tag n : Byte) (f : Partial) (s : State), Up s →
      let i := s.iface.get l
      i.rx = .taking f → f.kind = some kind → f.tag = some tag → f.len = some n → f.checkHi = some hi →
      let ended := { i with rx := .hunt, gap := none, spell := .nothing }
      let good := { ended with run := min 4 (i.run + 1), pass := i.pass || decide (4 ≤ i.run + 1) }
      let failed := { ended with run := 0, pass := false }
      (f.check = hi ++ lo →
          (i.slot = none → exec (.frameEnd l lo) s
            = .next (withLine l { good with slot := some (.frame f.broadcast kind tag f.data) } s))
          ∧ (i.slot ≠ none → exec (.frameEnd l lo) s = .next (withLine l { good with overrun := true } s)))
        ∧ (f.check ≠ hi ++ lo →
          (f.broadcast = true → exec (.frameEnd l lo) s = .next (withLine l failed s))
          ∧ (f.broadcast = false → i.slot = none → exec (.frameEnd l lo) s
            = .next (withLine l { failed with slot := some (.checkFailed tag) } s))
          ∧ (f.broadcast = false → i.slot ≠ none → exec (.frameEnd l lo) s
            = .next (withLine l { failed with overrun := true } s))))

/-- The three ways a frame is spoiled, each clearing PASS: a framing error and a length above 250 send the receiver to
DISCARD, a gap to HUNT. Outside TAKING a framing error and a gap change nothing. A break drops the frame, clears PASS
and discards the line's assembly; a silence sends the receiver to SILENT and posts LINE_FAULT to the other line;
marking brings it back to HUNT. In SILENT neither a break nor a silence comes. The end of a reply leaves the
transmitter idle. Two points are the model's choices: a gap acts only once its limit has run out (log 3), and a break
and a silence act whatever the present spell of spacing has given already (log 7); a length above 250 comes as a
character of its own row (log 8). -/
def Obligations.SpoiledFramesBreaksAndSilence : Prop :=
  (∀ (l : CLine) (c : Byte) (s : State), Up s →
      let i := s.iface.get l
      (∀ f, i.rx = .taking f →
          exec (.framingError l) s = .next (withLine l { i with rx := .discard, gap := none, pass := false, run := 0 } s)
          ∧ (i.gap = some 0 →
            exec (.frameGap l) s = .next (withLine l { i with rx := .hunt, gap := none, pass := false, run := 0 } s))
          ∧ (f.kind ≠ none → f.tag ≠ none → f.len = none → 250 < c.toNat → exec (.lengthOutOfRange l c) s
            = .next (withLine l { i with rx := .discard, gap := none, pass := false, run := 0, spell := .nothing } s)))
        ∧ (i.gap ≠ some 0 → exec (.frameGap l) s = .next s)
        ∧ ((∀ f, i.rx ≠ .taking f) → exec (.framingError l) s = .next s ∧ exec (.frameGap l) s = .next s))
    ∧ (∀ (l : CLine) (s : State), Up s →
      let i := s.iface.get l
      let broken := withLine l { i with rx := .hunt, gap := none, pass := false, run := 0, spell := .broke } s
      (i.rx ≠ .silent →
          (s.store.assembly.get l = none → exec (.lineBreak l) s = .next broken)
          ∧ (∀ a, s.store.assembly.get l = some a → exec (.lineBreak l) s
            = .next (post l (.assemblyDropped a.header.job a.header.line .lineBreak) (withStore { s.store with
              assembly := s.store.assembly.set l none, freeCells := s.store.freeCells + a.header.count } broken)))
          ∧ exec (.silence l) s = .next (post l.other (.lineFault l)
            (withLine l { i with rx := .silent, gap := none, pass := false, run := 0, spell := .silenced } s)))
        ∧ (i.rx = .silent → exec (.lineBreak l) s = .next s ∧ exec (.silence l) s = .next s
          ∧ exec (.markingResumed l) s = .next (withLine l { i with rx := .hunt, gap := none, spell := .nothing } s))
        ∧ exec (.replyEnd l) s = .next (withLine l { i with tx := none } s))

/-- A whole frame sent to a receiver in HUNT with an empty slot, character by character, comes to stand in the slot with
its kind, tag and data if its check is the CRC-16 of what was sent, and as a check-failed entry otherwise. -/
def Obligations.AWholeFrameReachesTheSlotAsSent : Prop :=
  ∀ (l : CLine) (station kind tag hi lo : Byte) (data : List Byte) (s : State), Up s → data.length ≤ 250 →
    let i := s.iface.get l
    i.rx = .hunt → i.slot = none → i.station.toNat ≠ 0 → i.station.toNat ≠ 31 →
    (station.toNat = i.station.toNat ∨ station.toNat = 31) →
    let covered := [kind, tag, u8 data.length] ++ data
    let check := crcBytes 0xFFFF covered
    let sent := .stationCharacter l station :: (covered ++ [hi]).map (Instr.bodyCharacter l) ++ [.frameEnd l lo]
    ∃ t, runAll sent s = some t ∧ (t.iface.get l).rx = .hunt ∧ t.iface.get l.other = s.iface.get l.other
      ∧ (hi ++ lo = check →
        (t.iface.get l).slot = some (.frame (decide (station.toNat = 31)) kind tag data)
          ∧ (t.iface.get l).run = min 4 (i.run + 1) ∧ (t.iface.get l).pass = (i.pass || decide (4 ≤ i.run + 1)))
      ∧ (hi ++ lo ≠ check →
        (t.iface.get l).slot = (if station.toNat = 31 then none else some (.checkFailed tag))
          ∧ (t.iface.get l).run = 0 ∧ (t.iface.get l).pass = false)
      ∧ t.queues = s.queues ∧ t.store = s.store ∧ t.jobs = s.jobs ∧ t.spin = s.spin

/-! ### The disc -/

/-- An encoder edge that is no arrival moves the counter by 1 within -4096 to 8191 and nothing else; a lowering edge
while LOCKED is a slip: SLIP with the new value to both queues, once in a revolution. -/
def Obligations.AnEncoderEdgeCounts : Prop :=
  ∀ (s : State), Up s →
    let up := { s with disc := { s.disc with counter := min 8191 (s.disc.counter + 1) } }
    let low := max (-4096) (s.disc.counter - 1)
    let down := { s with disc := { s.disc with counter := low } }
    ((s.disc.valid = false ∨ s.disc.channel = none ∨ s.disc.counter = 8191
        ∨ (∃ n : Nat, s.disc.channel = some n ∧ (n : Int) ≠ s.disc.counter + 1)) →
      exec (.encoderEdge .up) s = .next up)
      ∧ ((s.disc.locked = false ∨ s.disc.slipMark = true ∨ s.disc.counter ≤ -4096) →
        exec (.encoderEdge .down) s = .next down)
      ∧ (s.disc.locked = true → s.disc.slipMark = false → -4096 < s.disc.counter →
        exec (.encoderEdge .down) s = .next { post .b (.slip low) (post .a (.slip low) down) with
          disc := { s.disc with counter := low, slipMark := true } })

/-- The take rule: at an arrival of the first item of the ring the strobe fires if and only if speed lock is LOCKED, the
carriage and the deflector are settled for the item, the bank has charge enough for it, and its track is TRIMMED, or
SEARCHING for a test item. -/
def Obligations.TheTakeRule : Prop :=
  ∀ (it : Item) (rest : List Item) (s : State), Up s → NoEndWaits s → s.engine.ring = it :: rest →
    s.disc.valid = true → s.disc.channel = some it.target → s.disc.counter + 1 = it.target → it.target < 2880 →
    let placed := match it with
      | .exposure _ _ _ => s.engine.state = .flash ∨ s.engine.state = .waitTrack
      | .test _ _ => s.drive.carriage.act = .atRest
    let charged := match it with
      | .exposure e _ _ => s.bank.state = .heavyReady ∨ (s.bank.state = .ready ∧ e.heavy = false)
      | .test _ _ => s.bank.state = .heavyReady ∨ s.bank.state = .ready
    let trimmed := match it with
      | .exposure e _ _ => (mountedRec s e.track).state = .trimmed
      | .test t _ => (mountedRec s t).state = .searching
    let fires := s.disc.locked = true ∧ placed ∧ s.drive.deflector.act = .atRest
      ∧ s.drive.deflector.track = it.track.val ∧ s.drive.deflector.rise = it.rise ∧ charged ∧ trimmed
    let flashed (of : WatchOf) : Option Watch := some { of := of, hit := false, left := 30 }
    ∃ t, exec (.encoderEdge .up) s = .next t
      ∧ (fires → t.bank = { s.bank with readyRun := 0, heavyRun := 0, state := .charging, watch := some 15000 }
        ∧ match it with
          | .exposure e _ _ => t.engine.watch = flashed (.exposure e.track true) ∧ t.engine.stuck = 0
            ∧ t.engine.firedSinceIndex = true
          | .test tr _ => t.engine.watch = flashed (.test tr true) ∧ t.engine.stuck = s.engine.stuck
            ∧ t.engine.firedSinceIndex = s.engine.firedSinceIndex)
      ∧ (¬ fires → t.bank = s.bank ∧ t.engine.watch = s.engine.watch ∧ t.engine.stuck = s.engine.stuck
        ∧ t.engine.firedSinceIndex = s.engine.firedSinceIndex)

/-- What a compare event does to the ring: items passed at the same angle move to the end, deferred, ahead of the first
item, which moves there deferred if it did not fire, is re-armed if it is a test item that fired, and leaves if it is an
exposure item that fired. The channel follows the ring, the deferral total takes each deferred exposure item (that a
test item does not count is the model's reading, log 12), and the line, the trim unit and the film are not touched. -/
def Obligations.ACompareEventDefersWhatDoesNotFire : Prop :=
  ∀ (it : Item) (rest : List Item) (s : State), Up s → NoEndWaits s → s.engine.ring = it :: rest →
    s.disc.valid = true → s.disc.channel = some it.target → s.disc.counter + 1 = it.target → it.target < 2880 →
    let passed := rest.filter fun y => y.target == it.target
    let others := rest.filter fun y => y.target != it.target
    let defer (y : Item) : Item := match y with
      | .exposure e target n => .exposure e target (min 65535 (n + 1))
      | .test t target => .test t target
    let last := if takes it s = true then (if it.isExposure then [] else [it]) else [defer it]
    let deferred := (passed.filter Item.isExposure).length
      + (if takes it s = false ∧ it.isExposure = true then 1 else 0)
    ∃ t, exec (.encoderEdge .up) s = .next t
      ∧ t.engine.ring = others ++ passed.map defer ++ last
      ∧ t.disc = { s.disc with counter := it.target, channel := t.engine.ring.head?.map Item.target }
      ∧ t.engine.deferral = min 65535 (s.engine.deferral + deferred)
      ∧ t.engine.state = s.engine.state ∧ t.engine.current = s.engine.current ∧ t.engine.misreg = s.engine.misreg
      ∧ (t.engine.ring = [] → t.drive = s.drive)
      ∧ (∀ y, t.engine.ring.head? = some y →
        let d := s.drive.deflector
        let there := d.act = .atRest ∧ d.track = y.track.val ∧ d.rise = y.rise
        let thither := (d.act = .stepping ∨ d.act = .settling) ∧ d.target = some (y.track, y.rise)
        ((there ∨ thither) → t.drive = s.drive)
        ∧ (¬ there → ¬ thither → (∀ leg, d.act ≠ .homing leg) → t.drive.deflector.target = some (y.track, y.rise)
          ∧ t.drive.deflector.act ≠ .atRest)
        ∧ (∀ leg, d.act = .homing leg → t.drive.deflector = d ∧ t.drive.held = some (y.track, y.rise)))
      ∧ t.drive.carriage = s.drive.carriage ∧ t.drive.film = s.drive.film ∧ t.drive.turret = s.drive.turret
      ∧ t.iface = s.iface ∧ t.queues = s.queues ∧ t.maps = s.maps ∧ t.store = s.store ∧ t.jobs = s.jobs
      ∧ t.seq = s.seq ∧ t.trim = s.trim ∧ t.spin = s.spin

/-- In PARKED, DISC_CHANGE and FAULTED an index event captures and clears the counter and the period timer and does
nothing else; the first one of a spin-up makes the angle valid and judges nothing. A slipped revolution: SLIP to both
queues unless it is posted already, the count of slipped revolutions raised, and speed lock and its run left; at the
third in a row ENCODER_FAULT with the capture. -/
def Obligations.IndexEventsThatDoNotTestTheSpeed : Prop :=
  (∀ (ring : BitVec 4) (s : State), Up s → s.engine.state = .idle →
      let captured := { s.disc with lastCapture := s.disc.counter, counter := 0, lastPeriod := s.disc.period
                                    period := 0, slipMark := false }
      (s.spin.unit = .parked ∨ s.spin.unit = .discChange ∨ s.spin.unit = .faulted →
          exec (.indexEvent ring) s = .next { s with disc := captured })
        ∧ (s.spin.unit = .spinUp → s.disc.valid = false → s.disc.channel ≠ some 0 →
          exec (.indexEvent ring) s = .next { s with
            disc := { captured with valid := true }, engine := { s.engine with firedSinceIndex := false } }))
    ∧ (∀ (ring : BitVec 4) (s : State), Up s → s.spin.unit = .ready → s.engine.state = .idle → s.disc.valid = true →
      s.disc.channel ≠ some 0 → (s.disc.counter ≠ 2880 ∨ s.disc.slipMark = true) →
      (s.disc.slipCount < 2 → exec (.indexEvent ring) s = .next { (if s.disc.slipMark = true then s
          else post .b (.slip s.disc.counter) (post .a (.slip s.disc.counter) s)) with
        engine := { s.engine with firedSinceIndex := false }
        disc := { s.disc with lastCapture := s.disc.counter, counter := 0, lastPeriod := s.disc.period, period := 0
                              stall := some 30000, slipCount := s.disc.slipCount + 1, slipMark := false } })
        ∧ (s.disc.slipCount = 2 → s.drive.film.galleyOpen = false → s.engine.current = none →
          ∃ t, exec (.indexEvent ring) s = .next t ∧ t.spin.unit = .faulted
            ∧ t.spin.lastFault = some { kind := .encoder, detail := s.disc.counter }))

/-- A healthy revolution judged in READY: while UNLOCKED eight periods of 9,950 to 10,050 ticks in a row lock, any other
sets the run to 0; while LOCKED a period outside 9,900 to 10,100 unlocks and starts the 2 s timer; the slip count goes
to 0 and the stall timer starts again. In EXPOSING the index event counts toward the stuck count of the stop if and only
if the engine is in FLASH, exposure items are in the ring, no exposure has fired since the last index event, speed is
LOCKED, and no item's track is QUEUED or SEARCHING (R64). At 16 the stop is stuck: the line is abandoned with the track
of the first exposure item, the job is FAILED and its lines are freed, JOB_FAILED follows LINE_ABANDONED to its owner
line, and the engine is CLOSING with a close that names the job (R65, R157). -/
def Obligations.AJudgedRevolutionMovesTheSpeedLock : Prop :=
  (∀ (ring : BitVec 4) (s : State), Up s → s.spin.unit = .ready → s.engine.state = .idle → s.engine.ring = [] →
    s.trim.queue = [] → s.disc.valid = true → s.disc.channel = none → s.disc.counter = 2880 → s.disc.slipMark = false →
    let d := { s.disc with lastCapture := 2880, counter := 0, lastPeriod := s.disc.period, period := 0
                           slipCount := 0, stall := some 30000 }
    let p := s.disc.period
    exec (.indexEvent ring) s = .next { s with
      engine := { s.engine with firedSinceIndex := false }
      disc :=
        if s.disc.locked = true then
          if 9900 ≤ p ∧ p ≤ 10100 then d
          else { d with locked := false, lockRun := 0
                        unlock := if s.disc.reached = true then some 200000 else s.disc.unlock }
        else if 9950 ≤ p ∧ p ≤ 10050 then
          if s.disc.lockRun + 1 < 8 then { d with lockRun := s.disc.lockRun + 1 }
          else { d with locked := true, lockRun := 8, reached := true, spinup := none, unlock := none }
        else { d with lockRun := 0 } })
    ∧ (∀ (ring : BitVec 4) (s : State), Up s → NoEndWaits s → s.spin.unit = .exposing → s.disc.valid = true →
      s.disc.channel ≠ some 0 → s.disc.counter = 2880 → s.disc.slipMark = false →
      ((s.disc.locked = true ∧ 9900 ≤ s.disc.period ∧ s.disc.period ≤ 10100)
        ∨ (s.disc.locked = false ∧ s.disc.period < 9950)) →
      let shown := s.engine.ring.filter Item.isExposure
      let counts : Prop := s.engine.state = .flash ∧ shown ≠ [] ∧ s.engine.firedSinceIndex = false
        ∧ s.disc.locked = true ∧ ∀ it ∈ shown, (mountedRec s it.track).state ≠ .queued
          ∧ (mountedRec s it.track).state ≠ .searching
      (counts → s.engine.stuck < 15 → ∃ t, exec (.indexEvent ring) s = .next t
          ∧ t.engine = { s.engine with firedSinceIndex := false, stuck := s.engine.stuck + 1 }
          ∧ t.jobs = s.jobs ∧ t.store = s.store ∧ t.queues = s.queues ∧ t.spin = s.spin)
        ∧ (¬ counts → ∃ t, exec (.indexEvent ring) s = .next t
          ∧ t.engine = { s.engine with firedSinceIndex := false }
          ∧ t.jobs = s.jobs ∧ t.store = s.store ∧ t.queues = s.queues ∧ t.spin = s.spin)
        ∧ (∀ (j : Job) (line : Nat) (it : Item), counts → s.engine.stuck = 15 → activeJob s = some j →
          JobsDistinct s → s.engine.current = some { job := j.number, line := line } → shown.head? = some it →
          s.drive.film.galleyOpen = true → (∀ l, s.store.assembly.get l = none) →
          (s.queues.get j.owner).events.length ≤ 30 →
          ∃ t, exec (.indexEvent ring) s = .next t
            ∧ t.jobs = s.jobs.filter (fun k => k.number != j.number)
            ∧ t.store.lines = s.store.lines.filter (fun r => r.header.job != j.number)
            ∧ t.store.freeCells = s.store.freeCells + ((s.store.lines.filter fun r =>
                r.header.job == j.number).map fun r => r.header.count).sum
            ∧ t.engine.state = .closing ∧ t.engine.current = none
            ∧ t.engine.close.map Close.job = some (some (j.number, j.owner))
            ∧ t.engine.ring = s.engine.ring.filter (fun y => !y.isExposure)
            ∧ t.spin.unit = .ready ∧ t.seq.pendingSel = true ∧ t.seq.starve = none ∧ t.seq.grace = false
            ∧ (t.queues.get j.owner).events = (s.queues.get j.owner).events
              ++ [.lineAbandoned j.number line .stuck (s.engine.stopNo - 1) s.engine.misreg s.engine.deferral
                  (some it.track),
                .jobFailed j.number it.track j.committed j.setCount]
            ∧ t.queues.get j.owner.other = s.queues.get j.owner.other))

/-- SPIN_UP gives way to IDENTIFY once speed is LOCKED and homing done, at whichever comes later: at the eighth good
period, or as the last mechanism finds home; the sample list is then empty and the stall timer starts (that the same
index event gives no sample is the model's reading, log 14, and so is that homing is done as the sensor is found and
not as the mechanism has settled, log 16). An identification: a sample unlike the one before waits for
the next index event; two equal samples end it, with a disc that no job waits for mounted and READY, and a blank ring
asking for any disc; the eighth sample without two equal in a row is ID_FAULT with that sample. With jobs waiting the
winner on the disc found becomes ACTIVE with its head line, and a winner on another disc asks for its own, each chosen
with the mounted disc as it stood before (the model's reading, log 19); a held unit mounts what it finds and goes no
further; an ACTIVE job with a line goes on with it on its own disc. -/
def Obligations.IdentificationEndsOnTwoEqualSamples : Prop :=
  let turned (s : State) : Prop := Up s ∧ s.engine.state = .idle ∧ s.engine.current = none ∧ s.disc.valid = true
    ∧ s.disc.channel ≠ some 0 ∧ s.disc.counter = 2880 ∧ s.disc.slipMark = false ∧ s.drive.film.galleyOpen = false
    ∧ ∀ l, (s.queues.get l).events.length < 32
  let sampled (s : State) : Prop := turned s ∧ s.spin.unit = .identify ∧ s.disc.locked = true
    ∧ 9900 ≤ s.disc.period ∧ s.disc.period ≤ 10100
  let identifies (t : State) : Prop := t.spin.unit = .identify ∧ t.disc.samples = []
    ∧ t.disc.stall = some 30000 ∧ t.disc.spinup = none ∧ t.disc.locked = true
  (∀ (ring : BitVec 4) (s : State), turned s → s.spin.unit = .spinUp → s.drive.homingDone = true →
      s.disc.locked = false → s.disc.lockRun = 7 → 9950 ≤ s.disc.period → s.disc.period ≤ 10050 →
      ∃ t, exec (.indexEvent ring) s = .next t ∧ identifies t ∧ t.queues = s.queues ∧ t.jobs = s.jobs)
    ∧ (∀ (s : State), Up s → NoEndWaits s → s.spin.unit = .spinUp → s.disc.locked = true →
      (s.drive.carriage.act = .homing .seek → s.drive.limitD = none → s.drive.limitT = none →
        ∃ t, exec (.carriageStep true) s = .next t ∧ identifies t)
      ∧ (s.drive.deflector.act = .homing .seek → s.drive.deflector.homingRise = true → s.drive.limitC = none →
        s.drive.limitT = none → ∃ t, exec (.deflectorStep true true) s = .next t ∧ identifies t)
      ∧ (s.drive.turret.act = .homing .seek → s.drive.limitC = none → s.drive.limitD = none →
        ∃ t, exec (.turretStep true) s = .next t ∧ identifies t))
    ∧ (∀ (ring : BitVec 4) (s : State), sampled s → s.disc.samples.getLast? = some ring.toNat →
      let v := ring.toNat
      let mounts (t : State) : Prop := t.spin.mounted = v ∧ t.spin.present = v ∧ t.trim.queueDisc = v
        ∧ ∀ l, (s.queues.get l).events ++ [.discMounted v] <+: (t.queues.get l).events
      (∀ j r, v ≠ 0 → activeJob s = none → s.spin.hold = false → winner s = some j → j.disc = v →
        s.store.lines.find? (fun x => x.header.job == j.number) = some r →
        ∃ t, exec (.indexEvent ring) s = .next t ∧ mounts t ∧ t.spin.unit = .exposing
          ∧ t.engine.current = some { job := j.number, line := r.header.line }
          ∧ t.jobs = s.jobs.map (fun k => if k.number = j.number then
              { k with state := .active, started := true
                       reason := if j.state = .suspended then none else k.reason } else k))
      ∧ (∀ j, activeJob s = none → s.spin.hold = false → winner s = some j → j.disc ≠ v →
        ∃ t, exec (.indexEvent ring) s = .next t ∧ t.spin.unit = .discChange ∧ t.spin.mounted = 0
          ∧ t.spin.present = v ∧ t.spin.requested = some j.disc ∧ t.jobs = s.jobs ∧ t.engine.current = none
          ∧ ∀ l, (t.queues.get l).events = (s.queues.get l).events ++ [.discRequest j.number j.disc v])
      ∧ (v ≠ 0 → activeJob s = none → s.spin.hold = true →
        ∃ t, exec (.indexEvent ring) s = .next t ∧ mounts t ∧ t.spin.unit = .ready ∧ t.jobs = s.jobs
          ∧ t.engine.current = none)
      ∧ (∀ j r, v ≠ 0 → activeJob s = some j → s.spin.hold = false → j.disc = v → j.held = false →
        j.final ≠ some j.setCount → s.seq.grace = false →
        (∀ k ∈ s.jobs, k.state ≠ .held → k.held = false → k.setCount < k.committed →
          JobClass.rank k.cls ≤ JobClass.rank j.cls) →
        s.store.lines.find? (fun x => x.header.job == j.number) = some r →
        ∃ t, exec (.indexEvent ring) s = .next t ∧ mounts t ∧ t.spin.unit = .exposing ∧ t.jobs = s.jobs
          ∧ t.engine.current = some { job := j.number, line := r.header.line }))
    ∧ ∀ (ring : BitVec 4) (s : State), sampled s → s.jobs = [] →
    let v := ring.toNat
    let before := s.disc.samples.getLast?
    let posted (t : State) (e : Event) := ∀ l, (t.queues.get l).events = (s.queues.get l).events ++ [e]
    ∃ t, exec (.indexEvent ring) s = .next t ∧ t.disc.samples = s.disc.samples ++ [v]
      ∧ (before ≠ some v → s.disc.samples.length < 7 → t.spin = s.spin ∧ t.queues = s.queues)
      ∧ (before ≠ some v → 7 ≤ s.disc.samples.length → t.spin.unit = .faulted
        ∧ t.spin.lastFault = some { kind := .id, detail := v } ∧ posted t (.fault .id v))
      ∧ (before = some v → v ≠ 0 → t.spin.unit = .ready ∧ t.spin.mounted = v ∧ t.spin.present = v
        ∧ t.spin.parkTimer = some (s.spin.parkDelay * 6000000) ∧ posted t (.discMounted v) ∧ t.trim.queueDisc = v)
      ∧ (before = some v → v = 0 → t.spin.unit = .discChange ∧ t.spin.mounted = 0 ∧ t.spin.present = 0
        ∧ t.spin.requested = some 0 ∧ posted t (.discRequest 0 0 0) ∧ t.trim.queueDisc = 0)

/-- The five limits SPINUP_FAULT, STALL, SPEED_FAULT, CHARGE_FAULT and HOME_FAULT. A limit whose timer is stopped or has
time left does nothing (the model's choice, log 3), and outside the spinning states a fault is disregarded. A fault
handed over in a spinning state, with no ACTIVE job, no current line and no open galley: its event goes to both queues,
the unit is FAULTED with the motor, charger and strobe lines off, the angle is invalid, speed lock is UNLOCKED, and
every timer stops; a search is halted back to the queue. A fault while a job is ACTIVE with a current line: the line is
abandoned and kept unset, the job is SUSPENDED with reason FAULT (with a held flag as it stood, the model's choice, log
42), and the owner's queue takes the fault, LINE_ABANDONED
and JOB_SUSPENDED in this order. A fault that finds the galley open orders its close, here with the carriage's last step
still to come: the close names the job that was ACTIVE, or none, and a selection is pending (with no job ACTIVE that
mark is the model's choice, log 22). -/
def Obligations.AFaultStopsTheUnitAndSuspendsTheJob : Prop :=
  (∀ (c : Instr) (s : State), Up s → isLimit c = true → raises c s = none → exec c s = .next s)
    ∧ (∀ (c : Instr) (kind : FaultKind) (detail : Int) (s : State), Up s → raises c s = some (kind, detail) →
      s.spin.unit.spinning = true → s.drive.film.galleyOpen = true → s.engine.state ≠ .closing →
      s.drive.carriage.act = .stepping →
      ∃ t, exec c s = .next t ∧ t.spin.unit = .faulted ∧ t.engine.state = .closing ∧ t.seq.pendingSel = true
        ∧ t.engine.close = some { job := (activeJob s).map fun j => (j.number, j.owner), phase := .ordered, steps := 0 }
        ∧ t.drive.film.remaining = s.drive.film.remaining)
    ∧ (∀ (c : Instr) (kind : FaultKind) (detail : Int) (s : State), Up s → raises c s = some (kind, detail) →
      (s.spin.unit.spinning = false → exec c s = .next s)
        ∧ (s.spin.unit.spinning = true → activeJob s = none → s.engine.current = none → s.engine.state = .idle →
          s.drive.film.galleyOpen = false →
          ∃ t, exec c s = .next t
            ∧ t.queues = (post .b (.fault kind detail) (post .a (.fault kind detail) s)).queues
            ∧ t.spin = { s.spin with unit := .faulted, motor := false, parkTimer := none
                                     lastFault := some { kind := kind, detail := detail } }
            ∧ t.bank = { s.bank with charger := false, strobeHeld := true, watch := none }
            ∧ (t.disc.valid = false ∧ t.disc.locked = false ∧ t.disc.lockRun = 0 ∧ t.disc.spinup = none
              ∧ t.disc.stall = none ∧ t.disc.unlock = none)
            ∧ (t.drive.limitC = none ∧ t.drive.limitD = none ∧ t.drive.limitT = none
              ∧ t.drive.carriage.act = (match s.drive.carriage.act with
                | .homing _ => .stepping
                | a => a))
            ∧ t.trim.search = none
            ∧ t.trim.queue = (match s.trim.search with
              | some x => x.track :: s.trim.queue
              | none => s.trim.queue)
            ∧ t.jobs = s.jobs ∧ t.store = s.store ∧ t.engine.state = .idle ∧ t.iface = s.iface))
    ∧ (∀ (c : Instr) (kind : FaultKind) (detail : Int) (j : Job) (line : Nat) (s : State), Up s →
      raises c s = some (kind, detail) → s.spin.unit = .exposing → activeJob s = some j → JobsDistinct s →
      s.engine.current = some { job := j.number, line := line } → s.drive.film.galleyOpen = false →
      (s.queues.get j.owner).events.length ≤ 29 →
      ∃ t, exec c s = .next t ∧ t.spin.unit = .faulted
        ∧ t.engine.current = none ∧ t.engine.state = .idle
        ∧ (∀ it ∈ t.engine.ring, it.isExposure = false)
        ∧ (∃ k, findJob t.jobs j.number = some k
          ∧ k = { j with state := .suspended, reason := some .fault })
        ∧ (∀ r, r ∈ s.store.lines → ∃ r', r' ∈ t.store.lines ∧ r'.header = r.header ∧ r'.cells = r.cells)
        ∧ (∀ r ∈ t.store.lines, r.header.job = j.number → r.header.line = line → r.current = false)
        ∧ t.store.freeCells = s.store.freeCells
        ∧ (t.queues.get j.owner).events = (s.queues.get j.owner).events
          ++ [.fault kind detail,
            .lineAbandoned j.number line .fault (s.engine.stopNo - 1) s.engine.misreg s.engine.deferral none,
            .jobSuspended j.number .fault j.committed j.setCount])

/-! ### Reports and events -/

/-- ENQUIRE is answered REPORT with the topic's data, without PASS and without any change of the part; a job that is not
live is NO_JOB, a topic beyond the list RANGE with detail 1, a body of wrong length MALFORMED. That each of the four
ENQUIRE rows takes and refuses the last two is the model's choice (log 9). -/
def Obligations.EnquiriesReportAndChangeNothing : Prop :=
  ∀ (l : CLine) (tag n : Byte) (s : State),
    (Waits l 0x01 tag [0, n] s →
        exec (.enquireUnit l) s = .next (answered l tag (.report 0 (unitTopic s)) id s))
      ∧ (Waits l 0x01 tag [1, n] s →
        (n = 0 → exec (.enquireJob l) s = .next (answered l tag (.report 1 (jobTable s)) id s))
        ∧ (∀ j, n ≠ 0 → findJob s.jobs n.toNat = some j →
          exec (.enquireJob l) s = .next (answered l tag (.report 1 j.part) id s))
        ∧ (n ≠ 0 → findJob s.jobs n.toNat = none →
          exec (.enquireJob l) s = .next (answered l tag (.refused .noJob 0) id s)))
      ∧ (Waits l 0x01 tag [2, n] s →
        exec (.enquireTrims l) s = .next (answered l tag (.report 2 (trimsTopic s)) id s))
      ∧ (Waits l 0x01 tag [3, n] s →
        exec (.enquireLine l) s = .next (answered l tag (.report 3 (lineTopic s)) id s))
      ∧ ∀ row ∈ [Instr.enquireUnit l, .enquireJob l, .enquireTrims l, .enquireLine l],
        (∀ topic : Byte, 4 ≤ topic.toNat → Waits l 0x01 tag [topic, n] s →
          exec row s = .next (answered l tag (.refused .range 1) id s))
        ∧ (∀ d : List Byte, d.length ≠ 2 → Waits l 0x01 tag d s →
          exec row s = .next (answered l tag (.refused .malformed 255) id s))

/-- Chapter 12's layouts: the four REPORT topics part by part and field by field (R15, R42, R71, R90, R107, R116, R135,
R161, R178, R190, R196, R204), the event records with their details by kind (R203, Table 12-5), fields of two and three
bytes high byte first, signed fields in two's complement, and enumerated fields by their place in their list (R200;
of the abandonment causes the order of R67's list is the model's reading, log 31). That a FREE slot reports an entry
count and per-track counts of 0 is the model's reading too (log 35). Any other byte no rule gives a value is only said
to exist, and a time whose rounding no rule gives is a whole number of units next to the time left (log 24). -/
def Obligations.ReportsAndEventsHaveTheirLayout : Prop :=
  let ticks (t : Option Nat) : Nat := t.getD 0
  let near (unit n v : Nat) : Prop := n / unit ≤ v ∧ v ≤ (n + (unit - 1)) / unit
  let line (i : Iface) : List Byte := [u8 i.station.toNat, u8 (rateCode i.rate), u8 i.rx.code, flag i.pass, u8 i.run]
  let queue (q : Queue) : List Byte := [u8 q.events.length, flag q.lost]
  let event : Event → Nat × Nat × Nat × List Byte
    | .lineSet n k m d => (1, n, k, [u8 m] ++ u16 d)
    | .lineAbandoned n k c st m d t => (2, n, k, [u8 c.code, u8 st, u8 m] ++ u16 d ++ [match t with
      | none => 255
      | some t => u8 t.val])
    | .assemblyDropped n k r => (3, n, k, [u8 r.code])
    | .jobDone n f => (4, n, 0, u16 f)
    | .jobCancelled n c k => (5, n, 0, u16 c ++ u16 k)
    | .jobFailed n t c k => (6, n, 0, [0, u8 t.val] ++ u16 c ++ u16 k)
    | .jobSuspended n r c k => (7, n, 0, [u8 r.code] ++ u16 c ++ u16 k)
    | .jobResumed n r k => (8, n, 0, [match r with
      | none => 255
      | some r => u8 r.code] ++ u16 k)
    | .galleyClosed n st cut left => (9, n, 0, u16 st ++ [flag cut] ++ u24 left)
    | .filmLow left => (10, 0, 0, u24 left)
    | .filmOut n k need left => (11, n, k, u16 need ++ u24 left)
    | .discRequest n d p => (12, n, 0, [u8 d, u8 p])
    | .discMounted d => (13, 0, 0, [u8 d])
    | .trackTrimmed d t c n m => (14, 0, 0, [u8 d, u8 t.val, u8 c, u8 n, u8 m])
    | .trackUnusable d t c n => (15, 0, 0, [u8 d, u8 t.val, u8 c, u8 n, 0])
    | .fault .charge x => (16, 0, 0, i16 x)
    | .fault .stall x => (17, 0, 0, i16 x)
    | .fault .spinup x => (18, 0, 0, i16 x)
    | .fault .speed x => (19, 0, 0, i16 x)
    | .fault .encoder x => (20, 0, 0, i16 x)
    | .slip x => (21, 0, 0, i16 x)
    | .fault .id x => (22, 0, 0, i16 x)
    | .fault .home x => (23, 0, 0, i16 x)
    | .lineFault .a => (24, 0, 0, [0])
    | .lineFault .b => (24, 0, 0, [1])
    | .start c => (25, 0, 0, [u8 c.code])
    | .unitReset c => (26, 0, 0, [u8 c.code])
    | .lineReset => (27, 0, 0, [])
  (∀ (s : State), s.disc.samples.length ≤ 8 → s.trim.queue.length ≤ 8 →
      (unitTopic s).length = 14 + 24 + 13 + 20 + 2 * 5 + 2 * 2 ∧ (trimsTopic s).length = 4 * 43 + 38
        ∧ (lineTopic s).length = 17 + 17 ∧ (jobTable s).length = 8 + 5 * s.jobs.length)
    ∧ (∀ (e : Event), e.bytes.length = 12 ∧ e.bytes[0]? = some (u8 e.code) ∧ 1 ≤ e.code ∧ e.code ≤ 27)
    ∧ (∀ (e : Event), e.bytes = [u8 (event e).1, u8 (event e).2.1] ++ u16 (event e).2.2.1 ++ (event e).2.2.2
        ++ List.replicate (8 - (event e).2.2.2.length) 0)
    ∧ (∀ (j : Job), j.part =
      [u8 j.number, u8 (match j.cls with
          | .routine => 0
          | .priority => 1
          | .bulletin => 2), u8 j.disc, u8 (match j.owner with
          | .a => 0
          | .b => 1), u8 j.cut.toNat, u8 j.final.isSome.toNat] ++ u16 (j.final.getD 0) ++ u16 j.committed
        ++ u16 j.setCount ++ u16 j.order ++ [u8 (match j.state with
          | .queued => 0
          | .active => 1
          | .suspended => 2
          | .held => 3), u8 j.held.toNat, u8 j.started.toNat, u8 (match j.reason with
          | some .preempted => 0
          | some .starved => 1
          | some .fault => 2
          | some .held => 3
          | none => 255)] ++ u16 (if 65535 < j.committed + 1 then 0 else j.committed + 1))
    ∧ (∀ (s : State), ∃ (v : Nat) (js : List Job), near 1000 (ticks s.seq.starve) v ∧ js.Perm s.jobs
      ∧ js.Pairwise (fun j k => j.order ≤ k.order)
      ∧ jobTable s = [u8 (((activeJob s).map Job.number).getD 0)] ++ u16 v ++ [flag s.seq.grace, flag s.seq.pendingSel]
        ++ u16 s.seq.openCounter ++ [u8 s.jobs.length]
        ++ js.flatMap fun j => [u8 j.number, u8 j.cls.code, u8 j.state.code] ++ u16 (j.committed - j.setCount))
    ∧ (∀ (s : State), ∃ (x y z : Byte) (u w : Nat), near 1000 (ticks s.disc.unlock) u ∧ near 10 (ticks s.bank.watch) w
      ∧ unitTopic s =
        ([u8 s.spin.unit.code, flag s.spin.hold, u8 s.spin.mounted, u8 s.spin.present,
            u8 (if s.spin.unit = .discChange then s.spin.requested.getD 0 else 0), u8 s.spin.parkDelay]
          ++ u16 ((ticks s.spin.parkTimer + 99999) / 100000) ++ [u8 s.spin.cause.code]
          ++ (match s.spin.lastFault with
            | none => [0, x, y]
            | some f => [u8 f.kind.code] ++ i16 f.detail)
          ++ [u8 s.spin.readySource.code, u8 ((lamps s).ready.toNat + (lamps s).disc.isSome.toNat * 2
            + (lamps s).filmSteady.toNat * 4 + (lamps s).filmBlinking.toNat * 8 + (lamps s).hold.toNat * 16
            + (lamps s).fault.toNat * 32)])
        ++ ([flag s.disc.valid] ++ i16 s.disc.counter ++ i16 s.disc.lastCapture ++ u16 s.disc.lastPeriod
          ++ [flag s.disc.locked, u8 s.disc.lockRun, u8 s.disc.slipCount, flag s.disc.reached] ++ u16 u
          ++ u16 (s.disc.channel.getD 65535) ++ [u8 s.disc.samples.length] ++ s.disc.samples.map u8
          ++ List.replicate (8 - s.disc.samples.length) 0)
        ++ ([u8 s.bank.set, u8 s.bank.qualMs, u8 s.bank.level, u8 s.bank.state.code, u8 s.bank.readyRun,
            u8 s.bank.heavyRun] ++ u16 w ++ u16 s.bank.lastRecharge ++ u16 s.bank.longestRecharge
          ++ [flag s.bank.charger])
        ++ (u16 s.drive.carriage.position ++ [u8 s.drive.carriage.dir.code, u8 s.drive.carriage.takeUp,
            u8 s.drive.carriage.act.code, u8 s.drive.deflector.track, i8 s.drive.deflector.rise,
            u8 s.drive.deflector.act.code]
          ++ (match s.drive.deflector.target with
            | none => [255, z]
            | some (t, r) => [u8 t.val, i8 r])
          ++ [u8 s.drive.turret.position, u8 s.drive.turret.act.code, flag s.drive.homingDone]
          ++ u24 s.drive.film.remaining ++ u24 s.drive.film.load
          ++ [u8 (s.drive.film.galleyOpen.toNat + s.drive.film.lowArm.toNat * 2 + s.drive.film.low.toNat * 4
            + s.drive.film.out.toNat * 8 + s.drive.film.advance.isSome.toNat * 16
            + (s.engine.close.any fun c => c.phase == .cutting).toNat * 32)])
        ++ line s.iface.a ++ line s.iface.b ++ queue s.queues.a ++ queue s.queues.b)
    ∧ (∀ (s : State), ∃ (xs : List Byte), xs.length = 6 ∧ trimsTopic s =
        (s.maps.toList.flatMap fun o => match o with
          | none => List.replicate 19 (0 : Byte) ++ (List.replicate 8 [0, 0, 255]).flatten
          | some m => [u8 m.disc] ++ u16 m.entries.length
            ++ (allTracks.flatMap fun t => u16 (m.entries.filter fun e => e.track == t).length)
            ++ (allTracks.flatMap fun t => [u8 (m.trims.get t).code, u8 (m.trims.get t).state.code,
              if (m.trims.get t).state = .queued ∨ (m.trims.get t).state = .searching then
                (match (m.trims.get t).prior with
                | some p => u8 p.code
                | none => u8 (m.trims.get t).code)
              else 255]))
        ++ [u8 s.trim.limits.floor, u8 s.trim.limits.ceiling, u8 s.trim.limits.dwell, u8 s.trim.limits.searchMiss,
            u8 s.trim.limits.monitorMiss, u8 s.trim.queueDisc, u8 s.trim.queue.length]
        ++ (s.trim.queue.map fun t => u8 t.val) ++ List.replicate (8 - s.trim.queue.length) 255
        ++ (match s.trim.search with
          | none => [255] ++ xs
          | some c => [u8 c.track.val, u8 c.code, u8 c.tried, u8 c.limit, u8 c.dwell, u8 c.fired, u8 c.misses])
        ++ allTracks.flatMap fun t => [u8 (s.trim.windows.get t).length, u8 ((s.trim.windows.get t).filter id).length])
    ∧ (∀ (s : State), ∃ (xs ys p : List Byte) (sweep : Byte), xs.length = 5 ∧ ys.length = 5 ∧ p.length = 2
      ∧ (∀ st, 1 ≤ s.engine.stopNo → s.engine.stops[s.engine.stopNo - 1]? = some st → p = u16 st.x)
      ∧ (∀ d, s.engine.sweep = some d → sweep = u8 d.code)
      ∧ let assembly (free : List Byte) (o : Option Assembly) : List Byte := match o with
          | none => [0] ++ free
          | some a => [u8 a.header.job] ++ u16 a.header.line
            ++ [u8 a.header.count, u8 a.sorts.length, u8 ((a.deadline + 999) / 1000)]
        let shown := s.engine.ring.filter Item.isExposure
        lineTopic s =
          u16 s.store.freeCells
          ++ [u8 (64 - (s.store.lines.length + s.store.assembly.a.isSome.toNat + s.store.assembly.b.isSome.toNat)),
            u8 (s.store.lines.filter fun r => !r.current).length, u8 (s.store.lines.filter fun r => r.current).length]
          ++ assembly xs s.store.assembly.a ++ assembly ys s.store.assembly.b
          ++ [u8 s.engine.state.code]
          ++ (match s.engine.current with
            | none => [0, 0, 0, 0, 0, 0, 0]
            | some r => [u8 r.job] ++ u16 r.line ++ [u8 s.engine.stops.length, u8 s.engine.stopNo] ++ p)
          ++ [sweep, u8 shown.length] ++ u16 ((shown.map Item.deferCount).foldl max 0)
          ++ [u8 s.engine.stuck, u8 s.engine.misreg] ++ u16 s.engine.deferral
          ++ [match s.engine.ring.find? fun it => !it.isExposure with
            | none => 255
            | some it => u8 it.track.val])
    ∧ ((∀ n, n < 65536 → (u16 n).map BitVec.toNat = [n / 256, n % 256])
      ∧ (∀ n, n < 16777216 → (u24 n).map BitVec.toNat = [n / 65536, n / 256 % 256, n % 256])
      ∧ (∀ n : Int, -32768 ≤ n → n < 32768 → i16 n = u16 (if n < 0 then n + 65536 else n).toNat)
      ∧ (∀ n : Int, -128 ≤ n → n < 128 → i8 n = u8 (if n < 0 then n + 256 else n).toNat)
      ∧ (∀ b, flag b = if b = true then 1 else 0))
    ∧ ([UnitState.parked, .spinUp, .identify, .ready, .exposing, .discChange, .faulted].map UnitState.code = List.range 7
      ∧ [EngineState.idle, .prepare, .move, .flash, .waitFilm, .waitTrack, .closing].map EngineState.code = List.range 7
      ∧ [TrimState.untrimmed, .queued, .searching, .trimmed, .unusable].map TrimState.code = List.range 5
      ∧ [BankState.drained, .charging, .ready, .heavyReady].map BankState.code = List.range 4
      ∧ (∀ leg, [Activity.atRest, .stepping, .settling, .homing leg].map Activity.code = List.range 4)
      ∧ (∀ f, [Rx.silent, .hunt, .taking f, .passing, .discard].map Rx.code = List.range 5)
      ∧ [Dir.ascending, .descending].map Dir.code = List.range 2
      ∧ [JobClass.routine, .priority, .bulletin].map JobClass.code = List.range 3
      ∧ [JobState.queued, .active, .suspended, .held].map JobState.code = List.range 4
      ∧ [SuspendReason.preempted, .starved, .fault, .held].map SuspendReason.code = List.range 4
      ∧ [AbandonCause.cancel, .fault, .stuck, .reset].map AbandonCause.code = List.range 4
      ∧ [DropReason.timeout, .replaced, .lineBreak, .lineReset, .cancel, .failed].map DropReason.code = List.range 6
      ∧ [StartCause.power, .supply, .message, .panel].map StartCause.code = List.range 4
      ∧ [ReadySource.lineA, .lineB, .either, .both].map ReadySource.code = List.range 4
      ∧ [Rate.r9600, .r19200, .r38400, .r76800].map rateCode = List.range 4
      ∧ [FaultKind.charge, .stall, .spinup, .speed, .encoder, .id, .home].map FaultKind.code
        = [16, 17, 18, 19, 20, 22, 23])

/-- An event joins the end of a queue of fewer than 32 and is lost by a full one; POLL removes the oldest 8 of its
line's queue and sends them, clears the lost flag when the queue is left empty, and still shows it as it stood; a POLL
with a body is MALFORMED, and a broadcast POLL removes nothing. -/
def Obligations.PollSendsTheOldestEight : Prop :=
  (∀ (l : CLine) (e : Event) (s : State),
      (post l e s).queues.get l = (if (s.queues.get l).events.length < 32
        then { events := (s.queues.get l).events ++ [e], lost := (s.queues.get l).lost }
        else { events := (s.queues.get l).events, lost := true })
      ∧ (post l e s).queues.get l.other = s.queues.get l.other)
    ∧ (∀ (l : CLine) (tag : Byte) (s : State),
      let q := s.queues.get l
      let left := q.events.drop 8
      (Waits l 0x02 tag [] s → ∃ t, exec (.poll l) s = .next t
        ∧ t = answered l tag (.events (q.events.take 8)) (fun s => { s with
          queues := s.queues.set l { events := left, lost := q.lost && !left.isEmpty } }) s
        ∧ ((t.iface.get l).tx.map fun r => r.status.eventsLost) = some q.lost
        ∧ ((t.iface.get l).tx.map fun r => r.status.eventsWaiting) = some (!left.isEmpty))
      ∧ (∀ d, d ≠ [] → Waits l 0x02 tag d s →
        exec (.poll l) s = .next (answered l tag (.refused .malformed 255) id s))
      ∧ (Up s → (s.iface.get l).tx = none → (s.iface.get l).slot = some (.frame true 0x02 tag []) →
        exec (.poll l) s = .next (emptySlot l s)))

/-! ### Bank, photocell and search -/

/-- A bank sample is judged by Table 6-2 against the selected set's thresholds, and stops a running recharge watch as
the bank becomes READY, with the time since the flash rounded up to 0.1 ms. -/
def Obligations.ABankSampleIsJudged : Prop :=
  ∀ (level : Byte) (s : State), Up s → s.bank.set ≤ 3 →
    let b := s.bank
    let v := level.toNat
    let n := if b.qualMs = 1 then 3 else 7
    let drop := 150 + 10 * b.set
    let ready := 170 + 10 * b.set
    let heavy := 200 + 10 * b.set
    let r := min n (b.readyRun + 1)
    let h := if v < heavy then 0 else min n (b.heavyRun + 1)
    let judged : Bank :=
      if v < drop then { b with level := v, readyRun := 0, heavyRun := 0, state := .drained }
      else if v < ready then { b with level := v, readyRun := 0, heavyRun := 0, state := .charging }
      else { b with level := v, readyRun := r, heavyRun := h
                    state := if r = n then (if h = n then .heavyReady else .ready) else .charging }
    let time (left : Nat) := (15000 - left + 9) / 10
    let becomes := (b.state = .drained ∨ b.state = .charging) ∧ (judged.state = .ready ∨ judged.state = .heavyReady)
    exec (.bankSample level) s = .next { s with bank := match b.watch with
      | none => judged
      | some left =>
        if becomes then { judged with watch := none, lastRecharge := time left
                                      longestRecharge := max b.longestRecharge (time left) }
        else judged }

/-- A hit pulse makes the open watch a hit; a watch that closes gives its result: an exposure's to the window of a
TRIMMED track and, if it is a miss of the line, to its tally; a test flash's to the search. -/
def Obligations.TheResultWatchGivesItsResult : Prop :=
  (∀ (s : State), Up s → exec .hitPulse s = .next { s with engine := { s.engine with
      watch := s.engine.watch.map fun w => { w with hit := true } } })
    ∧ (∀ (t : Track) (forLine hit : Bool) (left : Nat) (s : State), Up s → NoEndWaits s →
      (exposures s ≠ [] ∨ (s.engine.state ≠ .flash ∧ s.engine.state ≠ .waitTrack)) →
      s.engine.watch = some { of := .exposure t forLine, hit := hit, left := left } →
      let closed := { s with engine := { s.engine with
        watch := none, misreg := if forLine = true ∧ hit = false then s.engine.misreg + 1 else s.engine.misreg } }
      let added := s.trim.windows.get t ++ [!hit]
      let window := if 32 < added.length then added.drop 1 else added
      ((queueRec s t).state ≠ .trimmed → exec .resultWatchClose s = .next closed)
      ∧ ((queueRec s t).state = .trimmed → (window.filter id).length ≤ s.trim.limits.monitorMiss →
        exec .resultWatchClose s = .next { closed with trim := { s.trim with
          windows := s.trim.windows.set t window } })
      ∧ ((queueRec s t).state = .trimmed → s.trim.limits.monitorMiss < (window.filter id).length →
        ∃ u, exec .resultWatchClose s = .next u
          ∧ ((slotFor s.maps s.trim.queueDisc).isSome = true → s.trim.search.isSome = true →
            (queueRec u t).state = .queued ∧ (queueRec u t).code = (queueRec s t).code
            ∧ (queueRec u t).prior = some { state := .trimmed, code := (queueRec s t).code }
            ∧ u.trim.queue = s.trim.queue ++ [t] ∧ u.trim.windows.get t = [] ∧ u.queues = s.queues)))
    ∧ (∀ (t : Track) (hit : Bool) (left : Nat) (c : Search) (s : State), Up s → NoEndWaits s →
      (exposures s ≠ [] ∨ (s.engine.state ≠ .flash ∧ s.engine.state ≠ .waitTrack)) →
      s.engine.watch = some { of := .test t true, hit := hit, left := left } → s.trim.search = some c →
      c.fired + 1 < c.dwell → exec .resultWatchClose s = .next { s with
        engine := { s.engine with watch := none }
        trim := { s.trim with search := some { c with
          fired := c.fired + 1, misses := if hit then c.misses else c.misses + 1 } } })

/-- A search starts at its start code when speed lock is LOCKED; at the dwell its code is judged: it ends TRIMMED at the
code, or goes on to the next code within floor and ceiling, or ends UNUSABLE at the prior code. -/
def Obligations.TheSearchTriesCodeAfterCode : Prop :=
  let next (u : Limits) (code : Nat) := if u.floor ≤ code + 1 ∧ code + 1 ≤ u.ceiling then code + 1 else u.floor
  (∀ (t : Track) (rest : List Track) (p : Prior) (s : State), s.disc.locked = true → s.trim.search = none →
      s.trim.queue = t :: rest → (slotFor s.maps s.trim.queueDisc).isSome = true → (queueRec s t).prior = some p →
      p.state ≠ .queued → p.state ≠ .searching →
      let code := if p.state = .trimmed then next s.trim.limits p.code else s.trim.limits.floor
      let u := startSearch s
      u.trim.queue = rest
        ∧ u.trim.search = some { track := t, code := code, tried := 1, dwell := s.trim.limits.dwell
                                 limit := s.trim.limits.ceiling + 1 - s.trim.limits.floor
                                 missLimit := s.trim.limits.searchMiss, fired := 0, misses := 0 }
        ∧ queueRec u t = { code := code, state := .searching, prior := some p }
        ∧ .test t ((code + 2872) % 2880) ∈ u.engine.ring)
    ∧ (∀ (hit : Bool) (left : Nat) (c : Search) (p : Prior) (s : State), Up s → s.engine.state = .idle →
      s.engine.watch = some { of := .test c.track true, hit := hit, left := left } → s.trim.search = some c →
      c.fired + 1 = c.dwell → s.trim.queue = [] → (slotFor s.maps s.trim.queueDisc).isSome = true →
      (queueRec s c.track).prior = some p →
      let misses := if hit then c.misses else c.misses + 1
      let posted (e : Event) := (post .b e (post .a e s)).queues
      ∃ u, exec .resultWatchClose s = .next u
        ∧ (misses ≤ c.missLimit → u.trim.search = none
          ∧ queueRec u c.track = { code := c.code, state := .trimmed, prior := none }
          ∧ u.engine.ring.all Item.isExposure = true
          ∧ u.queues = posted (.trackTrimmed s.trim.queueDisc c.track c.code c.tried misses))
        ∧ (c.missLimit < misses → c.tried < c.limit →
          u.trim.search = some { c with code := next s.trim.limits c.code, tried := c.tried + 1, fired := 0, misses := 0 }
          ∧ queueRec u c.track = { queueRec s c.track with code := next s.trim.limits c.code }
          ∧ u.queues = s.queues)
        ∧ (c.missLimit < misses → c.limit ≤ c.tried → u.trim.search = none
          ∧ queueRec u c.track = { code := p.code, state := .unusable, prior := none }
          ∧ u.engine.ring.all Item.isExposure = true
          ∧ u.queues = posted (.trackUnusable s.trim.queueDisc c.track p.code c.tried)))

/-! ### The mechanisms -/

/-- A carriage step of a move or of a stopped move: with its backlash counted, and then the next step, or the settle of
2 ms at the target. -/
def Obligations.ACarriageStepCountsItsBacklash : Prop :=
  ∀ (home : Bool) (s : State), Up s → s.drive.carriage.act = .stepping → (s.spin.unit ≠ .spinUp ∨ s.drive.homingDone = false ∨ s.disc.locked = false) →
    let c := s.drive.carriage
    let takeUp := if c.stepDir = c.dir then c.takeUp else 6 - c.takeUp
    let position := if 0 < takeUp then c.position else match c.stepDir with
      | .ascending => min 14399 (c.position + 1)
      | .descending => c.position - 1
    ∃ t, exec (.carriageStep home) s = .next t
      ∧ t.drive.carriage.position = position ∧ t.drive.carriage.dir = c.stepDir
      ∧ t.drive.carriage.takeUp = takeUp - 1 ∧ t.drive.carriage.target = c.target
      ∧ ((c.target = none ∨ c.target = some position) → t.drive.carriage.act = .settling
        ∧ t.drive.carriage.left = 200)
      ∧ (∀ x, c.target = some x → x ≠ position → t.drive.carriage.act = .stepping ∧ t.drive.carriage.left = 25
        ∧ t.drive.carriage.stepDir = if position < x then .ascending else .descending)
      ∧ t = { s with drive := { s.drive with
        carriage := t.drive.carriage, sensors := { s.drive.sensors with carriage := home } } }

/-- A deflector step changes the setting by one track or one half-point, and the move goes on, track steps first, or
settles for 1 ms; a turret step goes round the ring of eight and settles for 20 ms at its target. -/
def Obligations.DeflectorAndTurretStepsCount : Prop :=
  (∀ (track rise : Bool) (t : Track) (r : Int) (s : State), Up s → NoEndWaits s →
      (s.spin.unit ≠ .spinUp ∨ s.drive.homingDone = false ∨ s.disc.locked = false) →
      s.drive.deflector.act = .stepping → s.drive.deflector.target = some (t, r) → s.drive.deflector.track ≤ 7 →
      -7 ≤ s.drive.deflector.rise → s.drive.deflector.rise ≤ 7 →
      let d := s.drive.deflector
      let setting : Nat × Int := match d.step with
        | .trackUp => (min 7 (d.track + 1), d.rise)
        | .trackDown => (d.track - 1, d.rise)
        | .riseUp => (d.track, min 7 (d.rise + 1))
        | .riseDown => (d.track, max (-7) (d.rise - 1))
      ∃ u, exec (.deflectorStep track rise) s = .next u
        ∧ (u.drive.deflector.track, u.drive.deflector.rise) = setting
        ∧ (setting = (t.val, r) → u.drive.deflector.act = .settling ∧ u.drive.deflector.left = 100)
        ∧ (setting ≠ (t.val, r) → u.drive.deflector.act = .stepping
          ∧ (setting.1 ≠ t.val → u.drive.deflector.left = 150
            ∧ u.drive.deflector.step = if setting.1 < t.val then .trackUp else .trackDown)
          ∧ (setting.1 = t.val → u.drive.deflector.left = 50
            ∧ u.drive.deflector.step = if setting.2 < r then .riseUp else .riseDown))
        ∧ u = { s with drive := { s.drive with deflector := u.drive.deflector
                                               sensors := { s.drive.sensors with deflTrack := track, deflRise := rise } } })
    ∧ (∀ (home : Bool) (p : Nat) (s : State), Up s → NoEndWaits s →
      (s.spin.unit ≠ .spinUp ∨ s.drive.homingDone = false ∨ s.disc.locked = false) →
      s.drive.turret.act = .stepping → s.drive.turret.target = some p → p < 8 → s.drive.turret.position < 8 →
      let c := s.drive.turret
      let position := if c.forward then (c.position + 1) % 8 else (c.position + 7) % 8
      ∃ u, exec (.turretStep home) s = .next u ∧ u.drive.turret.position = position
        ∧ (position = p → u.drive.turret.act = .settling ∧ u.drive.turret.left = 2000)
        ∧ (position ≠ p → u.drive.turret.act = .stepping ∧ u.drive.turret.left = 4000
          ∧ u.drive.turret.forward = decide ((p + 8 - position) % 8 ≤ 4))
        ∧ u = { s with drive := { s.drive with turret := u.drive.turret
                                               sensors := { s.drive.sensors with turret := home } } })

/-- A mechanism that seeks home and finds its sensor takes its home state, settles, and has its limit stopped; homing is
done when no limit runs. That homing is done, and the limit stopped, as the sensor is found and not as the mechanism has
settled is the model's reading (log 16). A homing step that does not find home goes on, with the limits and the
homing-done mark as they stood: a mechanism that steps out of an active sensor goes on out while it is active and seeks
home once it is not, one that seeks goes on seeking, and a deflector whose track phase has found track 0 begins its rise
phase. -/
def Obligations.HomeFoundSetsTheCountedState : Prop :=
  ∀ (s : State), Up s → NoEndWaits s → s.disc.locked = false →
    (s.drive.carriage.act = .homing .seek → ∃ t, exec (.carriageStep true) s = .next t
        ∧ t.drive.carriage.position = 0 ∧ t.drive.carriage.dir = .descending ∧ t.drive.carriage.takeUp = 0
        ∧ t.drive.carriage.act = .settling ∧ t.drive.limitC = none
        ∧ t.drive.homingDone = (s.drive.limitD.isNone && s.drive.limitT.isNone)
        ∧ t.drive.deflector = s.drive.deflector ∧ t.drive.turret = s.drive.turret ∧ t.spin = s.spin)
      ∧ (s.drive.deflector.act = .homing .seek → s.drive.deflector.homingRise = true → s.drive.held = none →
        ∃ t, exec (.deflectorStep true true) s = .next t
          ∧ t.drive.deflector.track = 0 ∧ t.drive.deflector.rise = 0 ∧ t.drive.deflector.act = .settling
          ∧ t.drive.limitD = none ∧ t.drive.homingDone = (s.drive.limitC.isNone && s.drive.limitT.isNone)
          ∧ t.drive.carriage = s.drive.carriage ∧ t.drive.turret = s.drive.turret ∧ t.spin = s.spin)
      ∧ (s.drive.turret.act = .homing .seek → ∃ t, exec (.turretStep true) s = .next t
        ∧ t.drive.turret.position = 0 ∧ t.drive.turret.act = .settling ∧ t.drive.limitT = none
        ∧ t.drive.homingDone = (s.drive.limitC.isNone && s.drive.limitD.isNone)
        ∧ t.drive.carriage = s.drive.carriage ∧ t.drive.deflector = s.drive.deflector ∧ t.spin = s.spin)
      ∧ (let next (leg : HomeLeg) (active : Bool) : HomeLeg := if leg = .out ∧ active = true then .out else .seek
        let goesOn (t : State) : Prop := t.drive.limitC = s.drive.limitC ∧ t.drive.limitD = s.drive.limitD
          ∧ t.drive.limitT = s.drive.limitT ∧ t.drive.homingDone = s.drive.homingDone ∧ t.spin = s.spin
          ∧ t.engine = s.engine ∧ t.drive.held = s.drive.held
        (∀ leg home, s.drive.carriage.act = .homing leg → (leg = .out ∨ home = false) →
          ∃ t, exec (.carriageStep home) s = .next t ∧ t.drive.carriage.act = .homing (next leg home)
            ∧ t.drive.carriage.stepDir = (if next leg home = .out then .ascending else .descending)
            ∧ t.drive.deflector = s.drive.deflector ∧ t.drive.turret = s.drive.turret ∧ goesOn t)
        ∧ (∀ leg trackHome riseHome, s.drive.deflector.act = .homing leg →
          let rise := s.drive.deflector.homingRise
          let active := if rise = true then riseHome else trackHome
          let on (t : State) (rise : Bool) (leg : HomeLeg) : Prop := t.drive.deflector.act = .homing leg
            ∧ t.drive.deflector.homingRise = rise
            ∧ t.drive.deflector.step = (match rise, leg with
              | false, .out => .trackUp
              | false, .seek => .trackDown
              | true, .out => .riseUp
              | true, .seek => .riseDown)
            ∧ t.drive.carriage = s.drive.carriage ∧ t.drive.turret = s.drive.turret ∧ goesOn t
          ((leg = .out ∨ active = false) → ∃ t, exec (.deflectorStep trackHome riseHome) s = .next t
            ∧ on t rise (next leg active))
          ∧ (leg = .seek → rise = false → trackHome = true → ∃ t, exec (.deflectorStep trackHome riseHome) s = .next t
            ∧ on t true (if riseHome = true then .out else .seek)))
        ∧ (∀ leg home, s.drive.turret.act = .homing leg → (leg = .out ∨ home = false) →
          ∃ t, exec (.turretStep home) s = .next t ∧ t.drive.turret.act = .homing (next leg home)
            ∧ t.drive.turret.forward = decide (next leg home = .out)
            ∧ t.drive.carriage = s.drive.carriage ∧ t.drive.deflector = s.drive.deflector ∧ goesOn t))

/-- A film step lowers the film remaining by 1 and opens the galley, and posts FILM_LOW once below 14,400; the last step
of a close's advance starts the cut, and the end of the cut clears the galley-open flag, posts GALLEY_CLOSED and leaves
the engine IDLE. A selection that is pending is then made, and its mark is cleared whether or not it is acted on: with no
winner or with the hold flag set nothing follows, and in READY with the winner's disc mounted the winner becomes ACTIVE
and its head line current. -/
def Obligations.FilmStepsAndTheGalleyClose : Prop :=
  (∀ (n : Nat) (s : State), Up s → s.drive.film.advance = some n →
      (NoMoveAwaited s ∨ (2 ≤ n ∧ s.engine.state ≠ .move)) →
      let left := s.drive.film.remaining - 1
      let low := s.drive.film.lowArm = true ∧ left < 14400
      ∃ t, exec .filmStep s = .next t ∧ t.drive.film.remaining = left ∧ t.drive.film.galleyOpen = true
        ∧ t.drive.film.advance = (if n ≤ 1 then none else some (n - 1))
        ∧ (low → t.drive.film.lowArm = false ∧ t.drive.film.low = true
          ∧ t.queues = (post .b (.filmLow left) (post .a (.filmLow left) s)).queues)
        ∧ (¬ low → t.drive.film.lowArm = s.drive.film.lowArm ∧ t.drive.film.low = s.drive.film.low
          ∧ t.queues = s.queues)
        ∧ t.drive.carriage = s.drive.carriage ∧ t.drive.film.load = s.drive.film.load
        ∧ t.drive.film.out = s.drive.film.out ∧ t.jobs = s.jobs ∧ t.store = s.store ∧ t.spin = s.spin)
    ∧ (∀ (job : Option (Nat × CLine)) (steps : Nat) (s : State), Up s → s.engine.state = .closing →
      s.engine.close = some { job := job, phase := .advancing, steps := steps } → s.drive.film.advance = some 1 →
      ∃ t, exec .filmStep s = .next t ∧ t.engine.state = .closing
        ∧ t.engine.close = some { job := job, phase := .cutting, steps := steps } ∧ t.drive.cutLeft = 30000)
    ∧ (∀ (job : Option (Nat × CLine)) (steps : Nat) (s : State), Up s → s.engine.state = .closing →
      s.engine.close = some { job := job, phase := .cutting, steps := steps } → s.seq.pendingSel = false →
      let closed : Event := .galleyClosed ((job.map Prod.fst).getD 0) steps true s.drive.film.remaining
      ∃ t, exec .cutEnd s = .next t ∧ t.engine.state = .idle ∧ t.engine.close = none
        ∧ t.drive.film = { s.drive.film with galleyOpen := false }
        ∧ t.queues = (match job with
          | some (_, l) => (post l closed s).queues
          | none => (post .b closed (post .a closed s)).queues)
        ∧ t.spin = { s.spin with parkTimer :=
          if s.spin.unit = .ready then some (s.spin.parkDelay * 6000000) else s.spin.parkTimer }
        ∧ t.jobs = s.jobs ∧ t.store = s.store)
    ∧ (∀ (job : Option (Nat × CLine)) (steps : Nat) (s : State), Up s → s.engine.state = .closing →
      s.engine.close = some { job := job, phase := .cutting, steps := steps } → s.seq.pendingSel = true →
      activeJob s = none →
      ((winner s = none ∨ s.spin.hold = true) → ∃ t, exec .cutEnd s = .next t ∧ t.engine.state = .idle
        ∧ t.engine.close = none ∧ t.seq = { s.seq with pendingSel := false } ∧ t.jobs = s.jobs
        ∧ t.store = s.store)
      ∧ (∀ j r, s.spin.unit = .ready → s.spin.hold = false → winner s = some j → j.disc = s.spin.mounted →
        s.store.lines.find? (fun x => x.header.job == j.number) = some r →
        ∃ t, exec .cutEnd s = .next t ∧ t.seq = { s.seq with starve := none, grace := false, pendingSel := false }
          ∧ t.engine.close = none ∧ t.engine.current = some { job := j.number, line := r.header.line }
          ∧ (t.engine.state = .prepare ∨ t.engine.state = .waitFilm)
          ∧ t.spin = { s.spin with unit := .exposing, motor := true, parkTimer := none }
          ∧ t.jobs = s.jobs.map (fun k => if k.number = j.number then
              { k with state := .active, started := true
                       reason := if j.state = .suspended then none else k.reason } else k)))

/-- The end of a settle leaves the mechanism AT_REST; it ends MOVE, and PREPARE with the other moves ended, in FLASH, or
in WAIT_TRACK if an item's track is UNUSABLE. A mechanism whose homing limit runs starts homing as its move has settled
(the model's choice, log 18). From the stop opened: as its last flash's result watch closes and a next stop exists, that
stop is loaded and the carriage ordered there, in MOVE (R61); a search that ends UNUSABLE under an item of the stop takes
FLASH to WAIT_TRACK, and one that ends TRIMMED takes WAIT_TRACK back to FLASH if no item's track is UNUSABLE, QUEUED or
SEARCHING any more (R63). -/
def Obligations.TheEndOfASettleOpensTheStop : Prop :=
  (∀ (s : State), Up s → NoMoveAwaited s →
      (s.drive.carriage.act = .settling → s.drive.limitC = none → exec (.settleEnd .carriage) s = .next { s with drive := { s.drive with
        carriage := { s.drive.carriage with act := .atRest, target := none, left := 0 } } })
      ∧ (s.drive.deflector.act = .settling → s.drive.limitD = none → exec (.settleEnd .deflector) s = .next { s with drive := { s.drive with
        deflector := { s.drive.deflector with act := .atRest, target := none, left := 0 } } })
      ∧ (s.drive.turret.act = .settling → s.drive.limitT = none → exec (.settleEnd .turret) s = .next { s with drive := { s.drive with
        turret := { s.drive.turret with act := .atRest, target := none, left := 0 } } }))
    ∧ (∀ (s : State), Up s → NoMoveAwaited s →
      let leg (active : Bool) : Activity := .homing (if active = true then .out else .seek)
      let rest (t : State) : Prop := t.engine = s.engine ∧ t.spin = s.spin ∧ t.disc = s.disc ∧ t.drive.film = s.drive.film
        ∧ t.drive.limitC = s.drive.limitC ∧ t.drive.limitD = s.drive.limitD ∧ t.drive.limitT = s.drive.limitT
      (s.drive.carriage.act = .settling → s.drive.limitC.isSome = true → ∃ t, exec (.settleEnd .carriage) s = .next t
        ∧ t.drive.carriage.act = leg s.drive.sensors.carriage ∧ t.drive.carriage.left = 25 ∧ rest t)
      ∧ (s.drive.deflector.act = .settling → s.drive.limitD.isSome = true → ∃ t, exec (.settleEnd .deflector) s = .next t
        ∧ t.drive.deflector.act = leg s.drive.sensors.deflTrack ∧ t.drive.deflector.homingRise = false
        ∧ t.drive.deflector.left = 150 ∧ rest t)
      ∧ (s.drive.turret.act = .settling → s.drive.limitT.isSome = true → ∃ t, exec (.settleEnd .turret) s = .next t
        ∧ t.drive.turret.act = leg s.drive.sensors.turret ∧ t.drive.turret.left = 4000 ∧ rest t))
    ∧ (∀ (s : State), Up s → s.drive.carriage.act = .settling → s.drive.limitC = none →
      (s.engine.state = .move ∨ (s.engine.state = .prepare ∧ s.drive.turret.act = .atRest
        ∧ s.drive.film.advance = none ∧ s.engine.stops ≠ [])) →
      let unusable := ∃ it ∈ s.engine.ring, it.isExposure = true ∧ (mountedRec s it.track).state = .unusable
      ∃ t, exec (.settleEnd .carriage) s = .next t ∧ t.drive.carriage.act = .atRest
        ∧ (unusable → t.engine = { s.engine with state := .waitTrack })
        ∧ (¬ unusable → t.engine = { s.engine with state := .flash }))
    ∧ (∀ (st : Stop) (tr : Track) (forLine hit : Bool) (left : Nat) (s : State), Up s →
      (s.engine.state = .flash ∨ s.engine.state = .waitTrack) → (∀ it ∈ s.engine.ring, it.isExposure = false) →
      s.engine.watch = some { of := .exposure tr forLine, hit := hit, left := left } →
      s.engine.stops[s.engine.stopNo]? = some st → s.drive.carriage.act = .atRest → s.drive.carriage.position ≠ st.x →
      ∃ t, exec .resultWatchClose s = .next t ∧ t.engine.state = .move ∧ t.engine.stopNo = s.engine.stopNo + 1
        ∧ t.engine.stuck = 0 ∧ t.engine.current = s.engine.current ∧ t.engine.stops = s.engine.stops
        ∧ t.drive.carriage = { s.drive.carriage with
          act := .stepping, target := some st.x, left := 25
          stepDir := if s.drive.carriage.position < st.x then .ascending else .descending }
        ∧ (t.engine.ring.filter Item.isExposure).length = st.entries.length
        ∧ (∀ e ∈ st.entries, ∃ target, .exposure e target 0 ∈ t.engine.ring)
        ∧ t.jobs = s.jobs ∧ t.store = s.store ∧ t.drive.film = s.drive.film)
    ∧ (∀ (hit : Bool) (left : Nat) (c : Search) (s : State), Up s →
      (s.engine.state = .flash ∨ s.engine.state = .waitTrack) →
      s.engine.watch = some { of := .test c.track true, hit := hit, left := left } → s.trim.search = some c →
      c.fired + 1 = c.dwell → s.trim.queue = [] → s.trim.queueDisc = s.spin.mounted →
      (slotFor s.maps s.spin.mounted).isSome = true →
      (∃ it ∈ s.engine.ring, it.isExposure = true) →
      let misses := if hit then c.misses else c.misses + 1
      let other := ∃ it ∈ s.engine.ring, it.isExposure = true ∧ it.track ≠ c.track
        ∧ ((mountedRec s it.track).state = .unusable ∨ (mountedRec s it.track).state = .queued
          ∨ (mountedRec s it.track).state = .searching)
      ∃ u, exec .resultWatchClose s = .next u
        ∧ (c.missLimit < misses → c.limit ≤ c.tried → (∃ it ∈ s.engine.ring, it.isExposure = true ∧ it.track = c.track) →
          u.engine.state = .waitTrack)
        ∧ (misses ≤ c.missLimit → s.engine.state = .waitTrack → ¬ other → u.engine.state = .flash)
        ∧ (misses ≤ c.missLimit → s.engine.state = .waitTrack → other → u.engine.state = .waitTrack))

/-! ### Timers, film load and supply -/

/-- ASSEMBLY_TIMEOUT discards the line's assembly with reason TIMEOUT. STARVATION_TIMEOUT sets the mark if no other job
is eligible; with one, the ACTIVE job is SUSPENDED as STARVED, and with the mechanisms at rest its galley close begins.
PARK_TIMEOUT parks the unit and halts a search back to the queue. None acts while its timer is stopped or, as when it
has been started again, has time left (R38, R40; for the two others the model's choice, log 3). -/
def Obligations.TheAssemblyStarvationAndParkTimersRunOut : Prop :=
  (∀ (l : CLine) (s : State), Up s →
      (s.store.assembly.get l = none → exec (.assemblyTimeout l) s = .next s)
      ∧ (∀ a, s.store.assembly.get l = some a → a.deadline ≠ 0 → exec (.assemblyTimeout l) s = .next s)
      ∧ (∀ a, s.store.assembly.get l = some a → a.deadline = 0 → exec (.assemblyTimeout l) s = .next
        (post l (.assemblyDropped a.header.job a.header.line .timeout) (withStore { s.store with
          assembly := s.store.assembly.set l none, freeCells := s.store.freeCells + a.header.count } s))))
    ∧ (∀ (s : State), Up s →
      let waiting (k : Job) : Prop := k.state ≠ .held ∧ k.held = false ∧ k.setCount < k.committed
      (s.seq.starve ≠ some 0 → exec .starvationTimeout s = .next s)
      ∧ (s.seq.starve = some 0 →
        (∀ j, activeJob s = some j → ∀ k ∈ s.jobs, k.number ≠ j.number → ¬ waiting k) →
        exec .starvationTimeout s = .next { s with seq := { s.seq with starve := none, grace := true } })
      ∧ (∀ j k, s.seq.starve = some 0 → activeJob s = some j → k ∈ s.jobs → k.number ≠ j.number → waiting k →
        s.drive.carriage.act = .atRest → s.drive.deflector.act = .atRest → s.drive.turret.act = .atRest →
        s.drive.film.advance = none → s.drive.film.galleyOpen = true → 0 < s.drive.film.remaining →
        let steps := min 720 s.drive.film.remaining
        ∃ t, exec .starvationTimeout s = .next t
          ∧ t.jobs = s.jobs.map (fun m => if m.number = j.number then
              { m with state := .suspended, reason := some .starved } else m)
          ∧ t.seq = { s.seq with starve := none, grace := false, pendingSel := true }
          ∧ t.engine = { s.engine with state := .closing
                                       close := some { job := some (j.number, j.owner), phase := .advancing, steps := steps } }
          ∧ t.drive.film = { s.drive.film with advance := some steps, left := 20 }
          ∧ t.queues = (post j.owner (.jobSuspended j.number .starved j.committed j.setCount) s).queues
          ∧ t.spin = { s.spin with parkTimer := none } ∧ t.store = s.store))
    ∧ (∀ (s : State), Up s →
      (s.spin.parkTimer ≠ some 0 → exec .parkTimeout s = .next s)
      ∧ (s.spin.parkTimer = some 0 → ∃ t, exec .parkTimeout s = .next t
        ∧ t.spin = { s.spin with unit := .parked, motor := false, parkTimer := none }
        ∧ t.bank = { s.bank with charger := false, strobeHeld := true, watch := none }
        ∧ (t.disc.valid = false ∧ t.disc.locked = false ∧ t.disc.spinup = none ∧ t.disc.stall = none
          ∧ t.disc.unlock = none)
        ∧ t.trim.search = none
        ∧ t.trim.queue = (match s.trim.search with
          | some x => x.track :: s.trim.queue
          | none => s.trim.queue)
        ∧ t.drive.film = s.drive.film ∧ t.jobs = s.jobs ∧ t.seq = s.seq ∧ t.store = s.store
        ∧ t.queues = s.queues ∧ t.iface = s.iface))

/-- FILM LOADED is disregarded while a film advance or a cut is in progress. Otherwise the film remaining takes the load
value, the galley-open, out and low flags are cleared and the low arm is set, with FILM_LOW at once below 14,400. An
engine in WAIT_FILM prepares afresh with the head margin: back to WAIT_FILM with FILM_OUT, or the moves of PREPARE.
After a JOB-CANCEL in WAIT_FILM has ordered the galley close, which has not begun (log 38), the key sets the film and
clears galley-open just so (R69), and the close, finding the galley closed, ends with no step and no cut. -/
def Obligations.FilmLoadedLoadsTheFilm : Prop :=
  let film (s : State) : Film := { s.drive.film with remaining := s.drive.film.load, galleyOpen := false, out := false
                                                     low := decide (s.drive.film.load < 14400)
                                                     lowArm := decide (14400 ≤ s.drive.film.load) }
  let told (s : State) : State := if s.drive.film.load < 14400 then
      post .b (.filmLow s.drive.film.load) (post .a (.filmLow s.drive.film.load) s) else s
  let free (s : State) : Prop := s.drive.film.advance = none ∧ ∀ c, s.engine.close = some c → c.phase ≠ .cutting
  (∀ (s : State), Up s → ¬ free s → exec .filmLoadedKey s = .next s)
    ∧ (∀ (s : State), Up s → free s → s.engine.state ≠ .waitFilm →
      NoEndWaits s →
      exec .filmLoadedKey s = .next { told s with drive := { s.drive with film := film s } })
    ∧ (∀ (job : Option (Nat × CLine)) (s : State), Up s → s.engine.state = .closing →
      s.engine.close = some { job := job, phase := .ordered, steps := 0 } → s.drive.allAtRest = true → s.jobs = [] →
      let closed : Event := .galleyClosed ((job.map Prod.fst).getD 0) 0 false s.drive.film.load
      ∃ t, exec .filmLoadedKey s = .next t ∧ t.drive = { s.drive with film := film s }
        ∧ t.engine = { s.engine with state := .idle, close := none } ∧ t.seq.pendingSel = false
        ∧ t.queues = (match job with
          | some (_, l) => (post l closed (told s)).queues
          | none => (post .b closed (post .a closed (told s))).queues)
        ∧ t.jobs = [] ∧ t.store = s.store)
    ∧ (∀ (r : LineRecord) (s : State), Up s → free s → s.engine.state = .waitFilm →
      s.store.lines.find? (fun x => x.current) = some r →
      let need := 720 + r.header.leading
      let out : Event := .filmOut r.header.job r.header.line need s.drive.film.load
      (s.drive.film.load < need → ∃ t, exec .filmLoadedKey s = .next t ∧ t.engine = s.engine
        ∧ t.drive.film = { film s with out := true }
        ∧ t.queues = (post .b out (post .a out (told s))).queues)
      ∧ (need ≤ s.drive.film.load → ∃ t, exec .filmLoadedKey s = .next t ∧ t.engine.state = .prepare
        ∧ t.engine.current = s.engine.current ∧ t.queues = (told s).queues
        ∧ t.drive.film = { film s with advance := some need, left := 20 }
        ∧ (s.drive.turret.act = .atRest → t.drive.turret = if s.drive.turret.position = r.header.lens then s.drive.turret
          else { s.drive.turret with act := .stepping, target := some r.header.lens, left := 4000
                                     forward := decide ((r.header.lens + 8 - s.drive.turret.position) % 8 ≤ 4) })
        ∧ (∀ st, s.engine.stops.head? = some st → s.drive.carriage.act = .atRest →
          t.drive.carriage = if s.drive.carriage.position = st.x then s.drive.carriage
          else { s.drive.carriage with act := .stepping, target := some st.x, left := 25
                                       stepDir := if s.drive.carriage.position < st.x then .ascending else .descending })))

/-- A power start, at any time, and a supply start out of LOW leave the values of a reset with the straps and sensor
levels as read, and START with its cause in both queues. SUPPLY_LOW turns the outputs off and loses a reply in
transmission; in LOW nothing is taken but the two starts. That the waiting commands and the home sensors' levels are read
so is the model's (logs 5, 28). -/
def Obligations.SupplyLossAndTheTwoStarts : Prop :=
  let line (station : BitVec 5) (rate : Rate) : Iface :=
    { station := station, rate := rate, rx := .hunt, gap := none, pass := false, run := 0, slot := none, overrun := false
      spell := .nothing, tx := none }
  let fresh (cause : StartCause) (inp : StartInputs) (s : State) : State := { State.reset with
    iface := ⟨line inp.stationA inp.rateA, line inp.stationB inp.rateB⟩
    queues := ⟨{ events := [.start cause], lost := false }, { events := [.start cause], lost := false }⟩
    drive := { State.reset.drive with sensors := inp.sensors }
    spin := { State.reset.spin with cause := cause }
    pending := s.pending, freeCount := s.freeCount }
  (∀ (inp : StartInputs) (s : State), exec (.powerStart inp) s = .next (fresh .power inp s))
    ∧ (∀ (inp : StartInputs) (s : State), s.spin.supply = .low → exec (.supplyStart inp) s = .next (fresh .supply inp s))
    ∧ (∀ (inp : StartInputs) (s : State), Up s → exec (.supplyStart inp) s = .next s)
    ∧ (∀ (s : State), Up s → exec .supplyLow s = .next { s with
      spin := { s.spin with supply := .low, motor := false }
      bank := { s.bank with charger := false, strobeHeld := true }
      drive := { s.drive with patternsOn := false }
      iface := ⟨{ s.iface.a with tx := none }, { s.iface.b with tx := none }⟩ })
    ∧ (∀ (c : Instr) (s : State), s.spin.supply = .low → (∀ inp, c ≠ .supplyStart inp) → (∀ inp, c ≠ .powerStart inp) →
      exec c s = .next s)

/-! ### Selection and the line boundary -/

/-- The winner of a selection: among the eligible jobs of the highest class, those that name the mounted disc if any do,
the job of the lowest open order; no job eligible, no winner. In DISC_CHANGE the mounted disc is 0, which no job names. A
suspended job keeps its open order. -/
def Obligations.TheWinnerIsByClassDiscAndOrder : Prop :=
  let eligible (k : Job) : Prop := k.state ≠ .held ∧ k.held = false ∧ k.setCount < k.committed
  let rank (k : Job) : Nat := match k.cls with
    | .routine => 0
    | .priority => 1
    | .bulletin => 2
  (∀ (s : State), winner s = none ↔ ∀ k ∈ s.jobs, ¬ eligible k)
    ∧ (∀ (s : State) (j : Job), winner s = some j →
      j ∈ s.jobs ∧ eligible j ∧ ∀ k ∈ s.jobs, eligible k → rank k ≤ rank j
        ∧ (rank k = rank j → k.disc = s.spin.mounted → j.disc = s.spin.mounted ∧ j.order ≤ k.order)
        ∧ (rank k = rank j → j.disc ≠ s.spin.mounted → j.order ≤ k.order))
    ∧ (∀ (disc job : Nat) (s : State), (enterDiscChange disc job s).spin.unit = .discChange
      ∧ (enterDiscChange disc job s).spin.mounted = 0)
    ∧ (∀ (j : Job) (left : JobState) (reason : SuspendReason) (s : State),
      (suspendJob j left reason s).jobs.map Job.order = s.jobs.map Job.order)

/-- A selection with no job ACTIVE, as the RUN key lets it be made: with no winner nothing is done; in PARKED the unit
spins up; in READY with another disc mounted it goes into DISC_CHANGE with the winner's disc; in DISC_CHANGE the request
is re-aimed; in SPIN_UP and IDENTIFY it waits; and in READY with the winner's disc mounted and the galley closed the
winner becomes ACTIVE and its head line CURRENT, with fresh tallies, its stops and its sweep, in PREPARE, or in
WAIT_FILM for want of film. -/
def Obligations.ASelectionGivesTheUnitToTheWinner : Prop :=
  ∀ (s : State), Up s → s.spin.unit ≠ .faulted → s.spin.hold = true → s.engine.state = .idle →
    s.engine.current = none → activeJob s = none →
    let run : State := { s with spin := { s.spin with hold := false } }
    let both (e : Event) (u : State) : State := post .b e (post .a e u)
    (winner s = none → exec .runKey s = .next run)
      ∧ ∀ j, winner s = some j →
        ((s.spin.unit = .spinUp ∨ s.spin.unit = .identify) → exec .runKey s = .next run)
        ∧ (s.spin.unit = .parked → ∃ t, exec .runKey s = .next t ∧ t.spin.unit = .spinUp ∧ t.spin.motor = true
          ∧ t.disc.spinup = some 800000 ∧ t.jobs = s.jobs ∧ t.queues = s.queues)
        ∧ (s.spin.unit = .ready → j.disc ≠ s.spin.mounted → ∃ t, exec .runKey s = .next t
          ∧ t.spin = { run.spin with unit := .discChange, motor := false, parkTimer := none, mounted := 0
                                     requested := some j.disc }
          ∧ t.jobs = s.jobs ∧ t.trim.queueDisc = 0 ∧ t.trim.queue = [] ∧ t.disc.locked = false
          ∧ t.queues = (both (.discRequest j.number j.disc s.spin.present) s).queues)
        ∧ (s.spin.unit = .discChange → exec .runKey s = .next (if s.spin.requested = some j.disc then run
          else both (.discRequest j.number j.disc s.spin.present)
            { run with spin := { run.spin with requested := some j.disc } }))
        ∧ (∀ r, s.spin.unit = .ready → j.disc = s.spin.mounted → s.drive.film.galleyOpen = false →
          s.store.lines.find? (fun x => x.header.job == j.number) = some r →
          let need := 720 + r.header.leading
          let stops := stopsOf r.cells
          let dir := sweepFrom s.drive.carriage.position stops
          let resumed : State := if j.state = .suspended then
            post j.owner (.jobResumed j.number j.reason j.setCount) s else s
          ∃ t, exec .runKey s = .next t
            ∧ t.jobs = s.jobs.map (fun k => if k.number = j.number then
                { k with state := .active, started := true
                         reason := if j.state = .suspended then none else k.reason } else k)
            ∧ t.store.lines = s.store.lines.map (fun x =>
                if x.header.job = j.number ∧ x.header.line = r.header.line then { x with current := true } else x)
            ∧ t.spin = { run.spin with unit := .exposing, motor := true, parkTimer := none }
            ∧ t.seq = { s.seq with starve := none, grace := false }
            ∧ (t.engine.current = some { job := j.number, line := r.header.line } ∧ t.engine.stopNo = 1
              ∧ t.engine.stuck = 0 ∧ t.engine.misreg = 0 ∧ t.engine.deferral = 0 ∧ t.engine.sweep = some dir
              ∧ t.engine.stops = (match dir with
                | .ascending => stops
                | .descending => stops.reverse))
            ∧ (s.drive.film.remaining < need → t.engine.state = .waitFilm ∧ t.drive.film.out = true
              ∧ t.queues = (both (.filmOut j.number r.header.line need s.drive.film.remaining) resumed).queues)
            ∧ (need ≤ s.drive.film.remaining → t.engine.state = .prepare ∧ t.drive.film.advance = some need
              ∧ t.queues = resumed.queues))

/-- The result of the last stop's last flash sets the line: its record and cells are freed, LINE_SET is posted, the set
count rises, and the unit is READY. Then the first of six steps whose condition holds is taken for the ACTIVE job:
completion, job hold, unit hold, pre-emption by a higher class, continuation with the next line, starvation. -/
def Obligations.TheLastResultSetsTheLineAndReachesTheBoundary : Prop :=
  ∀ (j : Job) (r : LineRef) (track : Track) (hit : Bool) (left : Nat) (s : State), Up s → JobsDistinct s →
    activeJob s = some j → s.engine.current = some r → r.job = j.number → s.engine.state = .flash →
    (∀ it ∈ s.engine.ring, it.isExposure = false) → s.engine.stops.length ≤ s.engine.stopNo →
    s.engine.watch = some { of := .exposure track true, hit := hit, left := left } → s.drive.film.galleyOpen = true →
    s.spin.unit = .exposing → s.seq.starve = none → s.seq.grace = false →
    let misreg := if hit then s.engine.misreg else s.engine.misreg + 1
    let set : State := post j.owner (.lineSet j.number r.line misreg s.engine.deferral) s
    let others := s.store.lines.filter fun x => !(x.header.job == r.job && x.header.line == r.line)
    let raised (f : Job → Job) : List Job := s.jobs.map fun k =>
      if k.number = j.number then f { k with setCount := k.setCount + 1 } else k
    let count := j.setCount + 1
    let complete : Prop := j.final = some count
    let higher : Prop := ∃ k ∈ s.jobs, k.state ≠ .held ∧ k.held = false ∧ k.setCount < k.committed
      ∧ JobClass.rank j.cls < JobClass.rank k.cls
    let suspended (left : JobState) (reason : SuspendReason) (t : State) : Prop :=
      t.jobs = raised (fun k => { k with state := left, reason := some reason })
        ∧ t.queues = (post j.owner (.jobSuspended j.number reason j.committed count) set).queues
        ∧ t.engine.state = .closing ∧ t.spin = { s.spin with unit := .ready, motor := true, parkTimer := none }
        ∧ t.seq.pendingSel = true
    let parkAt : Option Nat := some (s.spin.parkDelay * 6000000)
    ∃ t, exec .resultWatchClose s = .next t
      ∧ (∀ x ∈ t.store.lines, ¬ (x.header.job = r.job ∧ x.header.line = r.line))
      ∧ t.store.freeCells = s.store.freeCells + ((s.store.lines.filter fun x =>
          x.header.job == r.job && x.header.line == r.line).map fun x => x.header.count).sum
      ∧ (complete → j.cut = true → t.jobs = s.jobs.filter (fun k => k.number != j.number)
        ∧ t.queues = (post j.owner (.jobDone j.number count) set).queues ∧ t.engine.state = .closing
        ∧ t.engine.close.map Close.job = some (some (j.number, j.owner)))
      ∧ (complete → j.cut = false → s.spin.hold = true → t.jobs = s.jobs.filter (fun k => k.number != j.number)
        ∧ t.queues = (post j.owner (.jobDone j.number count) set).queues ∧ t.engine.state = .idle
        ∧ t.drive.film.galleyOpen = true ∧ t.spin = { s.spin with unit := .ready, motor := true, parkTimer := parkAt })
      ∧ (¬ complete → j.held = true → suspended .held .held t)
      ∧ (¬ complete → j.held = false → s.spin.hold = true → t.jobs = raised id ∧ t.queues = set.queues
        ∧ t.engine.state = .idle ∧ t.engine.current = none ∧ t.seq = s.seq
        ∧ t.spin = { s.spin with unit := .ready, motor := true, parkTimer := parkAt })
      ∧ (¬ complete → j.held = false → s.spin.hold = false → higher → suspended .suspended .preempted t)
      ∧ (∀ next, ¬ complete → j.held = false → s.spin.hold = false → ¬ higher → j.disc = s.spin.mounted →
        others.find? (fun x => x.header.job == j.number) = some next → 0 < next.header.leading →
        t.jobs = raised id ∧ t.engine.current = some { job := j.number, line := next.header.line }
        ∧ t.engine.state = (if s.drive.film.remaining < next.header.leading then .waitFilm else .prepare)
        ∧ t.spin = { s.spin with unit := .exposing, motor := true, parkTimer := none })
      ∧ (¬ complete → j.held = false → s.spin.hold = false → ¬ higher →
        others.find? (fun x => x.header.job == j.number) = none →
        t.jobs = raised id ∧ t.queues = set.queues ∧ t.engine.state = .idle ∧ t.engine.current = none
        ∧ t.seq = { s.seq with starve := some 500000 }
        ∧ t.spin = { s.spin with unit := .ready, motor := true, parkTimer := parkAt })

/-! ### Stops and the ring -/

/-- The stops of a line are one for each carriage x of its placed cells, in ascending x, each with its entries in
ascending sort index; the sweep is ascending if the carriage is no farther from the lowest stop than from the highest.
A new item's target angle is worked out from its position and its track's trim code, and it stands in the ring after every
item the disc reaches no later than it. -/
def Obligations.StopsAndRingKeepTheirOrders : Prop :=
  (∀ (cs : List Cell),
      ((stopsOf cs).map Stop.x).Pairwise (· < ·)
        ∧ (∀ st ∈ stopsOf cs, st.entries ≠ [] ∧ (st.entries.map StopEntry.index).Pairwise (· < ·))
        ∧ (∀ (x : Nat) (e : StopEntry), (∃ st ∈ stopsOf cs, st.x = x ∧ e ∈ st.entries) ↔
          ∃ c, cs[e.index]? = some c ∧ c.res = .placed e.track e.position e.heavy x ∧ e.rise = c.glyph.rise))
    ∧ (∀ (p : Nat) (stops : List Stop) (lo hi : Stop), stops.head? = some lo → stops.getLast? = some hi →
      let far (x : Nat) : Nat := if p ≤ x then x - p else p - x
      (sweepFrom p stops = .ascending ↔ far lo.x ≤ far hi.x))
    ∧ (∀ (p : Nat), sweepFrom p [] = .ascending)
    ∧ (∀ (e : StopEntry) (s : State), ∃ target, exposureOf s e = .exposure e target 0
      ∧ (target : Int) = ((e.position : Int) * 30 + (((mountedRec s e.track).code : Int) - 8)) % 2880
      ∧ (1 ≤ e.position → e.position ≤ 95 → (mountedRec s e.track).code ≤ 15 → 22 ≤ target ∧ target ≤ 2857))
    ∧ (∀ (counter : Int) (target : Nat), target < 2880 →
      (0 ≤ counter → counter < 2880 → 1 ≤ ahead counter target ∧ ahead counter target ≤ 2880
        ∧ (counter + ahead counter target) % 2880 = target)
      ∧ ((counter < 0 ∨ 2880 ≤ counter) → ahead counter target = target))
    ∧ (∀ (counter : Int) (it : Item) (ring : List Item),
      let far (y : Item) : Nat := ahead counter y.target
      ∃ before after, ring = before ++ after ∧ insertItem counter it ring = before ++ it :: after
        ∧ (∀ y ∈ after, far it < far y)
        ∧ ((ring.map far).Pairwise (· ≤ ·) → (∀ y ∈ before, far y ≤ far it)
          ∧ ((insertItem counter it ring).map far).Pairwise (· ≤ ·)))

end
end

