-- ==== Sys2Proof/Laws/State.lean ====
section
/-!
SUPPORT. What each block update does to each field of State: one lemma per field per update, all by `rfl`.
-/
namespace Sys2Proof.Machine

variable (s : State)

@[simp] theorem State.modIface_iface (f : Pair Iface → Pair Iface) : (s.modIface f).iface = f s.iface := rfl
@[simp] theorem State.modIface_queues (f : Pair Iface → Pair Iface) : (s.modIface f).queues = s.queues := rfl
@[simp] theorem State.modIface_maps (f : Pair Iface → Pair Iface) : (s.modIface f).maps = s.maps := rfl
@[simp] theorem State.modIface_store (f : Pair Iface → Pair Iface) : (s.modIface f).store = s.store := rfl
@[simp] theorem State.modIface_jobs (f : Pair Iface → Pair Iface) : (s.modIface f).jobs = s.jobs := rfl
@[simp] theorem State.modIface_seq (f : Pair Iface → Pair Iface) : (s.modIface f).seq = s.seq := rfl
@[simp] theorem State.modIface_engine (f : Pair Iface → Pair Iface) : (s.modIface f).engine = s.engine := rfl
@[simp] theorem State.modIface_disc (f : Pair Iface → Pair Iface) : (s.modIface f).disc = s.disc := rfl
@[simp] theorem State.modIface_trim (f : Pair Iface → Pair Iface) : (s.modIface f).trim = s.trim := rfl
@[simp] theorem State.modIface_bank (f : Pair Iface → Pair Iface) : (s.modIface f).bank = s.bank := rfl
@[simp] theorem State.modIface_drive (f : Pair Iface → Pair Iface) : (s.modIface f).drive = s.drive := rfl
@[simp] theorem State.modIface_spin (f : Pair Iface → Pair Iface) : (s.modIface f).spin = s.spin := rfl
@[simp] theorem State.modIface_pending (f : Pair Iface → Pair Iface) : (s.modIface f).pending = s.pending := rfl
@[simp] theorem State.modIface_freeCount (f : Pair Iface → Pair Iface) : (s.modIface f).freeCount = s.freeCount := rfl

@[simp] theorem State.modQueues_iface (f : Pair Queue → Pair Queue) : (s.modQueues f).iface = s.iface := rfl
@[simp] theorem State.modQueues_queues (f : Pair Queue → Pair Queue) : (s.modQueues f).queues = f s.queues := rfl
@[simp] theorem State.modQueues_maps (f : Pair Queue → Pair Queue) : (s.modQueues f).maps = s.maps := rfl
@[simp] theorem State.modQueues_store (f : Pair Queue → Pair Queue) : (s.modQueues f).store = s.store := rfl
@[simp] theorem State.modQueues_jobs (f : Pair Queue → Pair Queue) : (s.modQueues f).jobs = s.jobs := rfl
@[simp] theorem State.modQueues_seq (f : Pair Queue → Pair Queue) : (s.modQueues f).seq = s.seq := rfl
@[simp] theorem State.modQueues_engine (f : Pair Queue → Pair Queue) : (s.modQueues f).engine = s.engine := rfl
@[simp] theorem State.modQueues_disc (f : Pair Queue → Pair Queue) : (s.modQueues f).disc = s.disc := rfl
@[simp] theorem State.modQueues_trim (f : Pair Queue → Pair Queue) : (s.modQueues f).trim = s.trim := rfl
@[simp] theorem State.modQueues_bank (f : Pair Queue → Pair Queue) : (s.modQueues f).bank = s.bank := rfl
@[simp] theorem State.modQueues_drive (f : Pair Queue → Pair Queue) : (s.modQueues f).drive = s.drive := rfl
@[simp] theorem State.modQueues_spin (f : Pair Queue → Pair Queue) : (s.modQueues f).spin = s.spin := rfl
@[simp] theorem State.modQueues_pending (f : Pair Queue → Pair Queue) : (s.modQueues f).pending = s.pending := rfl
@[simp] theorem State.modQueues_freeCount (f : Pair Queue → Pair Queue) : (s.modQueues f).freeCount = s.freeCount := rfl

@[simp] theorem State.modMaps_iface (f : Quad (Option MapSlot) → Quad (Option MapSlot)) : (s.modMaps f).iface = s.iface := rfl
@[simp] theorem State.modMaps_queues (f : Quad (Option MapSlot) → Quad (Option MapSlot)) : (s.modMaps f).queues = s.queues := rfl
@[simp] theorem State.modMaps_maps (f : Quad (Option MapSlot) → Quad (Option MapSlot)) : (s.modMaps f).maps = f s.maps := rfl
@[simp] theorem State.modMaps_store (f : Quad (Option MapSlot) → Quad (Option MapSlot)) : (s.modMaps f).store = s.store := rfl
@[simp] theorem State.modMaps_jobs (f : Quad (Option MapSlot) → Quad (Option MapSlot)) : (s.modMaps f).jobs = s.jobs := rfl
@[simp] theorem State.modMaps_seq (f : Quad (Option MapSlot) → Quad (Option MapSlot)) : (s.modMaps f).seq = s.seq := rfl
@[simp] theorem State.modMaps_engine (f : Quad (Option MapSlot) → Quad (Option MapSlot)) : (s.modMaps f).engine = s.engine := rfl
@[simp] theorem State.modMaps_disc (f : Quad (Option MapSlot) → Quad (Option MapSlot)) : (s.modMaps f).disc = s.disc := rfl
@[simp] theorem State.modMaps_trim (f : Quad (Option MapSlot) → Quad (Option MapSlot)) : (s.modMaps f).trim = s.trim := rfl
@[simp] theorem State.modMaps_bank (f : Quad (Option MapSlot) → Quad (Option MapSlot)) : (s.modMaps f).bank = s.bank := rfl
@[simp] theorem State.modMaps_drive (f : Quad (Option MapSlot) → Quad (Option MapSlot)) : (s.modMaps f).drive = s.drive := rfl
@[simp] theorem State.modMaps_spin (f : Quad (Option MapSlot) → Quad (Option MapSlot)) : (s.modMaps f).spin = s.spin := rfl
@[simp] theorem State.modMaps_pending (f : Quad (Option MapSlot) → Quad (Option MapSlot)) : (s.modMaps f).pending = s.pending := rfl
@[simp] theorem State.modMaps_freeCount (f : Quad (Option MapSlot) → Quad (Option MapSlot)) : (s.modMaps f).freeCount = s.freeCount := rfl

@[simp] theorem State.modStore_iface (f : LineStore → LineStore) : (s.modStore f).iface = s.iface := rfl
@[simp] theorem State.modStore_queues (f : LineStore → LineStore) : (s.modStore f).queues = s.queues := rfl
@[simp] theorem State.modStore_maps (f : LineStore → LineStore) : (s.modStore f).maps = s.maps := rfl
@[simp] theorem State.modStore_store (f : LineStore → LineStore) : (s.modStore f).store = f s.store := rfl
@[simp] theorem State.modStore_jobs (f : LineStore → LineStore) : (s.modStore f).jobs = s.jobs := rfl
@[simp] theorem State.modStore_seq (f : LineStore → LineStore) : (s.modStore f).seq = s.seq := rfl
@[simp] theorem State.modStore_engine (f : LineStore → LineStore) : (s.modStore f).engine = s.engine := rfl
@[simp] theorem State.modStore_disc (f : LineStore → LineStore) : (s.modStore f).disc = s.disc := rfl
@[simp] theorem State.modStore_trim (f : LineStore → LineStore) : (s.modStore f).trim = s.trim := rfl
@[simp] theorem State.modStore_bank (f : LineStore → LineStore) : (s.modStore f).bank = s.bank := rfl
@[simp] theorem State.modStore_drive (f : LineStore → LineStore) : (s.modStore f).drive = s.drive := rfl
@[simp] theorem State.modStore_spin (f : LineStore → LineStore) : (s.modStore f).spin = s.spin := rfl
@[simp] theorem State.modStore_pending (f : LineStore → LineStore) : (s.modStore f).pending = s.pending := rfl
@[simp] theorem State.modStore_freeCount (f : LineStore → LineStore) : (s.modStore f).freeCount = s.freeCount := rfl

@[simp] theorem State.modJobs_iface (f : List Job → List Job) : (s.modJobs f).iface = s.iface := rfl
@[simp] theorem State.modJobs_queues (f : List Job → List Job) : (s.modJobs f).queues = s.queues := rfl
@[simp] theorem State.modJobs_maps (f : List Job → List Job) : (s.modJobs f).maps = s.maps := rfl
@[simp] theorem State.modJobs_store (f : List Job → List Job) : (s.modJobs f).store = s.store := rfl
@[simp] theorem State.modJobs_jobs (f : List Job → List Job) : (s.modJobs f).jobs = f s.jobs := rfl
@[simp] theorem State.modJobs_seq (f : List Job → List Job) : (s.modJobs f).seq = s.seq := rfl
@[simp] theorem State.modJobs_engine (f : List Job → List Job) : (s.modJobs f).engine = s.engine := rfl
@[simp] theorem State.modJobs_disc (f : List Job → List Job) : (s.modJobs f).disc = s.disc := rfl
@[simp] theorem State.modJobs_trim (f : List Job → List Job) : (s.modJobs f).trim = s.trim := rfl
@[simp] theorem State.modJobs_bank (f : List Job → List Job) : (s.modJobs f).bank = s.bank := rfl
@[simp] theorem State.modJobs_drive (f : List Job → List Job) : (s.modJobs f).drive = s.drive := rfl
@[simp] theorem State.modJobs_spin (f : List Job → List Job) : (s.modJobs f).spin = s.spin := rfl
@[simp] theorem State.modJobs_pending (f : List Job → List Job) : (s.modJobs f).pending = s.pending := rfl
@[simp] theorem State.modJobs_freeCount (f : List Job → List Job) : (s.modJobs f).freeCount = s.freeCount := rfl

@[simp] theorem State.modSeq_iface (f : Seq → Seq) : (s.modSeq f).iface = s.iface := rfl
@[simp] theorem State.modSeq_queues (f : Seq → Seq) : (s.modSeq f).queues = s.queues := rfl
@[simp] theorem State.modSeq_maps (f : Seq → Seq) : (s.modSeq f).maps = s.maps := rfl
@[simp] theorem State.modSeq_store (f : Seq → Seq) : (s.modSeq f).store = s.store := rfl
@[simp] theorem State.modSeq_jobs (f : Seq → Seq) : (s.modSeq f).jobs = s.jobs := rfl
@[simp] theorem State.modSeq_seq (f : Seq → Seq) : (s.modSeq f).seq = f s.seq := rfl
@[simp] theorem State.modSeq_engine (f : Seq → Seq) : (s.modSeq f).engine = s.engine := rfl
@[simp] theorem State.modSeq_disc (f : Seq → Seq) : (s.modSeq f).disc = s.disc := rfl
@[simp] theorem State.modSeq_trim (f : Seq → Seq) : (s.modSeq f).trim = s.trim := rfl
@[simp] theorem State.modSeq_bank (f : Seq → Seq) : (s.modSeq f).bank = s.bank := rfl
@[simp] theorem State.modSeq_drive (f : Seq → Seq) : (s.modSeq f).drive = s.drive := rfl
@[simp] theorem State.modSeq_spin (f : Seq → Seq) : (s.modSeq f).spin = s.spin := rfl
@[simp] theorem State.modSeq_pending (f : Seq → Seq) : (s.modSeq f).pending = s.pending := rfl
@[simp] theorem State.modSeq_freeCount (f : Seq → Seq) : (s.modSeq f).freeCount = s.freeCount := rfl

@[simp] theorem State.modEngine_iface (f : Engine → Engine) : (s.modEngine f).iface = s.iface := rfl
@[simp] theorem State.modEngine_queues (f : Engine → Engine) : (s.modEngine f).queues = s.queues := rfl
@[simp] theorem State.modEngine_maps (f : Engine → Engine) : (s.modEngine f).maps = s.maps := rfl
@[simp] theorem State.modEngine_store (f : Engine → Engine) : (s.modEngine f).store = s.store := rfl
@[simp] theorem State.modEngine_jobs (f : Engine → Engine) : (s.modEngine f).jobs = s.jobs := rfl
@[simp] theorem State.modEngine_seq (f : Engine → Engine) : (s.modEngine f).seq = s.seq := rfl
@[simp] theorem State.modEngine_engine (f : Engine → Engine) : (s.modEngine f).engine = f s.engine := rfl
@[simp] theorem State.modEngine_disc (f : Engine → Engine) : (s.modEngine f).disc = s.disc := rfl
@[simp] theorem State.modEngine_trim (f : Engine → Engine) : (s.modEngine f).trim = s.trim := rfl
@[simp] theorem State.modEngine_bank (f : Engine → Engine) : (s.modEngine f).bank = s.bank := rfl
@[simp] theorem State.modEngine_drive (f : Engine → Engine) : (s.modEngine f).drive = s.drive := rfl
@[simp] theorem State.modEngine_spin (f : Engine → Engine) : (s.modEngine f).spin = s.spin := rfl
@[simp] theorem State.modEngine_pending (f : Engine → Engine) : (s.modEngine f).pending = s.pending := rfl
@[simp] theorem State.modEngine_freeCount (f : Engine → Engine) : (s.modEngine f).freeCount = s.freeCount := rfl

@[simp] theorem State.modDisc_iface (f : Disc → Disc) : (s.modDisc f).iface = s.iface := rfl
@[simp] theorem State.modDisc_queues (f : Disc → Disc) : (s.modDisc f).queues = s.queues := rfl
@[simp] theorem State.modDisc_maps (f : Disc → Disc) : (s.modDisc f).maps = s.maps := rfl
@[simp] theorem State.modDisc_store (f : Disc → Disc) : (s.modDisc f).store = s.store := rfl
@[simp] theorem State.modDisc_jobs (f : Disc → Disc) : (s.modDisc f).jobs = s.jobs := rfl
@[simp] theorem State.modDisc_seq (f : Disc → Disc) : (s.modDisc f).seq = s.seq := rfl
@[simp] theorem State.modDisc_engine (f : Disc → Disc) : (s.modDisc f).engine = s.engine := rfl
@[simp] theorem State.modDisc_disc (f : Disc → Disc) : (s.modDisc f).disc = f s.disc := rfl
@[simp] theorem State.modDisc_trim (f : Disc → Disc) : (s.modDisc f).trim = s.trim := rfl
@[simp] theorem State.modDisc_bank (f : Disc → Disc) : (s.modDisc f).bank = s.bank := rfl
@[simp] theorem State.modDisc_drive (f : Disc → Disc) : (s.modDisc f).drive = s.drive := rfl
@[simp] theorem State.modDisc_spin (f : Disc → Disc) : (s.modDisc f).spin = s.spin := rfl
@[simp] theorem State.modDisc_pending (f : Disc → Disc) : (s.modDisc f).pending = s.pending := rfl
@[simp] theorem State.modDisc_freeCount (f : Disc → Disc) : (s.modDisc f).freeCount = s.freeCount := rfl

@[simp] theorem State.modTrim_iface (f : Trim → Trim) : (s.modTrim f).iface = s.iface := rfl
@[simp] theorem State.modTrim_queues (f : Trim → Trim) : (s.modTrim f).queues = s.queues := rfl
@[simp] theorem State.modTrim_maps (f : Trim → Trim) : (s.modTrim f).maps = s.maps := rfl
@[simp] theorem State.modTrim_store (f : Trim → Trim) : (s.modTrim f).store = s.store := rfl
@[simp] theorem State.modTrim_jobs (f : Trim → Trim) : (s.modTrim f).jobs = s.jobs := rfl
@[simp] theorem State.modTrim_seq (f : Trim → Trim) : (s.modTrim f).seq = s.seq := rfl
@[simp] theorem State.modTrim_engine (f : Trim → Trim) : (s.modTrim f).engine = s.engine := rfl
@[simp] theorem State.modTrim_disc (f : Trim → Trim) : (s.modTrim f).disc = s.disc := rfl
@[simp] theorem State.modTrim_trim (f : Trim → Trim) : (s.modTrim f).trim = f s.trim := rfl
@[simp] theorem State.modTrim_bank (f : Trim → Trim) : (s.modTrim f).bank = s.bank := rfl
@[simp] theorem State.modTrim_drive (f : Trim → Trim) : (s.modTrim f).drive = s.drive := rfl
@[simp] theorem State.modTrim_spin (f : Trim → Trim) : (s.modTrim f).spin = s.spin := rfl
@[simp] theorem State.modTrim_pending (f : Trim → Trim) : (s.modTrim f).pending = s.pending := rfl
@[simp] theorem State.modTrim_freeCount (f : Trim → Trim) : (s.modTrim f).freeCount = s.freeCount := rfl

@[simp] theorem State.modBank_iface (f : Bank → Bank) : (s.modBank f).iface = s.iface := rfl
@[simp] theorem State.modBank_queues (f : Bank → Bank) : (s.modBank f).queues = s.queues := rfl
@[simp] theorem State.modBank_maps (f : Bank → Bank) : (s.modBank f).maps = s.maps := rfl
@[simp] theorem State.modBank_store (f : Bank → Bank) : (s.modBank f).store = s.store := rfl
@[simp] theorem State.modBank_jobs (f : Bank → Bank) : (s.modBank f).jobs = s.jobs := rfl
@[simp] theorem State.modBank_seq (f : Bank → Bank) : (s.modBank f).seq = s.seq := rfl
@[simp] theorem State.modBank_engine (f : Bank → Bank) : (s.modBank f).engine = s.engine := rfl
@[simp] theorem State.modBank_disc (f : Bank → Bank) : (s.modBank f).disc = s.disc := rfl
@[simp] theorem State.modBank_trim (f : Bank → Bank) : (s.modBank f).trim = s.trim := rfl
@[simp] theorem State.modBank_bank (f : Bank → Bank) : (s.modBank f).bank = f s.bank := rfl
@[simp] theorem State.modBank_drive (f : Bank → Bank) : (s.modBank f).drive = s.drive := rfl
@[simp] theorem State.modBank_spin (f : Bank → Bank) : (s.modBank f).spin = s.spin := rfl
@[simp] theorem State.modBank_pending (f : Bank → Bank) : (s.modBank f).pending = s.pending := rfl
@[simp] theorem State.modBank_freeCount (f : Bank → Bank) : (s.modBank f).freeCount = s.freeCount := rfl

@[simp] theorem State.modDrive_iface (f : Drive → Drive) : (s.modDrive f).iface = s.iface := rfl
@[simp] theorem State.modDrive_queues (f : Drive → Drive) : (s.modDrive f).queues = s.queues := rfl
@[simp] theorem State.modDrive_maps (f : Drive → Drive) : (s.modDrive f).maps = s.maps := rfl
@[simp] theorem State.modDrive_store (f : Drive → Drive) : (s.modDrive f).store = s.store := rfl
@[simp] theorem State.modDrive_jobs (f : Drive → Drive) : (s.modDrive f).jobs = s.jobs := rfl
@[simp] theorem State.modDrive_seq (f : Drive → Drive) : (s.modDrive f).seq = s.seq := rfl
@[simp] theorem State.modDrive_engine (f : Drive → Drive) : (s.modDrive f).engine = s.engine := rfl
@[simp] theorem State.modDrive_disc (f : Drive → Drive) : (s.modDrive f).disc = s.disc := rfl
@[simp] theorem State.modDrive_trim (f : Drive → Drive) : (s.modDrive f).trim = s.trim := rfl
@[simp] theorem State.modDrive_bank (f : Drive → Drive) : (s.modDrive f).bank = s.bank := rfl
@[simp] theorem State.modDrive_drive (f : Drive → Drive) : (s.modDrive f).drive = f s.drive := rfl
@[simp] theorem State.modDrive_spin (f : Drive → Drive) : (s.modDrive f).spin = s.spin := rfl
@[simp] theorem State.modDrive_pending (f : Drive → Drive) : (s.modDrive f).pending = s.pending := rfl
@[simp] theorem State.modDrive_freeCount (f : Drive → Drive) : (s.modDrive f).freeCount = s.freeCount := rfl

@[simp] theorem State.modSpin_iface (f : Spin → Spin) : (s.modSpin f).iface = s.iface := rfl
@[simp] theorem State.modSpin_queues (f : Spin → Spin) : (s.modSpin f).queues = s.queues := rfl
@[simp] theorem State.modSpin_maps (f : Spin → Spin) : (s.modSpin f).maps = s.maps := rfl
@[simp] theorem State.modSpin_store (f : Spin → Spin) : (s.modSpin f).store = s.store := rfl
@[simp] theorem State.modSpin_jobs (f : Spin → Spin) : (s.modSpin f).jobs = s.jobs := rfl
@[simp] theorem State.modSpin_seq (f : Spin → Spin) : (s.modSpin f).seq = s.seq := rfl
@[simp] theorem State.modSpin_engine (f : Spin → Spin) : (s.modSpin f).engine = s.engine := rfl
@[simp] theorem State.modSpin_disc (f : Spin → Spin) : (s.modSpin f).disc = s.disc := rfl
@[simp] theorem State.modSpin_trim (f : Spin → Spin) : (s.modSpin f).trim = s.trim := rfl
@[simp] theorem State.modSpin_bank (f : Spin → Spin) : (s.modSpin f).bank = s.bank := rfl
@[simp] theorem State.modSpin_drive (f : Spin → Spin) : (s.modSpin f).drive = s.drive := rfl
@[simp] theorem State.modSpin_spin (f : Spin → Spin) : (s.modSpin f).spin = f s.spin := rfl
@[simp] theorem State.modSpin_pending (f : Spin → Spin) : (s.modSpin f).pending = s.pending := rfl
@[simp] theorem State.modSpin_freeCount (f : Spin → Spin) : (s.modSpin f).freeCount = s.freeCount := rfl

end Sys2Proof.Machine
end

