-- ==== Sys2Proof/Laws/Handling.lean ====
section
/-!
SUPPORT. What the Message Handler does with a message that waits in a slot, and what a part whose supply is NORMAL or
LOW does with any effect.
-/
namespace Sys2Proof.Machine

variable {s : State}

/-- A part whose supply is NORMAL takes the effect. -/
theorem powered_up (f : State → State) (h : Up s) : powered s f = f s := by
  unfold powered
  rw [h]

/-- A part whose supply is LOW takes nothing. -/
theorem powered_low (f : State → State) (h : s.spin.supply = .low) : powered s f = s := by
  unfold powered
  rw [h]

theorem code_u8 (k : MsgKind) : (u8 k.code).toNat = k.code := by cases k <;> rfl

@[simp] theorem modLine_get (l : CLine) (f : Iface → Iface) (s : State) :
    (modLine l f s).iface.get l = f (s.iface.get l) := by cases l <;> rfl

@[simp] theorem modLine_queues (l : CLine) (f : Iface → Iface) (s : State) : (modLine l f s).queues = s.queues := rfl
@[simp] theorem modLine_maps (l : CLine) (f : Iface → Iface) (s : State) : (modLine l f s).maps = s.maps := rfl
@[simp] theorem modLine_store (l : CLine) (f : Iface → Iface) (s : State) : (modLine l f s).store = s.store := rfl
@[simp] theorem modLine_jobs (l : CLine) (f : Iface → Iface) (s : State) : (modLine l f s).jobs = s.jobs := rfl
@[simp] theorem modLine_seq (l : CLine) (f : Iface → Iface) (s : State) : (modLine l f s).seq = s.seq := rfl
@[simp] theorem modLine_engine (l : CLine) (f : Iface → Iface) (s : State) : (modLine l f s).engine = s.engine := rfl
@[simp] theorem modLine_disc (l : CLine) (f : Iface → Iface) (s : State) : (modLine l f s).disc = s.disc := rfl
@[simp] theorem modLine_trim (l : CLine) (f : Iface → Iface) (s : State) : (modLine l f s).trim = s.trim := rfl
@[simp] theorem modLine_bank (l : CLine) (f : Iface → Iface) (s : State) : (modLine l f s).bank = s.bank := rfl
@[simp] theorem modLine_drive (l : CLine) (f : Iface → Iface) (s : State) : (modLine l f s).drive = s.drive := rfl
@[simp] theorem modLine_spin (l : CLine) (f : Iface → Iface) (s : State) : (modLine l f s).spin = s.spin := rfl

/-- Emptying the slot changes nothing that the leading checks read. -/
theorem leadingFault_emptySlot (k : MsgKind) (l : CLine) (d : List Byte) (s : State) :
    leadingFault k l d (emptySlot l s) = leadingFault k l d s := by
  unfold leadingFault wrongOwner emptySlot
  simp

/-- A message that waits and passes the leading checks has its effect and is answered. -/
theorem handled (k : MsgKind) (l : CLine) (mine : List Byte → Bool) (act : Bool → List Byte → State → Handled)
    (tag : Byte) (d : List Byte) (hw : Waits l k.code tag d s) (hm : mine d = true)
    (hl : leadingFault k l d s = none) :
    powered s (handle k l mine act) = sendReply l tag (lostOf l s) (act false d (emptySlot l s)) := by
  obtain ⟨hu, ht, hs⟩ := hw
  rw [powered_up _ hu]
  simp only [handle, takeable, ht, hs, code_u8, hm, judgeMsg, leadingFault_emptySlot, hl, answer, lostOf]
  simp

/-- A message that waits and fails a leading check is refused and has no effect. -/
theorem handled_refused (k : MsgKind) (l : CLine) (mine : List Byte → Bool) (act : Bool → List Byte → State → Handled)
    (tag : Byte) (d : List Byte) (r : Reason) (n : Nat) (hw : Waits l k.code tag d s) (hm : mine d = true)
    (hl : leadingFault k l d s = some (r, n)) :
    powered s (handle k l mine act) = answered l tag (.refused r n) id s := by
  obtain ⟨hu, ht, hs⟩ := hw
  rw [powered_up _ hu]
  simp only [handle, takeable, ht, hs, code_u8, hm, judgeMsg, leadingFault_emptySlot, hl, answer, lostOf, answered,
    refuse, id]
  simp

/-- The leading checks pass: the body has its length and structure, PASS stands if it is needed, and no live job of
the other line is named. -/
theorem leadingFault_none (k : MsgKind) (l : CLine) (d : List Byte) (hb : malformed k (s.store.assembly.get l) d = none)
    (hp : k.needsPass d = true → Passed l s) (ho : wrongOwner k l d s = none) : leadingFault k l d s = none := by
  unfold leadingFault
  rw [hb]
  simp only [ho]
  cases hn : k.needsPass d
  · simp
  · have := hp hn
    unfold Passed at this
    simp [this]

/-- A job owned by the line of arrival passes the ownership check (R142). -/
theorem wrongOwner_none (k : MsgKind) (l : CLine) (d : List Byte) (j : Job) (hj : findJob s.jobs (byteAt d 0) = some j)
    (ho : j.owner = l) : wrongOwner k l d s = none := by
  unfold wrongOwner
  split
  · rw [hj]; simp [ho]
  · rfl

/-- A message that names no job passes the ownership check (R142). -/
theorem wrongOwner_unnamed (k : MsgKind) (l : CLine) (d : List Byte) (hk : k.namesJob = false) :
    wrongOwner k l d s = none := by
  unfold wrongOwner
  simp [hk]

/-! ### Taking the entry changes nothing but the slot -/

@[simp] theorem emptySlot_queues (l : CLine) (s : State) : (emptySlot l s).queues = s.queues := rfl
@[simp] theorem emptySlot_maps (l : CLine) (s : State) : (emptySlot l s).maps = s.maps := rfl
@[simp] theorem emptySlot_store (l : CLine) (s : State) : (emptySlot l s).store = s.store := rfl
@[simp] theorem emptySlot_jobs (l : CLine) (s : State) : (emptySlot l s).jobs = s.jobs := rfl
@[simp] theorem emptySlot_seq (l : CLine) (s : State) : (emptySlot l s).seq = s.seq := rfl
@[simp] theorem emptySlot_engine (l : CLine) (s : State) : (emptySlot l s).engine = s.engine := rfl
@[simp] theorem emptySlot_disc (l : CLine) (s : State) : (emptySlot l s).disc = s.disc := rfl
@[simp] theorem emptySlot_trim (l : CLine) (s : State) : (emptySlot l s).trim = s.trim := rfl
@[simp] theorem emptySlot_bank (l : CLine) (s : State) : (emptySlot l s).bank = s.bank := rfl
@[simp] theorem emptySlot_drive (l : CLine) (s : State) : (emptySlot l s).drive = s.drive := rfl
@[simp] theorem emptySlot_spin (l : CLine) (s : State) : (emptySlot l s).spin = s.spin := rfl

/-! ### A part whose line is being flashed -/

/-- A state in which the engine does not go on stands as it is. -/
theorem carryOn_of_moveEnded (h : moveEnded s = s) : carryOn s = s := by
  have key : ∀ n, carryOnFor n s = s := by
    intro n
    induction n with
    | zero => rfl
    | succ n ih => simp [carryOnFor, h, ih]
  exact key _

/-- Nothing the engine waits for has ended, so it does not go on. -/
theorem carryOn_noEndWaits (h : NoEndWaits s) : carryOn s = s := by
  apply carryOn_of_moveEnded
  unfold NoEndWaits at h
  cases he : s.engine.state <;> rw [he] at h <;> unfold moveEnded <;> rw [he]
  · have h1 : prepared s = false := h
    simp [h1]
  · have h1 : s.drive.carriage.act ≠ .atRest := h
    simp [h1]
  · have h1 : ∀ c, s.engine.close = some c → c.phase = .ordered → s.drive.allAtRest = false := h
    cases hc : s.engine.close with
    | none => rfl
    | some c =>
      by_cases hp : c.phase = .ordered
      · simp [hp, h1 c hc hp]
      · simp [hp]

/-- In FLASH no move waits to end. -/
theorem carryOn_flash (h : s.engine.state = .flash) : carryOn s = s := by
  apply carryOn_noEndWaits
  unfold NoEndWaits
  rw [h]
  trivial

/-- While a line of the ACTIVE job is being flashed a selection point does nothing. -/
theorem selectionPoint_flashing (h : Flashing s) : selectionPoint s = s := by
  obtain ⟨h1, h2, h3⟩ := h
  obtain ⟨j, hj⟩ := Option.isSome_iff_exists.1 h3
  simp [selectionPoint, h1, hj, h2]

theorem findJob_number {js : List Job} {n : Nat} {j : Job} (h : findJob js n = some j) : j.number = n := by
  have := List.find?_some h
  simpa using this

/-- An owned job passes the ownership check (R142). -/
theorem wrongOwner_owned (k : MsgKind) (l : CLine) (d : List Byte) (ho : Owned l (byteAt d 0) s) :
    wrongOwner k l d s = none := by
  cases h : findJob s.jobs (byteAt d 0) with
  | none => simp [wrongOwner, h]
  | some j => exact wrongOwner_none k l d j h (ho j h)

end Sys2Proof.Machine
end

