-- ==== Sys2Proof/Laws/Invariant.lean ====
section
/-!
SUPPORT. What each shared operation does to the bounds of the blocks: the bounds of a part whose supply is NORMAL are kept
by every operation the meanings are made of.
-/
namespace Sys2Proof.Machine

/-- The bounds of the blocks, with the supply NORMAL. -/
structure Good (s : State) : Prop where
  inv : Bounds s
  up : s.spin.supply = .normal

/-- An interface's part of the invariant. -/
def PassOk (i : Iface) : Prop := i.run ≤ 4 ∧ i.pass = (i.run == 4)

/-- The Disc Timing Unit's part of the invariant. -/
def DiscOk (d : Disc) : Prop :=
  -4096 ≤ d.counter ∧ d.counter ≤ 8191 ∧ d.period ≤ 65535 ∧ d.lockRun ≤ 8 ∧ d.slipCount ≤ 3

/-- The Job Table's part of the invariant. -/
def JobsOk (js : List Job) : Prop := (js.map Job.number).Nodup ∧ js.length ≤ 8

variable {s : State}

/-! ### One lemma per block update -/

@[simp] theorem good_modTrim (f : Trim → Trim) : Good (s.modTrim f) ↔ Good s :=
  ⟨fun h => ⟨⟨h.inv.1, h.inv.2, h.inv.3, h.inv.4, h.inv.5, h.inv.6, h.inv.7⟩, h.up⟩,
   fun h => ⟨⟨h.inv.1, h.inv.2, h.inv.3, h.inv.4, h.inv.5, h.inv.6, h.inv.7⟩, h.up⟩⟩

@[simp] theorem good_modMaps (f : Quad (Option MapSlot) → Quad (Option MapSlot)) : Good (s.modMaps f) ↔ Good s :=
  ⟨fun h => ⟨⟨h.inv.1, h.inv.2, h.inv.3, h.inv.4, h.inv.5, h.inv.6, h.inv.7⟩, h.up⟩,
   fun h => ⟨⟨h.inv.1, h.inv.2, h.inv.3, h.inv.4, h.inv.5, h.inv.6, h.inv.7⟩, h.up⟩⟩

@[simp] theorem good_modSeq (f : Seq → Seq) : Good (s.modSeq f) ↔ Good s :=
  ⟨fun h => ⟨⟨h.inv.1, h.inv.2, h.inv.3, h.inv.4, h.inv.5, h.inv.6, h.inv.7⟩, h.up⟩,
   fun h => ⟨⟨h.inv.1, h.inv.2, h.inv.3, h.inv.4, h.inv.5, h.inv.6, h.inv.7⟩, h.up⟩⟩

theorem Good.outputs (h : Good s) : s.spin.motor = s.spin.unit.spinning ∧ s.bank.charger = s.spin.unit.spinning
    ∧ s.bank.strobeHeld = !s.spin.unit.spinning := by
  have := h.inv.outputs
  simpa [OutputsFollowUnit, h.up] using this

/-- The invariant of a state whose supply is NORMAL, from its parts. -/
theorem Good.mk' (up : s.spin.supply = .normal) (q : QueuesBounded s) (p : PoolAccounted s) (c : ChannelFollowsRing s)
    (o : s.spin.motor = s.spin.unit.spinning ∧ s.bank.charger = s.spin.unit.spinning
      ∧ s.bank.strobeHeld = !s.spin.unit.spinning) (j : JobsDistinct s) (d : DiscInRange s) (i : PassEarned s) :
    Good s :=
  ⟨⟨q, p, c, by simpa [OutputsFollowUnit, up] using o, j, d, i⟩, up⟩

@[simp] theorem good_modDrive (f : Drive → Drive) (h : Good s) : Good (s.modDrive f) :=
  Good.mk' h.up h.inv.1 h.inv.2 h.inv.3 h.outputs h.inv.5 h.inv.6 h.inv.7

/-- An update of the engine that leaves the ring. -/
@[simp] theorem good_modEngine (f : Engine → Engine) (h : Good s) (hf : ∀ e, (f e).ring = e.ring) :
    Good (s.modEngine f) :=
  Good.mk' h.up h.inv.1 h.inv.2 (by simpa [ChannelFollowsRing, hf] using h.inv.3) h.outputs h.inv.5 h.inv.6 h.inv.7

/-- An update of Spin Control that leaves the unit state, the motor and the supply monitor. -/
@[simp] theorem good_modSpin (f : Spin → Spin) (h : Good s)
    (hf : ∀ x, (f x).unit = x.unit ∧ (f x).motor = x.motor ∧ (f x).supply = x.supply) : Good (s.modSpin f) :=
  Good.mk' (by simpa [hf] using h.up) h.inv.1 h.inv.2 h.inv.3 (by simpa [hf] using h.outputs) h.inv.5 h.inv.6 h.inv.7

/-- An update of the bank that leaves the two output lines. -/
@[simp] theorem good_modBank (f : Bank → Bank) (h : Good s)
    (hf : ∀ b, (f b).charger = b.charger ∧ (f b).strobeHeld = b.strobeHeld) : Good (s.modBank f) :=
  Good.mk' h.up h.inv.1 h.inv.2 h.inv.3 (by simpa [hf] using h.outputs) h.inv.5 h.inv.6 h.inv.7

/-- An update of the disc timing that leaves the channel and keeps the ranges. -/
theorem good_modDisc (f : Disc → Disc) (h : Good s) (hc : ∀ d, (f d).channel = d.channel)
    (hf : ∀ d, DiscOk d → DiscOk (f d)) : Good (s.modDisc f) :=
  Good.mk' h.up h.inv.1 h.inv.2 (by simpa [ChannelFollowsRing, hc] using h.inv.3) h.outputs h.inv.5
    (hf _ h.inv.6) h.inv.7

/-- An update of one interface that keeps PASS earned. -/
theorem good_modLine (l : CLine) (f : Iface → Iface) (h : Good s) (hf : ∀ i, PassOk i → PassOk (f i)) :
    Good (modLine l f s) :=
  Good.mk' h.up h.inv.1 h.inv.2 h.inv.3 h.outputs h.inv.5 h.inv.6
    (by cases l
        · exact ⟨hf _ h.inv.7.1, h.inv.7.2⟩
        · exact ⟨h.inv.7.1, hf _ h.inv.7.2⟩)

/-- An update of the store that keeps the sum of the pool. -/
theorem good_modStore (f : LineStore → LineStore) (h : Good s) (hf : poolTotal s.store = 4096 → poolTotal (f s.store) = 4096) :
    Good (s.modStore f) :=
  Good.mk' h.up h.inv.1 (hf h.inv.2) h.inv.3 h.outputs h.inv.5 h.inv.6 h.inv.7

/-- An update of the jobs that keeps them distinct and at most 8. -/
theorem good_modJobs (f : List Job → List Job) (h : Good s) (hf : JobsOk s.jobs → JobsOk (f s.jobs)) :
    Good (s.modJobs f) :=
  Good.mk' h.up h.inv.1 h.inv.2 h.inv.3 h.outputs (hf h.inv.5) h.inv.6 h.inv.7

/-! ### Queues -/

theorem Queue.post_bound (q : Queue) (e : Event) (h : q.events.length ≤ 32) : (q.post e).events.length ≤ 32 := by
  unfold Queue.post
  split
  · simp [Config.queueCap] at *; omega
  · exact h

@[simp] theorem good_post (l : CLine) (e : Event) (h : Good s) : Good (post l e s) :=
  Good.mk' h.up
    (by cases l
        · exact ⟨Queue.post_bound _ _ h.inv.1.1, h.inv.1.2⟩
        · exact ⟨h.inv.1.1, Queue.post_bound _ _ h.inv.1.2⟩)
    h.inv.2 h.inv.3 h.outputs h.inv.5 h.inv.6 h.inv.7

@[simp] theorem good_postBoth (e : Event) (h : Good s) : Good (postBoth e s) := by simp (maxDischargeDepth := 20) [postBoth, h]

/-! ### Jobs -/

@[simp] theorem good_updateJob (n : Nat) (f : Job → Job) (h : Good s) (hf : ∀ j, (f j).number = j.number) :
    Good (updateJob n f s) := by
  refine good_modJobs _ h fun hj => ?_
  have : (s.jobs.map fun j => if j.number = n then f j else j).map Job.number = s.jobs.map Job.number := by
    simp only [List.map_map]
    apply List.map_congr_left
    intro j _
    simp only [Function.comp]
    split <;> simp [hf]
  exact ⟨by rw [this]; exact hj.1, by simpa using hj.2⟩

theorem jobsOk_filter (p : Job → Bool) (js : List Job) (h : JobsOk js) : JobsOk (js.filter p) :=
  ⟨h.1.sublist (List.filter_sublist.map _), Nat.le_trans (List.length_filter_le _ _) h.2⟩

@[simp] theorem good_removeJob (n : Nat) (h : Good s) : Good (removeJob n s) :=
  good_modJobs _ h (jobsOk_filter _ _)

/-! ### The ring and the channel -/

@[simp] theorem good_setRing (r : List Item) (h : Good s) : Good (setRing r s) :=
  Good.mk' h.up h.inv.1 h.inv.2 rfl h.outputs h.inv.5 h.inv.6 h.inv.7

@[simp] theorem good_aim (h : Good s) : Good (aim s) := by
  unfold aim
  split <;> simp (maxDischargeDepth := 20) [h]

@[simp] theorem good_replaceTrack (t : Track) (c : Nat) (h : Good s) : Good (replaceTrack t c s) := by
  simp (maxDischargeDepth := 20) [replaceTrack, h]

@[simp] theorem good_insertTest (t : Track) (c : Nat) (h : Good s) : Good (insertTest t c s) := by
  simp (maxDischargeDepth := 20) [insertTest, h]

@[simp] theorem good_removeTest (h : Good s) : Good (removeTest s) := by simp (maxDischargeDepth := 20) [removeTest, h]

@[simp] theorem good_removeExposures (h : Good s) : Good (removeExposures s) := by simp (maxDischargeDepth := 20) [removeExposures, h]

@[simp] theorem good_trackNotice (h : Good s) : Good (trackNotice s) := by
  unfold trackNotice
  split <;> (try split) <;> simp (maxDischargeDepth := 20) [h]

/-! ### The Trim Unit -/

@[simp] theorem good_putRec (t : Track) (r : TrimRec) (h : Good s) : Good (putRec t r s) := by
  simp only [putRec]
  split <;> simp (maxDischargeDepth := 20) [h]

@[simp] theorem good_voidWatch (h : Good s) : Good (voidWatch s) := by simp (maxDischargeDepth := 20) [voidWatch, h]

@[simp] theorem good_startSearch (h : Good s) : Good (startSearch s) := by
  unfold startSearch
  split
  · exact h
  · split <;> simp (maxDischargeDepth := 20) [h]

@[simp] theorem good_clearWindow (t : Track) (h : Good s) : Good (clearWindow t s) := by simp (maxDischargeDepth := 20) [clearWindow, h]

@[simp] theorem good_clearWindows (h : Good s) : Good (clearWindows s) := by simp (maxDischargeDepth := 20) [clearWindows, h]

@[simp] theorem good_joinQueue (t : Track) (h : Good s) : Good (joinQueue s t) := by
  simp only [joinQueue]
  split
  · exact h
  · split <;> simp (maxDischargeDepth := 20) [h]

theorem good_foldl {α : Type} (f : State → α → State) (hf : ∀ s x, Good s → Good (f s x)) (xs : List α) :
    ∀ {s : State}, Good s → Good (xs.foldl f s) := by
  induction xs with
  | nil => exact fun h => h
  | cons x xs ih => exact fun h => ih (hf _ x h)

@[simp] theorem good_joinTracks (ts : List Track) (h : Good s) : Good (joinTracks ts s) :=
  good_aim (good_foldl _ (fun _ t h => good_joinQueue t h) ts h)

@[simp] theorem good_takeBack (t : Track) (h : Good s) : Good (takeBack s t) := by
  simp only [takeBack]
  split
  · split <;> simp (maxDischargeDepth := 20) [h]
  · exact h

@[simp] theorem good_dropSearch (h : Good s) : Good (dropSearch s) := by
  unfold dropSearch
  split <;> simp (maxDischargeDepth := 20) [h]

@[simp] theorem good_flushTrims (d : Nat) (h : Good s) : Good (flushTrims d s) := by
  simp only [flushTrims, good_modTrim]
  exact good_clearWindows (good_foldl _ (fun _ t h => good_takeBack t h) _ (good_dropSearch h))

@[simp] theorem good_haltSearch (h : Good s) : Good (haltSearch s) := by
  unfold haltSearch
  split <;> simp (maxDischargeDepth := 20) [h]

@[simp] theorem good_queryMap (h : Good s) : Good (queryMap s) := by
  simp only [queryMap]
  have h1 : Good (if s.spin.mounted = s.trim.queueDisc then s else flushTrims s.spin.mounted s) := by
    split <;> simp (maxDischargeDepth := 20) [h]
  split
  · exact h1
  · split
    · exact h1
    · exact good_joinTracks _ h1

@[simp] theorem good_searchPasses (c : Search) (h : Good s) : Good (searchPasses c s) := by simp (maxDischargeDepth := 20) [searchPasses, h]

@[simp] theorem good_searchSteps (c : Search) (h : Good s) : Good (searchSteps c s) := by simp (maxDischargeDepth := 20) [searchSteps, h]

@[simp] theorem good_searchFails (c : Search) (h : Good s) : Good (searchFails c s) := by simp (maxDischargeDepth := 20) [searchFails, h]

@[simp] theorem good_judgeCode (c : Search) (h : Good s) : Good (judgeCode c s) := by
  unfold judgeCode
  split
  · simp (maxDischargeDepth := 20) [h]
  · split <;> simp (maxDischargeDepth := 20) [h]

@[simp] theorem good_testResult (m : Bool) (h : Good s) : Good (testResult m s) := by
  unfold testResult
  split
  · exact h
  · dsimp only
    split <;> simp (maxDischargeDepth := 20) [h]

@[simp] theorem good_restartSearch (c : Search) (h : Good s) : Good (restartSearch c s) := by
  simp (maxDischargeDepth := 20) [restartSearch, h]

@[simp] theorem good_monitorResult (t : Track) (m : Bool) (h : Good s) : Good (monitorResult t m s) := by
  simp only [monitorResult]
  split
  · split <;> simp (maxDischargeDepth := 20) [h]
  · exact h

/-! ### Unit states -/

@[simp] theorem good_setUnit (u : UnitState) (h : Good s) : Good (setUnit u s) :=
  Good.mk' h.up h.inv.1 h.inv.2 h.inv.3 ⟨rfl, rfl, rfl⟩ h.inv.5 h.inv.6 h.inv.7

@[simp] theorem good_stopDisc (h : Good s) : Good (stopDisc s) := by
  unfold stopDisc
  refine good_modBank _ (good_modDrive _ (good_modDisc _ h (fun _ => rfl) ?_)) (fun _ => ⟨rfl, rfl⟩)
  intro d hd
  exact ⟨hd.1, hd.2.1, hd.2.2.1, Nat.zero_le _, hd.2.2.2.2⟩

@[simp] theorem good_parkStart (h : Good s) : Good (parkStart s) := by
  unfold parkStart
  split <;> simp (maxDischargeDepth := 20) [h]

@[simp] theorem good_parkStop (h : Good s) : Good (parkStop s) := by simp (maxDischargeDepth := 20) [parkStop, h]

@[simp] theorem good_enterParked (h : Good s) : Good (enterParked s) := by simp (maxDischargeDepth := 20) [enterParked, h]

@[simp] theorem good_enterFaulted (k : FaultKind) (d : Int) (h : Good s) : Good (enterFaulted k d s) := by
  simp (maxDischargeDepth := 20) [enterFaulted, h]

@[simp] theorem good_enterSpinUp (h : Good s) : Good (enterSpinUp s) := by
  unfold enterSpinUp
  refine good_modSpin _ (good_modDrive _ (good_modDisc _ (good_setUnit _ h) (fun _ => rfl) ?_))
    (fun _ => ⟨rfl, rfl, rfl⟩)
  intro d hd
  exact ⟨hd.1, hd.2.1, hd.2.2.1, hd.2.2.2.1, Nat.zero_le _⟩

@[simp] theorem good_enterIdentify (h : Good s) : Good (enterIdentify s) := by
  unfold enterIdentify
  exact good_modDisc _ (good_setUnit _ h) (fun _ => rfl) (fun _ hd => hd)

@[simp] theorem good_judgeSpinUp (h : Good s) : Good (judgeSpinUp s) := by
  unfold judgeSpinUp
  split <;> simp (maxDischargeDepth := 20) [h]

@[simp] theorem good_enterDiscChange (d n : Nat) (h : Good s) : Good (enterDiscChange d n s) := by
  simp (maxDischargeDepth := 20) [enterDiscChange, h]

@[simp] theorem good_reaim (d n : Nat) (h : Good s) : Good (reaim d n s) := by
  unfold reaim
  split <;> simp (maxDischargeDepth := 20) [h]

/-! ### The Line Store -/

theorem poolTotal_endAssembly (st : LineStore) (l : CLine) : poolTotal (st.endAssembly l) = poolTotal st := by
  cases l <;> simp [poolTotal, LineStore.endAssembly, Pair.get, Pair.set, reservedBy] <;> omega

theorem heldBy_filter (p : LineRecord → Bool) (rs : List LineRecord) :
    heldBy (rs.filter p) + heldBy (rs.filter fun r => !p r) = heldBy rs := by
  induction rs with
  | nil => rfl
  | cons r rs ih =>
    cases hp : p r <;> simp [heldBy, hp] at * <;> omega

theorem poolTotal_keepLines (st : LineStore) (p : LineRecord → Bool) : poolTotal (st.keepLines p) = poolTotal st := by
  have := heldBy_filter p st.lines
  simp [poolTotal, LineStore.keepLines]
  omega

theorem poolTotal_commit (st : LineStore) (l : CLine) (a : Assembly) (cs : List Cell)
    (ha : st.assembly.get l = some a) : poolTotal (st.commit l a cs) = poolTotal st := by
  cases l <;> simp [Pair.get] at ha <;>
    simp [poolTotal, LineStore.commit, Pair.set, reservedBy, ha, recordOf, heldBy] <;> omega

theorem poolTotal_openLine (st : LineStore) (l : CLine) (hd : Header) (hf : hd.count ≤ st.freeCells)
    (ha : st.assembly.get l = none) : poolTotal (st.openLine l hd) = poolTotal st := by
  cases l <;> simp [Pair.get] at ha <;>
    simp [poolTotal, LineStore.openLine, Pair.set, reservedBy, ha] <;> omega

@[simp] theorem good_discardAssembly (l : CLine) (r : Option DropReason) (h : Good s) :
    Good (discardAssembly l r s) := by
  have h1 : Good (s.modStore fun st => st.endAssembly l) :=
    good_modStore _ h fun hp => by rw [poolTotal_endAssembly]; exact hp
  unfold discardAssembly
  split
  · exact h
  · dsimp only
    split
    · exact h1
    · exact good_post _ _ h1

@[simp] theorem good_discardOfJob (n : Nat) (r : DropReason) (l : CLine) (h : Good s) :
    Good (discardOfJob n r l s) := by
  unfold discardOfJob
  split <;> simp (maxDischargeDepth := 20) [h]

@[simp] theorem good_keepLines (p : LineRecord → Bool) (h : Good s) : Good (s.modStore fun st => st.keepLines p) :=
  good_modStore _ h fun hp => by rw [poolTotal_keepLines]; exact hp

@[simp] theorem good_freeLines (n : Nat) (r : DropReason) (h : Good s) : Good (freeLines n r s) := by
  simp (maxDischargeDepth := 20) [freeLines, h]

@[simp] theorem good_setCurrent (n l : Nat) (c : Bool) (h : Good s) : Good (setCurrent n l c s) := by
  refine good_modStore _ h fun hp => ?_
  have : heldBy (s.store.lines.map fun r => if r.header.job = n ∧ r.header.line = l then { r with current := c } else r)
      = heldBy s.store.lines := by
    simp only [heldBy, List.map_map]
    congr 1
    apply List.map_congr_left
    intro r _
    simp only [Function.comp]
    split <;> rfl
  simp only [poolTotal, this] at *
  exact hp

/-! ### The exposure engine -/

@[simp] theorem good_loadStop (st : Stop) (h : Good s) : Good (loadStop st s) := by simp (maxDischargeDepth := 20) [loadStop, h]

@[simp] theorem good_waitForFilm (hd : Header) (n : Nat) (h : Good s) : Good (waitForFilm hd n s) := by
  simp (maxDischargeDepth := 20) [waitForFilm, h]

@[simp] theorem good_startMoves (hd : Header) (n : Nat) (f : Option Stop) (h : Good s) :
    Good (startMoves hd n f s) := by simp (maxDischargeDepth := 20) [startMoves, h]

@[simp] theorem good_prepare (hd : Header) (h : Good s) : Good (prepare hd s) := by
  simp only [prepare]
  split
  · simp (maxDischargeDepth := 20) [h]
  · split <;> simp (maxDischargeDepth := 20) [h]

@[simp] theorem good_enterStop (h : Good s) : Good (enterStop s) := by simp (maxDischargeDepth := 20) [enterStop, h]

@[simp] theorem good_handOver (n : Nat) (h : Good s) : Good (handOver n s) := by
  unfold handOver
  split <;> simp (maxDischargeDepth := 20) [h]

theorem Bank.flash_outputs (b : Bank) : b.flash.charger = b.charger ∧ b.flash.strobeHeld = b.strobeHeld := ⟨rfl, rfl⟩

@[simp] theorem good_fire (it : Item) (h : Good s) : Good (fire it s) := by
  have h1 : Good (s.modBank Bank.flash) := good_modBank _ h Bank.flash_outputs
  unfold fire
  cases it <;> simp (maxDischargeDepth := 20) [h1]

@[simp] theorem good_compareEvent (h : Good s) : Good (compareEvent s) := by
  unfold compareEvent
  split
  · exact h
  · rename_i it _ _
    have h1 : Good (if takes it s = true then fire it s else s) := by split <;> simp (maxDischargeDepth := 20) [h]
    simp (maxDischargeDepth := 20) [h1]

@[simp] theorem good_orderClose (j : Option (Nat × CLine)) (h : Good s) : Good (orderClose j s) := by
  simp (maxDischargeDepth := 20) [orderClose, h]

@[simp] theorem good_detachWatch (h : Good s) : Good (detachWatch s) := by simp (maxDischargeDepth := 20) [detachWatch, h]

@[simp] theorem good_postAbandoned (r : LineRef) (c : AbandonCause) (t : Option Track) (h : Good s) :
    Good (postAbandoned r c t s) := by
  unfold postAbandoned
  split <;> simp (maxDischargeDepth := 20) [h]

@[simp] theorem good_abandon (c : AbandonCause) (t : Option Track) (h : Good s) : Good (abandon c t s) := by
  unfold abandon
  split
  · exact h
  · dsimp only
    split <;> simp (maxDischargeDepth := 20) [h]

/-! ### The sequencer -/

@[simp] theorem good_leaveActive (h : Good s) : Good (leaveActive s) := by simp (maxDischargeDepth := 20) [leaveActive, h]

@[simp] theorem good_suspendJob (j : Job) (t : JobState) (r : SuspendReason) (h : Good s) :
    Good (suspendJob j t r s) := by simp (maxDischargeDepth := 20) [suspendJob, h]

@[simp] theorem good_depart (j : Job) (t : JobState) (r : SuspendReason) (h : Good s) : Good (depart j t r s) := by
  simp (maxDischargeDepth := 20) [depart, h]

@[simp] theorem good_activate (j : Job) (h : Good s) : Good (activate j s) := by
  unfold activate
  dsimp only
  split <;> simp (maxDischargeDepth := 20) [h]

@[simp] theorem good_selectWinner (j : Job) (h : Good s) : Good (selectWinner j s) := by
  unfold selectWinner
  split <;> (try split) <;> simp (maxDischargeDepth := 20) [h]

@[simp] theorem good_selectFree (h : Good s) : Good (selectFree s) := by
  unfold selectFree
  split
  · exact h
  · split <;> simp (maxDischargeDepth := 20) [h]

@[simp] theorem good_completeActive (j : Job) (n : Nat) (h : Good s) : Good (completeActive j n s) := by
  simp only [completeActive]
  split <;> simp (maxDischargeDepth := 20) [h]

@[simp] theorem good_continueJob (j : Job) (h : Good s) : Good (continueJob j s) := by
  unfold continueJob
  split <;> (try split) <;> simp (maxDischargeDepth := 20) [h]

@[simp] theorem good_starved (h : Good s) : Good (starved s) := by
  unfold starved
  split <;> simp (maxDischargeDepth := 20) [h]

@[simp] theorem good_boundaryGoesOn (j : Job) (h : Good s) : Good (boundaryGoesOn j s) := by
  unfold boundaryGoesOn
  split
  · exact h
  · split
    · simp (maxDischargeDepth := 20) [h]
    · split
      · simp (maxDischargeDepth := 20) [h]
      · split <;> simp (maxDischargeDepth := 20) [h]

@[simp] theorem good_atBoundary (j : Job) (h : Good s) : Good (atBoundary j s) := by
  unfold atBoundary
  split
  · simp (maxDischargeDepth := 20) [h]
  · split <;> simp (maxDischargeDepth := 20) [h]

@[simp] theorem good_selectionPoint (h : Good s) : Good (selectionPoint s) := by
  unfold selectionPoint
  split
  · simp (maxDischargeDepth := 20) [h]
  · split
    · split <;> simp (maxDischargeDepth := 20) [h]
    · simp (maxDischargeDepth := 20) [h]

@[simp] theorem good_postClosed (c : Close) (cut : Bool) (h : Good s) : Good (postClosed c cut s) := by
  unfold postClosed
  split <;> simp (maxDischargeDepth := 20) [h]

@[simp] theorem good_pendingSelection (h : Good s) : Good (pendingSelection s) := by
  unfold pendingSelection
  split <;> simp (maxDischargeDepth := 20) [h]

@[simp] theorem good_endClose (c : Close) (cut : Bool) (h : Good s) : Good (endClose c cut s) := by
  simp (maxDischargeDepth := 20) [endClose, h]

@[simp] theorem good_startCut (c : Close) (h : Good s) : Good (startCut c s) := by simp (maxDischargeDepth := 20) [startCut, h]

@[simp] theorem good_beginClose (c : Close) (h : Good s) : Good (beginClose c s) := by
  unfold beginClose
  split
  · dsimp only
    split <;> simp (maxDischargeDepth := 20) [h]
  · simp (maxDischargeDepth := 20) [h]

@[simp] theorem good_postLineSet (r : LineRef) (h : Good s) : Good (postLineSet r s) := by simp (maxDischargeDepth := 20) [postLineSet, h]

@[simp] theorem good_lineSet (h : Good s) : Good (lineSet s) := by
  unfold lineSet
  split
  · exact h
  · dsimp only
    split <;> simp (maxDischargeDepth := 20) [h]

@[simp] theorem good_nextStop (st : Stop) (h : Good s) : Good (nextStop st s) := by simp (maxDischargeDepth := 20) [nextStop, h]

@[simp] theorem good_stopDone (h : Good s) : Good (stopDone s) := by
  unfold stopDone
  split <;> simp (maxDischargeDepth := 20) [h]

@[simp] theorem good_moveEnded (h : Good s) : Good (moveEnded s) := by
  unfold moveEnded
  split
  · split
    · split <;> simp (maxDischargeDepth := 20) [h]
    · exact h
  · split <;> simp (maxDischargeDepth := 20) [h]
  · split
    · exact h
    · split <;> simp (maxDischargeDepth := 20) [h]
  all_goals exact h

@[simp] theorem good_carryOnFor (n : Nat) : ∀ {s : State}, Good s → Good (carryOnFor n s) := by
  induction n with
  | zero => exact fun h => h
  | succ n ih => exact fun h => ih (good_moveEnded h)

@[simp] theorem good_carryOn (h : Good s) : Good (carryOn s) := good_carryOnFor _ h

@[simp] theorem good_faultJob (h : Good s) : Good (faultJob s) := by
  unfold faultJob
  dsimp only
  split <;> simp (maxDischargeDepth := 20) [h]

@[simp] theorem good_faultClose (j : Option (Nat × CLine)) (h : Good s) : Good (faultClose j s) := by
  unfold faultClose
  split <;> simp (maxDischargeDepth := 20) [h]

/-- A tick changes no count that a bound speaks of but the period timer, and that within its range. -/
theorem bounds_tick (h : Bounds s) : Bounds (tick s) := by
  unfold tick powered
  split
  · exact h
  · refine ⟨h.queues, ?_, h.channel, h.outputs, h.jobs, ?_, ⟨h.pass.1, h.pass.2⟩⟩
    · have hr : ∀ o : Option Assembly, reservedBy (o.map Assembly.tick) = reservedBy o := fun o => by cases o <;> rfl
      have hp := h.pool
      simp only [PoolAccounted, poolTotal, LineStore.tick, hr] at hp ⊢
      exact hp
    · have hd := h.disc
      simp only [DiscInRange, Disc.tick] at hd ⊢
      omega

/-- What an empty queue lets happen keeps the bounds. -/
theorem bounds_idle (h : Bounds s) : Bounds (idle s) := by
  unfold idle powered
  split
  · exact h
  · rename_i hu
    have ht : Good (tick s) := ⟨bounds_tick h, by unfold tick powered; rw [hu]; exact hu⟩
    dsimp only
    split
    · exact (good_carryOn ht).inv
    · exact ht.inv

@[simp] theorem good_handFault (k : FaultKind) (d : Int) (h : Good s) : Good (handFault k d s) := by
  unfold handFault
  split <;> simp (maxDischargeDepth := 20) [h]

@[simp] theorem good_stuckStop (t : Track) (h : Good s) : Good (stuckStop t s) := by
  unfold stuckStop
  dsimp only
  split <;> simp (maxDischargeDepth := 20) [h]

@[simp] theorem good_mountDisc (d : Nat) (h : Good s) : Good (mountDisc d s) := by simp (maxDischargeDepth := 20) [mountDisc, h]

@[simp] theorem good_refuseDisc (w : Option Job) (h : Good s) : Good (refuseDisc w s) := by simp (maxDischargeDepth := 20) [refuseDisc, h]

@[simp] theorem good_afterIdentify (w : Option Job) (m : Bool) (h : Good s) : Good (afterIdentify w m s) := by
  unfold afterIdentify
  split
  · simp (maxDischargeDepth := 20) [h]
  · split
    · simp (maxDischargeDepth := 20) [h]
    · split
      · split <;> simp (maxDischargeDepth := 20) [h]
      · exact h

@[simp] theorem good_identified (d : Nat) (h : Good s) : Good (identified d s) := by
  simp only [identified]
  split <;> simp (maxDischargeDepth := 20) [h]

end Sys2Proof.Machine
end

