-- ==== Sys2Proof/Laws/Meanings.lean ====
section
/-!
SUPPORT. What the effects of the messages and events do to the bounds of a part whose supply is NORMAL.
-/
namespace Sys2Proof.Machine

variable {s : State}

/-! ### The receiver and the handler -/

theorem PassOk.clear (i : Iface) : PassOk i.clearPass := ⟨Nat.zero_le _, rfl⟩

/-- An update of an interface that leaves PASS and the run. -/
theorem PassOk.of_eq {i k : Iface} (h : PassOk i) (hp : k.pass = i.pass) (hr : k.run = i.run) : PassOk k := by
  unfold PassOk at *
  rw [hp, hr]
  exact h

theorem PassOk.good (i : Iface) (h : PassOk i) : PassOk i.goodFrame := by
  obtain ⟨h1, h2⟩ := h
  refine ⟨by simp [Iface.goodFrame] <;> omega, ?_⟩
  simp only [Iface.goodFrame, h2]
  rcases Nat.lt_or_ge (i.run + 1) 4 with h3 | h3
  · have : ¬ 4 ≤ i.run + 1 := by omega
    have h4 : (min 4 (i.run + 1) == 4) = false := by simp; omega
    have h5 : (i.run == 4) = false := by simp; omega
    simp [this, h4, h5]
  · have h4 : min 4 (i.run + 1) = 4 := by omega
    simp [h3, h4]

theorem PassOk.offer (i : Iface) (e : Entry) (h : PassOk i) : PassOk (i.offer e) := by
  unfold Iface.offer
  split <;> exact h

theorem PassOk.frameEnds (i : Iface) (f : Partial) (k t a b : Byte) (h : PassOk i) : PassOk (i.frameEnds f k t a b) := by
  unfold Iface.frameEnds
  dsimp only
  split
  · exact PassOk.offer _ _ (PassOk.good _ (h.of_eq rfl rfl))
  · split
    · exact PassOk.clear _
    · exact PassOk.offer _ _ (PassOk.clear _)

theorem PassOk.takeBody (i : Iface) (f : Partial) (c : Byte) (h : PassOk i) : PassOk (i.takeBody f c) := by
  unfold Iface.takeBody
  split
  · exact h.of_eq rfl rfl
  · exact h.of_eq rfl rfl
  · split
    · exact (PassOk.clear i).of_eq rfl rfl
    · exact h.of_eq rfl rfl
  · split <;> exact h.of_eq rfl rfl
  · exact PassOk.frameEnds _ _ _ _ _ _ h

theorem PassOk.bodyCharacter (i : Iface) (c : Byte) (h : PassOk i) : PassOk (i.bodyCharacter c) := by
  unfold Iface.bodyCharacter
  split
  · exact PassOk.takeBody _ _ _ h
  all_goals exact h

theorem PassOk.judgeStation (i : Iface) (c : Byte) (h : PassOk i) : PassOk (i.judgeStation c) := by
  unfold Iface.judgeStation
  split
  · split
    · exact h.of_eq rfl rfl
    · split <;> exact h.of_eq rfl rfl
  · exact h.of_eq rfl rfl

theorem PassOk.stationCharacter (i : Iface) (c : Byte) (h : PassOk i) : PassOk (i.stationCharacter c) := by
  unfold Iface.stationCharacter
  split
  · exact h
  · exact PassOk.judgeStation _ _ (PassOk.clear i)
  all_goals exact PassOk.judgeStation _ _ h

theorem PassOk.taken (f : Iface → Iface) (hf : ∀ i, PassOk i → PassOk (f i)) (i : Iface) (h : PassOk i) :
    PassOk (i.taken f) := by
  unfold Iface.taken
  split
  · exact h
  all_goals exact (hf i h).of_eq rfl rfl

theorem PassOk.framingError (i : Iface) (h : PassOk i) : PassOk i.framingError := by
  unfold Iface.framingError
  split
  · exact (PassOk.clear i).of_eq rfl rfl
  all_goals exact h

theorem PassOk.gapEnds (i : Iface) (h : PassOk i) : PassOk i.gapEnds := by
  unfold Iface.gapEnds
  split
  · split
    · exact (PassOk.clear i).of_eq rfl rfl
    · exact h
  all_goals exact h

theorem PassOk.marking (i : Iface) (h : PassOk i) : PassOk i.marking := by
  unfold Iface.marking
  split <;> exact h.of_eq rfl rfl

@[simp] theorem good_lineBroken (l : CLine) (h : Good s) : Good (lineBroken l s) := by
  have h1 : Good (modLine l Iface.takeBreak s) := good_modLine _ _ h fun i _ => (PassOk.clear i).of_eq rfl rfl
  unfold lineBroken
  split
  · exact good_discardAssembly _ _ h1
  · exact h

@[simp] theorem good_lineSilent (l : CLine) (h : Good s) : Good (lineSilent l s) := by
  have h1 : Good (modLine l Iface.fallSilent s) := good_modLine _ _ h fun i _ => (PassOk.clear i).of_eq rfl rfl
  unfold lineSilent
  split
  · exact good_post _ _ h1
  · exact h

@[simp] theorem good_emptySlot (l : CLine) (h : Good s) : Good (emptySlot l s) :=
  good_modLine _ _ h fun _ hi => hi.of_eq rfl rfl

@[simp] theorem good_sendReply (l : CLine) (t : Byte) (b : Bool) (h : Handled) (hg : Good h.1) :
    Good (sendReply l t b h) := by
  have h1 : Good (modLine l (fun i => { i with tx := some (replyOf l t b h), overrun := false }) h.1) :=
    good_modLine _ _ hg fun _ hi => hi.of_eq rfl rfl
  exact ⟨⟨h1.inv.1, h1.inv.2, h1.inv.3, h1.inv.4, h1.inv.5, h1.inv.6, h1.inv.7⟩, h1.up⟩

/-- Handling keeps the bounds if the message's effect does. -/
theorem good_handle (k : MsgKind) (l : CLine) (mine : List Byte → Bool) (act : Bool → List Byte → State → Handled)
    (ha : ∀ b d s, Good s → Good (act b d s).1) (h : Good s) : Good (handle k l mine act s) := by
  have h1 : ∀ b d, Good (judgeMsg k l d (act b d) (emptySlot l s)).1 := by
    intro b d
    unfold judgeMsg
    split
    · exact good_emptySlot _ h
    · exact ha _ _ _ (good_emptySlot _ h)
  unfold handle
  split
  · split
    · unfold answer
      split
      · exact h1 _ _
      · exact good_sendReply _ _ _ _ (h1 _ _)
    · exact h
  · exact h
  · exact h

theorem good_accept {t : State} (h : Good t) : Good (accept t).1 := h

/-! ### Messages that read the part -/

theorem good_enquire (n : Nat) (f : List Byte → State → Handled) (hf : ∀ d s, (f d s).1 = s) (d : List Byte)
    (h : Good s) : Good (enquire n f d s).1 := by
  unfold enquire
  split
  · rw [hf]; exact h
  · exact h

theorem reportJob_state (d : List Byte) (s : State) : (reportJob d s).1 = s := by
  unfold reportJob
  split
  · rfl
  · split <;> rfl

theorem good_pollQueue (l : CLine) (b : Bool) (h : Good s) : Good (pollQueue l b s).1 := by
  have hd : ∀ q : Queue, q.events.length ≤ 32 → q.polled.events.length ≤ 32 := by
    intro q hq
    simp only [Queue.polled, List.length_drop]
    omega
  unfold pollQueue
  split
  · exact h
  · refine Good.mk' h.up ?_ h.inv.2 h.inv.3 h.outputs h.inv.5 h.inv.6 h.inv.7
    cases l
    · exact ⟨hd _ h.inv.1.1, h.inv.1.2⟩
    · exact ⟨h.inv.1.1, hd _ h.inv.1.2⟩

theorem good_refuseCheck (l : CLine) (h : Good s) : Good (refuseCheck l s) := by
  unfold refuseCheck
  split
  · exact good_sendReply _ _ _ _ (good_emptySlot _ h)
  all_goals exact h

theorem good_refuseKind (l : CLine) (h : Good s) : Good (refuseKind l s) := by
  unfold refuseKind
  split
  · split
    · exact h
    · unfold answer
      split
      · exact good_emptySlot _ h
      · exact good_sendReply _ _ _ _ (good_emptySlot _ h)
  all_goals exact h

/-! ### Job messages -/

theorem renumbered_numbers (js : List Job) : (renumbered js).map Job.number = js.map Job.number := by
  simp [renumbered, Function.comp_def]

@[simp] theorem good_makeOrders (h : Good s) : Good (makeOrders s) := by
  unfold makeOrders
  split
  · simp only [good_modSeq]
    refine good_modJobs _ h fun hj => ⟨by rw [renumbered_numbers]; exact hj.1, ?_⟩
    have := congrArg List.length (renumbered_numbers s.jobs)
    simp at this
    rw [this]
    exact hj.2
  · exact h

theorem makeOrders_numbers (s : State) : (makeOrders s).jobs.map Job.number = s.jobs.map Job.number := by
  unfold makeOrders
  split
  · exact renumbered_numbers _
  · rfl

theorem good_openJob (l : CLine) (d : List Byte) (c : JobClass) (h : Good s)
    (hn : byteAt d 0 ∉ s.jobs.map Job.number) (hl : s.jobs.length < 8) : Good (openJob l d c s) := by
  unfold openJob
  refine good_modJobs _ ((good_modSeq _).2 (good_makeOrders h)) fun _ => ?_
  have hm := makeOrders_numbers s
  have hlen : (makeOrders s).jobs.length = s.jobs.length := by
    have := congrArg List.length hm
    simpa using this
  have hj : JobsOk (makeOrders s).jobs := (good_makeOrders h).inv.5
  refine ⟨?_, by simp [hlen]; omega⟩
  simp only [List.map_append, State.modSeq_jobs, List.map_cons, List.map_nil]
  refine List.nodup_append.2 ⟨hj.1, by simp, ?_⟩
  intro a ha b hb
  rw [hm] at ha
  simp [newJob] at hb
  rw [hb]
  exact fun e => hn (e ▸ ha)

theorem findJob_none (js : List Job) (n : Nat) (h : findJob js n = none) : n ∉ js.map Job.number := by
  simp [findJob, List.find?_eq_none] at h
  simp
  exact h

theorem good_jobOpen (l : CLine) (d : List Byte) (h : Good s) : Good (jobOpen l d s).1 := by
  unfold jobOpen
  split
  · exact h
  · split
    · exact h
    · split
      · exact h
      · split
        · exact h
        · split
          · exact h
          · split
            · exact h
            · refine good_openJob l d _ h (findJob_none _ _ ?_) ?_
              · simp_all
              · simp_all [Config.jobCap]

@[simp] theorem good_completeIdle (j : Job) (n : Nat) (h : Good s) : Good (completeIdle j n s) := by
  simp only [completeIdle]
  split <;> simp (maxDischargeDepth := 20) [h]

@[simp] theorem good_endJob (j : Job) (n : Nat) (h : Good s) : Good (endJob j n s) := by
  simp only [endJob]
  split
  · split <;> simp (maxDischargeDepth := 20) [h]
  · simp (maxDischargeDepth := 20) [h]

theorem good_jobEnd (d : List Byte) (h : Good s) : Good (jobEnd d s).1 := by
  unfold jobEnd
  split
  · exact h
  · split
    · exact h
    · split
      · exact h
      · split
        · exact h
        · exact good_endJob _ _ h

@[simp] theorem good_closeAfterCancel (e : EngineState) (j : Job) (h : Good s) : Good (closeAfterCancel e j s) := by
  simp only [closeAfterCancel]
  split <;> simp (maxDischargeDepth := 20) [h]

@[simp] theorem good_cancelJob (j : Job) (h : Good s) : Good (cancelJob j s) := by
  have h1 : Good (if j.state = .active then abandon .cancel none s else s) := by
    split <;> simp (maxDischargeDepth := 20) [h]
  simp only [cancelJob]
  split
  · simp (maxDischargeDepth := 20) [h]
  · split <;> simp (maxDischargeDepth := 20) [h]

theorem good_jobCancel (d : List Byte) (h : Good s) : Good (jobCancel d s).1 := by
  unfold jobCancel
  split
  · exact h
  · exact good_cancelJob _ h

@[simp] theorem good_holdJob (j : Job) (h : Good s) : Good (holdJob j s) := by
  simp only [holdJob]
  split
  · simp (maxDischargeDepth := 20) [h]
  · split <;> simp (maxDischargeDepth := 20) [h]

theorem good_jobHold (d : List Byte) (h : Good s) : Good (jobHold d s).1 := by
  unfold jobHold
  split
  · exact h
  · split
    · exact h
    · exact good_holdJob _ h

@[simp] theorem good_releaseJob (j : Job) (h : Good s) : Good (releaseJob j s) := by
  have h1 : Good (updateJob j.number Job.released s) := good_updateJob _ _ h fun _ => rfl
  simp only [releaseJob]
  split
  · exact good_carryOn (good_selectionPoint h1)
  · exact h1

theorem good_jobRelease (d : List Byte) (h : Good s) : Good (jobRelease d s).1 := by
  unfold jobRelease
  split
  · exact h
  · split
    · exact good_releaseJob _ h
    · exact h

/-! ### Line messages -/

theorem discardAssembly_none (l : CLine) (r : DropReason) (s : State) :
    (discardAssembly l (some r) s).store.assembly.get l = none := by
  unfold discardAssembly
  split
  · assumption
  · cases l <;> rfl

theorem good_openLine (l : CLine) (d : List Byte) (h : Good s) (hn : s.store.assembly.get l = none) :
    Good (openLine l d s).1 := by
  unfold openLine
  split
  · exact h
  · split
    · exact h
    · dsimp only
      split
      · exact h
      · split
        · exact h
        · split
          · exact h
          · refine good_accept (good_modStore _ h fun hp => ?_)
            rw [poolTotal_openLine _ _ _ (by omega) hn]
            exact hp

theorem good_lineOpen (l : CLine) (d : List Byte) (h : Good s) : Good (lineOpen l d s).1 :=
  good_openLine _ _ (good_discardAssembly _ _ h) (discardAssembly_none _ _ _)

@[simp] theorem good_gainLine (j : Job) (h : Good s) : Good (gainLine j s) := by
  simp only [gainLine]
  split <;> simp (maxDischargeDepth := 20) [h]

theorem good_commitLine (l : CLine) (j : Job) (a : Assembly) (h : Good s) (ha : s.store.assembly.get l = some a) :
    Good (commitLine l j a s).1 := by
  have h1 : Good (s.modStore fun st => st.endAssembly l) :=
    good_modStore _ h fun hp => by rw [poolTotal_endAssembly]; exact hp
  simp only [commitLine]
  split
  · exact h1
  · exact h1
  · exact good_gainLine _ (good_modStore _ h fun hp => by rw [poolTotal_commit _ _ _ _ ha]; exact hp)

theorem good_takePart (l : CLine) (j : Job) (a : Assembly) (gs : List SetSort) (h : Good s)
    (ha : s.store.assembly.get l = some a) : Good (takePart l j a gs s).1 := by
  have h1 : Good (s.modStore fun st => { st with
      assembly := st.assembly.set l (some { a with sorts := a.sorts ++ gs, deadline := Config.deadline }) }) := by
    refine good_modStore _ h fun hp => ?_
    rw [← hp]
    cases l <;> simp [Pair.get] at ha <;> simp [poolTotal, Pair.set, reservedBy, ha]
  simp only [takePart]
  split
  · exact h1
  · exact good_commitLine _ _ _ h1 (by cases l <;> rfl)

theorem good_linePart (l : CLine) (d : List Byte) (h : Good s) : Good (linePart l d s).1 := by
  unfold linePart
  split
  · exact h
  · split
    · exact h
    · split
      · exact h
      · dsimp only
        split
        · exact h
        · exact good_takePart _ _ _ _ h (by assumption)

/-! ### Map and trim messages -/

@[simp] theorem good_loadMap (d : Nat) (es : List MapEntry) (h : Good s) : Good (loadMap d es s) := by
  simp only [loadMap]
  split <;> simp (maxDischargeDepth := 20) [h]

theorem good_mapLoad (d : List Byte) (h : Good s) : Good (mapLoad d s).1 := by
  unfold mapLoad
  dsimp only
  split
  · exact h
  · split
    · exact h
    · unfold loadInto
      dsimp only
      split
      · exact h
      · split
        · exact h
        · split
          · exact h
          · exact good_loadMap _ _ h

theorem good_mapClear (d : List Byte) (h : Good s) : Good (mapClear d s).1 := by
  unfold mapClear
  dsimp only
  split
  · exact h
  · split
    · exact h
    · split
      · exact h
      · split
        · exact h
        · simp only [accept, clearMap]
          split <;> simp (maxDischargeDepth := 20) [h]

theorem good_trimRestart (d : List Byte) (h : Good s) : Good (trimRestart d s).1 := by
  unfold trimRestart
  split
  · exact h
  · split
    · exact h
    · split
      · exact h
      · simp only [accept, restartTrack]
        split
        · split <;> simp (maxDischargeDepth := 20) [h]
        · simp (maxDischargeDepth := 20) [h]

theorem good_trimLimits (d : List Byte) (h : Good s) : Good (trimLimits d s).1 := by
  unfold trimLimits
  split
  · exact h
  · exact good_accept ((good_modTrim _).2 h)

/-! ### Unit messages -/

theorem good_bankSet (d : List Byte) (h : Good s) : Good (bankSet d s).1 := by
  unfold bankSet
  split
  · exact h
  · split
    · exact h
    · exact good_accept (good_modBank _ h fun _ => ⟨rfl, rfl⟩)

@[simp] theorem good_judgeFilmLow (h : Good s) : Good (judgeFilmLow s) := by
  unfold judgeFilmLow
  split <;> simp (maxDischargeDepth := 20) [h]

theorem good_filmSet (d : List Byte) (h : Good s) : Good (filmSet d s).1 := by
  unfold filmSet
  split
  · exact h
  · split
    · exact h
    · exact good_judgeFilmLow (good_modDrive _ h)

theorem good_spinSet (d : List Byte) (h : Good s) : Good (spinSet d s).1 := by
  unfold spinSet
  dsimp only
  split
  · exact h
  · exact good_accept (good_modSpin _ h fun _ => ⟨rfl, rfl, rfl⟩)

@[simp] theorem good_setHold (h : Good s) : Good (setHold s) := by simp (maxDischargeDepth := 20) [setHold, h]

@[simp] theorem good_restartStarvation (h : Good s) : Good (restartStarvation s) := by
  unfold restartStarvation
  split <;> simp (maxDischargeDepth := 20) [h]

@[simp] theorem good_clearHold (h : Good s) : Good (clearHold s) := by
  unfold clearHold
  split <;> simp (maxDischargeDepth := 20) [h]

theorem good_restart (h : Good s) : Good (restart s).1 := by
  unfold restart
  split
  · exact good_enterSpinUp h
  · exact h

theorem good_panelSet (d : List Byte) (h : Good s) : Good (panelSet d s).1 := by
  unfold panelSet
  split
  · exact h
  · exact good_accept (good_modSpin _ h fun _ => ⟨rfl, rfl, rfl⟩)

@[simp] theorem good_clearWork (h : Good s) : Good (clearWork s) := by
  unfold clearWork
  dsimp only
  refine good_flushTrims _ ((good_modSeq _).2 (good_modStore _ (good_modJobs _ ?_ ?_) ?_))
  · exact good_modEngine _ (good_abandon _ _ (good_setRing _ h)) fun _ => rfl
  · exact fun _ => ⟨by simp, by simp⟩
  · exact fun _ => rfl

@[simp] theorem good_resetMotion (h : Good s) : Good (resetMotion s) := by
  unfold resetMotion
  refine good_modDisc _ (good_modDrive _ h) (fun _ => rfl) ?_
  exact fun d hd => ⟨hd.1, hd.2.1, hd.2.2.1, hd.2.2.2.1, Nat.zero_le _⟩

@[simp] theorem good_parkForReset (c : StartCause) (h : Good s) : Good (parkForReset c s) := by
  simp (maxDischargeDepth := 20) [parkForReset, h]

@[simp] theorem good_resetQueues (c : StartCause) (h : Good s) : Good (resetQueues c s) := by
  unfold resetQueues
  exact good_postBoth _ (Good.mk' h.up ⟨Nat.zero_le _, Nat.zero_le _⟩ h.inv.2 h.inv.3 h.outputs h.inv.5 h.inv.6
    h.inv.7)

@[simp] theorem good_resetClose (h : Good s) : Good (resetClose s) := by
  unfold resetClose
  split
  · simp (maxDischargeDepth := 20) [h]
  · split <;> simp (maxDischargeDepth := 20) [h]

@[simp] theorem good_unitReset (c : StartCause) (h : Good s) : Good (unitReset c s) := by
  simp (maxDischargeDepth := 20) [unitReset, h]

theorem good_resetUnit (d : List Byte) (h : Good s) : Good (resetUnit d s).1 := by
  unfold resetUnit
  split
  · exact good_accept (good_unitReset _ h)
  · exact h

theorem good_lineReset (l : CLine) (h : Good s) : Good (lineReset l s) := by
  have h1 : Good (modLine l (fun i => { i.clearPass with slot := none, overrun := false }) s) :=
    good_modLine _ _ h fun i _ => (PassOk.clear i).of_eq rfl rfl
  unfold lineReset
  refine good_post _ _ (good_discardAssembly _ _ ?_)
  refine Good.mk' h1.up ?_ h1.inv.2 h1.inv.3 h1.outputs h1.inv.5 h1.inv.6 h1.inv.7
  cases l
  · exact ⟨Nat.zero_le _, h1.inv.1.2⟩
  · exact ⟨h1.inv.1.1, Nat.zero_le _⟩

theorem good_resetLine (l : CLine) (d : List Byte) (h : Good s) : Good (resetLine l d s).1 := by
  unfold resetLine
  split
  · exact good_lineReset _ h
  · exact h

/-! ### Disc, bank and mechanism events -/

@[simp] theorem good_edgeUp (h : Good s) : Good (edgeUp s) := by
  have h1 : Good (s.modDisc fun d => { d with counter := countedUp d.counter }) := by
    refine good_modDisc _ h (fun _ => rfl) fun d hd => ⟨?_, ?_, hd.2.2⟩
    · have := hd.1; simp [countedUp] <;> omega
    · simp [countedUp] <;> omega
  simp only [edgeUp]
  split
  · exact good_carryOn (good_compareEvent h1)
  · exact h1

@[simp] theorem good_edgeDown (h : Good s) : Good (edgeDown s) := by
  have h1 : Good (s.modDisc fun d => { d with counter := countedDown s.disc.counter }) := by
    have hr := h.inv.6
    refine good_modDisc _ h (fun _ => rfl) fun d hd => ⟨?_, ?_, hd.2.2⟩
    · simp [countedDown] <;> omega
    · have := hr.2.1; simp [countedDown] <;> omega
  simp only [edgeDown]
  split
  · exact good_modDisc _ (good_postBoth _ h1) (fun _ => rfl) fun _ hd => hd
  · exact h1

@[simp] theorem good_becomeLocked (h : Good s) : Good (becomeLocked s) := by
  unfold becomeLocked
  refine good_aim (good_startSearch (good_judgeSpinUp (good_modDisc _ h (fun _ => rfl) ?_)))
  exact fun d hd => ⟨hd.1, hd.2.1, hd.2.2.1, Nat.le_refl _, hd.2.2.2.2⟩

@[simp] theorem good_becomeUnlocked (h : Good s) : Good (becomeUnlocked s) :=
  good_modDisc _ h (fun _ => rfl) fun _ hd => ⟨hd.1, hd.2.1, hd.2.2.1, Nat.zero_le _, hd.2.2.2.2⟩

@[simp] theorem good_testPeriod (p : Nat) (h : Good s) : Good (testPeriod p s) := by
  unfold testPeriod
  split
  · split <;> simp (maxDischargeDepth := 20) [h]
  · split
    · split
      · rename_i hlt
        exact Good.mk' h.up h.inv.1 h.inv.2 h.inv.3 h.outputs h.inv.5
          ⟨h.inv.6.1, h.inv.6.2.1, h.inv.6.2.2.1, by simp; omega, h.inv.6.2.2.2.2⟩ h.inv.7
      · simp (maxDischargeDepth := 20) [h]
    · exact good_modDisc _ h (fun _ => rfl) fun _ hd => ⟨hd.1, hd.2.1, hd.2.2.1, Nat.zero_le _, hd.2.2.2.2⟩

@[simp] theorem good_slipped (c : Int) (h : Good s) : Good (slipped c s) := by
  have h1 : Good (if s.disc.slipMark = true then s else postBoth (.slip c) s) := by
    split <;> simp (maxDischargeDepth := 20) [h]
  have h2 := good_modDisc (fun d => { d with slipCount := min 3 (s.disc.slipCount + 1) }) h1 (fun _ => rfl)
    fun _ hd => ⟨hd.1, hd.2.1, hd.2.2.1, hd.2.2.2.1, Nat.min_le_left _ _⟩
  simp only [slipped]
  split
  · exact good_handFault _ _ h2
  · exact h2

@[simp] theorem good_judgeRevolution (c : Int) (p : Nat) (h : Good s) : Good (judgeRevolution c p s) := by
  unfold judgeRevolution
  split
  · exact good_modDisc _ h (fun _ => rfl) fun _ hd => hd
  · split
    · exact good_slipped _ h
    · exact good_testPeriod _ (good_modDisc _ h (fun _ => rfl)
        fun _ hd => ⟨hd.1, hd.2.1, hd.2.2.1, hd.2.2.2.1, Nat.zero_le _⟩)

@[simp] theorem good_indexToEngine (h : Good s) : Good (indexToEngine s) := by
  simp only [indexToEngine]
  split
  · split
    · split <;> simp (maxDischargeDepth := 20) [h]
    · simp (maxDischargeDepth := 20) [h]
  · simp (maxDischargeDepth := 20) [h]

@[simp] theorem good_sampleRing (v : Nat) (h : Good s) : Good (sampleRing v s) := by
  have h1 : Good (s.modDisc fun d => { d with samples := d.samples ++ [v] }) :=
    good_modDisc _ h (fun _ => rfl) fun _ hd => hd
  simp only [sampleRing]
  split
  · exact good_identified _ h1
  · split
    · exact h1
    · exact good_handFault _ _ h1

@[simp] theorem good_capture (h : Good s) : Good (capture s) :=
  good_modDisc _ h (fun _ => rfl) fun _ hd => ⟨by simp, by simp, by simp, hd.2.2.2⟩

@[simp] theorem good_indexWork (r : Nat) (h : Good s) : Good (indexWork r s) := by
  have h1 := good_judgeRevolution s.disc.counter s.disc.period (good_capture h)
  have h2 := good_indexToEngine h1
  simp only [indexWork]
  split
  · exact h1
  · generalize indexToEngine (judgeRevolution s.disc.counter s.disc.period (capture s)) = s2 at h2 ⊢
    have h3 := good_sampleRing r h2
    generalize sampleRing r s2 = s3 at h3 ⊢
    split <;> split <;> first | exact good_compareEvent h2 | exact good_compareEvent h3 | exact h2 | exact h3

@[simp] theorem good_indexEvent (r : Nat) (h : Good s) : Good (indexEvent r s) := by
  have h1 : Good (if s.spin.unit.spinning = true then indexWork r s else capture s) := by
    split <;> simp (maxDischargeDepth := 20) [h]
  simp only [indexEvent]
  exact good_carryOn (good_modDisc _ h1 (fun _ => rfl) fun _ hd => hd)

theorem good_limitFault (t : Option Nat) (k : FaultKind) (d : Int) (h : Good s) : Good (limitFault t k d s) := by
  unfold limitFault
  split
  · exact good_handFault _ _ h
  · exact h

theorem Bank.judge_outputs (b : Bank) (v : Nat) :
    (b.judge v).charger = b.charger ∧ (b.judge v).strobeHeld = b.strobeHeld := by
  simp only [Bank.judge]
  split
  · exact ⟨rfl, rfl⟩
  · split <;> exact ⟨rfl, rfl⟩

theorem Bank.sample_outputs (b : Bank) (v : Nat) :
    (b.sample v).charger = b.charger ∧ (b.sample v).strobeHeld = b.strobeHeld := by
  have := Bank.judge_outputs b v
  unfold Bank.sample
  dsimp only
  split
  · exact this
  · split <;> exact this

theorem good_closeWatch (h : Good s) : Good (closeWatch s) := by
  unfold closeWatch
  split
  · exact h
  · rename_i w _
    have h1 : Good (giveResult w (s.modEngine fun e => { e with watch := none })) := by
      unfold giveResult
      split
      · dsimp only
        split
        · exact good_modEngine _ (by simp (maxDischargeDepth := 20) [h]) fun _ => rfl
        · simp (maxDischargeDepth := 20) [h]
      · split <;> simp (maxDischargeDepth := 20) [h]
    dsimp only
    refine good_carryOn ?_
    split
    · exact good_stopDone h1
    · exact h1

theorem good_driveChanged (f : Drive → Drive) (h : Good s) : Good (driveChanged f s) := by
  simp (maxDischargeDepth := 20) [driveChanged, h]

@[simp] theorem good_advanceEnded (h : Good s) : Good (advanceEnded s) := by
  unfold advanceEnded
  split
  · split <;> simp (maxDischargeDepth := 20) [h]
  · exact h

theorem good_filmStepEnd (h : Good s) : Good (filmStepEnd s) := by
  unfold filmStepEnd
  split
  · exact h
  · simp (maxDischargeDepth := 20) [h]

theorem good_cutEnds (h : Good s) : Good (cutEnds s) := by
  unfold cutEnds
  split
  · split <;> simp (maxDischargeDepth := 20) [h]
  · exact h

/-! ### Keys and timers -/

theorem good_runKey (h : Good s) : Good (runKey s) := by
  unfold runKey
  split <;> simp (maxDischargeDepth := 20) [h]

theorem good_loadFilm (h : Good s) : Good (loadFilm s) := by
  unfold loadFilm
  split
  · exact h
  · refine good_carryOn ?_
    unfold prepareAfresh
    split
    · split <;> simp (maxDischargeDepth := 20) [h]
    · simp (maxDischargeDepth := 20) [h]

theorem good_deadlineEnds (l : CLine) (h : Good s) : Good (deadlineEnds l s) := by
  unfold deadlineEnds
  split <;> simp (maxDischargeDepth := 20) [h]

theorem good_graceEnds (h : Good s) : Good (graceEnds s) := by
  unfold graceEnds
  split
  · dsimp only
    split
    · simp (maxDischargeDepth := 20) [h]
    · split <;> simp (maxDischargeDepth := 20) [h]
  · exact h

/-! ### Starts and the supply -/

/-- The part after a start has the bounds. -/
theorem bounds_started (c : StartCause) (inp : StartInputs) (s : State) : Bounds (started c inp s) := by
  refine ⟨⟨by simp [started, Queue.post, Queue.empty, Config.queueCap], by simp [started, Queue.post, Queue.empty, Config.queueCap]⟩, rfl, rfl, ⟨rfl, rfl, rfl⟩, ⟨by simp [started], by simp [started]⟩, ?_, ?_⟩
  · exact ⟨by simp [started, Disc.started], by simp [started, Disc.started], by simp [started, Disc.started],
      by simp [started, Disc.started], by simp [started, Disc.started]⟩
  · exact ⟨⟨by simp [started, Iface.started], by simp [started, Iface.started]⟩,
      ⟨by simp [started, Iface.started], by simp [started, Iface.started]⟩⟩

/-- The part whose outputs are off has the bounds. -/
theorem bounds_outputsOff (h : Bounds s) : Bounds (outputsOff s) :=
  ⟨h.1, h.2, h.3, ⟨rfl, rfl, rfl, rfl⟩, h.5, h.6, h.7⟩

end Sys2Proof.Machine
end

