-- ==== Sys2Proof/Laws/Rolls.lean ====
section
/-!
SUPPORT. What each shared operation does to the agreement of the Job Table, the Line Store and the current line: most
leave the six fields it speaks of, and each of the others has one lemma.
-/
namespace Sys2Proof.Machine

variable {s t : State}

/-! ### The fields the agreement speaks of -/

/-- The six fields. -/
structure View where
  jobs : List Job
  store : LineStore
  current : Option LineRef
  unit : UnitState
  starve : Option Nat
  park : Option Nat

/-- The six fields of a part. -/
def view (s : State) : View :=
  ⟨s.jobs, s.store, s.engine.current, s.spin.unit, s.seq.starve, s.spin.parkTimer⟩

/-- The three of them that matter while no line is current. -/
def book (v : View) : List Job × LineStore × Option LineRef := (v.jobs, v.store, v.current)

/-- The agreement, with the numbers of the live jobs distinct. -/
structure Kept (s : State) : Prop where
  nodup : (s.jobs.map Job.number).Nodup
  rolls : Rolls s.jobs s.store
  current : CurrentIsHead s

/-- The agreement while no line is current. -/
structure Rest (s : State) : Prop where
  nodup : (s.jobs.map Job.number).Nodup
  rolls : Rolls s.jobs s.store
  none : s.engine.current = none

theorem Rest.kept (h : Rest s) : Kept s := ⟨h.nodup, h.rolls, fun r hr => by rw [h.none] at hr; cases hr⟩

theorem Kept.rest (h : Kept s) (hn : s.engine.current = none) : Rest s := ⟨h.nodup, h.rolls, hn⟩

theorem kept_of_view (hv : view t = view s) (h : Kept s) : Kept t := by
  have h1 : t.jobs = s.jobs := congrArg View.jobs hv
  have h2 : t.store = s.store := congrArg View.store hv
  have h3 : t.engine.current = s.engine.current := congrArg View.current hv
  have h4 : t.spin.unit = s.spin.unit := congrArg View.unit hv
  have h5 : t.seq.starve = s.seq.starve := congrArg View.starve hv
  have h6 : t.spin.parkTimer = s.spin.parkTimer := congrArg View.park hv
  refine ⟨by rw [h1]; exact h.nodup, by rw [h1, h2]; exact h.rolls, ?_⟩
  intro r hr
  rw [h3] at hr
  have := h.current r hr
  rw [h1, h2, h4, h5, h6]
  exact this

/-- The agreement of a part that has the six fields of another. -/
theorem kept_same (h : Kept s) (hv : view t = view s) : Kept t := kept_of_view hv h

/-- Without a current line the agreement speaks of three fields. -/
theorem rest_same (h : Rest s) (hv : book (view t) = book (view s)) : Rest t := by
  have h1 : t.jobs = s.jobs := congrArg (fun x => x.1) hv
  have h2 : t.store = s.store := congrArg (fun x => x.2.1) hv
  have h3 : t.engine.current = s.engine.current := congrArg (fun x => x.2.2) hv
  exact ⟨by rw [h1]; exact h.nodup, by rw [h1, h2]; exact h.rolls, by rw [h3]; exact h.none⟩

theorem rest_of_book (hv : book (view t) = book (view s)) (h : Rest s) : Rest t := rest_same h hv

theorem rest_of_view (hv : view t = view s) (h : Rest s) : Rest t := rest_of_book (by rw [hv]) h

/-- A unit that is not EXPOSING has no current line (R167). -/
theorem Kept.restOf (h : Kept s) (hu : s.spin.unit ≠ .exposing) : Rest s :=
  h.rest (by
    cases hc : s.engine.current with
    | none => rfl
    | some r => exact absurd (h.current r hc).2.2.1 hu)

/-! ### Updates that leave the six fields -/

@[simp] theorem view_modIface (f : Pair Iface → Pair Iface) : view (s.modIface f) = view s := rfl
@[simp] theorem view_modQueues (f : Pair Queue → Pair Queue) : view (s.modQueues f) = view s := rfl
@[simp] theorem view_modMaps (f : Quad (Option MapSlot) → Quad (Option MapSlot)) : view (s.modMaps f) = view s := rfl
@[simp] theorem view_modDisc (f : Disc → Disc) : view (s.modDisc f) = view s := rfl
@[simp] theorem view_modTrim (f : Trim → Trim) : view (s.modTrim f) = view s := rfl
@[simp] theorem view_modBank (f : Bank → Bank) : view (s.modBank f) = view s := rfl
@[simp] theorem view_modDrive (f : Drive → Drive) : view (s.modDrive f) = view s := rfl
@[simp] theorem view_modLine (l : CLine) (f : Iface → Iface) : view (modLine l f s) = view s := rfl

@[simp] theorem view_modEngine (f : Engine → Engine) (hf : ∀ e, (f e).current = e.current) :
    view (s.modEngine f) = view s := by simp [view, hf]

@[simp] theorem view_modSeq (f : Seq → Seq) (hf : ∀ q, (f q).starve = q.starve) : view (s.modSeq f) = view s := by
  simp [view, hf]

@[simp] theorem view_modSpin (f : Spin → Spin)
    (hf : ∀ x, (f x).unit = x.unit ∧ (f x).parkTimer = x.parkTimer) : view (s.modSpin f) = view s := by
  simp [view, hf]

@[simp] theorem view_post (l : CLine) (e : Event) : view (post l e s) = view s := rfl
@[simp] theorem view_postBoth (e : Event) : view (postBoth e s) = view s := by simp [postBoth]

/-! ### Updates that leave the three -/

@[simp] theorem book_modSeq (f : Seq → Seq) : book (view (s.modSeq f)) = book (view s) := rfl
@[simp] theorem book_modSpin (f : Spin → Spin) : book (view (s.modSpin f)) = book (view s) := rfl
@[simp] theorem book_setUnit (u : UnitState) : book (view (setUnit u s)) = book (view s) := rfl
@[simp] theorem book_parkStop : book (view (parkStop s)) = book (view s) := rfl
@[simp] theorem book_parkStart : book (view (parkStart s)) = book (view s) := by
  unfold parkStart
  split <;> rfl

/-! ### The ring and the Trim Unit -/

@[simp] theorem view_reload : view (reload s) = view s := rfl
@[simp] theorem view_setRing (r : List Item) : view (setRing r s) = view s := by simp [setRing]
@[simp] theorem view_aim : view (aim s) = view s := by
  unfold aim
  split <;> rfl
@[simp] theorem view_replaceTrack (k : Track) (c : Nat) : view (replaceTrack k c s) = view s := by simp [replaceTrack]
@[simp] theorem view_insertTest (k : Track) (c : Nat) : view (insertTest k c s) = view s := by simp [insertTest]
@[simp] theorem view_removeTest : view (removeTest s) = view s := by simp [removeTest]
@[simp] theorem view_removeExposures : view (removeExposures s) = view s := by simp [removeExposures]
@[simp] theorem view_trackNotice : view (trackNotice s) = view s := by
  unfold trackNotice
  split <;> (try split) <;> rfl
@[simp] theorem view_putRec (k : Track) (r : TrimRec) : view (putRec k r s) = view s := by
  simp only [putRec]
  split <;> simp
@[simp] theorem view_voidWatch : view (voidWatch s) = view s := by simp [voidWatch]
@[simp] theorem view_startSearch : view (startSearch s) = view s := by
  unfold startSearch
  split
  · rfl
  · split <;> simp
@[simp] theorem view_clearWindow (k : Track) : view (clearWindow k s) = view s := by simp [clearWindow]
@[simp] theorem view_clearWindows : view (clearWindows s) = view s := by simp [clearWindows]
@[simp] theorem view_joinQueue (k : Track) : view (joinQueue s k) = view s := by
  simp only [joinQueue]
  split
  · rfl
  · split <;> simp

theorem view_foldl {α : Type} (f : State → α → State) (hf : ∀ s x, view (f s x) = view s) (xs : List α) :
    ∀ s : State, view (xs.foldl f s) = view s := by
  induction xs with
  | nil => exact fun _ => rfl
  | cons x xs ih => exact fun s => (ih (f s x)).trans (hf s x)

@[simp] theorem view_joinTracks (ts : List Track) : view (joinTracks ts s) = view s := by
  unfold joinTracks
  rw [view_aim, view_foldl _ (fun s x => view_joinQueue x)]
@[simp] theorem view_takeBack (k : Track) : view (takeBack s k) = view s := by
  simp only [takeBack]
  split
  · split <;> simp
  · rfl
@[simp] theorem view_dropSearch : view (dropSearch s) = view s := by
  unfold dropSearch
  split <;> simp
@[simp] theorem view_flushTrims (d : Nat) : view (flushTrims d s) = view s := by
  simp only [flushTrims, view_modTrim, view_clearWindows]
  rw [view_foldl _ (fun s x => view_takeBack x), view_dropSearch]
@[simp] theorem view_haltSearch : view (haltSearch s) = view s := by
  unfold haltSearch
  split <;> simp
@[simp] theorem view_queryMap : view (queryMap s) = view s := by
  have h1 : view (if s.spin.mounted = s.trim.queueDisc then s else flushTrims s.spin.mounted s) = view s := by
    split <;> simp
  simp only [queryMap]
  split
  · exact h1
  · split
    · exact h1
    · rw [view_joinTracks]; exact h1
@[simp] theorem view_searchPasses (c : Search) : view (searchPasses c s) = view s := by simp [searchPasses]
@[simp] theorem view_searchSteps (c : Search) : view (searchSteps c s) = view s := by simp [searchSteps]
@[simp] theorem view_searchFails (c : Search) : view (searchFails c s) = view s := by simp [searchFails]
@[simp] theorem view_judgeCode (c : Search) : view (judgeCode c s) = view s := by
  unfold judgeCode
  split
  · simp
  · split <;> simp
@[simp] theorem view_testResult (m : Bool) : view (testResult m s) = view s := by
  unfold testResult
  split
  · rfl
  · dsimp only
    split <;> simp
@[simp] theorem view_restartSearch (c : Search) : view (restartSearch c s) = view s := by simp [restartSearch]
@[simp] theorem view_monitorResult (k : Track) (m : Bool) : view (monitorResult k m s) = view s := by
  simp only [monitorResult]
  split
  · split <;> simp
  · rfl

/-! ### Unit states -/

@[simp] theorem view_stopDisc : view (stopDisc s) = view s := by simp [stopDisc]
@[simp] theorem book_enterParked : book (view (enterParked s)) = book (view s) := by simp [enterParked]
@[simp] theorem book_enterFaulted (k : FaultKind) (d : Int) : book (view (enterFaulted k d s)) = book (view s) := by
  simp [enterFaulted]
@[simp] theorem book_enterSpinUp : book (view (enterSpinUp s)) = book (view s) := by simp [enterSpinUp]
@[simp] theorem book_enterIdentify : book (view (enterIdentify s)) = book (view s) := by simp [enterIdentify]
@[simp] theorem book_judgeSpinUp : book (view (judgeSpinUp s)) = book (view s) := by
  unfold judgeSpinUp
  split <;> simp
@[simp] theorem book_enterDiscChange (d n : Nat) : book (view (enterDiscChange d n s)) = book (view s) := by
  simp [enterDiscChange]
@[simp] theorem view_reaim (d n : Nat) : view (reaim d n s) = view s := by
  unfold reaim
  split <;> simp

theorem kept_parkStart (h : Kept s) : Kept (parkStart s) := by
  by_cases hu : s.spin.unit = .exposing
  · unfold parkStart
    simp [hu, h]
  · exact (rest_of_book (by simp) (h.restOf hu)).kept

theorem kept_judgeSpinUp (h : Kept s) : Kept (judgeSpinUp s) := by
  by_cases hu : s.spin.unit = .exposing
  · unfold judgeSpinUp
    simp [hu, h]
  · exact (rest_of_book (by simp) (h.restOf hu)).kept

theorem kept_enterSpinUp (h : Kept s) (hu : s.spin.unit ≠ .exposing) : Kept (enterSpinUp s) :=
  (rest_of_book (by simp) (h.restOf hu)).kept

/-! ### Live jobs -/

theorem mem_of_findJob {js : List Job} {n : Nat} {j : Job} (h : findJob js n = some j) : j ∈ js :=
  List.mem_of_find?_eq_some h

theorem mem_of_activeJob {j : Job} (h : activeJob s = some j) : j ∈ s.jobs ∧ j.state = .active :=
  ⟨List.mem_of_find?_eq_some h, by simpa using List.find?_some h⟩

theorem not_active_of_activeJob (h : activeJob s = none) : ∀ j ∈ s.jobs, j.state ≠ .active := by
  intro j hj
  have := List.find?_eq_none.1 h j hj
  simpa using this

/-- Two live jobs of one number are one. -/
theorem job_unique {js : List Job} (h : (js.map Job.number).Nodup) {j k : Job} (hj : j ∈ js) (hk : k ∈ js)
    (hn : j.number = k.number) : j = k := by
  induction js with
  | nil => cases hj
  | cons x xs ih =>
    rw [List.map_cons, List.nodup_cons] at h
    rcases List.mem_cons.1 hj with hj | hj <;> rcases List.mem_cons.1 hk with hk | hk
    · rw [hj, hk]
    · exact absurd (List.mem_map.2 ⟨k, hk, by rw [← hn, hj]⟩) h.1
    · exact absurd (List.mem_map.2 ⟨j, hj, by rw [hn, hk]⟩) h.1
    · exact ih h.2 hj hk

/-- Two members of a list of at most one element are one. -/
theorem mem_unique {α : Type} {xs : List α} (h : xs.length ≤ 1) {x y : α} (hx : x ∈ xs) (hy : y ∈ xs) : x = y := by
  cases xs with
  | nil => cases hx
  | cons z zs =>
    cases zs with
    | nil => rw [List.mem_singleton.1 hx, List.mem_singleton.1 hy]
    | cons w ws => simp at h

/-- The ACTIVE job is one. -/
theorem active_unique {js : List Job} (h : OneActive js) {j k : Job} (hj : j ∈ js) (hk : k ∈ js)
    (ja : j.state = .active) (ka : k.state = .active) : j = k := by
  exact mem_unique h (by simp [hj, ja]) (by simp [hk, ka])

/-- A change after which no job is ACTIVE that was not so before keeps the one ACTIVE job one. -/
theorem OneActive.map {js : List Job} (h : OneActive js) (g : Job → Job)
    (hg : ∀ j, (g j).state = .active → j.state = .active) : OneActive (js.map g) := by
  unfold OneActive at *
  rw [List.filter_map, List.length_map]
  have : js.filter ((fun j => j.state == .active) ∘ g)
      = (js.filter fun j => j.state == .active).filter ((fun j => j.state == .active) ∘ g) := by
    rw [List.filter_filter]
    apply List.filter_congr
    intro j _
    have := hg j
    by_cases hj : (g j).state = .active
    · simp [hj, this hj]
    · simp [hj]
  rw [this]
  exact Nat.le_trans (List.length_filter_le _ _) h

theorem OneActive.filter {js : List Job} (h : OneActive js) (p : Job → Bool) : OneActive (js.filter p) := by
  unfold OneActive at *
  exact Nat.le_trans ((List.filter_sublist.filter _).length_le) h

/-- With no job ACTIVE, one job may become so. -/
theorem OneActive.activate {js : List Job} (hn : (js.map Job.number).Nodup) (h : ∀ j ∈ js, j.state ≠ .active) (n : Nat)
    (g : Job → Job) (hg : ∀ j, j.number ≠ n → g j = j) : OneActive (js.map g) := by
  unfold OneActive
  rw [List.filter_map, List.length_map]
  have h1 : (js.filter ((fun j => j.state == .active) ∘ g)).Sublist (js.filter fun j => j.number == n) := by
    have : js.filter ((fun j => j.state == .active) ∘ g)
        = (js.filter fun j => j.number == n).filter ((fun j => j.state == .active) ∘ g) := by
      rw [List.filter_filter]
      apply List.filter_congr
      intro j hj
      by_cases hjn : j.number = n
      · simp [hjn]
      · simp [hjn, hg j hjn, h j hj]
    rw [this]
    exact List.filter_sublist
  refine Nat.le_trans h1.length_le ?_
  have h2 : ((js.filter fun j => j.number == n).map Job.number).Nodup := hn.sublist (List.filter_sublist.map _)
  have h3 : ∀ x ∈ js.filter (fun j => j.number == n), x.number = n := fun x hx => by
    simpa using (List.mem_filter.1 hx).2
  generalize js.filter (fun j => j.number == n) = l at h2 h3 ⊢
  cases l with
  | nil => exact Nat.zero_le _
  | cons x xs =>
    cases xs with
    | nil => exact Nat.le_refl _
    | cons y ys =>
      exfalso
      rw [List.map_cons, List.map_cons, List.nodup_cons, h3 x (by simp), h3 y (by simp)] at h2
      exact h2.1 (by simp)

/-- A change of one job's record that leaves its number, owner and counts. -/
structure SameLedger (g : Job → Job) : Prop where
  number : ∀ j, (g j).number = j.number
  owner : ∀ j, (g j).owner = j.owner
  committed : ∀ j, (g j).committed = j.committed
  setCount : ∀ j, (g j).setCount = j.setCount
  final : ∀ j, (g j).final = j.final

theorem Rolls.mapJobs {js : List Job} {st : LineStore} (h : Rolls js st) (g : Job → Job) (hg : SameLedger g)
    (ha : OneActive (js.map g)) : Rolls (js.map g) st := by
  refine ⟨ha, ?_, ?_, ?_, ?_⟩
  · intro k hk
    obtain ⟨j, hj, rfl⟩ := List.mem_map.1 hk
    unfold CountsOrdered
    rw [hg.setCount, hg.committed, hg.final]
    exact h.counts j hj
  · intro k hk
    obtain ⟨j, hj, rfl⟩ := List.mem_map.1 hk
    rw [hg.number, hg.setCount, hg.committed]
    exact h.lists j hj
  · intro r hr
    obtain ⟨j, hj, hn⟩ := h.live r hr
    exact ⟨g j, List.mem_map.2 ⟨j, hj, rfl⟩, by rw [hg.number]; exact hn⟩
  · intro l a ha'
    obtain ⟨j, hj, h1, h2, h3, h4⟩ := h.assemblies l a ha'
    exact ⟨g j, List.mem_map.2 ⟨j, hj, rfl⟩, by rw [hg.number]; exact h1, by rw [hg.owner]; exact h2,
      by rw [hg.committed]; exact h3, by rw [hg.final]; exact h4⟩

theorem SameLedger.ite (n : Nat) {f : Job → Job} (h : SameLedger f) :
    SameLedger fun j => if j.number = n then f j else j :=
  ⟨fun j => by split <;> simp [h.number], fun j => by split <;> simp [h.owner],
    fun j => by split <;> simp [h.committed], fun j => by split <;> simp [h.setCount],
    fun j => by split <;> simp [h.final]⟩

theorem nodup_map {js : List Job} (h : (js.map Job.number).Nodup) (g : Job → Job) (hg : ∀ j, (g j).number = j.number) :
    ((js.map g).map Job.number).Nodup := by
  have : (js.map g).map Job.number = js.map Job.number := by
    rw [List.map_map]
    exact List.map_congr_left fun j _ => hg j
  rw [this]
  exact h

/-- A change of a job's record that makes no job ACTIVE, while no line is current. -/
theorem rest_updateJob (n : Nat) (f : Job → Job) (h : Rest s) (hf : SameLedger f)
    (hs : ∀ j, (f j).state = .active → j.state = .active) : Rest (updateJob n f s) := by
  have hg := hf.ite n
  refine ⟨nodup_map h.nodup _ hg.number, h.rolls.mapJobs _ hg (h.rolls.oneActive.map _ fun j => ?_), h.none⟩
  split
  · exact hs j
  · exact id

/-- A change of a job's record that leaves its state, or a change of another job than the ACTIVE one. -/
theorem kept_updateJob (n : Nat) (f : Job → Job) (h : Kept s) (hf : SameLedger f)
    (hs : ∀ j, (f j).state = .active → j.state = .active)
    (ha : ∀ j ∈ s.jobs, j.number = n → j.state = .active → (f j).state = .active) : Kept (updateJob n f s) := by
  have hg := hf.ite n
  refine ⟨nodup_map h.nodup _ hg.number, h.rolls.mapJobs _ hg (h.rolls.oneActive.map _ fun j => ?_), ?_⟩
  · split
    · exact hs j
    · exact id
  · intro r hr
    obtain ⟨⟨j, hj, hn, hst⟩, h2⟩ := h.current r hr
    refine ⟨⟨_, List.mem_map.2 ⟨j, hj, rfl⟩, ?_, ?_⟩, h2⟩
    · split
      · rw [hf.number]; exact hn
      · exact hn
    · split
      · exact ha j hj (by assumption) hst
      · exact hst

/-! ### Line lists -/

theorem lineNumbers_map (lines : List LineRecord) (n : Nat) (f : LineRecord → LineRecord)
    (hf : ∀ r, (f r).header = r.header) : lineNumbers (lines.map f) n = lineNumbers lines n := by
  unfold lineNumbers
  rw [List.filter_map, List.map_map]
  have h1 : ((fun r : LineRecord => r.header.job == n) ∘ f) = fun r => r.header.job == n := by
    funext r
    simp [hf]
  have h2 : ((fun r : LineRecord => r.header.line) ∘ f) = fun r => r.header.line := by
    funext r
    simp [hf]
  rw [h1, h2]

/-- The head of a job's line list. -/
theorem lineNumbers_head (lines : List LineRecord) (n : Nat) :
    (lineNumbers lines n).head? = (headLine lines n).map fun r => r.header.line := by
  unfold lineNumbers headLine
  rw [List.head?_map, List.head?_filter]

theorem headLine_job {lines : List LineRecord} {n : Nat} {r : LineRecord} (h : headLine lines n = some r) :
    r.header.job = n := by
  have := List.find?_some h
  simpa using this

/-- An update of the records that leaves their headers. -/
theorem Rolls.mapLines {js : List Job} {st : LineStore} (h : Rolls js st) (f : LineRecord → LineRecord)
    (hf : ∀ r, (f r).header = r.header) : Rolls js { st with lines := st.lines.map f } := by
  refine ⟨h.oneActive, h.counts, ?_, ?_, h.assemblies⟩
  · intro j hj
    rw [lineNumbers_map _ _ _ hf]
    exact h.lists j hj
  · intro r hr
    obtain ⟨r', hr', rfl⟩ := List.mem_map.1 hr
    rw [hf]
    exact h.live r' hr'

theorem setCurrent_header (n l : Nat) (c : Bool) (r : LineRecord) :
    (if r.header.job = n ∧ r.header.line = l then { r with current := c } else r).header = r.header := by
  split <;> rfl

theorem rest_setCurrent (n l : Nat) (c : Bool) (h : Rest s) : Rest (setCurrent n l c s) :=
  ⟨h.nodup, h.rolls.mapLines _ (setCurrent_header n l c), h.none⟩

/-! ### Assemblies -/

theorem pair_set_none {α : Type} (p : Pair (Option α)) (l m : CLine) (a : α) (h : (p.set l none).get m = some a) :
    p.get m = some a ∧ m ≠ l := by
  cases l <;> cases m <;> simp_all [Pair.set, Pair.get]

theorem Rolls.endAssembly {js : List Job} {st : LineStore} (h : Rolls js st) (l : CLine) : Rolls js (st.endAssembly l) :=
  ⟨h.oneActive, h.counts, h.lists, h.live, fun m a ha => h.assemblies m a (pair_set_none _ _ _ _ ha).1⟩

/-- The end of an assembly keeps the agreement. -/
theorem kept_endAssembly (l : CLine) (h : Kept s) : Kept (s.modStore fun st => st.endAssembly l) :=
  ⟨h.nodup, h.rolls.endAssembly l, h.current⟩

theorem kept_discardAssembly (l : CLine) (r : Option DropReason) (h : Kept s) : Kept (discardAssembly l r s) := by
  unfold discardAssembly
  split
  · exact h
  · dsimp only
    split
    · exact kept_endAssembly l h
    · exact kept_of_view (view_post _ _) (kept_endAssembly l h)

/-! ### The exposure engine -/

@[simp] theorem view_loadStop (st : Stop) : view (loadStop st s) = view s := by simp [loadStop]
@[simp] theorem view_waitForFilm (h : Header) (n : Nat) : view (waitForFilm h n s) = view s := by simp [waitForFilm]
@[simp] theorem view_startMoves (h : Header) (n : Nat) (f : Option Stop) : view (startMoves h n f s) = view s := by
  simp [startMoves]
@[simp] theorem view_prepare (h : Header) : view (prepare h s) = view s := by
  simp only [prepare]
  split
  · simp
  · split <;> simp
@[simp] theorem view_enterStop : view (enterStop s) = view s := by simp [enterStop]
@[simp] theorem view_fire (it : Item) : view (fire it s) = view s := by
  unfold fire
  cases it <;> simp
@[simp] theorem view_compareEvent : view (compareEvent s) = view s := by
  unfold compareEvent
  split
  · rfl
  · dsimp only
    rw [view_aim, view_setRing]
    refine (view_modEngine _ fun _ => rfl).trans ?_
    split <;> simp
@[simp] theorem view_detachWatch : view (detachWatch s) = view s := by simp [detachWatch]
@[simp] theorem view_postAbandoned (r : LineRef) (c : AbandonCause) (k : Option Track) :
    view (postAbandoned r c k s) = view s := by
  unfold postAbandoned
  split <;> simp
@[simp] theorem view_nextStop (st : Stop) : view (nextStop st s) = view s := by simp [nextStop]
@[simp] theorem view_startCut (c : Close) : view (startCut c s) = view s := by simp [startCut]
@[simp] theorem view_postClosed (c : Close) (cut : Bool) : view (postClosed c cut s) = view s := by
  unfold postClosed
  split <;> simp
@[simp] theorem book_orderClose (j : Option (Nat × CLine)) : book (view (orderClose j s)) = book (view s) := by
  simp [orderClose]
@[simp] theorem book_leaveActive : book (view (leaveActive s)) = book (view s) := by simp [leaveActive]

theorem kept_orderClose (j : Option (Nat × CLine)) (h : Kept s) : Kept (orderClose j s) :=
  ⟨h.nodup, h.rolls, fun r hr => ⟨(h.current r hr).1, (h.current r hr).2.1, (h.current r hr).2.2.1,
    (h.current r hr).2.2.2.1, rfl⟩⟩

/-- Abandonment leaves no line current, and the Job Table and the line lists as they were. -/
theorem rest_abandon (c : AbandonCause) (k : Option Track) (hn : (s.jobs.map Job.number).Nodup)
    (hr : Rolls s.jobs s.store) : Rest (abandon c k s) := by
  unfold abandon
  split
  · exact ⟨hn, hr, by assumption⟩
  · rename_i r _
    dsimp only
    have h1 : ∀ u : State, book (view u) = (s.jobs, s.store, s.engine.current) →
        Rest (aim (((setCurrent r.job r.line false u).modDrive Drive.stop).modEngine fun e =>
          { e with state := .idle, current := none, stops := [], stopNo := 0, stuck := 0, misreg := 0, deferral := 0,
                   firedSinceIndex := false })) := by
      intro u hu
      have hj : u.jobs = s.jobs := congrArg (fun x => x.1) hu
      have hst : u.store = s.store := congrArg (fun x => x.2.1) hu
      refine rest_of_view view_aim ⟨by simpa [setCurrent, hj] using hn, ?_, rfl⟩
      have := hr.mapLines _ (setCurrent_header r.job r.line false)
      simpa [setCurrent, hj, hst] using this
    have hv : view (detachWatch (removeExposures (postAbandoned r c k s))) = view s := by simp
    have h2 := h1 _ (congrArg book hv)
    split
    · exact rest_of_book (book_setUnit _) h2
    · exact h2

/-! ### The hand-over and the selection -/

/-- The hand-over of the head of the ACTIVE job's line list. -/
theorem kept_handOver (n : Nat) (h : Rest s) (ha : ∃ j ∈ s.jobs, j.number = n ∧ j.state = .active) :
    Kept (handOver n s) := by
  unfold handOver
  split
  · exact h.kept
  · rename_i x hx
    dsimp only
    refine kept_of_view (view_prepare _) ⟨h.nodup, h.rolls.mapLines _ (setCurrent_header n x.header.line true), ?_⟩
    intro r hr
    have hr : r = { job := n, line := x.header.line } := (Option.some.inj hr).symm
    subst hr
    refine ⟨ha, ?_, rfl, rfl, rfl⟩
    show (lineNumbers (s.store.lines.map _) n).head? = some x.header.line
    rw [lineNumbers_map _ _ _ (setCurrent_header n x.header.line true), lineNumbers_head, hx]
    rfl

theorem rest_leaveActive (h : Rest s) : Rest (leaveActive s) := rest_of_book book_leaveActive h

theorem rest_suspendJob (j : Job) (l : JobState) (r : SuspendReason) (hl : l ≠ .active) (h : Rest s) :
    Rest (suspendJob j l r s) := by
  unfold suspendJob
  refine rest_of_view (view_post _ _) (rest_leaveActive (rest_updateJob _ _ h ?_ ?_))
  · exact ⟨fun _ => rfl, fun _ => rfl, fun _ => rfl, fun _ => rfl, fun _ => rfl⟩
  · exact fun _ he => absurd he hl

theorem rest_orderClose (j : Option (Nat × CLine)) (h : Rest s) : Rest (orderClose j s) :=
  rest_of_book (book_orderClose _) h

theorem rest_depart (j : Job) (l : JobState) (r : SuspendReason) (hl : l ≠ .active) (h : Rest s) :
    Rest (depart j l r s) := rest_orderClose _ (rest_suspendJob j l r hl h)

/-- A live job becomes ACTIVE while none is. -/
theorem kept_activate (j : Job) (h : Rest s) (hj : j ∈ s.jobs) (hna : ∀ k ∈ s.jobs, k.state ≠ .active) :
    Kept (activate j s) := by
  have key : ∀ f : Job → Job, SameLedger f → (∀ k, (f k).state = .active) →
      Rest (updateJob j.number f s) ∧ ∃ k ∈ (updateJob j.number f s).jobs, k.number = j.number ∧ k.state = .active := by
    intro f hf hs
    have hg := hf.ite j.number
    refine ⟨⟨nodup_map h.nodup _ hg.number, h.rolls.mapJobs _ hg (OneActive.activate h.nodup hna j.number _ fun k hk => ?_),
      h.none⟩, _, List.mem_map.2 ⟨j, hj, rfl⟩, ?_, ?_⟩
    · simp [hk]
    · exact hg.number j
    · simp [hs]
  unfold activate
  dsimp only
  split
  · obtain ⟨h1, h2⟩ := key (fun k => { k with state := .active, started := true, reason := none })
      ⟨fun _ => rfl, fun _ => rfl, fun _ => rfl, fun _ => rfl, fun _ => rfl⟩ (fun _ => rfl)
    exact kept_handOver _ (rest_of_view (view_post _ _) h1) h2
  · obtain ⟨h1, h2⟩ := key (fun k => { k with state := .active, started := true })
      ⟨fun _ => rfl, fun _ => rfl, fun _ => rfl, fun _ => rfl, fun _ => rfl⟩ (fun _ => rfl)
    exact kept_handOver _ h1 h2

theorem winner_mem {j : Job} (h : winner s = some j) : j ∈ s.jobs := by
  have h1 := List.mem_of_find?_eq_some h
  have h2 : j ∈ highestClass (s.jobs.filter Job.eligible) := by
    unfold onMounted at h1
    split at h1
    · exact (List.mem_filter.1 h1).1
    · exact h1
  exact (List.mem_filter.1 (List.mem_filter.1 h2).1).1

theorem rest_enterDiscChange (d n : Nat) (h : Rest s) : Rest (enterDiscChange d n s) :=
  rest_of_book (book_enterDiscChange _ _) h

theorem rest_enterSpinUp (h : Rest s) : Rest (enterSpinUp s) := rest_of_book book_enterSpinUp h

theorem kept_selectWinner (j : Job) (h : Rest s) (hj : j ∈ s.jobs) (hna : ∀ k ∈ s.jobs, k.state ≠ .active) :
    Kept (selectWinner j s) := by
  unfold selectWinner
  split
  · split
    · exact kept_activate j h hj hna
    · exact (rest_enterDiscChange _ _ h).kept
  · exact (rest_enterSpinUp h).kept
  · exact kept_of_view (view_reaim _ _) h.kept
  all_goals exact h.kept

theorem kept_selectFree (h : Rest s) (hna : ∀ k ∈ s.jobs, k.state ≠ .active) : Kept (selectFree s) := by
  unfold selectFree
  split
  · exact h.kept
  · split
    · exact h.kept
    · exact kept_selectWinner _ h (winner_mem (by assumption)) hna

/-! ### The line boundary -/

theorem lineNumbers_filter (lines : List LineRecord) (n m : Nat) (h : n ≠ m) :
    lineNumbers (lines.filter fun r => r.header.job != m) n = lineNumbers lines n := by
  unfold lineNumbers
  rw [List.filter_filter]
  congr 1
  apply List.filter_congr
  intro r _
  by_cases hr : r.header.job = n
  · simp [hr, h]
  · simp [hr]

/-- A job without lines and assembly goes. -/
theorem Rolls.removeJob {js : List Job} {st : LineStore} (h : Rolls js st) (n : Nat)
    (hl : ∀ r ∈ st.lines, r.header.job ≠ n) (ha : ∀ l a, st.assembly.get l = some a → a.header.job ≠ n) :
    Rolls (js.filter fun j => j.number != n) st := by
  have hm : ∀ j, j ∈ js.filter (fun j => j.number != n) → j ∈ js := fun j hj => (List.mem_filter.1 hj).1
  refine ⟨h.oneActive.filter _, fun j hj => h.counts j (hm j hj), fun j hj => h.lists j (hm j hj), ?_, ?_⟩
  · intro r hr
    obtain ⟨j, hj, hn⟩ := h.live r hr
    exact ⟨j, List.mem_filter.2 ⟨hj, by simpa [hn] using hl r hr⟩, hn⟩
  · intro l a haa
    obtain ⟨j, hj, h1, h2⟩ := h.assemblies l a haa
    exact ⟨j, List.mem_filter.2 ⟨hj, by simpa [h1] using ha l a haa⟩, h1, h2⟩

theorem nodup_filter {js : List Job} (h : (js.map Job.number).Nodup) (p : Job → Bool) :
    ((js.filter p).map Job.number).Nodup := h.sublist (List.filter_sublist.map _)

/-- A complete job has neither a line nor an assembly (R139, R143). -/
theorem Rolls.complete {js : List Job} {st : LineStore} (h : Rolls js st) (hn : (js.map Job.number).Nodup) {j : Job}
    (hj : j ∈ js) (hf : j.final = some j.setCount) :
    (∀ r ∈ st.lines, r.header.job ≠ j.number) ∧ ∀ l a, st.assembly.get l = some a → a.header.job ≠ j.number := by
  have hc := h.counts j hj
  have hle := hc.2 _ hf
  have h0 : j.committed - j.setCount = 0 := by omega
  refine ⟨?_, ?_⟩
  · intro r hr he
    have hl := h.lists j hj
    rw [h0] at hl
    have : r.header.line ∈ lineNumbers st.lines j.number :=
      List.mem_map.2 ⟨r, List.mem_filter.2 ⟨hr, by simp [he]⟩, rfl⟩
    rw [hl] at this
    cases this
  · intro l a ha he
    obtain ⟨k, hk, h1, _, h3, h4⟩ := h.assemblies l a ha
    have : k = j := job_unique hn hk hj (by rw [h1, he])
    subst this
    have := h4 _ hf
    have := hc.1
    omega

theorem not_active_filter {j : Job} (h : OneActive s.jobs)
    (hj : activeJob s = some j) : ∀ k ∈ s.jobs.filter (fun k => k.number != j.number), k.state ≠ .active := by
  obtain ⟨h1, h2⟩ := mem_of_activeJob hj
  intro k hk ha
  obtain ⟨hk1, hk2⟩ := List.mem_filter.1 hk
  have : k = j := active_unique h hk1 h1 ha h2
  subst this
  simp at hk2

theorem kept_completeActive (j : Job) (n : Nat) (h : Rest s) (hj : activeJob s = some j)
    (hf : j.final = some j.setCount) : Kept (completeActive j n s) := by
  obtain ⟨h1, _⟩ := mem_of_activeJob hj
  obtain ⟨hl, ha⟩ := h.rolls.complete h.nodup h1 hf
  have h2 : Rest (post j.owner (.jobDone j.number n) (leaveActive (removeJob j.number s))) :=
    rest_of_view (view_post _ _) (rest_leaveActive ⟨nodup_filter h.nodup _, h.rolls.removeJob _ hl ha, h.none⟩)
  simp only [completeActive]
  split
  · exact (rest_orderClose _ h2).kept
  · exact kept_selectFree h2 (not_active_filter h.rolls.oneActive hj)

theorem kept_continueJob (j : Job) (h : Rest s) (hj : activeJob s = some j) : Kept (continueJob j s) := by
  obtain ⟨h1, h2⟩ := mem_of_activeJob hj
  unfold continueJob
  split
  · split
    · exact kept_handOver _ h ⟨j, h1, rfl, h2⟩
    · exact (rest_enterDiscChange _ _ h).kept
  · exact (rest_enterSpinUp h).kept
  all_goals exact h.kept

theorem rest_starved (h : Rest s) : Rest (starved s) := by
  unfold starved
  split
  · exact rest_of_book (book_modSeq _) h
  · exact h

theorem kept_boundaryGoesOn (j : Job) (h : Rest s) (hj : activeJob s = some j) : Kept (boundaryGoesOn j s) := by
  unfold boundaryGoesOn
  split
  · exact h.kept
  · split
    · exact (rest_depart _ _ _ (by decide) h).kept
    · split
      · exact (rest_depart _ _ _ (by decide) h).kept
      · split
        · exact kept_continueJob j h hj
        · exact (rest_starved h).kept

theorem kept_atBoundary (j : Job) (h : Rest s) (hj : activeJob s = some j) : Kept (atBoundary j s) := by
  unfold atBoundary
  split
  · exact kept_completeActive j _ h hj (by assumption)
  · split
    · exact (rest_depart _ _ _ (by decide) h).kept
    · exact kept_boundaryGoesOn j h hj

theorem kept_modSeq (f : Seq → Seq) (h : Kept s) (hf : ∀ q, q.starve = none → (f q).starve = none) :
    Kept (s.modSeq f) :=
  ⟨h.nodup, h.rolls, fun r hr => ⟨(h.current r hr).1, (h.current r hr).2.1, (h.current r hr).2.2.1,
    hf _ (h.current r hr).2.2.2.1, (h.current r hr).2.2.2.2⟩⟩

/-- With no job ACTIVE no line is current. -/
theorem Kept.restOfNone (h : Kept s) (hj : activeJob s = none) : Rest s :=
  h.rest (by
    cases hc : s.engine.current with
    | none => rfl
    | some r =>
      obtain ⟨⟨j, h1, _, h2⟩, _⟩ := h.current r hc
      exact absurd h2 (not_active_of_activeJob hj j h1))

theorem kept_selectionPoint (h : Kept s) : Kept (selectionPoint s) := by
  unfold selectionPoint
  split
  · exact kept_modSeq _ h fun _ hq => hq
  · split
    · split
      · exact h
      · rename_i hc
        exact kept_atBoundary _ (h.rest (by simpa using hc)) (by assumption)
    · rename_i hj
      exact kept_selectFree (h.restOfNone hj) (not_active_of_activeJob hj)

/-! ### The galley close, and the line set -/

theorem kept_pendingSelection (h : Kept s) : Kept (pendingSelection s) := by
  unfold pendingSelection
  split
  · exact kept_selectionPoint (kept_modSeq _ h fun _ hq => hq)
  · exact h

theorem kept_endClose (c : Close) (cut : Bool) (h : Kept s) : Kept (endClose c cut s) := by
  unfold endClose
  exact kept_pendingSelection (kept_parkStart (kept_of_view (by simp) h))

theorem kept_beginClose (c : Close) (h : Kept s) : Kept (beginClose c s) := by
  unfold beginClose
  split
  · dsimp only
    split <;> exact kept_of_view (by simp) h
  · exact kept_endClose _ _ h

theorem range'_tail (a n : Nat) (h : 0 < n) : List.range' a n = a :: List.range' (a + 1) (n - 1) := by
  obtain ⟨m, rfl⟩ : ∃ m, n = m + 1 := ⟨n - 1, by omega⟩
  rfl

/-- The line list of the job whose head line goes, and those of the others. -/
theorem lineNumbers_keep (lines : List LineRecord) (n l m : Nat) :
    lineNumbers (lines.filter fun r => !(r.header.job == n && r.header.line == l)) m
      = if m = n then (lineNumbers lines m).filter fun k => k != l else lineNumbers lines m := by
  unfold lineNumbers
  split
  · rename_i h
    subst h
    rw [List.filter_map, List.filter_filter, List.filter_filter]
    congr 1
    apply List.filter_congr
    intro r _
    cases h1 : r.header.job == m <;> cases h2 : r.header.line == l <;> simp [h2, bne]
  · rename_i h
    rw [List.filter_filter]
    congr 1
    apply List.filter_congr
    intro r _
    by_cases h1 : r.header.job = m
    · simp [h1, h]
    · simp [h1]

/-- The head of the ACTIVE job's line list is set: its record goes, and the set count rises. -/
theorem Rolls.lineSet {js : List Job} {st : LineStore} (h : Rolls js st) (hn : (js.map Job.number).Nodup) {j : Job}
    (hj : j ∈ js) (l : Nat) (hh : (lineNumbers st.lines j.number).head? = some l) :
    Rolls (js.map fun k => if k.number = j.number then { k with setCount := k.setCount + 1 } else k)
      (st.keepLines fun x => !(x.header.job == j.number && x.header.line == l)) := by
  have hl := h.lists j hj
  have hpos : 0 < j.committed - j.setCount := by
    rcases Nat.eq_zero_or_pos (j.committed - j.setCount) with h0 | h0
    · rw [hl, h0] at hh; cases hh
    · exact h0
  rw [range'_tail _ _ hpos] at hl
  have hle : l = j.setCount + 1 := by rw [hl] at hh; exact (Option.some.inj hh).symm
  have hk : ∀ k ∈ js, k.number = j.number → k = j := fun k hk he => job_unique hn hk hj he
  refine ⟨h.oneActive.map _ fun k => ?_, ?_, ?_, ?_, ?_⟩
  · split <;> exact id
  · intro k hk'
    obtain ⟨k, hkm, rfl⟩ := List.mem_map.1 hk'
    have := h.counts k hkm
    split
    · rename_i he
      have := hk k hkm he
      subst this
      exact ⟨by simp only; omega, this.2⟩
    · exact this
  · intro k hk'
    obtain ⟨k, hkm, rfl⟩ := List.mem_map.1 hk'
    show lineNumbers (st.lines.filter _) _ = _
    rw [lineNumbers_keep]
    split
    · rename_i he
      have := hk k hkm he
      subst this
      simp only [hl]
      rw [List.filter_cons_of_neg (by simp [hle])]
      rw [List.filter_eq_self.2]
      · congr 1
      · intro x hx
        have := List.mem_range'_1.1 hx
        simp
        omega
    · exact h.lists k hkm
  · intro r hr
    obtain ⟨k, hkm, he⟩ := h.live r (List.mem_filter.1 hr).1
    exact ⟨_, List.mem_map.2 ⟨k, hkm, rfl⟩, by split <;> exact he⟩
  · intro m a ha
    obtain ⟨k, hkm, h1, h2, h3, h4⟩ := h.assemblies m a ha
    refine ⟨_, List.mem_map.2 ⟨k, hkm, rfl⟩, ?_⟩
    split <;> exact ⟨h1, h2, h3, h4⟩

theorem kept_lineSet (h : Kept s) : Kept (lineSet s) := by
  unfold lineSet
  split
  · exact h
  · rename_i r hr
    obtain ⟨⟨j, hj, hjn, _⟩, hh, _⟩ := h.current r hr
    have hrolls := h.rolls.lineSet h.nodup hj r.line (by rw [hjn]; exact hh)
    rw [hjn] at hrolls
    have h1 : Rest ((updateJob r.job (fun j => { j with setCount := j.setCount + 1 })
        (postLineSet r (s.modStore fun st => st.keepLines fun x =>
          !(x.header.job == r.job && x.header.line == r.line)))).modEngine fun e =>
        { e with state := .idle, current := none, stops := [], stopNo := 0, stuck := 0 }) :=
      ⟨nodup_map h.nodup _ fun k => by split <;> rfl, hrolls, rfl⟩
    dsimp only
    have h2 := rest_of_book (book_parkStart.trans (book_setUnit .ready)) h1
    split
    · exact kept_atBoundary _ h2 (by assumption)
    · exact kept_selectFree h2 (not_active_of_activeJob (by assumption))

theorem kept_stopDone (h : Kept s) : Kept (stopDone s) := by
  unfold stopDone
  split
  · exact kept_of_view (view_nextStop _) h
  · exact kept_lineSet (kept_of_view (view_modEngine _ fun _ => rfl) h)

theorem kept_moveEnded (h : Kept s) : Kept (moveEnded s) := by
  unfold moveEnded
  split
  · split
    · split
      · exact kept_lineSet h
      · exact kept_of_view view_enterStop h
    · exact h
  · split
    · exact kept_of_view view_enterStop h
    · exact h
  · split
    · exact h
    · split
      · exact kept_beginClose _ h
      · exact h
  all_goals exact h

theorem kept_carryOnFor (n : Nat) : ∀ {s : State}, Kept s → Kept (carryOnFor n s) := by
  induction n with
  | zero => exact fun h => h
  | succ n ih => exact fun h => ih (kept_moveEnded h)

theorem kept_carryOn (h : Kept s) : Kept (carryOn s) := kept_carryOnFor _ h

/-! ### Faults, stuck stops and identification -/

theorem rest_faultJob (hn : (s.jobs.map Job.number).Nodup) (hr : Rolls s.jobs s.store) : Rest (faultJob s) := by
  have h1 := rest_abandon .fault none hn hr
  simp only [faultJob]
  split
  · exact h1
  · exact rest_suspendJob _ _ _ (by decide) h1

theorem rest_faultClose (j : Option (Nat × CLine)) (h : Rest s) : Rest (faultClose j s) := by
  unfold faultClose
  split
  · exact rest_orderClose _ h
  · exact h

theorem kept_handFault (k : FaultKind) (d : Int) (h : Kept s) : Kept (handFault k d s) := by
  unfold handFault
  split
  · dsimp only
    have hb : book (view (enterFaulted k d (postBoth (.fault k d) s))) = book (view s) := by simp
    have h1 : (enterFaulted k d (postBoth (.fault k d) s)).jobs = s.jobs := congrArg (fun x => x.1) hb
    have h2 : (enterFaulted k d (postBoth (.fault k d) s)).store = s.store := congrArg (fun x => x.2.1) hb
    exact kept_carryOn (rest_faultClose _ (rest_faultJob (by rw [h1]; exact h.nodup)
      (by rw [h1, h2]; exact h.rolls))).kept
  · exact h

/-! ### The end of a job with its lines -/

/-- A job's lines are freed and its record is removed, while no line is current. -/
theorem Rolls.endJob {js : List Job} {st : LineStore} (h : Rolls js st) (n : Nat) :
    Rolls (js.filter fun j => j.number != n)
      { (st.keepLines fun r => r.header.job != n) with assembly :=
          ⟨if assemblyOfJob n st.assembly.a then none else st.assembly.a,
           if assemblyOfJob n st.assembly.b then none else st.assembly.b⟩ } := by
  have hm : ∀ j, j ∈ js.filter (fun j => j.number != n) → j ∈ js ∧ j.number ≠ n := fun j hj => by
    simpa using List.mem_filter.1 hj
  refine ⟨h.oneActive.filter _, fun j hj => h.counts j (hm j hj).1, ?_, ?_, ?_⟩
  · intro j hj
    obtain ⟨h1, h2⟩ := hm j hj
    show lineNumbers (st.lines.filter _) _ = _
    rw [lineNumbers_filter _ _ _ h2]
    exact h.lists j h1
  · intro r hr
    obtain ⟨h1, h2⟩ := List.mem_filter.1 hr
    obtain ⟨j, hj, hn⟩ := h.live r h1
    exact ⟨j, List.mem_filter.2 ⟨hj, by simpa [hn] using h2⟩, hn⟩
  · intro l a ha
    have hg : st.assembly.get l = some a ∧ a.header.job ≠ n := by
      cases l
      · have ha : (if assemblyOfJob n st.assembly.a = true then none else st.assembly.a) = some a := ha
        split at ha
        · cases ha
        · rename_i hn
          rw [ha] at hn
          exact ⟨ha, by simpa [assemblyOfJob] using hn⟩
      · have ha : (if assemblyOfJob n st.assembly.b = true then none else st.assembly.b) = some a := ha
        split at ha
        · cases ha
        · rename_i hn
          rw [ha] at hn
          exact ⟨ha, by simpa [assemblyOfJob] using hn⟩
    obtain ⟨j, hj, h1, h2⟩ := h.assemblies l a hg.1
    exact ⟨j, List.mem_filter.2 ⟨hj, by simpa [h1] using hg.2⟩, h1, h2⟩

/-- The agreement speaks of the records and the assemblies of the store alone. -/
theorem Rolls.congrStore {js : List Job} {st u : LineStore} (h : Rolls js st) (hl : u.lines = st.lines)
    (ha : u.assembly = st.assembly) : Rolls js u := by
  refine ⟨h.oneActive, h.counts, ?_, ?_, ?_⟩
  · rw [hl]; exact h.lists
  · rw [hl]; exact h.live
  · rw [ha]; exact h.assemblies

theorem discardOfJob_store (n : Nat) (r : DropReason) (l : CLine) (s : State) :
    (discardOfJob n r l s).store.lines = s.store.lines
      ∧ (discardOfJob n r l s).store.assembly
        = (if assemblyOfJob n (s.store.assembly.get l) then s.store.assembly.set l none else s.store.assembly)
      ∧ (discardOfJob n r l s).jobs = s.jobs ∧ (discardOfJob n r l s).engine = s.engine
      ∧ (discardOfJob n r l s).spin = s.spin ∧ (discardOfJob n r l s).seq = s.seq := by
  unfold discardOfJob
  split
  · rename_i hs
    unfold discardAssembly
    split
    · rename_i hn
      rw [hn] at hs
      cases hs
    · exact ⟨rfl, rfl, rfl, rfl, rfl, rfl⟩
  · exact ⟨rfl, rfl, rfl, rfl, rfl, rfl⟩

theorem freeLines_store (n : Nat) (r : DropReason) (s : State) :
    (freeLines n r s).store.lines = s.store.lines.filter (fun x => x.header.job != n)
      ∧ (freeLines n r s).store.assembly = ⟨if assemblyOfJob n s.store.assembly.a then none else s.store.assembly.a,
           if assemblyOfJob n s.store.assembly.b then none else s.store.assembly.b⟩
      ∧ (freeLines n r s).jobs = s.jobs ∧ (freeLines n r s).engine = s.engine
      ∧ (freeLines n r s).spin = s.spin ∧ (freeLines n r s).seq = s.seq := by
  simp only [freeLines]
  generalize hu : (s.modStore fun st => st.keepLines fun x => x.header.job != n) = u
  have h0 : u.store.lines = s.store.lines.filter (fun x => x.header.job != n) ∧ u.store.assembly = s.store.assembly
      ∧ u.jobs = s.jobs ∧ u.engine = s.engine ∧ u.spin = s.spin ∧ u.seq = s.seq := by
    subst hu
    exact ⟨rfl, rfl, rfl, rfl, rfl, rfl⟩
  obtain ⟨a1, a2, a3, a4, a5, a6⟩ := discardOfJob_store n r .a u
  obtain ⟨b1, b2, b3, b4, b5, b6⟩ := discardOfJob_store n r .b (discardOfJob n r .a u)
  obtain ⟨c1, c2, c3, c4, c5, c6⟩ := h0
  refine ⟨by rw [b1, a1, c1], ?_, by rw [b3, a3, c3], by rw [b4, a4, c4], by rw [b5, a5, c5], by rw [b6, a6, c6]⟩
  rw [b2, a2, c2]
  have ha : s.store.assembly.get .a = s.store.assembly.a := rfl
  have hb : s.store.assembly.get .b = s.store.assembly.b := rfl
  rw [ha]
  cases h1 : assemblyOfJob n s.store.assembly.a <;> cases h2 : assemblyOfJob n s.store.assembly.b <;>
    simp [Pair.set, Pair.get, h2]

/-- A live job that no current line belongs to ends with its lines. -/
theorem kept_endOfJob (n : Nat) (r : DropReason) (e : Event) (l : CLine) (h : Kept s)
    (hc : ∀ c, s.engine.current = some c → c.job ≠ n) : Kept (removeJob n (post l e (freeLines n r s))) := by
  obtain ⟨f1, f2, f3, f4, f5, f6⟩ := freeLines_store n r s
  refine ⟨?_, ?_, ?_⟩
  · show (((freeLines n r s).jobs.filter _).map Job.number).Nodup
    rw [f3]
    exact nodup_filter h.nodup _
  · show Rolls ((freeLines n r s).jobs.filter _) (freeLines n r s).store
    rw [f3]
    exact (h.rolls.endJob n).congrStore f1 f2
  · intro c hcc
    have hcc : s.engine.current = some c := by rw [← f4]; exact hcc
    obtain ⟨⟨j, hj, hn, ha⟩, h2, h3, h4, h5⟩ := h.current c hcc
    have hne := hc c hcc
    refine ⟨⟨j, ?_, hn, ha⟩, ?_, ?_, ?_, ?_⟩
    · show j ∈ (freeLines n r s).jobs.filter _
      rw [f3]
      exact List.mem_filter.2 ⟨hj, by simpa [hn] using hne⟩
    · show (lineNumbers (freeLines n r s).store.lines c.job).head? = _
      rw [f1, lineNumbers_filter _ _ _ hne]
      exact h2
    · show (freeLines n r s).spin.unit = _
      rw [f5]; exact h3
    · show (freeLines n r s).seq.starve = _
      rw [f6]; exact h4
    · show (freeLines n r s).spin.parkTimer = _
      rw [f5]; exact h5

theorem removeJob_current (n : Nat) (r : DropReason) (e : Event) (l : CLine) (s : State) :
    (removeJob n (post l e (freeLines n r s))).engine.current = s.engine.current :=
  congrArg Engine.current (freeLines_store n r s).2.2.2.1

theorem kept_stuckStop (k : Track) (h : Kept s) : Kept (stuckStop k s) := by
  have h1 := rest_abandon .stuck (some k) h.nodup h.rolls
  simp only [stuckStop]
  split
  · exact h1.kept
  · rename_i j _
    have h2 := kept_endOfJob j.number .failed (.jobFailed j.number k j.committed j.setCount) j.owner h1.kept
      (fun c hc => by rw [h1.none] at hc; cases hc)
    exact (rest_orderClose _ (rest_leaveActive (h2.rest (by rw [removeJob_current]; exact h1.none)))).kept

/-! ### The end of an identification -/

theorem rest_mountDisc (d : Nat) (h : Rest s) : Rest (mountDisc d s) := rest_of_book (by simp [mountDisc]) h

theorem rest_refuseDisc (w : Option Job) (h : Rest s) : Rest (refuseDisc w s) := rest_of_book (by simp [refuseDisc]) h

theorem kept_afterIdentify (w : Option Job) (m : Bool) (h : Rest s) (hw : ∀ j, w = some j → j ∈ s.jobs) :
    Kept (afterIdentify w m s) := by
  unfold afterIdentify
  split
  · exact (rest_of_book (book_modSeq _) h).kept
  · split
    · exact kept_atBoundary _ h (by assumption)
    · rename_i hn
      split
      · split
        · exact kept_activate _ h (hw _ rfl) (not_active_of_activeJob hn)
        · exact h.kept
      · exact h.kept

theorem wantedBy_mem {j : Job} (h : wantedBy s = some j) : j ∈ s.jobs := by
  unfold wantedBy at h
  split at h
  · cases h
  · split at h
    · rename_i hj
      rw [← Option.some.inj h]
      exact (mem_of_activeJob hj).1
    · exact winner_mem h

theorem kept_identified (d : Nat) (h : Rest s) : Kept (identified d s) := by
  have h1 : Rest (s.modSpin fun sp => { sp with present := d }) := rest_of_book (book_modSpin _) h
  simp only [identified]
  split
  · refine kept_afterIdentify _ _ (rest_mountDisc d h1) fun j hj => ?_
    have hb : book (view (mountDisc d (s.modSpin fun sp => { sp with present := d }))) = book (view s) := by
      simp [mountDisc]
    rw [show (mountDisc d (s.modSpin fun sp => { sp with present := d })).jobs = s.jobs from congrArg (fun x => x.1) hb]
    exact wantedBy_mem hj
  · refine kept_afterIdentify _ _ (rest_refuseDisc _ h1) fun j hj => ?_
    have hb : book (view (refuseDisc (wantedBy s) (s.modSpin fun sp => { sp with present := d }))) = book (view s) := by
      simp [refuseDisc]
    rw [show (refuseDisc (wantedBy s) (s.modSpin fun sp => { sp with present := d })).jobs = s.jobs
      from congrArg (fun x => x.1) hb]
    exact wantedBy_mem hj

end Sys2Proof.Machine
end

