-- ==== Sys2Proof/Laws/Kept.lean ====
section
/-!
SUPPORT. What the effects of the messages and events do to the agreement of the Job Table, the Line Store and the
current line.
-/
namespace Sys2Proof.Machine

variable {s : State}

/-! ### The handler -/

theorem kept_accept {t : State} (h : Kept t) : Kept (accept t).1 := h

theorem kept_emptySlot (l : CLine) (h : Kept s) : Kept (emptySlot l s) := kept_same h rfl

theorem kept_sendReply (l : CLine) (t : Byte) (b : Bool) (h : Handled) (hk : Kept h.1) : Kept (sendReply l t b h) :=
  kept_same hk rfl

/-- Handling keeps the agreement if the message's effect does, in a part in which no other line owns the job named. -/
theorem kept_handle (k : MsgKind) (l : CLine) (mine : List Byte → Bool) (act : Bool → List Byte → State → Handled)
    (ha : ∀ b d s, Kept s → wrongOwner k l d s = none → Kept (act b d s).1) (h : Kept s) :
    Kept (handle k l mine act s) := by
  have h1 : ∀ b d, Kept (judgeMsg k l d (act b d) (emptySlot l s)).1 := by
    intro b d
    unfold judgeMsg
    split
    · exact kept_emptySlot _ h
    · rename_i hl
      refine ha _ _ _ (kept_emptySlot _ h) ?_
      unfold leadingFault at hl
      split at hl
      · cases hl
      · split at hl
        · cases hl
        · split at hl
          · cases hl
          · assumption
  unfold handle
  split
  · split
    · unfold answer
      split
      · exact h1 _ _
      · exact kept_sendReply _ _ _ _ (h1 _ _)
    · exact h
  · exact h
  · exact h

theorem kept_enquire (n : Nat) (f : List Byte → State → Handled) (hf : ∀ d s, (f d s).1 = s) (d : List Byte)
    (h : Kept s) : Kept (enquire n f d s).1 := by
  unfold enquire
  split
  · rw [hf]; exact h
  · exact h

theorem kept_pollQueue (l : CLine) (b : Bool) (h : Kept s) : Kept (pollQueue l b s).1 := by
  unfold pollQueue
  split
  · exact h
  · exact kept_same h rfl

theorem kept_refuseCheck (l : CLine) (h : Kept s) : Kept (refuseCheck l s) := by
  unfold refuseCheck
  split
  · exact kept_same h rfl
  all_goals exact h

theorem kept_refuseKind (l : CLine) (h : Kept s) : Kept (refuseKind l s) := by
  unfold refuseKind
  split
  · split
    · exact h
    · unfold answer
      split <;> exact kept_same h rfl
  all_goals exact h

theorem kept_lineBroken (l : CLine) (h : Kept s) : Kept (lineBroken l s) := by
  unfold lineBroken
  split
  · exact kept_discardAssembly _ _ (kept_same h rfl)
  · exact h

theorem kept_lineSilent (l : CLine) (h : Kept s) : Kept (lineSilent l s) := by
  unfold lineSilent
  split
  · exact kept_same h (by simp)
  · exact h

/-! ### Job messages -/

theorem sameLedger_order (f : Job → Nat) : SameLedger fun j => { j with order := f j } :=
  ⟨fun _ => rfl, fun _ => rfl, fun _ => rfl, fun _ => rfl, fun _ => rfl⟩

theorem kept_makeOrders (h : Kept s) : Kept (makeOrders s) := by
  have hg : SameLedger (fun j : Job => { j with order := s.jobs.countP fun k => decide (k.order ≤ j.order) }) :=
    sameLedger_order _
  have h1 : Kept (s.modJobs renumbered) := by
    refine ⟨nodup_map h.nodup _ hg.number, h.rolls.mapJobs _ hg (h.rolls.oneActive.map _ fun _ => id), ?_⟩
    intro r hr
    obtain ⟨⟨j, hj, hn, hst⟩, h2⟩ := h.current r hr
    exact ⟨⟨_, List.mem_map.2 ⟨j, hj, rfl⟩, hn, hst⟩, h2⟩
  unfold makeOrders
  split
  · exact kept_modSeq _ h1 fun _ hq => hq
  · exact h

/-- A new job joins: it is not ACTIVE, and has no line and no count. -/
theorem Rolls.addJob {js : List Job} {st : LineStore} (h : Rolls js st) (j : Job) (hn : j.number ∉ js.map Job.number)
    (ha : j.state ≠ .active) (h1 : j.setCount = 0) (h2 : j.committed = 0) (h3 : j.final = none) : Rolls (js ++ [j]) st := by
  refine ⟨?_, ?_, ?_, ?_, ?_⟩
  · have := h.oneActive
    unfold OneActive at *
    rw [List.filter_append]
    simpa [ha] using this
  · intro k hk
    rcases List.mem_append.1 hk with hk | hk
    · exact h.counts k hk
    · rw [List.mem_singleton.1 hk]
      exact ⟨by omega, fun f hf => by rw [h3] at hf; cases hf⟩
  · intro k hk
    rcases List.mem_append.1 hk with hk | hk
    · exact h.lists k hk
    · rw [List.mem_singleton.1 hk, h1, h2]
      have : st.lines.filter (fun r => r.header.job == j.number) = [] := by
        rw [List.filter_eq_nil_iff]
        intro r hr he
        obtain ⟨k, hk, hkn⟩ := h.live r hr
        exact hn (List.mem_map.2 ⟨k, hk, by rw [hkn]; simpa using he⟩)
      unfold lineNumbers
      rw [this]
      rfl
  · intro r hr
    obtain ⟨k, hk, he⟩ := h.live r hr
    exact ⟨k, List.mem_append_left _ hk, he⟩
  · intro l a haa
    obtain ⟨k, hk, he⟩ := h.assemblies l a haa
    exact ⟨k, List.mem_append_left _ hk, he⟩

theorem kept_openJob (l : CLine) (d : List Byte) (c : JobClass) (h : Kept s) (hn : byteAt d 0 ∉ s.jobs.map Job.number) :
    Kept (openJob l d c s) := by
  have h1 := kept_makeOrders h
  have hn1 : byteAt d 0 ∉ (makeOrders s).jobs.map Job.number := by rw [makeOrders_numbers]; exact hn
  unfold openJob
  dsimp only
  refine ⟨?_, h1.rolls.addJob _ hn1 (fun he => by cases he) rfl rfl rfl, ?_⟩
  · show (((makeOrders s).jobs ++ [_]).map Job.number).Nodup
    rw [List.map_append]
    refine List.nodup_append.2 ⟨h1.nodup, by simp, ?_⟩
    intro a ha b hb he
    rw [List.map_singleton, List.mem_singleton] at hb
    exact hn1 (by rw [← show b = byteAt d 0 from hb, ← he]; exact ha)
  · intro r hr
    obtain ⟨⟨j, hj, h2⟩, h3⟩ := h1.current r hr
    exact ⟨⟨j, List.mem_append_left _ hj, h2⟩, h3⟩

theorem kept_jobOpen (l : CLine) (d : List Byte) (h : Kept s) : Kept (jobOpen l d s).1 := by
  unfold jobOpen
  split
  · exact h
  · split
    · exact h
    · split
      · exact h
      · split
        · exact h
        · split
          · exact h
          · split
            · exact h
            · exact kept_openJob l d _ h (findJob_none _ _ (by simp_all))

/-- A final count not below the committed count, of a job without an open assembly, is stored. -/
theorem Rolls.storeFinal {js : List Job} {st : LineStore} (h : Rolls js st) (hn : (js.map Job.number).Nodup) {j : Job}
    (hj : j ∈ js) (f : Nat) (hc : j.committed ≤ f) (ha : ∀ a, st.assembly.get j.owner = some a → a.header.job ≠ j.number) :
    Rolls (js.map fun k => if k.number = j.number then { k with final := some f } else k) st := by
  have hk : ∀ k ∈ js, k.number = j.number → k = j := fun k hk he => job_unique hn hk hj he
  refine ⟨h.oneActive.map _ fun k => by split <;> exact id, ?_, ?_, ?_, ?_⟩
  · intro k hk'
    obtain ⟨k, hkm, rfl⟩ := List.mem_map.1 hk'
    split
    · rename_i he
      have := hk k hkm he
      subst this
      exact ⟨(h.counts k hkm).1, fun g hg => by rw [← Option.some.inj hg]; exact hc⟩
    · exact h.counts k hkm
  · intro k hk'
    obtain ⟨k, hkm, rfl⟩ := List.mem_map.1 hk'
    split <;> exact h.lists k hkm
  · intro r hr
    obtain ⟨k, hkm, he⟩ := h.live r hr
    exact ⟨_, List.mem_map.2 ⟨k, hkm, rfl⟩, by split <;> exact he⟩
  · intro l a haa
    obtain ⟨k, hkm, h1, h2, h3⟩ := h.assemblies l a haa
    refine ⟨_, List.mem_map.2 ⟨k, hkm, rfl⟩, ?_⟩
    split
    · rename_i he
      have := hk k hkm he
      subst this
      subst h2
      exact absurd h1.symm (ha a haa)
    · exact ⟨h1, h2, h3⟩

theorem kept_storeFinal (j : Job) (f : Nat) (h : Kept s) (hj : j ∈ s.jobs) (hc : j.committed ≤ f)
    (ha : openLineOf j s = none) : Kept (updateJob j.number (fun k => { k with final := some f }) s) := by
  refine ⟨nodup_map h.nodup _ fun k => by split <;> rfl, h.rolls.storeFinal h.nodup hj f hc ?_, ?_⟩
  · intro a haa he
    unfold openLineOf at ha
    rw [haa] at ha
    simp [he] at ha
  · intro r hr
    obtain ⟨⟨k, hk, h2, h3⟩, h4⟩ := h.current r hr
    exact ⟨⟨_, List.mem_map.2 ⟨k, hk, rfl⟩, by split <;> exact h2, by split <;> exact h3⟩, h4⟩

/-- A job that has set all its lines has no current line. -/
theorem Kept.noCurrent (h : Kept s) {j : Job} (hj : j ∈ s.jobs) (hf : j.final = some j.setCount) :
    ∀ c, s.engine.current = some c → c.job ≠ j.number := by
  intro c hc he
  obtain ⟨_, hh, _⟩ := h.current c hc
  have h0 := (h.rolls.complete h.nodup hj hf).1
  rw [lineNumbers_head, he] at hh
  cases hx : headLine s.store.lines j.number with
  | none => rw [hx] at hh; cases hh
  | some x => exact h0 x (List.mem_of_find?_eq_some hx) (headLine_job hx)

theorem kept_removeJob (j : Job) (h : Kept s) (hj : j ∈ s.jobs) (hf : j.final = some j.setCount) :
    Kept (removeJob j.number s) := by
  obtain ⟨hl, ha⟩ := h.rolls.complete h.nodup hj hf
  refine ⟨nodup_filter h.nodup _, h.rolls.removeJob _ hl ha, ?_⟩
  intro c hc
  obtain ⟨⟨k, hk, h2, h3⟩, h4⟩ := h.current c hc
  exact ⟨⟨k, List.mem_filter.2 ⟨hk, by simpa [h2] using h.noCurrent hj hf c hc⟩, h2, h3⟩, h4⟩

theorem kept_completeIdle (j : Job) (n : Nat) (h : Kept s) (hj : j ∈ s.jobs) (hf : j.final = some j.setCount) :
    Kept (completeIdle j n s) := by
  have h1 : Kept (post j.owner (.jobDone j.number n) (removeJob j.number s)) :=
    kept_of_view (view_post _ _) (kept_removeJob j h hj hf)
  simp only [completeIdle]
  split
  · exact h1
  · exact kept_selectionPoint h1

/-- What completion reads of a job's record. -/
theorem completeActive_congr (j k : Job) (n : Nat) (s : State) (h1 : k.number = j.number) (h2 : k.owner = j.owner)
    (h3 : k.cut = j.cut) : completeActive k n s = completeActive j n s := by
  unfold completeActive
  rw [h1, h2, h3]

theorem kept_endJob (j : Job) (f : Nat) (h : Kept s) (hj : findJob s.jobs j.number = some j) (hc : j.committed ≤ f)
    (ha : openLineOf j s = none) : Kept (endJob j f s) := by
  have hm := mem_of_findJob hj
  have h1 := kept_storeFinal j f h hm hc ha
  simp only [endJob]
  split
  · rename_i hs
    let k : Job := { j with final := some f }
    have hk : k ∈ (updateJob j.number (fun k => { k with final := some f }) s).jobs :=
      List.mem_map.2 ⟨j, hm, by simp [k]⟩
    have hkf : k.final = some k.setCount := congrArg some hs.symm
    refine kept_carryOn ?_
    split
    · rename_i hst
      have hr : Rest (updateJob j.number (fun k => { k with final := some f }) s) := by
        refine h1.rest ?_
        cases hcur : (updateJob j.number (fun k => { k with final := some f }) s).engine.current with
        | none => rfl
        | some c =>
          exfalso
          obtain ⟨⟨i, hi, hin, hia⟩, _⟩ := h1.current c hcur
          have : i = k := active_unique h1.rolls.oneActive hi hk hia hst
          subst this
          exact h1.noCurrent hk hkf c hcur hin.symm
      have hact : activeJob (updateJob j.number (fun k => { k with final := some f }) s) = some k := by
        cases hx : activeJob (updateJob j.number (fun k => { k with final := some f }) s) with
        | none => exact absurd hst (not_active_of_activeJob hx k hk)
        | some i =>
          obtain ⟨hi, hia⟩ := mem_of_activeJob hx
          rw [active_unique h1.rolls.oneActive hi hk hia hst]
      rw [← completeActive_congr j k f _ rfl rfl rfl]
      exact kept_completeActive k f hr hact hkf
    · exact kept_completeIdle k f h1 hk hkf
  · exact h1

theorem kept_jobEnd (d : List Byte) (h : Kept s) : Kept (jobEnd d s).1 := by
  unfold jobEnd
  split
  · exact h
  · rename_i j hj
    split
    · exact h
    · split
      · exact h
      · rename_i hc
        split
        · exact h
        · refine kept_endJob j _ h ?_ (by omega) (by assumption)
          rw [findJob_number hj]
          exact hj

theorem kept_closeAfterCancel (e : EngineState) (j : Job) (h : Rest s) : Kept (closeAfterCancel e j s) := by
  have h1 := (rest_orderClose (some (j.number, j.owner)) (rest_leaveActive h)).kept
  simp only [closeAfterCancel]
  split
  · exact h1
  · exact kept_carryOn h1

theorem kept_cancelJob (j : Job) (h : Kept s) (hj : j ∈ s.jobs) : Kept (cancelJob j s) := by
  simp only [cancelJob]
  split
  · have h1 := rest_abandon .cancel none h.nodup h.rolls
    exact kept_closeAfterCancel _ _ ((kept_endOfJob _ _ _ _ h1.kept fun c hc => by rw [h1.none] at hc; cases hc).rest
      (by rw [removeJob_current]; exact h1.none))
  · rename_i hna
    have h2 := kept_endOfJob j.number .cancel (.jobCancelled j.number j.committed j.setCount) j.owner h fun c hc he => by
      obtain ⟨⟨k, hk, hn, ha⟩, _⟩ := h.current c hc
      have : k = j := job_unique h.nodup hk hj (by rw [hn, he])
      subst this
      exact hna ha
    split
    · exact h2
    · exact kept_carryOn (kept_selectionPoint h2)

theorem kept_jobCancel (d : List Byte) (h : Kept s) : Kept (jobCancel d s).1 := by
  unfold jobCancel
  split
  · exact h
  · exact kept_cancelJob _ h (mem_of_findJob (by assumption))

theorem kept_holdJob (j : Job) (h : Kept s) (hj : j ∈ s.jobs) : Kept (holdJob j s) := by
  have hl : ∀ (f : Job → Job), (∀ k, f k = { k with held := true } ∨ f k = { k with held := true, state := .held }) →
      SameLedger f := by
    intro f hf
    refine ⟨fun k => ?_, fun k => ?_, fun k => ?_, fun k => ?_, fun k => ?_⟩ <;> rcases hf k with e | e <;> rw [e]
  simp only [holdJob]
  split
  · exact kept_carryOn (kept_selectionPoint (kept_updateJob _ _ h (hl _ fun _ => .inl rfl) (fun _ => id)
      fun _ _ _ ha => ha))
  · rename_i hna
    have h1 : Kept (updateJob j.number (fun k => { k with held := true, state := .held }) s) :=
      kept_updateJob _ _ h (hl _ fun _ => .inr rfl) (fun k hk => by cases hk) fun k hk hn ha => by
        have : k = j := job_unique h.nodup hk hj hn
        subst this
        exact absurd ha hna
    split
    · exact h1
    · exact kept_carryOn (kept_selectionPoint h1)

theorem kept_jobHold (d : List Byte) (h : Kept s) : Kept (jobHold d s).1 := by
  unfold jobHold
  split
  · exact h
  · split
    · exact h
    · exact kept_holdJob _ h (mem_of_findJob (by assumption))

theorem kept_releaseJob (j : Job) (h : Kept s) (hj : j ∈ s.jobs) (hs : j.state = .held) : Kept (releaseJob j s) := by
  have h1 : Kept (updateJob j.number Job.released s) := by
    refine kept_updateJob _ _ h ⟨fun _ => rfl, fun _ => rfl, fun _ => rfl, fun _ => rfl, fun _ => rfl⟩ ?_ ?_
    · intro k hk
      unfold Job.released at hk
      simp only at hk
      split at hk <;> cases hk
    · intro k hk hn ha
      have : k = j := job_unique h.nodup hk hj hn
      subst this
      rw [hs] at ha
      cases ha
  simp only [releaseJob]
  split
  · exact kept_carryOn (kept_selectionPoint h1)
  · exact h1

theorem kept_jobRelease (d : List Byte) (h : Kept s) : Kept (jobRelease d s).1 := by
  unfold jobRelease
  split
  · exact h
  · split
    · exact kept_releaseJob _ h (mem_of_findJob (by assumption)) (by assumption)
    · exact h

/-! ### Line messages -/

theorem pair_set_some {α : Type} (p : Pair (Option α)) (l m : CLine) (a b : α)
    (h : (p.set l (some b)).get m = some a) : (m = l ∧ a = b) ∨ (m ≠ l ∧ p.get m = some a) := by
  cases l <;> cases m <;> simp_all [Pair.set, Pair.get]

/-- An assembly is opened for, or goes on for, a live job. -/
theorem Rolls.assemble {js : List Job} {st : LineStore} (h : Rolls js st) (l : CLine) (a : Assembly) (n : Nat) {j : Job}
    (hj : j ∈ js) (ha : AssemblesFor l a j) :
    Rolls js { st with assembly := st.assembly.set l (some a), freeCells := n } := by
  refine ⟨h.oneActive, h.counts, h.lists, h.live, ?_⟩
  intro m b hb
  rcases pair_set_some _ _ _ _ _ hb with ⟨rfl, rfl⟩ | ⟨_, hb⟩
  · exact ⟨j, hj, ha⟩
  · exact h.assemblies m b hb

theorem kept_openLine (l : CLine) (d : List Byte) (h : Kept s)
    (hw : ∀ j, findJob s.jobs (byteAt d 0) = some j → j.owner = l) : Kept (openLine l d s).1 := by
  unfold openLine
  split
  · exact h
  · rename_i j hj
    split
    · exact h
    · dsimp only
      split
      · exact h
      · rename_i hl
        split
        · exact h
        · split
          · exact h
          · refine ⟨h.nodup, h.rolls.assemble l _ _ (mem_of_findJob hj) ⟨findJob_number hj, hw j hj, ?_, ?_⟩, h.current⟩
            · have : (headerOf d).line = j.expected := by
                by_cases he : (headerOf d).line = j.expected
                · exact he
                · simp [he] at hl
              exact this
            · intro f hf
              have : ¬ f < (headerOf d).line := fun hlt => hl (by simp [Job.pastFinal, hf, hlt])
              exact Nat.le_of_not_lt this

theorem discardAssembly_jobs (l : CLine) (r : Option DropReason) (s : State) : (discardAssembly l r s).jobs = s.jobs := by
  unfold discardAssembly
  split
  · rfl
  · dsimp only
    split <;> rfl

/-- A message that names a job and passes the ownership check comes on the job's owner line (R142). -/
theorem owned_of_wrongOwner (k : MsgKind) (l : CLine) (d : List Byte) (hk : k.namesJob = true)
    (h : wrongOwner k l d s = none) (j : Job) (hj : findJob s.jobs (byteAt d 0) = some j) : j.owner = l := by
  unfold wrongOwner at h
  simp only [hk, hj, if_true] at h
  split at h
  · assumption
  · cases h

theorem kept_lineOpen (l : CLine) (d : List Byte) (h : Kept s) (hw : wrongOwner .lineOpen l d s = none) :
    Kept (lineOpen l d s).1 := by
  refine kept_openLine _ _ (kept_discardAssembly _ _ h) fun j hj => ?_
  rw [discardAssembly_jobs] at hj
  exact owned_of_wrongOwner .lineOpen l d rfl hw j hj

/-- The committed line joins its job's line list, and the committed count rises. -/
theorem Rolls.commit {js : List Job} {st : LineStore} (h : Rolls js st) (hn : (js.map Job.number).Nodup) (l : CLine)
    (a : Assembly) (cs : List Cell) {j : Job} (hj : j ∈ js) (hjn : j.number = a.header.job)
    (ha : st.assembly.get l = some a) :
    Rolls (js.map fun k => if k.number = j.number then { k with committed := k.committed + 1 } else k)
      (st.commit l a cs) := by
  have hk : ∀ k ∈ js, k.number = j.number → k = j := fun k hk he => job_unique hn hk hj he
  obtain ⟨i, hi, h1, h2, h3, h4⟩ := h.assemblies l a ha
  have := hk i hi (by rw [h1, hjn])
  subst this
  refine ⟨h.oneActive.map _ fun k => by split <;> exact id, ?_, ?_, ?_, ?_⟩
  · intro k hk'
    obtain ⟨k, hkm, rfl⟩ := List.mem_map.1 hk'
    have hc := h.counts k hkm
    split
    · rename_i he
      have := hk k hkm he
      subst this
      exact ⟨Nat.le_succ_of_le hc.1, fun f hf => by have := h4 f hf; simp only; omega⟩
    · exact hc
  · intro k hk'
    obtain ⟨k, hkm, rfl⟩ := List.mem_map.1 hk'
    have hl := h.lists k hkm
    have happ : ∀ n, lineNumbers (st.lines ++ [recordOf l a cs]) n
        = lineNumbers st.lines n ++ if a.header.job = n then [a.header.line] else [] := by
      intro n
      unfold lineNumbers
      rw [List.filter_append, List.map_append]
      congr 1
      by_cases he : a.header.job = n <;> simp [recordOf, he]
    show lineNumbers (st.lines ++ [recordOf l a cs]) _ = _
    rw [happ]
    split
    · rename_i he
      have := hk k hkm he
      subst this
      have hc := (h.counts k hkm).1
      show lineNumbers st.lines k.number ++ (if a.header.job = k.number then [a.header.line] else []) = _
      rw [if_pos h1.symm, hl, h3]
      have e1 : k.committed + 1 - k.setCount = (k.committed - k.setCount) + 1 := by omega
      have e2 : k.committed + 1 = k.setCount + 1 + 1 * (k.committed - k.setCount) := by omega
      show _ = List.range' (k.setCount + 1) (k.committed + 1 - k.setCount)
      rw [e1, List.range'_concat, ← e2]
    · rename_i he
      rw [if_neg (by rw [← h1]; exact fun hx => he hx.symm), List.append_nil]
      exact hl
  · intro r hr
    rcases List.mem_append.1 hr with hr | hr
    · obtain ⟨k, hkm, he⟩ := h.live r hr
      exact ⟨_, List.mem_map.2 ⟨k, hkm, rfl⟩, by split <;> exact he⟩
    · rw [List.mem_singleton.1 hr]
      exact ⟨_, List.mem_map.2 ⟨i, hi, rfl⟩, by split <;> exact h1⟩
  · intro m b hb
    obtain ⟨hb, hne⟩ := pair_set_none _ _ _ _ hb
    obtain ⟨k, hkm, g1, g2, g3⟩ := h.assemblies m b hb
    refine ⟨_, List.mem_map.2 ⟨k, hkm, rfl⟩, ?_⟩
    split
    · rename_i he
      have := hk k hkm he
      subst this
      exact absurd (g2.symm.trans h2) hne
    · exact ⟨g1, g2, g3⟩

theorem head?_append {α : Type} {xs ys : List α} {x : α} (h : xs.head? = some x) : (xs ++ ys).head? = some x := by
  cases xs with
  | nil => cases h
  | cons z zs => exact h

theorem kept_gainLine (l : CLine) (j : Job) (a : Assembly) (cs : List Cell) (h : Kept s) (hj : j ∈ s.jobs)
    (hjn : j.number = a.header.job) (ha : s.store.assembly.get l = some a) :
    Kept (gainLine j (s.modStore fun st => st.commit l a cs)) := by
  have h1 : Kept (updateJob j.number (fun k => { k with committed := k.committed + 1 })
      (s.modStore fun st => st.commit l a cs)) := by
    refine ⟨nodup_map h.nodup _ fun k => by split <;> rfl, h.rolls.commit h.nodup l a cs hj hjn ha, ?_⟩
    intro r hr
    obtain ⟨⟨k, hk, h2, h3⟩, h4, h5⟩ := h.current r hr
    refine ⟨⟨_, List.mem_map.2 ⟨k, hk, rfl⟩, by split <;> exact h2, by split <;> exact h3⟩, ?_, h5⟩
    show (((s.store.lines ++ [recordOf l a cs]).filter _).map _).head? = _
    rw [List.filter_append, List.map_append]
    exact head?_append h4
  simp only [gainLine]
  split
  · exact kept_carryOn (kept_selectionPoint h1)
  · exact h1

theorem kept_takePart (l : CLine) (j : Job) (a : Assembly) (gs : List SetSort) (h : Kept s) (hj : j ∈ s.jobs)
    (hjn : j.number = a.header.job) (ha : s.store.assembly.get l = some a) : Kept (takePart l j a gs s).1 := by
  have h1 : Kept (s.modStore fun st => { st with
      assembly := st.assembly.set l (some { a with sorts := a.sorts ++ gs, deadline := Config.deadline }) }) := by
    obtain ⟨i, hi, g1, g2, g3, g4⟩ := h.rolls.assemblies l a ha
    exact ⟨h.nodup, (h.rolls.assemble l { a with sorts := a.sorts ++ gs, deadline := Config.deadline }
      s.store.freeCells hi ⟨g1, g2, g3, g4⟩), h.current⟩
  simp only [takePart]
  split
  · exact h1
  · simp only [commitLine]
    split
    · exact kept_endAssembly l h1
    · exact kept_endAssembly l h1
    · exact kept_gainLine l j _ _ h1 hj hjn (by cases l <;> rfl)

theorem kept_linePart (l : CLine) (d : List Byte) (h : Kept s) : Kept (linePart l d s).1 := by
  unfold linePart
  split
  · exact h
  · rename_i j hj
    split
    · exact h
    · rename_i a ha
      split
      · exact h
      · rename_i hp
        dsimp only
        split
        · exact h
        · refine kept_takePart l j a _ h (mem_of_findJob hj) ?_ ha
          rw [findJob_number hj]
          simp [partInSequence] at hp
          exact hp.1.1.1.symm

/-! ### Map, trim and unit messages -/

theorem kept_mapLoad (d : List Byte) (h : Kept s) : Kept (mapLoad d s).1 := by
  have h1 : ∀ n es, Kept (loadMap n es s) := by
    intro n es
    simp only [loadMap]
    split <;> exact kept_same h (by simp)
  unfold mapLoad
  dsimp only
  split
  · exact h
  · split
    · exact h
    · unfold loadInto
      dsimp only
      split
      · exact h
      · split
        · exact h
        · split
          · exact h
          · exact h1 _ _

theorem kept_mapClear (d : List Byte) (h : Kept s) : Kept (mapClear d s).1 := by
  unfold mapClear
  dsimp only
  split
  · exact h
  · split
    · exact h
    · split
      · exact h
      · split
        · exact h
        · simp only [accept, clearMap]
          split <;> exact kept_same h (by simp)

theorem kept_trimRestart (d : List Byte) (h : Kept s) : Kept (trimRestart d s).1 := by
  unfold trimRestart
  split
  · exact h
  · split
    · exact h
    · split
      · exact h
      · simp only [accept, restartTrack]
        split
        · split <;> exact kept_same h (by simp)
        · exact kept_same h (by simp)

theorem kept_trimLimits (d : List Byte) (h : Kept s) : Kept (trimLimits d s).1 := by
  unfold trimLimits
  split
  · exact h
  · exact kept_same h rfl

theorem kept_bankSet (d : List Byte) (h : Kept s) : Kept (bankSet d s).1 := by
  unfold bankSet
  split
  · exact h
  · split
    · exact h
    · exact kept_same h rfl

@[simp] theorem view_judgeFilmLow : view (judgeFilmLow s) = view s := by
  unfold judgeFilmLow
  split <;> simp

theorem kept_filmSet (d : List Byte) (h : Kept s) : Kept (filmSet d s).1 := by
  unfold filmSet
  split
  · exact h
  · split
    · exact h
    · exact kept_of_view (by simp [accept, setFilm]) h

theorem kept_modSpin (f : Spin → Spin) (h : Kept s) (hu : ∀ x, (f x).unit = x.unit)
    (hp : ∀ x, x.parkTimer = none → (f x).parkTimer = none) : Kept (s.modSpin f) :=
  ⟨h.nodup, h.rolls, fun r hr => by
    obtain ⟨h1, h2, h3, h4, h5⟩ := h.current r hr
    exact ⟨h1, h2, by rw [State.modSpin_spin, hu]; exact h3, h4, hp _ h5⟩⟩

theorem kept_spinSet (d : List Byte) (h : Kept s) : Kept (spinSet d s).1 := by
  unfold spinSet
  dsimp only
  split
  · exact h
  · refine kept_accept (kept_modSpin _ h ?_ ?_)
    · exact fun _ => rfl
    · exact fun x hx => by simp [hx]

theorem kept_setHold (h : Kept s) : Kept (setHold s) :=
  kept_modSeq _ (kept_modSpin _ h (fun _ => rfl) fun _ hx => hx) fun _ _ => rfl

theorem kept_restartStarvation (h : Kept s) : Kept (restartStarvation s) := by
  unfold restartStarvation
  split
  · rename_i hs
    refine (rest_of_book (book_modSeq _) (h.rest ?_)).kept
    unfold isStarved at hs
    split at hs
    · simp only [Bool.and_eq_true] at hs
      exact Option.isNone_iff_eq_none.1 hs.1
    · cases hs
  · exact h

theorem kept_clearHold (h : Kept s) : Kept (clearHold s) := by
  unfold clearHold
  split
  · exact kept_carryOn (kept_restartStarvation (kept_selectionPoint
      (kept_modSpin _ h (fun _ => rfl) fun _ hx => hx)))
  · exact h

theorem kept_restart (h : Kept s) : Kept (restart s).1 := by
  unfold restart
  split
  · rename_i hu
    exact kept_enterSpinUp h (by rw [hu]; decide)
  · exact h

theorem kept_panelSet (d : List Byte) (h : Kept s) : Kept (panelSet d s).1 := by
  unfold panelSet
  split
  · exact h
  · exact kept_same h (by simp [accept])

theorem rest_empty (hj : s.jobs = []) (hl : s.store.lines = []) (ha : s.store.assembly = ⟨none, none⟩)
    (hc : s.engine.current = none) : Rest s := by
  refine ⟨by simp [hj], ⟨?_, ?_, ?_, ?_, ?_⟩, hc⟩
  · rw [hj]; exact Nat.zero_le _
  · rw [hj]; exact fun _ h => nomatch h
  · rw [hj]; exact fun _ h => nomatch h
  · rw [hl]; exact fun _ h => nomatch h
  · rw [ha]
    intro l a h
    cases l <;> cases h

theorem rest_clearWork (h : Kept s) : Rest (clearWork s) := by
  have h1 : Rest (abandon .reset none (setRing [] s)) := rest_abandon _ _ h.nodup h.rolls
  unfold clearWork
  dsimp only
  exact rest_of_view (view_flushTrims _) (rest_empty rfl rfl rfl h1.none)

theorem kept_unitReset (c : StartCause) (h : Kept s) : Kept (unitReset c s) := by
  have h1 : Rest (resetQueues c (parkForReset c (clearWork s))) :=
    rest_of_book (by simp [resetQueues, parkForReset, resetMotion]) (rest_clearWork h)
  unfold unitReset
  refine kept_carryOn ?_
  unfold resetClose
  split
  · exact kept_same h1.kept (by simp)
  · split
    · exact (rest_of_book (book_modSeq _) (rest_orderClose _ h1)).kept
    · exact h1.kept

theorem kept_resetUnit (d : List Byte) (h : Kept s) : Kept (resetUnit d s).1 := by
  unfold resetUnit
  split
  · exact kept_accept (kept_unitReset _ h)
  · exact h

theorem kept_resetLine (l : CLine) (d : List Byte) (h : Kept s) : Kept (resetLine l d s).1 := by
  unfold resetLine
  split
  · refine kept_accept ?_
    simp only [lineReset]
    refine kept_of_view (view_post _ _) (kept_discardAssembly _ _ ?_)
    exact kept_same h rfl
  · exact h

/-! ### Disc, bank and mechanism events -/

theorem kept_edgeUp (h : Kept s) : Kept (edgeUp s) := by
  simp only [edgeUp]
  split
  · exact kept_carryOn (kept_same h (by simp))
  · exact kept_same h rfl

theorem kept_edgeDown (h : Kept s) : Kept (edgeDown s) := by
  simp only [edgeDown]
  split <;> exact kept_same h (by simp)

theorem kept_testPeriod (p : Nat) (h : Kept s) : Kept (testPeriod p s) := by
  have h1 : Kept (becomeLocked s) := by
    unfold becomeLocked
    have h1 := kept_judgeSpinUp (kept_of_view (view_modDisc fun d =>
      { d with locked := true, lockRun := 8, reached := true, spinup := none, unlock := none }) h)
    exact kept_same h1 (by simp)
  unfold testPeriod
  split
  · split
    · exact h
    · exact kept_same h rfl
  · split
    · split
      · exact kept_same h rfl
      · exact h1
    · exact kept_same h rfl

theorem kept_slipped (c : Int) (h : Kept s) : Kept (slipped c s) := by
  have h1 : Kept (if s.disc.slipMark = true then s else postBoth (.slip c) s) := by
    split
    · exact h
    · exact kept_same h rfl
  have h2 : Kept ((if s.disc.slipMark = true then s else postBoth (.slip c) s).modDisc
      fun d => { d with slipCount := min 3 (s.disc.slipCount + 1) }) := kept_same h1 rfl
  simp only [slipped]
  split
  · exact kept_handFault _ _ h2
  · exact h2

theorem kept_judgeRevolution (c : Int) (p : Nat) (h : Kept s) : Kept (judgeRevolution c p s) := by
  unfold judgeRevolution
  split
  · exact kept_same h rfl
  · split
    · exact kept_slipped _ h
    · exact kept_testPeriod _ (kept_same h rfl)

theorem kept_indexToEngine (h : Kept s) : Kept (indexToEngine s) := by
  simp only [indexToEngine]
  split
  · split
    · split
      · exact kept_stuckStop _ (kept_same h (by simp))
      · exact kept_same h (by simp)
    · exact kept_same h (by simp)
  · exact kept_same h (by simp)

theorem kept_sampleRing (v : Nat) (h : Rest s) : Kept (sampleRing v s) := by
  have h1 : Rest (s.modDisc fun d => { d with samples := d.samples ++ [v] }) := rest_same h rfl
  simp only [sampleRing]
  split
  · exact kept_identified _ h1
  · split
    · exact h1.kept
    · exact kept_handFault _ _ h1.kept

theorem kept_indexWork (r : Nat) (h : Kept s) : Kept (indexWork r s) := by
  have h1 := kept_judgeRevolution s.disc.counter s.disc.period (kept_same h rfl : Kept (capture s))
  have h2 := kept_indexToEngine h1
  simp only [indexWork]
  split
  · exact h1
  · generalize indexToEngine (judgeRevolution s.disc.counter s.disc.period (capture s)) = s2 at h2 ⊢
    have h3 : Kept (if s.spin.unit = .identify ∧ s2.spin.unit = .identify then sampleRing r s2 else s2) := by
      split
      · rename_i hu
        exact kept_sampleRing r (h2.restOf (by rw [hu.2]; decide))
      · exact h2
    generalize (if s.spin.unit = .identify ∧ s2.spin.unit = .identify then sampleRing r s2 else s2) = s3 at h3 ⊢
    split
    · exact kept_of_view view_compareEvent h3
    · exact h3

theorem kept_indexEvent (r : Nat) (h : Kept s) : Kept (indexEvent r s) := by
  have h1 : Kept (if s.spin.unit.spinning = true then indexWork r s else capture s) := by
    split
    · exact kept_indexWork r h
    · exact kept_same h rfl
  exact kept_carryOn (kept_same h1 rfl)

theorem kept_limitFault (t : Option Nat) (k : FaultKind) (d : Int) (h : Kept s) : Kept (limitFault t k d s) := by
  unfold limitFault
  split
  · exact kept_handFault _ _ h
  · exact h

@[simp] theorem view_giveResult (w : Watch) : view (giveResult w s) = view s := by
  unfold giveResult
  split
  · dsimp only
    split <;> simp [tallyMiss]
  · split <;> simp

theorem kept_closeWatch (h : Kept s) : Kept (closeWatch s) := by
  unfold closeWatch
  split
  · exact h
  · rename_i w _
    have h1 : Kept (giveResult w (s.modEngine fun e => { e with watch := none })) :=
      kept_same h (by simp)
    dsimp only
    refine kept_carryOn ?_
    split
    · exact kept_stopDone h1
    · exact h1

theorem kept_driveChanged (f : Drive → Drive) (h : Kept s) : Kept (driveChanged f s) :=
  kept_carryOn (kept_judgeSpinUp (kept_same h rfl))

theorem kept_filmStepEnd (h : Kept s) : Kept (filmStepEnd s) := by
  unfold filmStepEnd
  split
  · exact h
  · refine kept_carryOn ?_
    unfold advanceEnded
    split
    · split <;> exact kept_same h (by simp)
    · exact kept_same h (by simp)

theorem kept_cutEnds (h : Kept s) : Kept (cutEnds s) := by
  unfold cutEnds
  split
  · split
    · exact kept_carryOn (kept_endClose _ _ (kept_same h rfl))
    · exact h
  · exact h

/-! ### Keys, timers, time and starts -/

theorem kept_runKey (h : Kept s) : Kept (runKey s) := by
  unfold runKey
  split
  · rename_i hu
    exact kept_enterSpinUp h (by rw [hu]; decide)
  · exact kept_clearHold h

theorem kept_loadFilm (h : Kept s) : Kept (loadFilm s) := by
  unfold loadFilm
  split
  · exact h
  · refine kept_carryOn ?_
    unfold prepareAfresh
    split
    · split <;> exact kept_same h (by simp)
    · exact kept_same h (by simp)

theorem kept_deadlineEnds (l : CLine) (h : Kept s) : Kept (deadlineEnds l s) := by
  unfold deadlineEnds
  split
  · exact kept_discardAssembly _ _ h
  · exact h

theorem kept_graceEnds (h : Kept s) : Kept (graceEnds s) := by
  unfold graceEnds
  split
  · rename_i hr
    have hn : s.engine.current = none := by
      cases hc : s.engine.current with
      | none => rfl
      | some r =>
        exfalso
        rw [(h.current r hc).2.2.2.1] at hr
        cases hr
    have h1 : Rest (s.modSeq fun q => { q with starve := none, grace := true }) := rest_same (h.rest hn) rfl
    dsimp only
    split
    · exact h1.kept
    · split
      · exact kept_carryOn (rest_depart _ _ _ (by decide) h1).kept
      · exact h1.kept
  · exact h

theorem kept_parkTimeout (h : Kept s) : Kept (if runOut s.spin.parkTimer then enterParked s else s) := by
  split
  · rename_i hr
    refine (rest_of_book book_enterParked (h.rest ?_)).kept
    cases hc : s.engine.current with
    | none => rfl
    | some r =>
      exfalso
      rw [(h.current r hc).2.2.2.2] at hr
      cases hr
  · exact h

theorem kept_tick (h : Kept s) : Kept (tick s) := by
  unfold tick powered
  split
  · exact h
  · refine ⟨h.nodup, ?_, ?_⟩
    · refine ⟨h.rolls.oneActive, h.rolls.counts, h.rolls.lists, h.rolls.live, ?_⟩
      intro l a ha
      have : ∃ b, s.store.assembly.get l = some b ∧ a = b.tick := by
        cases l
        · have ha : s.store.assembly.a.map Assembly.tick = some a := ha
          obtain ⟨b, hb, he⟩ := Option.map_eq_some_iff.1 ha
          exact ⟨b, hb, he.symm⟩
        · have ha : s.store.assembly.b.map Assembly.tick = some a := ha
          obtain ⟨b, hb, he⟩ := Option.map_eq_some_iff.1 ha
          exact ⟨b, hb, he.symm⟩
      obtain ⟨b, hb, rfl⟩ := this
      exact h.rolls.assemblies l b hb
    · intro r hr
      obtain ⟨h1, h2, h3, h4, h5⟩ := h.current r hr
      exact ⟨h1, h2, h3, by simp [h4, tickTimer], by simp [h5, tickTimer]⟩

theorem kept_idle (h : Kept s) : Kept (idle s) := by
  unfold idle powered
  split
  · exact h
  · dsimp only
    split
    · exact kept_carryOn (kept_tick h)
    · exact kept_tick h

theorem kept_started (c : StartCause) (inp : StartInputs) (s : State) : Kept (started c inp s) :=
  (rest_empty rfl rfl rfl rfl).kept

theorem kept_outputsOff (h : Kept s) : Kept (outputsOff s) := kept_same h rfl

end Sys2Proof.Machine
end

