-- ==== Sys2Proof/WellFormed.lean ====
section
/-!
DEFINITION. Which commands the outside world can give. Operand types already bound every operand; the one
relation left is that the character of LENGTH_OUT_OF_RANGE names a length above 250 (R184).
-/
namespace Sys2Proof

/-- A length character that spoils its frame (R184). -/
def lengthSpoils (c : Byte) : Bool := 250 < c.toNat

/-- The check of a command's operands. -/
def Instr.wellFormed : Instr → Bool
  | .lengthOutOfRange _ c => lengthSpoils c
  | .enquireUnit _ | .enquireJob _ | .enquireTrims _ | .enquireLine _ | .poll _ => true
  | .jobOpen _ | .jobEnd _ | .jobCancel _ | .jobHold _ | .jobRelease _ => true
  | .lineOpen _ | .linePart _ | .mapLoad _ | .mapClear _ | .trimRestart _ | .trimLimits _ => true
  | .bankSet _ | .filmSet _ | .spinSet _ | .unitHold _ | .unitRun _ | .restart _ | .panelSet _ => true
  | .resetUnit _ | .resetLine _ | .checkFailedEntry _ | .unknownKind _ => true
  | .stationCharacter _ _ | .frameEnd _ _ | .framingError _ | .frameGap _ | .lineBreak _ => true
  | .silence _ | .markingResumed _ | .replyEnd _ | .encoderEdge _ | .indexEvent _ => true
  | .spinupFault | .stall | .speedFault | .bankSample _ | .chargeFault | .hitPulse => true
  | .resultWatchClose | .carriageStep _ | .deflectorStep _ _ | .turretStep _ | .filmStep => true
  | .settleEnd _ | .cutEnd | .homeFault _ | .holdKey | .runKey | .discDoneKey => true
  | .filmLoadedKey | .resetKey | .assemblyTimeout _ | .starvationTimeout | .parkTimeout => true
  | .supplyLow | .supplyStart _ | .powerStart _ | .bodyCharacter _ _ => true

end Sys2Proof
end

