-- ==== Sys2Proof/Tests/Slice0.lean ====
section
/-!
SUPPORT. The model's own tests: the ill-formed command, figures of the spec's worked examples, and for each statement
with hypotheses a state and operands that meet them.
-/
namespace Sys2Proof.Tests
open Sys2Proof.Machine

/-! ### Well-formedness and decoding -/

theorem test_aShortLengthIsIllFormed : (Instr.lengthOutOfRange .a 250).wellFormed = false := by decide
theorem test_aLongLengthIsWellFormed : (Instr.lengthOutOfRange .a 251).wellFormed = true := by decide
theorem test_noWordSpellsACommand : decodeTableWord 8 0 = none := by decide
theorem test_noWordChangesTheQueue : (State.reset.withFetchWord 8 0) = State.reset := by decide

/-! ### A part at work -/

/-- An interface with PASS. -/
def good : Iface := { Iface.started 1 .r9600 with pass := true, run := 4 }

/-- The part with a message of a kind waiting in the slot of line A, with tag 7. -/
def got (k : MsgKind) (d : List Byte) (s : State) : State :=
  withLine .a { good with slot := some (.frame false (u8 k.code) 7 d) } s

theorem got_waits (k : MsgKind) (d : List Byte) (s : State) (h : Up s) :
    Waits .a k.code 7 d (got k d s) ∧ Passed .a (got k d s) := ⟨⟨h, rfl, rfl⟩, rfl⟩

def theJob (n : Nat) (cls : JobClass) (st : JobState) (committed set : Nat) : Job :=
  { number := n, cls := cls, disc := 3, owner := .a, cut := true, final := none, committed := committed
    setCount := set, order := n, state := st, held := st == .held, started := st == .active, reason := none }

def sortA : SetSort := { font := 1, code := 65, advance := 100, rise := 0, reversed := false }

def entryA : MapEntry := { font := 1, code := 65, track := 2, position := 40, heavy := false }

/-- Disc 3 with one entry, and all eight records alike. -/
def disc3 (st : TrimState) : MapSlot :=
  { disc := 3, entries := [entryA]
    trims := Oct.fill { code := 8, state := st, prior := if st.inSearch then some ⟨.untrimmed, 8⟩ else none } }

def headerA (line : Nat) : Header :=
  { job := 1, line := line, direction := .ltr, lens := 2, leading := 240, indent := 0, measure := 1000, count := 1 }

def lineA (line : Nat) (current : Bool) : LineRecord :=
  { header := headerA line, origin := .a, cells := [{ glyph := sortA, res := .placed 2 40 false 0 }]
    current := current }

def stopA : Stop := { x := 0, entries := [{ index := 0, track := 2, position := 40, rise := 0, heavy := false }] }

def itemA : Item := .exposure { index := 0, track := 2, position := 40, rise := 0, heavy := false } 1200 0

/-- Line 1 of job 1 at its only stop, one count before its item's angle; line 2 is unset, and bulletin 2 has no line. -/
def atWork : State := { State.reset with
  maps := ⟨some (disc3 .trimmed), none, none, none⟩
  store := { freeCells := 4094, assembly := ⟨none, none⟩, lines := [lineA 1 true, lineA 2 false] }
  jobs := [theJob 1 .routine .active 2 0, theJob 2 .bulletin .queued 0 0]
  engine := { Engine.started with state := .flash, current := some ⟨1, 1⟩, stops := [stopA], stopNo := 1
                                  ring := [itemA] }
  disc := { Disc.started with valid := true, locked := true, lockRun := 8, reached := true, counter := 1199
                              channel := some 1200 }
  trim := { Trim.started with queueDisc := 3 }
  bank := { Bank.started with state := .ready, charger := true, strobeHeld := false }
  drive := { State.reset.drive with
    deflector := { State.reset.drive.deflector with track := 2 }
    film := { State.reset.drive.film with remaining := 100000, load := 100000, galleyOpen := true } }
  spin := { State.reset.spin with unit := .exposing, mounted := 3, present := 3, motor := true } }

/-- The part between lines, with the ACTIVE job's galley open. -/
def between : State := { atWork with
  store := { freeCells := 4096, assembly := ⟨none, none⟩, lines := [] }
  jobs := [theJob 1 .routine .active 1 1]
  engine := Engine.started
  disc := { atWork.disc with channel := none }
  spin := { atWork.spin with unit := .ready, parkTimer := some 60000000 } }

/-- The part with no job. -/
def free : State := { between with jobs := [] }

theorem atWork_up : Up atWork := rfl
theorem atWork_flashing : Flashing atWork := ⟨rfl, rfl, rfl⟩
theorem atWork_jobs : JobsDistinct atWork := by unfold JobsDistinct; decide
theorem atWork_bounds : Bounds atWork :=
  ⟨by unfold QueuesBounded; decide, by unfold PoolAccounted; decide, by unfold ChannelFollowsRing; decide,
    ⟨rfl, rfl, rfl⟩, atWork_jobs, by unfold DiscInRange; decide, by unfold PassEarned; decide⟩
theorem atWork_rolls : Rolls atWork.jobs atWork.store where
  oneActive := by unfold OneActive; decide
  counts := fun j hj => ⟨(by decide : ∀ j ∈ atWork.jobs, j.setCount ≤ j.committed) j hj, fun f h => by
    rw [(by decide : ∀ j ∈ atWork.jobs, j.final = none) j hj] at h
    cases h⟩
  lists := by decide
  live := by decide
  assemblies := fun l a h => by cases l <;> cases h
theorem atWork_inv : Inv atWork :=
  ⟨atWork_bounds, atWork_rolls, fun r h => by
    cases h
    exact ⟨⟨_, List.mem_cons_self, rfl, rfl⟩, rfl, rfl, rfl, rfl⟩⟩

/-! ### The machine -/

theorem test_stepTakesTheFront : { atWork with pending := [.hitPulse, .holdKey] }.pending = .hitPulse :: [.holdKey] := rfl
theorem test_emptyQueue : State.reset.pending = [] ∧ Up State.reset := ⟨rfl, rfl⟩
theorem test_everyStep : Inv atWork ∧ ∃ t, step atWork = .next t := ⟨atWork_inv, _, rfl⟩
theorem test_aTimerTicks : tickTimer (some 5) = some 4 := rfl

/-- A galley close for job 1 is ordered, with the mechanisms at rest and the galley open. -/
def ordered (jobs : List Job) : State := { between with
  jobs := jobs
  engine := { between.engine with
    state := .closing, close := some { job := some (1, .a), phase := .ordered, steps := 0 } } }

theorem test_anOrderedCloseBeginsWithATick : ((ordered []).pending = [] ∧ Up (ordered []))
    ∧ (ordered []).engine.state = .closing ∧ (ordered []).drive.allAtRest = true
    ∧ (ordered []).drive.film.galleyOpen = true ∧ 0 < (ordered []).drive.film.remaining
    ∧ (idle (ordered [])).drive.film.advance = some 720 := by unfold Up; decide +kernel

/-! ### The handler -/

theorem test_checkFailedWaits :
    let s := withLine .a { good with slot := some (.checkFailed 7) } atWork
    Up s ∧ (s.iface.get .a).tx = none ∧ (s.iface.get .a).slot = some (.checkFailed 7) := ⟨rfl, rfl, rfl⟩
theorem test_unknownKindsWait : ∀ bc ∈ [false, true], ∀ kind ∈ [(0 : Byte), 0x16],
    let s := withLine .a { good with slot := some (.frame bc kind 7 []) } atWork
    Up s ∧ (s.iface.get .a).tx = none ∧ (s.iface.get .a).slot = some (.frame bc kind 7 [])
      ∧ (kind = 0 ∨ 0x15 < kind.toNat) := by unfold Up; decide
theorem test_unpassedMessageWaits : ∀ d ∈ [[(9 : Byte)], []],
    let s := withLine .a { Iface.started 1 .r9600 with slot := some (.frame false 0x06 7 d) } atWork
    (Up s ∧ (s.iface.get .a).tx = none ∧ (s.iface.get .a).slot = some (.frame false (u8 MsgKind.jobHold.code) 7 d))
      ∧ (s.iface.get .a).pass = false
      ∧ (d.length ≠ MsgKind.jobHold.bodyLength d ∨ malformed .jobHold (s.store.assembly.get .a) d = none) := by
  unfold Up; decide
theorem test_otherOwner :
    let s := got .jobHold [1] { atWork with jobs := [{ theJob 1 .routine .queued 0 0 with owner := .b }] }
    (Waits .a 0x06 7 [1] s ∧ Passed .a s) ∧ malformed .jobHold (s.store.assembly.get .a) [1] = none
      ∧ (findJob s.jobs (byteAt [1] 0)).map Job.owner = some CLine.a.other := ⟨got_waits .jobHold _ _ rfl, rfl, rfl⟩
/-- On a line without PASS: a MAP-LOAD of a count of 0, and with a key repeated at index 1; a LINE-PART of a count of 0,
and one that passes the sort count. Each has its length. -/
theorem test_malformedBodies : (∀ (k : MsgKind) (d : List Byte), Waits .a k.code 7 d (withLine .a { Iface.started 1 .r9600 with
        slot := some (.frame false (u8 k.code) 7 d) } atWork))
    ∧ (∀ d ∈ [[(5 : Byte), 0], [5, 2, 1, 0, 66, 2, 41, 1, 0, 66, 2, 42]], d.length = 2 + 5 * byteAt d 1)
    ∧ (let d : List Byte := [5, 2, 1, 0, 66, 2, 41, 1, 0, 66, 2, 42]
      malformed .mapLoad none [5, 0] = some 255 ∧ malformed .mapLoad none d = some 1
        ∧ (let keys := (entriesFrom d 2 (byteAt d 1)).map fun e => (e.font, e.code)
          keys[1]? = some (1, 66) ∧ (1, 66) ∈ keys.take 1 ∧ (keys.take 1).Nodup))
    ∧ (let a : Assembly := { header := headerA 3, sorts := [], deadline := 1 }
      let d : List Byte := [1, 0, 3, 1, 1, 1, 0, 65, 0, 100, 0]
      d.length = 5 + 6 * byteAt d 4 ∧ malformed .linePart none [1, 0, 3, 0, 0] = some 255
        ∧ malformed .linePart (some a) d = some 255 ∧ a.header.job = byteAt d 0 ∧ a.header.line = u16At d 1
        ∧ a.header.count < byteAt d 3 + byteAt d 4 ∧ malformed .linePart (some a) (d.set 3 0) = none) :=
  ⟨fun _ _ => ⟨rfl, rfl, rfl⟩, by decide, by decide, by decide⟩
theorem test_checkOfNineDigits : crcBytes crcStart [0x31, 0x32, 0x33, 0x34, 0x35, 0x36, 0x37, 0x38, 0x39] = 0x29B1 := by
  decide +kernel

/-- ACCEPTED with tag 7 from station 21: marker 1 on the station character alone. -/
theorem test_replyFrame : ∀ st, st.byte = 0 →
    let r : Reply := { station := 21, tag := 7, status := st, body := .accepted }
    r.frame.take 5 = [⟨true, 21⟩, ⟨false, 0x81⟩, ⟨false, 7⟩, ⟨false, 1⟩, ⟨false, 0⟩] ∧ r.frame.length = 7
      ∧ (r.frame.tail.all fun c => !c.marker) = true := by
  intro st h
  simp only [Reply.frame, Reply.covered, h]
  decide +kernel

/-! ### Jobs -/

theorem test_jobOpen : ∀ d ∈ [[(0 : Byte), 0, 1, 0], [9, 3, 1, 0], [9, 0, 16, 0], [9, 2, 3, 1]],
    Waits .a 0x03 7 d (got .jobOpen d atWork) ∧ Passed .a (got .jobOpen d atWork) :=
  fun d _ => got_waits .jobOpen d atWork rfl
theorem test_aJobIsOpened : ((jobOpen .a [9, 2, 3, 1] atWork).1.jobs.map Job.number) = [1, 2, 9] := by decide
theorem test_ordersDiffer : (atWork.jobs.map Job.order).Nodup ∧ (renumbered atWork.jobs).map Job.order = [1, 2] := by decide

def ended (n : Nat) (final : Option Nat) (a : Option Assembly) : State := { atWork with
  jobs := [theJob 1 .routine .active 2 0, { theJob 2 .bulletin .queued n n with final := final }]
  store := { atWork.store with assembly := ⟨a, none⟩ } }

theorem test_jobEnd : (∀ n hi lo s, Up s → Waits .a 0x04 7 [n, hi, lo] (got .jobEnd [n, hi, lo] s))
    ∧ (findJob (ended 1 none none).jobs 9 = none)
    ∧ (findJob (ended 1 (some 1) none).jobs 2).bind Job.final ≠ none
    ∧ (findJob (ended 1 none none).jobs 2).map Job.committed = some 1
    ∧ (findJob (ended 1 none none).jobs 2).map Job.state ≠ some .active
    ∧ Flashing (ended 1 none none) ∧ JobsDistinct (ended 1 none none)
    ∧ (∃ a, (ended 1 none (some { header := { headerA 2 with job := 2 }, sorts := [], deadline := 1 })).store.assembly.get .a
        = some a ∧ a.header.job = 2)
    ∧ assemblyOfJob 2 ((ended 1 none none).store.assembly.get .a) = false :=
  ⟨fun n hi lo s h => (got_waits .jobEnd [n, hi, lo] s h).1, rfl, by decide, rfl, by decide, ⟨rfl, rfl, rfl⟩,
    by unfold JobsDistinct; decide, ⟨_, rfl, rfl⟩, rfl⟩

/-- Job 2 with an open assembly and a committed line. -/
def waiting : State := { atWork with
  store := { freeCells := 4092, assembly := ⟨some { header := { headerA 2 with job := 2 }, sorts := [], deadline := 9 }, none⟩
             lines := [lineA 1 true, { lineA 1 false with header := { headerA 1 with job := 2 } }] }
  jobs := [theJob 1 .routine .active 1 0, theJob 2 .bulletin .queued 1 0] }

theorem test_jobCancelOfAWaitingJob : (Waits .a 0x05 7 [2] (got .jobCancel [2] waiting)
      ∧ Passed .a (got .jobCancel [2] waiting))
    ∧ findJob waiting.jobs 2 = some (theJob 2 .bulletin .queued 1 0) ∧ Flashing waiting ∧ JobsDistinct waiting
    ∧ assemblyOfJob 2 (waiting.store.assembly.get .b) = false ∧ findJob waiting.jobs 9 = none :=
  ⟨got_waits .jobCancel _ _ rfl, rfl, ⟨rfl, rfl, rfl⟩, by unfold JobsDistinct; decide, rfl, rfl⟩

def moving : State := { atWork with
  engine := { atWork.engine with state := .move }
  drive := { atWork.drive with carriage := { atWork.drive.carriage with act := .stepping, target := some 9, left := 25
                                                                        stepDir := .ascending } } }

theorem test_jobCancelOfTheActiveJob : (Waits .a 0x05 7 [1] (got .jobCancel [1] moving)
      ∧ Passed .a (got .jobCancel [1] moving))
    ∧ findJob moving.jobs 1 = some (theJob 1 .routine .active 2 0) ∧ moving.engine.current = some { job := 1, line := 1 }
    ∧ moving.spin.unit = .exposing ∧ moving.drive.carriage.act = .stepping ∧ (moving.queues.get .a).events.length ≤ 29
    ∧ moving.store.assembly.get .a = none ∧ moving.store.assembly.get .b = none :=
  ⟨got_waits .jobCancel _ _ rfl, rfl, rfl, rfl, rfl, by decide, rfl, rfl⟩

def waitingForFilm (load : Nat) : State := { atWork with
  engine := { atWork.engine with state := .waitFilm, ring := [] }
  disc := { atWork.disc with channel := none }
  drive := { atWork.drive with film := { atWork.drive.film with remaining := 100, load := load, out := true } } }

theorem test_jobCancelInWaitFilm : (Waits .a 0x05 7 [1] (got .jobCancel [1] (waitingForFilm 959))
      ∧ Passed .a (got .jobCancel [1] (waitingForFilm 959)))
    ∧ findJob (waitingForFilm 959).jobs 1 = some (theJob 1 .routine .active 2 0)
    ∧ (waitingForFilm 959).engine.current = some { job := 1, line := 1 } ∧ (waitingForFilm 959).engine.state = .waitFilm
    ∧ (cancelJob (theJob 1 .routine .active 2 0) (waitingForFilm 959)).drive.film.advance = none :=
  ⟨got_waits .jobCancel _ _ rfl, rfl, rfl, rfl, by decide +kernel⟩

def withHeld : State := { atWork with jobs := [theJob 1 .routine .active 2 0, theJob 2 .bulletin .held 0 0] }

theorem test_holdAndRelease : (∀ n s, Up s → Waits .a 0x06 7 [n] (got .jobHold [n] s))
    ∧ (∀ n s, Up s → Waits .a 0x07 7 [n] (got .jobRelease [n] s))
    ∧ findJob withHeld.jobs 2 = some (theJob 2 .bulletin .held 0 0) ∧ Flashing withHeld ∧ JobsDistinct withHeld
    ∧ findJob atWork.jobs 2 = some (theJob 2 .bulletin .queued 0 0)
    ∧ findJob atWork.jobs 1 = some (theJob 1 .routine .active 2 0) ∧ findJob atWork.jobs 9 = none :=
  ⟨fun n s h => (got_waits .jobHold [n] s h).1, fun n s h => (got_waits .jobRelease [n] s h).1, rfl, ⟨rfl, rfl, rfl⟩,
    by unfold JobsDistinct; decide, rfl, rfl, rfl⟩

/-! ### Lines -/

def openBody : List Byte := [1, 0, 3, 0, 2, 0, 240, 0, 0, 3, 232, 1]
def partBody : List Byte := [1, 0, 3, 0, 1, 1, 0, 65, 0, 100, 0]

theorem test_lineOpen : (Waits .a 0x08 7 openBody (got .lineOpen openBody atWork)
      ∧ Passed .a (got .lineOpen openBody atWork)) ∧ openBody.length = 12 ∧ Owned .a (byteAt openBody 0) atWork :=
  ⟨got_waits .lineOpen _ _ rfl, rfl, fun j h => by
    have : findJob atWork.jobs (byteAt openBody 0) = some (theJob 1 .routine .active 2 0) := rfl
    rw [this] at h
    cases h
    rfl⟩
theorem test_headerOfALineOpen : headerOf openBody = { headerA 3 with measure := 1000 } ∧ headerFault openBody = none := by
  decide

def opened (count : Nat) : Assembly := { header := { headerA 3 with count := count }, sorts := [], deadline := 100 }

def assembling (count : Nat) : State := { atWork with
  store := { atWork.store with freeCells := 4094 - count, assembly := ⟨some (opened count), none⟩ } }

theorem test_linePart : (Waits .a 0x09 7 partBody (got .linePart partBody (assembling 2))
      ∧ Passed .a (got .linePart partBody (assembling 2)))
    ∧ malformed .linePart ((assembling 2).store.assembly.get .a) partBody = none
    ∧ findJob (assembling 2).jobs (byteAt partBody 0) = some (theJob 1 .routine .active 2 0)
    ∧ (opened 2).header.line = u16At partBody 1 ∧ (opened 2).sorts.length = byteAt partBody 3
    ∧ (∀ g ∈ sortsFrom partBody 5 (byteAt partBody 4), g.inRange = true)
    ∧ ((sortsFrom (partBody.set 10 8) 5 1).map SetSort.inRange).idxOf? false = some 0
    ∧ (opened 2).sorts.length + (sortsFrom partBody 5 (byteAt partBody 4)).length < (opened 2).header.count
    ∧ findJob ([] : List Job) 1 = none ∧ atWork.store.assembly.get .a = none
    ∧ (opened 2).sorts.length ≠ byteAt (partBody.set 3 1) 3 :=
  ⟨got_waits .linePart _ _ rfl, rfl, rfl, rfl, rfl, by decide, by decide, by decide, rfl, rfl, by decide⟩

theorem test_completingPart : (Waits .a 0x09 7 partBody (got .linePart partBody (assembling 1))
      ∧ Passed .a (got .linePart partBody (assembling 1)))
    ∧ Completes .a partBody (theJob 1 .routine .active 2 0) (opened 1) [sortA] (assembling 1)
    ∧ Flashing (assembling 1)
    ∧ (∃ cs, commitCells (mapOf 3 (assembling 1)) (opened 1).header [sortA] = .cells cs)
    ∧ commitCells [] (opened 1).header [sortA] = .noGlyph 0
    ∧ commitCells [entryA] { (opened 1).header with measure := 99 } [sortA] = .overset 100 :=
  ⟨got_waits .linePart _ _ rfl,
    ⟨rfl, rfl, rfl, rfl, rfl, rfl, rfl, (fun f h => nomatch h), by decide, by decide, rfl⟩, ⟨rfl, rfl, rfl⟩,
    ⟨_, rfl⟩, by decide, by decide⟩

theorem test_aSortInRange : sortA.font < 128 ∧ sortA.code < 65536 ∧ sortA.advance < 65536 ∧ -128 ≤ sortA.rise
    ∧ sortA.rise < 128 := by decide

/-- The sorts of the spec's example line, job 31, line 12. -/
def exampleSorts : List SetSort :=
  [⟨1, 1604, 240, 0, false⟩, ⟨1, 1614, 0, 5, false⟩, ⟨1, 0, 100, 0, false⟩, ⟨1, 49, 110, 0, true⟩,
   ⟨1, 50, 110, 0, true⟩, ⟨1, 53, 110, 0, true⟩, ⟨1, 1576, 200, 0, false⟩, ⟨1, 1617, 0, -4, false⟩]

def exampleHeader : Header :=
  { job := 31, line := 12, direction := .rtl, lens := 5, leading := 280, indent := 2000, measure := 1200, count := 8 }

theorem test_layoutOfTheExample : penStarts exampleSorts = [0, 240, 240, 560, 450, 340, 670, 870] := by decide
theorem test_carriageOfTheExample : ((penStarts exampleSorts).zip exampleSorts).map
    (fun p => carriageX exampleHeader p.1 p.2.advance) = [2960, 2960, 2860, 2530, 2640, 2750, 2330, 2330] := by decide
theorem test_edgeMarkIsOverset : commitCells [{ entryA with code := 1 }]
    { exampleHeader with direction := .ltr, indent := 13400, measure := 1000 }
    [⟨1, 1, 400, 0, false⟩, ⟨1, 1, 600, 0, false⟩, ⟨1, 1, 0, 0, false⟩] = .overset 1000 := by decide
theorem test_aRunHasItsEnds : let flags := runFlags false exampleSorts
    (∀ k, 3 ≤ k → k < 6 → flags[k]? = flags[4]?) ∧ flags[2]? ≠ flags[4]? ∧ flags[6]? ≠ flags[4]? := by
  refine ⟨?_, by decide, by decide⟩
  intro k h1 h2
  have : k = 3 ∨ k = 4 ∨ k = 5 := by omega
  rcases this with rfl | rfl | rfl <;> rfl
theorem test_commitFacts : (∀ g ∈ [sortA], g.code = 0 ∨ (lookup [entryA] g.font g.code).isSome = true)
    ∧ 99 < totalAdvance [sortA] ∧ (∃ cs, commitCells [entryA] (headerA 1) [sortA] = .cells cs) :=
  ⟨by decide, by decide, ⟨_, rfl⟩⟩
/-- The last edge of the carriage, and one past it: pen position 0 in a line indented to there. -/
theorem test_theCarriagesEnd : totalAdvance [sortA] ≤ (headerA 1).measure ∧ (penStarts [sortA])[0]? = some 0
    ∧ (match commitCells [entryA] { headerA 1 with indent := 14399 } [sortA] with
      | .cells cs => cs.length
      | _ => 0) = 1
    ∧ commitCells [entryA] { headerA 1 with indent := 14400 } [sortA] = .overset 100 := by decide

/-! ### Maps and trim -/

def loadBody (disc : Byte) : List Byte := [disc, 1, 1, 0, 66, 2, 41]

theorem test_mapLoadAccepted : (∀ disc, Waits .a 0x0A 7 (loadBody disc) (got .mapLoad (loadBody disc) atWork))
    ∧ malformed .mapLoad (atWork.store.assembly.get .a) (loadBody 5) = none
    ∧ (∀ e ∈ entriesFrom (loadBody 5) 2 1, e.inRange = true) ∧ byteAt (loadBody 5) 0 ≠ atWork.spin.mounted
    ∧ slotFor atWork.maps 5 = none ∧ (∃ m ∈ atWork.maps.toList, m = none) ∧ discNamed atWork.jobs 5 = false
    ∧ countAfter [] ((entriesFrom (loadBody 5) 2 1).filterMap RawEntry.entry) ≤ 760 :=
  ⟨fun disc => (got_waits .mapLoad (loadBody disc) atWork rfl).1, rfl, by decide, by decide, rfl, by decide, rfl, by decide⟩

/-- Four discs hold the four slots. -/
def fullMaps : Quad (Option MapSlot) :=
  ⟨some (disc3 .trimmed), some { disc3 .queued with disc := 1 }, some { disc3 .trimmed with disc := 2 },
    some { disc3 .trimmed with disc := 4 }⟩

theorem test_mapLoadRefused : ((entriesFrom [5, 1, 0, 0, 66, 2, 41] 2 1).map RawEntry.inRange).idxOf? false = some 0
    ∧ slotFor fullMaps 5 = none ∧ (∀ m ∈ fullMaps.toList, m ≠ none)
    ∧ slotFor fullMaps 3 = some (disc3 .trimmed) ∧ discNamed atWork.jobs 3 = true
    ∧ (((entriesFrom [3, 1, 1, 0, 65, 2, 41] 2 1).filterMap RawEntry.entry).map fun e =>
        hasKey (disc3 .trimmed).entries e.key).idxOf? true = some 0
    ∧ byteAt (loadBody 0) 0 < 1 ∧ 15 < byteAt (loadBody 16) 0 := by decide

/-- A slot of 760 entries, all with distinct codes. -/
def crowded : List MapEntry := (List.range 760).map fun n => { entryA with code := n + 100 }

theorem test_mapLoadFull : 760 < countAfter crowded ((entriesFrom (loadBody 5) 2 1).filterMap RawEntry.entry) := by
  decide +kernel

theorem test_mapClear : (Waits .a 0x0B 7 [1] (got .mapClear [1] { free with maps := fullMaps })
      ∧ Passed .a (got .mapClear [1] { free with maps := fullMaps }))
    ∧ slotFor fullMaps 1 = some { disc3 .queued with disc := 1 } ∧ slotFor fullMaps 5 = none
    ∧ slotFor fullMaps 2 = some { disc3 .trimmed with disc := 2 }
    ∧ ((disc3 .queued).trims.get 0).state = .queued ∧ (∀ t, ((disc3 .trimmed).trims.get t).state ≠ .queued
      ∧ ((disc3 .trimmed).trims.get t).state ≠ .searching)
    ∧ (atWork.jobs.filter fun j => j.disc == 3).map Job.number = [1, 2] :=
  ⟨got_waits .mapClear _ _ rfl, rfl, rfl, rfl, rfl, by decide, rfl⟩

def untrimmed : State := { free with
  maps := ⟨some (disc3 .untrimmed), none, none, none⟩, disc := { free.disc with locked := false } }

/-- MAP-LOAD of the mounted disc: track 5 has its first entry, and an UNTRIMMED record. -/
theorem test_mapLoadOfTheMountedDisc : (Waits .a 0x0A 7 [3, 1, 1, 0, 66, 5, 41]
        (got .mapLoad [3, 1, 1, 0, 66, 5, 41] untrimmed))
    ∧ byteAt [3, 1, 1, 0, 66, 5, 41] 0 = untrimmed.spin.mounted ∧ untrimmed.trim.queueDisc = 3
    ∧ untrimmed.disc.locked = false ∧ untrimmed.engine.ring = [] ∧ untrimmed.engine.state = .idle
    ∧ discNamed untrimmed.jobs 3 = false
    ∧ (mapLoad [3, 1, 1, 0, 66, 5, 41] untrimmed).1.trim.queue = [5] :=
  ⟨(got_waits .mapLoad _ untrimmed rfl).1, rfl, rfl, rfl, rfl, rfl, rfl, by decide +kernel⟩

theorem test_trimRestart : (∀ n, Waits .a 0x0C 7 [n] (got .trimRestart [n] untrimmed))
    ∧ untrimmed.spin.mounted ≠ 0 ∧ untrimmed.spin.unit ≠ .discChange
    ∧ (slotFor untrimmed.maps untrimmed.spin.mounted).isSome = true ∧ untrimmed.trim.queueDisc = untrimmed.spin.mounted
    ∧ untrimmed.disc.locked = false ∧ untrimmed.trim.search = none ∧ untrimmed.engine.ring = []
    ∧ untrimmed.engine.state = .idle ∧ (queueRec untrimmed 7).state.inSearch = false
    ∧ (queueRec { untrimmed with maps := ⟨some (disc3 .queued), none, none, none⟩ } 7).state = .queued
    ∧ State.reset.spin.mounted = 0 ∧ slotFor State.reset.maps 3 = none :=
  ⟨fun n => (got_waits .trimRestart [n] untrimmed rfl).1, by decide, by decide, rfl, rfl, rfl, rfl, rfl, rfl, rfl, rfl, rfl, rfl⟩

theorem test_limitsBankFilmSpinPanel : (∀ d, Waits .a 0x0D 7 d (got .trimLimits d atWork))
    ∧ (∀ d, Waits .a 0x0E 7 d (got .bankSet d atWork)) ∧ (∀ d, Waits .a 0x0F 7 d (got .filmSet d atWork))
    ∧ (∀ d, Waits .a 0x10 7 d (got .spinSet d atWork)) ∧ (∀ d, Waits .a 0x14 7 d (got .panelSet d atWork))
    ∧ (∀ k d, Passed .a (got k d atWork)) :=
  ⟨fun d => (got_waits .trimLimits d atWork rfl).1, fun d => (got_waits .bankSet d atWork rfl).1,
    fun d => (got_waits .filmSet d atWork rfl).1, fun d => (got_waits .spinSet d atWork rfl).1,
    fun d => (got_waits .panelSet d atWork rfl).1, fun _ _ => rfl⟩
theorem test_broadcastBankSet : let s := withLine .a { good with slot := some (.frame true 0x0E 7 [3, 1]) } atWork
    Passed .a s ∧ Up s ∧ (s.iface.get .a).tx = none ∧ (s.iface.get .a).slot = some (.frame true 0x0E 7 [3, 1]) :=
  ⟨rfl, rfl, rfl, rfl⟩
theorem test_ceilingBelowFloor : (trimLimits [9, 8, 4, 0, 3] atWork).2 = .refused .range 2 := by decide
theorem test_filmSetInPoints : (setFilm (100000 * 20) atWork).drive.film.remaining = 2000000 := by decide

/-! ### Hold, run, restart, reset -/

def heldAndStarved : State := { between with spin := { between.spin with hold := true } }

theorem test_holdAndRun : (Waits .a 0x11 7 [] (got .unitHold [] atWork) ∧ Waits .a 0x12 7 [] (got .unitRun [] atWork))
    ∧ (heldAndStarved.spin.hold = true ∧ heldAndStarved.jobs = [theJob 1 .routine .active 1 1]
      ∧ (theJob 1 .routine .active 1 1).held = false ∧ heldAndStarved.store.lines = []
      ∧ heldAndStarved.engine.state = .idle ∧ heldAndStarved.engine.current = none ∧ heldAndStarved.seq.grace = false
      ∧ Up heldAndStarved ∧ heldAndStarved.spin.unit ≠ .faulted)
    ∧ (free.jobs = [] ∧ free.engine.state = .idle) :=
  ⟨⟨(got_waits .unitHold [] atWork rfl).1, (got_waits .unitRun [] atWork rfl).1⟩,
    ⟨rfl, rfl, rfl, rfl, rfl, rfl, rfl, rfl, by decide⟩, rfl, rfl⟩

def inUnit (u : UnitState) (s : State) : State := { s with spin := { s.spin with unit := u } }

theorem test_spinUp : Waits .a 0x13 7 [] (got .restart [] (inUnit .faulted free))
    ∧ (inUnit .faulted free).spin.unit = .faulted ∧ free.spin.unit ≠ .faulted ∧ Up (inUnit .discChange free)
    ∧ (inUnit .discChange free).spin.unit = .discChange ∧ free.spin.unit ≠ .discChange :=
  ⟨(got_waits .restart [] (inUnit .faulted free) rfl).1, rfl, by decide, rfl, rfl, by decide⟩

theorem test_lampsFollowTheState : Up atWork ∧ Passed .a (got .poll [] atWork) ∧ (lamps (got .poll [] atWork)).ready = true
    ∧ (lamps atWork).ready = false ∧ (lamps (inUnit .faulted atWork)).fault = true := ⟨rfl, rfl, rfl, rfl, rfl⟩

def galleyClear (s : State) : State :=
  { s with drive := { s.drive with film := { s.drive.film with galleyOpen := false } } }

theorem test_unitReset : (Waits .a 0x15 7 [0] (got .reset [0] (galleyClear atWork))
      ∧ Passed .a (got .reset [0] (galleyClear atWork)))
    ∧ (galleyClear atWork).drive.film.galleyOpen = false ∧ (galleyClear atWork).engine.close = none
    ∧ ((galleyClear atWork).engine.current = none → (galleyClear atWork).engine.state = .idle) :=
  ⟨got_waits .reset [0] _ rfl, rfl, rfl, fun h => by cases h⟩
theorem test_unitResetClearsTheJobs : (unitReset .panel (galleyClear atWork)).jobs = []
    ∧ (unitReset .panel (galleyClear atWork)).spin.unit = .parked := by decide +kernel
/-- A reset with the galley open and the carriage moving, of a part with a QUEUED and a SEARCHING record: the close is
ordered, and the records take back what was prior. -/
theorem test_unitResetWithTheGalleyOpen : (moving.drive.film.galleyOpen = true ∧ moving.engine.close = none
      ∧ moving.drive.carriage.act = .stepping ∧ Up moving)
    ∧ (∀ st ∈ [TrimState.queued, .searching], (slotFor ⟨some (disc3 st), none, none, none⟩ 3).isSome = true
      ∧ ((disc3 st).trims.get 2).prior = some ⟨.untrimmed, 8⟩
      ∧ (let t := unitReset .panel { moving with maps := ⟨some (disc3 st), none, none, none⟩ }
        t.engine.state = .closing ∧ (t.queues.get .a).events = [.unitReset .panel]
          ∧ ((slotFor t.maps 3).map fun m => m.trims.get 2) = some TrimRec.fresh)) := by unfold Up; decide +kernel
theorem test_lineReset : ∀ n, Waits .a 0x15 7 [n] (got .reset [n] (assembling 1))
    ∧ Passed .a (got .reset [n] (assembling 1)) := fun n => got_waits .reset [n] _ rfl

/-! ### The receivers -/

def partialA (n : Option Byte) (data : List Byte) (hi : Option Byte) : Partial :=
  { broadcast := false, kind := some 2, tag := some 7, len := n, data := data, check := 0x1234, checkHi := hi }

def hears (rx : Rx) (s : State) : State := withLine .a { good with rx := rx, gap := some 230 } s

theorem test_aReceiverTakes : Up (hears .hunt atWork)
    ∧ (∀ rx ∈ [Rx.silent, .hunt, .passing, .discard, .taking (partialA none [] none)],
        ((hears rx atWork).iface.get .a).rx = rx)
    ∧ good.station.toNat ≠ 0 ∧ good.station.toNat ≠ 31 ∧ (31 : Byte).toNat = 31 ∧ (1 : Byte).toNat = good.station.toNat :=
  ⟨rfl, fun rx _ => rfl, by decide, by decide, by decide, by decide⟩
theorem test_framesInProgress : (partialA none [] none).len = none ∧ (250 : Byte).toNat ≤ 250 ∧ 250 < (251 : Byte).toNat
    ∧ (partialA (some 1) [] none).data.length < (1 : Byte).toNat
    ∧ (1 : Byte).toNat ≤ (partialA (some 1) [9] none).data.length
    ∧ (partialA (some 0) [] (some 0x12)).check = (0x12 : Byte) ++ (0x34 : Byte)
    ∧ (partialA (some 0) [] (some 0x12)).check ≠ (0x12 : Byte) ++ (0x35 : Byte) := by decide
theorem test_aLongLengthDiscards : ((hears (.taking (partialA none [] none)) atWork).iface.a.bodyCharacter 251).rx = .discard := by
  decide
theorem test_breakDropsTheAssembly : Up (assembling 1) ∧ ((assembling 1).iface.get .a).rx ≠ .silent
    ∧ (assembling 1).store.assembly.get .a = some (opened 1) := ⟨rfl, by decide, rfl⟩
theorem test_aGapRunsOut : (let s := withLine .a { good with rx := .taking (partialA none [] none), gap := some 0 } atWork
      Up s ∧ (s.iface.get .a).gap = some 0)
    ∧ ((hears .hunt atWork).iface.get .a).gap ≠ some 0 := by unfold Up; decide
theorem test_aWholeFrame : let s := withLine .a good atWork
    Up s ∧ ([] : List Byte).length ≤ 250 ∧ (s.iface.get .a).rx = .hunt ∧ (s.iface.get .a).slot = none
      ∧ (s.iface.get .a).station.toNat = 1 ∧ (List.replicate 250 (0 : Byte)).length ≤ 250 :=
  ⟨rfl, by decide, rfl, rfl, rfl, Nat.le_of_eq List.length_replicate⟩

/-! ### The disc -/

def uncoupled : State := { atWork with disc := { atWork.disc with channel := none } }

theorem test_edges : Up atWork ∧ uncoupled.disc.channel = none ∧ atWork.disc.locked = true ∧ atWork.disc.slipMark = false
    ∧ -4096 < atWork.disc.counter ∧ State.reset.disc.locked = false := ⟨rfl, rfl, rfl, rfl, by decide, rfl⟩
/-- In IDLE, FLASH, WAIT_FILM and WAIT_TRACK no end waits. -/
theorem test_noEndWaits : NoEndWaits atWork ∧ NoEndWaits free ∧ NoEndWaits moving ∧ NoMoveAwaited free :=
  ⟨trivial, trivial, (show moving.drive.carriage.act ≠ .atRest by decide), by unfold NoMoveAwaited; decide⟩
theorem test_anArrival : Up atWork ∧ NoEndWaits atWork ∧ atWork.engine.ring = itemA :: [] ∧ atWork.disc.valid = true
    ∧ atWork.disc.channel = some itemA.target ∧ atWork.disc.counter + 1 = itemA.target ∧ itemA.target < 2880
    ∧ takes itemA atWork = true ∧ takes itemA { atWork with disc := { atWork.disc with locked := false } } = false :=
  ⟨rfl, trivial, rfl, rfl, rfl, rfl, by decide, by decide, by decide⟩
theorem test_targetsOfTheExample : [targetAngle 40 8, targetAngle 41 7, targetAngle 70 10, targetAngle 80 8]
    = [1200, 1229, 2102, 2400] := by decide

def turning (u : UnitState) (d : Disc) : State := { inUnit u free with disc := d }
def round (p : Nat) (locked : Bool) : Disc :=
  { free.disc with counter := 2880, period := p, locked := locked, lockRun := if locked then 8 else 7 }

theorem test_indexEvents : (∀ u ∈ [UnitState.parked, .discChange, .faulted, .spinUp, .ready],
      Up (turning u (round 10000 true)) ∧ (turning u (round 10000 true)).engine.state = .idle
      ∧ (turning u (round 10000 true)).spin.unit = u)
    ∧ ({ round 10000 true with valid := false }).channel ≠ some 0
    ∧ ({ round 10000 true with counter := 2879, slipCount := 2 }).counter ≠ 2880
    ∧ (galleyClear free).drive.film.galleyOpen = false ∧ free.engine.current = none := by
  refine ⟨?_, by decide, by decide, rfl, rfl⟩
  unfold Up
  decide
theorem test_aJudgedRevolution : Up (turning .ready (round 9950 false)) ∧ (round 9950 false).valid = true
    ∧ (round 9950 false).counter = 2880 ∧ (turning .ready (round 9950 false)).engine.ring = []
    ∧ (turning .ready (round 9950 false)).trim.queue = [] ∧ (round 9950 false).channel = none
    ∧ (testPeriod 9950 (turning .ready (round 9950 false))).disc.locked = true
    ∧ (testPeriod 10101 (turning .ready (round 10101 true))).disc.locked = false := by unfold Up; decide +kernel

/-- A revolution of a stop that shows its item, judged with the lock and the stuck count given. -/
def shows (d : Disc) (stuck : Nat) : State := { atWork with
  disc := { d with channel := some 1200 }, engine := { atWork.engine with stuck := stuck } }

theorem test_aRevolutionCountsForTheStop : (∀ s ∈ [shows (round 10000 true) 3, shows (round 9000 false) 3,
        shows (round 10000 true) 15], Up s ∧ s.engine.state = .flash ∧ s.spin.unit = .exposing ∧ s.disc.valid = true
        ∧ s.disc.channel ≠ some 0 ∧ s.disc.counter = 2880 ∧ s.disc.slipMark = false ∧ s.engine.firedSinceIndex = false
        ∧ s.engine.ring.filter Item.isExposure = [itemA] ∧ (mountedRec s 2).state = .trimmed)
    ∧ (shows (round 10000 true) 3).disc.locked = true ∧ (shows (round 9000 false) 3).disc.locked = false
    ∧ (shows (round 9000 false) 3).disc.period < 9950
    ∧ (indexEvent 0 (shows (round 10000 true) 3)).engine.stuck = 4
    ∧ (indexEvent 0 (shows (round 9000 false) 3)).engine.stuck = 3 := by unfold Up; decide +kernel
theorem test_aStuckStop : (let s := shows (round 10000 true) 15
      activeJob s = some (theJob 1 .routine .active 2 0) ∧ (s.jobs.map Job.number).Nodup ∧ s.jobs.length ≤ 8
        ∧ s.engine.current = some { job := 1, line := 1 } ∧ s.drive.film.galleyOpen = true
        ∧ (∀ l ∈ [CLine.a, .b], s.store.assembly.get l = none) ∧ (s.queues.get .a).events.length ≤ 30)
    ∧ (let t := indexEvent 0 (shows (round 10000 true) 15)
      t.jobs.map Job.number = [2] ∧ t.engine.state = .closing
        ∧ (t.queues.get .a).events = [.start .power, .lineAbandoned 1 1 .stuck 0 0 0 (some 2), .jobFailed 1 2 2 0]) := by
  decide +kernel

def identifying (samples : List Nat) : State :=
  galleyClear (turning .identify { round 10000 true with samples := samples })

theorem test_identification : ∀ samples ∈ [[], [5], [1, 2, 1, 2, 1, 2, 1], [0]],
    Up (identifying samples) ∧ (identifying samples).spin.unit = .identify ∧ (identifying samples).engine.state = .idle
      ∧ (identifying samples).jobs = [] ∧ (identifying samples).disc.valid = true
      ∧ (identifying samples).disc.channel ≠ some 0 ∧ (identifying samples).disc.counter = 2880
      ∧ (identifying samples).drive.film.galleyOpen = false ∧ (identifying samples).engine.current = none
      ∧ ((identifying samples).queues.get .a).events.length < 32
      ∧ ((identifying samples).queues.get .b).events.length < 32 := by unfold Up; decide
theorem test_twoEqualSamplesMount : (sampleRing 5 (identifying [5])).spin.mounted = 5
    ∧ (sampleRing 0 (identifying [0])).spin.unit = .discChange := by decide +kernel

/-- In SPIN_UP one good period short of LOCKED, with homing done. -/
def spinningUp (locked : Bool) : State :=
  let s := galleyClear (turning .spinUp (round 10000 locked))
  { s with drive := { s.drive with homingDone := true } }

theorem test_spinUpGivesWay : (Up (spinningUp false) ∧ (spinningUp false).spin.unit = .spinUp
      ∧ (spinningUp false).disc.locked = false ∧ (spinningUp false).disc.lockRun = 7
      ∧ (indexEvent 5 (spinningUp false)).spin.unit = .identify)
    ∧ (let s := { spinningUp true with drive := { (spinningUp true).drive with
          carriage := { (spinningUp true).drive.carriage with act := .homing .seek }
          deflector := { (spinningUp true).drive.deflector with act := .homing .seek, homingRise := true }
          turret := { (spinningUp true).drive.turret with act := .homing .seek } } }
      s.spin.unit = .spinUp ∧ s.disc.locked = true ∧ s.engine.state = .idle ∧ s.drive.limitC = none
        ∧ s.drive.limitD = none ∧ s.drive.limitT = none
        ∧ ∀ f ∈ [fun d : Drive => d.carriageStepEnd true, fun d => d.deflectorStepEnd true true,
          fun d => d.turretStepEnd true], (driveChanged f s).spin.unit = .identify) := by unfold Up; decide +kernel

/-- Disc 3 has been read once, and job 1 with a line waits: for disc 3 or another, free or held, waiting or ACTIVE. -/
def wanted (st : JobState) (disc : Nat) (hold : Bool) : State :=
  let s := identifying [3]
  { s with jobs := [{ theJob 1 .routine st 1 0 with disc := disc }], store := { s.store with lines := [lineA 1 false] }
           spin := { s.spin with hold := hold } }

theorem test_identificationWithAJobWaiting : (winner (wanted .queued 3 false) = some (theJob 1 .routine .queued 1 0)
      ∧ activeJob (wanted .queued 3 false) = none
      ∧ (indexEvent 3 (wanted .queued 3 false)).engine.current = some { job := 1, line := 1 })
    ∧ ((winner (wanted .queued 4 false)).isSome = true ∧ (indexEvent 3 (wanted .queued 4 false)).spin.requested = some 4)
    ∧ (indexEvent 3 (wanted .queued 3 true)).spin.unit = .ready
    ∧ (activeJob (wanted .active 3 false) = some (theJob 1 .routine .active 1 0) ∧ (wanted .active 3 false).seq.grace = false
      ∧ (indexEvent 3 (wanted .active 3 false)).engine.current = some { job := 1, line := 1 }) := by decide +kernel

def timed (s : State) : State := { s with
  disc := { s.disc with spinup := some 0, stall := some 0, unlock := some 0 }
  bank := { s.bank with watch := some 0 }
  drive := { s.drive with limitC := some 0, limitD := some 0, limitT := some 0 } }

theorem test_aStoppedLimitAndAnOpenGalley : (isLimit .stall = true ∧ raises .stall atWork = none)
    ∧ (raises .stall { atWork with disc := { atWork.disc with stall := some 30000 } } = none)
    ∧ ((raises .stall (timed moving)).isSome = true ∧ (timed moving).spin.unit.spinning = true
      ∧ (timed moving).drive.film.galleyOpen = true ∧ (timed moving).engine.state ≠ .closing
      ∧ (timed moving).drive.carriage.act = .stepping)
    ∧ (handFault .stall 4 (timed moving)).engine.state = .closing := by decide +kernel

theorem test_faults : (∀ c ∈ [Instr.spinupFault, .stall, .speedFault, .chargeFault, .homeFault .carriage,
      .homeFault .deflector, .homeFault .turret], (raises c (timed atWork)).isSome = true)
    ∧ Up (timed atWork) ∧ (inUnit .parked (timed free)).spin.unit.spinning = false
    ∧ (timed free).spin.unit.spinning = true ∧ activeJob (timed free) = none
    ∧ (timed free).engine.state = .idle ∧ (galleyClear (timed free)).drive.film.galleyOpen = false
    ∧ activeJob (galleyClear (timed atWork)) = some (theJob 1 .routine .active 2 0)
    ∧ (galleyClear (timed atWork)).engine.current = some { job := 1, line := 1 }
    ∧ ((timed atWork).queues.get .a).events.length ≤ 29 :=
  ⟨by decide, rfl, rfl, rfl, rfl, rfl, rfl, rfl, rfl, by decide⟩

/-! ### Reports, events, bank, photocell, search -/

theorem test_enquireAndPoll : (∀ d, Waits .a 0x01 7 d (got .enquire d atWork))
    ∧ (∀ d, Waits .a 0x02 7 d (got .poll d atWork)) ∧ findJob atWork.jobs 1 = some (theJob 1 .routine .active 2 0)
    ∧ findJob atWork.jobs 9 = none
    ∧ (let s := withLine .a { good with slot := some (.frame true 0x02 7 []) } atWork
      Up s ∧ (s.iface.get .a).tx = none ∧ (s.iface.get .a).slot = some (.frame true 0x02 7 []))
    ∧ atWork.disc.samples.length ≤ 8 ∧ atWork.trim.queue.length ≤ 8 :=
  ⟨fun d => (got_waits .enquire d atWork rfl).1, fun d => (got_waits .poll d atWork rfl).1, rfl, rfl, ⟨rfl, rfl, rfl⟩,
    by decide, by decide⟩
theorem test_anEventRecord : (Event.fault .encoder (-2)).bytes = [20, 0, 0, 0, 0xFF, 0xFE, 0, 0, 0, 0, 0, 0] := by decide
theorem test_bankSample : Up atWork ∧ atWork.bank.set ≤ 3
    ∧ (Bank.sample { Bank.started with readyRun := 2, heavyRun := 2, watch := some 12500 } 210).state = .heavyReady
    ∧ (Bank.sample { Bank.started with readyRun := 2, watch := some 12500 } 209).lastRecharge = 250 := by unfold Up; decide

def watched (of : WatchOf) (s : State) : State :=
  { s with engine := { s.engine with watch := some { of := of, hit := false, left := 0 } } }

def searching : Search :=
  { track := 5, code := 9, tried := 3, limit := 9, dwell := 4, missLimit := 0, fired := 3, misses := 0 }

def inSearch (s : State) : State := { s with
  maps := ⟨some (disc3 .searching), none, none, none⟩, trim := { s.trim with search := some searching } }

theorem test_results : (let s := watched (.exposure 2 true) atWork
      Up s ∧ exposures s ≠ [] ∧ (queueRec s 2).state = .trimmed
        ∧ ((windowAdd (s.trim.windows.get 2) true).filter id).length ≤ s.trim.limits.monitorMiss
        ∧ (queueRec { s with maps := ⟨some (disc3 .queued), none, none, none⟩ } 2).state ≠ .trimmed)
    ∧ (let s := { watched (.exposure 2 true) atWork with
          trim := { atWork.trim with search := some searching, windows := Oct.fill [true, true, true] } }
      (slotFor s.maps s.trim.queueDisc).isSome = true ∧ s.trim.search.isSome = true
        ∧ s.trim.limits.monitorMiss < ((windowAdd (s.trim.windows.get 2) true).filter id).length)
    ∧ (let s := watched (.test 5 true) (inSearch atWork)
      s.trim.search = some searching ∧ { searching with fired := 2 }.fired + 1 < searching.dwell) := by
  unfold Up; decide +kernel
theorem test_search : (let s := { free with
        maps := ⟨some (disc3 .queued), none, none, none⟩, trim := { free.trim with queue := [2] } }
      s.disc.locked = true ∧ s.trim.search = none ∧ s.trim.queue = 2 :: []
        ∧ (slotFor s.maps s.trim.queueDisc).isSome = true ∧ (queueRec s 2).prior = some ⟨.untrimmed, 8⟩)
    ∧ (let s := watched (.test 5 true) (inSearch free)
      Up s ∧ s.engine.state = .idle ∧ s.trim.search = some searching ∧ searching.fired + 1 = searching.dwell
        ∧ s.trim.queue = [] ∧ (slotFor s.maps s.trim.queueDisc).isSome = true
        ∧ (queueRec s 5).prior = some ⟨.untrimmed, 8⟩) := by unfold Up; decide
theorem test_searchWraps : [nextCode Trim.started.limits 11, nextCode Trim.started.limits 12] = [12, 4] := by decide

/-! ### The mechanisms -/

theorem test_carriageStep : Up moving ∧ moving.drive.carriage.act = .stepping ∧ moving.spin.unit ≠ .spinUp
    ∧ moving.drive.carriage.countStep.takeUp = 5 ∧ moving.drive.carriage.countStep.position = 0 := by unfold Up; decide

def turningMechs : State := { free with drive := { free.drive with
  deflector := { free.drive.deflector with act := .stepping, target := some (3, -7), step := .trackUp, left := 150 }
  turret := { free.drive.turret with act := .stepping, target := some 7, forward := false, left := 4000 } } }

theorem test_deflectorAndTurret : Up turningMechs ∧ turningMechs.engine.state = .idle ∧ turningMechs.spin.unit ≠ .spinUp
    ∧ turningMechs.drive.deflector.target = some (3, -7) ∧ turningMechs.drive.deflector.track ≤ 7
    ∧ -7 ≤ turningMechs.drive.deflector.rise ∧ turningMechs.drive.turret.target = some 7
    ∧ turningMechs.drive.turret.position < 8 ∧ turningMechs.drive.turret.countStep.position = 7 := by
  unfold Up; decide

/-- A restart leaves a mechanism in motion to end its move. -/
theorem test_spinUpOfMovingMechanisms : (inUnit .faulted turningMechs).drive.turret.act ≠ .atRest
    ∧ (inUnit .faulted turningMechs).drive.deflector.act ≠ .atRest ∧ moving.drive.carriage.act ≠ .atRest
    ∧ (enterSpinUp turningMechs).drive.turret = turningMechs.drive.turret
    ∧ (enterSpinUp turningMechs).drive.carriage.act = .homing .seek := by decide

def homing : State := { free with
  disc := { free.disc with locked := false }
  drive := { free.drive with
    carriage := { free.drive.carriage with act := .homing .seek }
    deflector := { free.drive.deflector with act := .homing .seek, homingRise := true }
    turret := { free.drive.turret with act := .homing .seek } } }

theorem test_homing : Up homing ∧ homing.engine.state = .idle ∧ homing.disc.locked = false
    ∧ homing.drive.carriage.act = .homing .seek ∧ homing.drive.deflector.act = .homing .seek
    ∧ homing.drive.deflector.homingRise = true ∧ homing.drive.held = none
    ∧ homing.drive.turret.act = .homing .seek := by unfold Up; decide

/-- The same mechanisms on one leg, the deflector in its track phase. -/
def leaving (leg : HomeLeg) : State := { homing with drive := { homing.drive with
  carriage := { homing.drive.carriage with act := .homing leg }
  deflector := { homing.drive.deflector with act := .homing leg, homingRise := false }
  turret := { homing.drive.turret with act := .homing leg } } }

theorem test_homingGoesOn : (∀ leg ∈ [HomeLeg.out, .seek], Up (leaving leg) ∧ NoEndWaits (leaving leg)
      ∧ (leaving leg).disc.locked = false ∧ (leaving leg).drive.carriage.act = .homing leg
      ∧ (leaving leg).drive.turret.act = .homing leg ∧ (leaving leg).drive.deflector.act = .homing leg
      ∧ (leaving leg).drive.deflector.homingRise = false
      ∧ ((leaving leg).drive.carriageStepEnd false).carriage.act = .homing .seek
      ∧ ((leaving leg).drive.turretStepEnd false).turret.act = .homing .seek)
    ∧ ((leaving .out).drive.carriageStepEnd true).carriage.act = .homing .out
    ∧ (homing.drive.deflectorStepEnd true false).deflector.act = .homing .seek
    ∧ (let d := ((leaving .seek).drive.deflectorStepEnd true true).deflector
      d.homingRise = true ∧ d.act = .homing .out ∧ d.step = .riseUp)
    ∧ (let d := ((leaving .seek).drive.deflectorStepEnd true false).deflector
      d.homingRise = true ∧ d.act = .homing .seek ∧ d.step = .riseDown) := by
  refine ⟨?_, by decide⟩
  intro leg h
  refine ⟨rfl, trivial, ?_⟩
  revert leg
  decide

def closing (p : ClosePhase) (advance : Option Nat) : State := { between with
  engine := { between.engine with state := .closing, close := some { job := some (1, .a), phase := p, steps := 720 } }
  drive := { between.drive with film := { between.drive.film with advance := advance } } }

theorem test_filmAndClose : Up (closing .advancing (some 2)) ∧ (closing .advancing (some 2)).engine.state ≠ .move
    ∧ (closing .advancing (some 1)).engine.state = .closing ∧ (closing .advancing (some 1)).drive.film.advance = some 1
    ∧ (closing .cutting none).seq.pendingSel = false
    ∧ (cutEnds (closing .cutting none)).engine.state = .idle := by unfold Up; decide +kernel
theorem test_closeWithASelectionPending : ∀ js ∈ [[], [theJob 1 .routine .suspended 1 0]],
    let s := { closing .cutting none with
      jobs := js, seq := { between.seq with pendingSel := true }, store := { between.store with lines := [lineA 1 false] } }
    activeJob s = none ∧ s.seq.pendingSel = true ∧ s.spin.unit = .ready ∧ s.spin.hold = false ∧ s.spin.mounted = 3
      ∧ winner s = js.head? ∧ (cutEnds s).seq.pendingSel = false
      ∧ (cutEnds s).engine.current = js.head?.map fun _ => { job := 1, line := 1 } := by decide +kernel

/-- The turret has settled a move with its homing limit running. -/
theorem test_homingAfterASettle : let s := { free with drive := { free.drive with
      turret := { free.drive.turret with act := .settling }, limitT := some 500000 } }
    Up s ∧ NoMoveAwaited s ∧ s.drive.limitT.isSome = true ∧ (s.drive.settleEnd .turret).turret.act = .homing .seek := by
  unfold Up NoMoveAwaited; decide

/-- The last flash of the first of two stops has been fired. -/
def firstStop : State := { atWork with
  engine := { atWork.engine with ring := [], stops := [stopA, { stopA with x := 90 }]
                                 watch := some { of := .exposure 2 true, hit := true, left := 0 } }
  disc := { atWork.disc with channel := none } }

theorem test_nextStop : (Up firstStop ∧ firstStop.engine.state = .flash ∧ firstStop.engine.ring = []
      ∧ firstStop.engine.stops[firstStop.engine.stopNo]? = some { stopA with x := 90 }
      ∧ firstStop.drive.carriage.act = .atRest ∧ firstStop.drive.carriage.position ≠ 90)
    ∧ (closeWatch firstStop).engine.state = .move ∧ (closeWatch firstStop).drive.carriage.target = some 90 := by
  unfold Up; decide +kernel

/-- Track 2's last test flash at the last code, under the stop's item. -/
def lastTest (st : EngineState) (hit : Bool) (other : TrimState) : State := { atWork with
  maps := ⟨some { disc3 other with
    trims := (disc3 other).trims.set 2 { code := 12, state := .searching, prior := some ⟨.untrimmed, 8⟩ } }, none, none, none⟩
  trim := { atWork.trim with search := some { searching with track := 2, code := 12, tried := 9 } }
  engine := { atWork.engine with
    state := st, ring := [itemA, .exposure { index := 1, track := 3, position := 50, rise := 0, heavy := false } 1500 0]
    watch := some { of := .test 2 true, hit := hit, left := 0 } } }

theorem test_aSearchEndsUnderAStop : (let s := lastTest .flash false .trimmed
      Up s ∧ s.trim.search = some { searching with track := 2, code := 12, tried := 9 } ∧ s.trim.queue = []
        ∧ s.trim.queueDisc = s.spin.mounted ∧ (slotFor s.maps s.spin.mounted).isSome = true
        ∧ searching.fired + 1 = searching.dwell ∧ (closeWatch s).engine.state = .waitTrack)
    ∧ (closeWatch (lastTest .waitTrack true .trimmed)).engine.state = .flash
    ∧ (closeWatch (lastTest .waitTrack true .unusable)).engine.state = .waitTrack := by unfold Up; decide +kernel

theorem test_settles : (let s := { free with drive := { free.drive with
        carriage := { free.drive.carriage with act := .settling }
        deflector := { free.drive.deflector with act := .settling }
        turret := { free.drive.turret with act := .settling } } }
      Up s ∧ NoMoveAwaited s)
    ∧ (let s := { moving with drive := { moving.drive with
        carriage := { moving.drive.carriage with act := .settling } } }
      s.engine.state = .move ∧ { s.engine with state := .prepare }.stops ≠ [] ∧ s.drive.turret.act = .atRest
        ∧ s.drive.film.advance = none) := by unfold Up NoMoveAwaited; decide

/-! ### Timers, film, supply -/

def starving (jobs : List Job) : State := { between with jobs := jobs, seq := { between.seq with starve := some 0 } }

theorem test_timers : (Up (assembling 1) ∧ (assembling 1).store.assembly.get .a = some (opened 1)
      ∧ (opened 1).deadline ≠ 0 ∧ { opened 1 with deadline := 0 }.deadline = 0 ∧ atWork.store.assembly.get .a = none)
    ∧ (let s := starving [theJob 1 .routine .active 1 1, theJob 2 .routine .queued 1 0]
      Up s ∧ s.seq.starve = some 0 ∧ activeJob s = some (theJob 1 .routine .active 1 1)
        ∧ theJob 2 .routine .queued 1 0 ∈ s.jobs ∧ s.drive.carriage.act = .atRest ∧ s.drive.deflector.act = .atRest
        ∧ s.drive.turret.act = .atRest ∧ s.drive.film.advance = none ∧ s.drive.film.galleyOpen = true
        ∧ 0 < s.drive.film.remaining ∧ (graceEnds s).engine.state = .closing)
    ∧ (graceEnds (starving [theJob 1 .routine .active 1 1])).seq.grace = true
    ∧ between.seq.starve ≠ some 0 ∧ between.spin.parkTimer ≠ some 0
    ∧ { between.spin with parkTimer := some 0 }.parkTimer = some 0 := by unfold Up; decide +kernel
/-- FILM LOADED finds a close ordered that has not begun. -/
theorem test_filmLoadedBeforeAClose : (Up (ordered []) ∧ (ordered []).drive.allAtRest = true ∧ (ordered []).jobs = []
      ∧ filmBusy (ordered []) = false)
    ∧ (loadFilm (ordered [])).engine.state = .idle ∧ (loadFilm (ordered [])).drive.film.galleyOpen = false := by
  unfold Up; decide +kernel

theorem test_filmLoaded : Up (waitingForFilm 959) ∧ filmBusy (waitingForFilm 959) = false
    ∧ filmBusy (closing .cutting none) = true ∧ filmBusy (closing .advancing (some 1)) = true
    ∧ (waitingForFilm 959).store.lines.find? (fun x => x.current) = some (lineA 1 true)
    ∧ (loadFilm (waitingForFilm 959)).engine.state = .waitFilm
    ∧ (loadFilm (waitingForFilm 960)).engine.state = .prepare
    ∧ (loadFilm atWork).drive.film.remaining = 100000 := by unfold Up; decide +kernel

def inLow : State := { atWork with spin := { atWork.spin with supply := .low } }

theorem test_supply : inLow.spin.supply = .low ∧ Up atWork ∧ (∀ inp, Instr.holdKey ≠ .supplyStart inp)
    ∧ (∀ inp, Instr.holdKey ≠ .powerStart inp) ∧ (outputsOff atWork).bank.charger = false :=
  ⟨rfl, rfl, (fun _ h => nomatch h), (fun _ h => nomatch h), rfl⟩

/-! ### Selection and the line boundary -/

theorem test_winners : winner { free with jobs := [theJob 1 .routine .queued 1 0, theJob 2 .priority .queued 1 0,
      { theJob 3 .priority .suspended 1 0 with disc := 4, order := 1 }] } = some (theJob 2 .priority .queued 1 0)
    ∧ winner free = none := by decide

/-- A held part with line 1 of a suspended job waiting. -/
def held (u : UnitState) (disc : Nat) : State := galleyClear { inUnit u free with
  jobs := [{ theJob 1 .routine .suspended 1 0 with disc := disc, reason := some .fault }]
  store := { atWork.store with lines := [lineA 1 false] }
  spin := { free.spin with unit := u, hold := true, requested := some 5 } }

theorem test_selections : ∀ u ∈ [UnitState.parked, .spinUp, .identify, .ready, .discChange], ∀ disc ∈ [3, 4],
    Up (held u disc) ∧ (held u disc).spin.unit ≠ .faulted ∧ (held u disc).spin.hold = true
      ∧ (held u disc).engine.state = .idle ∧ (held u disc).engine.current = none ∧ activeJob (held u disc) = none
      ∧ (winner (held u disc)).isSome = true := by unfold Up; decide
theorem test_theWinnerIsHandedItsLine : let t := runKey (held .ready 3)
    (t.engine.current = some { job := 1, line := 1 } ∧ t.engine.state = .prepare ∧ t.spin.unit = .exposing
      ∧ (t.queues.get .a).events = [.start .power, .jobResumed 1 (some .fault) 0])
      ∧ (runKey (held .ready 4)).spin.unit = .discChange
      ∧ (runKey (held .parked 3)).spin.unit = .spinUp := by decide +kernel

/-- The last flash of line 1 has been fired, and its watch is open. -/
def lastWatch (j : Job) (others : List Job) (hold : Bool) (lines : List LineRecord) : State := { atWork with
  jobs := j :: others
  store := { atWork.store with lines := lineA 1 true :: lines }
  engine := { atWork.engine with
    ring := [], watch := some { of := .exposure 2 true, hit := false, left := 0 }, deferral := 2 }
  disc := { atWork.disc with channel := none }
  spin := { atWork.spin with hold := hold } }

theorem test_lastWatch : let s := lastWatch (theJob 1 .routine .active 2 0) [] false [lineA 2 false]
    (Up s ∧ activeJob s = some (theJob 1 .routine .active 2 0) ∧ s.engine.current = some { job := 1, line := 1 }
      ∧ s.engine.state = .flash ∧ s.engine.ring = [] ∧ s.engine.stops.length ≤ s.engine.stopNo
      ∧ s.drive.film.galleyOpen = true ∧ s.spin.unit = .exposing ∧ s.seq.starve = none ∧ s.seq.grace = false)
    ∧ (s.jobs.map Job.number).Nodup ∧ s.jobs.length ≤ 8 := by unfold Up; decide

theorem test_boundaryContinuesOrStarves :
    (let t := closeWatch (lastWatch (theJob 1 .routine .active 2 0) [] false [lineA 2 false]);
      t.engine.current = some { job := 1, line := 2 } ∧ t.engine.state = .prepare ∧ t.spin.unit = .exposing
        ∧ (t.queues.get .a).events = [.start .power, .lineSet 1 1 1 2])
    ∧ (let t := closeWatch (lastWatch (theJob 1 .routine .active 1 0) [] false []);
      t.seq.starve = some 500000 ∧ t.engine.state = .idle ∧ t.spin.parkTimer = some 60000000)
    ∧ (let t := closeWatch (lastWatch (theJob 1 .routine .active 2 0) [] true [lineA 2 false]);
      t.engine.state = .idle ∧ t.engine.current = none ∧ t.spin.unit = .ready) := by decide +kernel

theorem test_boundaryEndsTheJobOrGivesItUp :
    (let t := closeWatch (lastWatch { theJob 1 .routine .active 1 0 with final := some 1 } [] true []);
      t.jobs = [] ∧ t.engine.state = .closing
        ∧ (t.queues.get .a).events = [.start .power, .lineSet 1 1 1 2, .jobDone 1 1])
    ∧ (let t := closeWatch (lastWatch { theJob 1 .routine .active 2 0 with held := true } [] false [lineA 2 false]);
      t.jobs.map Job.state = [.held] ∧ t.engine.state = .closing)
    ∧ (let t := closeWatch (lastWatch (theJob 1 .routine .active 2 0) [theJob 2 .bulletin .queued 1 0] false [lineA 2 false]);
      t.jobs.map Job.state = [.suspended, .queued] ∧ t.jobs.map Job.reason = [some .preempted, none]
        ∧ (t.queues.get .a).events = [.start .power, .lineSet 1 1 1 2, .jobSuspended 1 .preempted 2 1]) := by
  decide +kernel

/-! ### Stops and ring -/

def cellAt (x : Nat) : Cell := { glyph := sortA, res := .placed 2 40 false x }

theorem test_stopsOfTheExample : (stopsOf ([2960, 2960, 2530, 2640, 2750, 2330, 2330].map cellAt)).map
    (fun st => (st.x, st.entries.length)) = [(2330, 2), (2530, 1), (2640, 1), (2750, 1), (2960, 2)] := by decide
theorem test_sweepOfTheExample :
    sweepFrom 3100 (stopsOf ([2330, 2960].map cellAt)) = .descending
      ∧ sweepFrom 2645 (stopsOf ([2330, 2960].map cellAt)) = .ascending := by decide
theorem test_theRingIsAhead : (insertItem 1100 (.test 0 1150) [.test 1 1120, .test 2 1150, .test 3 1090]).map Item.target
    = [1120, 1150, 1150, 1090] ∧ ahead 1200 1200 = 2880 ∧ ahead (-5) 0 = 0 ∧ ahead 2880 7 = 7 := by decide

end Sys2Proof.Tests
end

