-- ==== Sys2Proof/Proofs/MapSlots.lean ====
section
/-!
SUPPORT. Rules for the messages about maps: the answer of a message whose own checks have been judged, the first failing
element of a list, the records of a slot, the slots of the discs, and the lookup of a key.
-/
namespace Sys2Proof.Machine

variable {s : State}

/-! ### The answer to a message that passes the leading checks -/

/-- A waiting message of a kind with one row is answered with what its block makes of it. -/
theorem answered_of_act (k : MsgKind) (l : CLine) (act : Bool → List Byte → State → Handled) {tag : Byte}
    {d : List Byte} {body : ReplyBody} {f : State → State} (hw : Waits l k.code tag d s)
    (hl : leadingFault k l d s = none) (ha : act false d (emptySlot l s) = (f (emptySlot l s), body)) :
    powered s (handle k l anyBody act) = answered l tag body f s := by
  rw [handled k l anyBody act tag d hw rfl hl, ha]
  rfl

/-- MAP-LOAD is answered with what `mapLoad` makes of it once PASS stands and its body is well formed. -/
theorem exec_mapLoad {l : CLine} {tag : Byte} {d : List Byte} {body : ReplyBody} {f : State → State}
    (hw : Waits l 0x0A tag d s) (hp : Passed l s) (hm : malformed .mapLoad (s.store.assembly.get l) d = none)
    (ha : mapLoad d (emptySlot l s) = (f (emptySlot l s), body)) :
    exec (.mapLoad l) s = .next (answered l tag body f s) :=
  congrArg _ (answered_of_act .mapLoad l (fun _ d => mapLoad d) hw
    (leadingFault_none _ _ _ hm (fun _ => hp) (wrongOwner_unnamed _ _ _ rfl)) ha)

/-- MAP-CLEAR is answered with what `mapClear` makes of it once PASS stands and its body is one byte. -/
theorem exec_mapClear {l : CLine} {tag n : Byte} {body : ReplyBody} {f : State → State}
    (hw : Waits l 0x0B tag [n] s) (hp : Passed l s) (ha : mapClear [n] (emptySlot l s) = (f (emptySlot l s), body)) :
    exec (.mapClear l) s = .next (answered l tag body f s) :=
  congrArg _ (answered_of_act .mapClear l (fun _ d => mapClear d) hw
    (leadingFault_none _ _ _ rfl (fun _ => hp) (wrongOwner_unnamed _ _ _ rfl)) ha)

/-! ### The first element that fails a check -/

theorem firstFailing_eq_idxOf {α : Type} (ok : α → Bool) (xs : List α) (i : Nat) :
    firstFailing ok xs i = ((xs.map ok).idxOf? false).map (· + i) := by
  induction xs generalizing i with
  | nil => rfl
  | cons x xs ih =>
    cases hx : ok x
    · simp [firstFailing, hx, List.idxOf?_cons]
    · simp [firstFailing, hx, List.idxOf?_cons, ih, Function.comp_def, Nat.add_assoc, Nat.add_comm 1 i]

theorem firstFailing_not_eq_idxOf {α : Type} (p : α → Bool) (xs : List α) (i : Nat) :
    firstFailing (fun x => !p x) xs i = ((xs.map p).idxOf? true).map (· + i) := by
  induction xs generalizing i with
  | nil => rfl
  | cons x xs ih =>
    cases hx : p x
    · simp [firstFailing, hx, List.idxOf?_cons, ih, Function.comp_def, Nat.add_assoc, Nat.add_comm 1 i]
    · simp [firstFailing, hx, List.idxOf?_cons]

theorem firstFailing_none {α : Type} {ok : α → Bool} {xs : List α} (h : ∀ x ∈ xs, ok x = true) (i : Nat) :
    firstFailing ok xs i = none := by
  induction xs generalizing i with
  | nil => rfl
  | cons x xs ih =>
    obtain ⟨hx, hxs⟩ := List.forall_mem_cons.1 h
    simp [firstFailing, hx, ih hxs]

/-! ### The records of a slot -/

theorem mem_allTracks (t : Track) : t ∈ allTracks := by
  revert t
  decide

theorem allTracks_nodup : allTracks.Nodup := by decide

theorem Oct.toList_eq_map {α : Type} (o : Oct α) : o.toList = allTracks.map o.get := rfl

theorem track_cases (t : Track) : t = 0 ∨ t = 1 ∨ t = 2 ∨ t = 3 ∨ t = 4 ∨ t = 5 ∨ t = 6 ∨ t = 7 := by
  revert t
  decide

@[simp] theorem Oct.get_fill {α : Type} (v : α) (t : Track) : (Oct.fill v).get t = v := by
  rcases track_cases t with rfl | rfl | rfl | rfl | rfl | rfl | rfl | rfl <;> rfl

theorem Oct.get_set {α : Type} (o : Oct α) (t u : Track) (v : α) :
    (o.set t v).get u = if u = t then v else o.get u := by
  rcases track_cases t with rfl | rfl | rfl | rfl | rfl | rfl | rfl | rfl
  all_goals rcases track_cases u with rfl | rfl | rfl | rfl | rfl | rfl | rfl | rfl <;> rfl

theorem TrimState.inSearch_iff (st : TrimState) : st.inSearch = true ↔ st = .queued ∨ st = .searching := by
  cases st <;> simp [TrimState.inSearch]

/-- Some record of a slot waits for its search or is being searched. -/
theorem any_inSearch_iff (o : Oct TrimRec) :
    (o.toList.any fun r => r.state.inSearch) = true ↔ ∃ t, (o.get t).state = .queued ∨ (o.get t).state = .searching := by
  simp [Oct.toList_eq_map, TrimState.inSearch_iff, mem_allTracks]

/-! ### The slots of the discs -/

theorem slotFor_disc {q : Quad (Option MapSlot)} {d : Nat} {m : MapSlot} (h : slotFor q d = some m) : m.disc = d := by
  simpa using List.find?_some h

theorem slotFree_iff (q : Quad (Option MapSlot)) : slotFree q = true ↔ ∃ o ∈ q.toList, o = none := by
  simp [slotFree]

/-- An update of a disc's slot that leaves its disc reaches no other disc's slot. -/
theorem slotFor_updateSlot (q : Quad (Option MapSlot)) (d e : Nat) {f : MapSlot → MapSlot}
    (hf : ∀ m, m.disc = d → (f m).disc = d) :
    slotFor (updateSlot q d f) e = if e = d then (slotFor q d).map f else slotFor q e := by
  have hdisc : ∀ m : MapSlot, (if m.disc = d then f m else m).disc = m.disc := by
    intro m
    split
    · next h => rw [hf m h, h]
    · rfl
  have hmap : slotFor (updateSlot q d f) e = (slotFor q e).map fun m => if m.disc = d then f m else m := by
    have hlist : (updateSlot q d f).toList = q.toList.map (Option.map fun m => if m.disc = d then f m else m) := rfl
    simp only [slotFor, hlist, List.filterMap_map, Function.id_comp]
    rw [show List.filterMap (Option.map fun m => if m.disc = d then f m else m) q.toList
        = (q.toList.filterMap id).map fun m => if m.disc = d then f m else m from by simp [List.map_filterMap]]
    simp only [List.find?_map, Function.comp_def, hdisc]
  rw [hmap]
  split
  · next he =>
    subst he
    cases hs : slotFor q e with
    | none => rfl
    | some m => simp [slotFor_disc hs]
  · next he =>
    cases hs : slotFor q e with
    | none => rfl
    | some m => simp [slotFor_disc hs, he]

/-- A FREE slot taken for a disc that had none holds that disc. -/
theorem slotFor_takeSlot_same {q : Quad (Option MapSlot)} {m : MapSlot} (hnone : slotFor q m.disc = none)
    (hfree : ∃ o ∈ q.toList, o = none) : slotFor (takeSlot q m) m.disc = some m := by
  obtain ⟨a, b, c, e⟩ := q
  cases a with
  | none => simp [slotFor, takeSlot, Quad.toList]
  | some a =>
    cases b with
    | none => simp_all [slotFor, takeSlot, Quad.toList]
    | some b =>
      cases c with
      | none => simp_all [slotFor, takeSlot, Quad.toList]
      | some c =>
        cases e with
        | none => simp_all [slotFor, takeSlot, Quad.toList]
        | some e => simp [Quad.toList] at hfree

/-- Taking a slot for a disc reaches no other disc's slot. -/
theorem slotFor_takeSlot_other (q : Quad (Option MapSlot)) {m : MapSlot} {d : Nat} (hd : d ≠ m.disc) :
    slotFor (takeSlot q m) d = slotFor q d := by
  obtain ⟨a, b, c, e⟩ := q
  have hne : (m.disc == d) = false := by simpa using hd.symm
  cases a with
  | none => simp [slotFor, takeSlot, Quad.toList, hne]
  | some a =>
    cases b with
    | none => simp [slotFor, takeSlot, Quad.toList, hne, List.find?_cons]
    | some b =>
      cases c with
      | none => simp [slotFor, takeSlot, Quad.toList, hne, List.find?_cons]
      | some c => cases e <;> simp [slotFor, takeSlot, Quad.toList, hne, List.find?_cons]

/-! ### The lookup of a key -/

/-- The entry put answers its key, and every other key is answered as before (R8). -/
theorem lookup_putEntry (e : MapEntry) (m : List MapEntry) (font code : Nat) :
    lookup (putEntry e m) font code
      = if (e.font == font && e.code == code) = true then some e else lookup m font code := by
  induction m with
  | nil => cases he : e.font == font && e.code == code <;> simp [putEntry, lookup, he]
  | cons x xs ih =>
    unfold putEntry
    split
    case isTrue hkey =>
      obtain ⟨hfont, hcode⟩ : e.font = x.font ∧ e.code = x.code := by simpa [MapEntry.key] using hkey
      cases hx : x.font == font && x.code == code <;> simp [lookup, hfont, hcode, hx]
    case isFalse hkey =>
      split
      · cases he : e.font == font && e.code == code <;> simp [lookup, he]
      · cases hx : x.font == font && x.code == code
        · simp only [lookup, List.find?_cons, hx] at ih ⊢
          exact ih
        · have he : (e.font == font && e.code == code) = false := by
            rw [← Bool.not_eq_true]
            intro he
            simp only [Bool.and_eq_true, beq_iff_eq] at he hx
            exact hkey (Prod.ext (he.1.trans hx.1.symm) (he.2.trans hx.2.symm))
          simp [lookup, hx, he]

/-- The last entry a message gives a key answers it, or what the slot held (R8). -/
theorem lookup_putEntries (es m : List MapEntry) (font code : Nat) :
    lookup (putEntries es m) font code
      = (es.reverse.find? fun e => e.font == font && e.code == code).or (lookup m font code) := by
  induction es generalizing m with
  | nil => rfl
  | cons e es ih =>
    have hstep : putEntries (e :: es) m = putEntries es (putEntry e m) := rfl
    rw [hstep, ih, lookup_putEntry, List.reverse_cons, List.find?_append, Option.or_assoc]
    congr 1
    cases he : e.font == font && e.code == code <;> simp [he]

end Sys2Proof.Machine
end

