-- ==== Sys2Proof/Proofs/MapMessages.lean ====
section
/-!
SUPPORT. MAP-LOAD and MAP-CLEAR: each of their checks (R4 to R7, R10), the joining of the trim queue while no search can
start and no line is set (R9), and the effects of the accepted messages (R8, R11).
-/
namespace Sys2Proof.Machine

variable {s : State}

/-! ### The check of a disc ID (R4, R10) -/

theorem discCheck_inRange {n : Nat} (h1 : 1 ≤ n) (h2 : n ≤ 15) : ¬ (decide (n < 1) || decide (15 < n)) = true := by
  simpa using ⟨by omega, h2⟩

theorem discCheck_outOfRange {n : Nat} (h : n < 1 ∨ 15 < n) : (decide (n < 1) || decide (15 < n)) = true := by
  simpa using h

/-! ### MAP-CLEAR -/

theorem mapClear_range {n : Byte} (h : n.toNat < 1 ∨ 15 < n.toNat) : mapClear [n] s = refuse .range 255 s := by
  have hbyte : byteAt [n] 0 = n.toNat := rfl
  simp only [mapClear, hbyte, discCheck_outOfRange h, if_true]

section
variable {n : Byte} (h1 : 1 ≤ n.toNat) (h2 : n.toNat ≤ 15)
include h1 h2

theorem mapClear_noMap (hm : slotFor s.maps n.toNat = none) : mapClear [n] s = refuse .noMap 0 s := by
  have hbyte : byteAt [n] 0 = n.toNat := rfl
  simp only [mapClear, hbyte, if_neg (discCheck_inRange h1 h2), hm]

theorem mapClear_named {m : MapSlot} {k : Nat} (hm : slotFor s.maps n.toNat = some m)
    (hk : lowestNaming n.toNat s.jobs = some k) : mapClear [n] s = refuse .inUse k s := by
  have hbyte : byteAt [n] 0 = n.toNat := rfl
  simp only [mapClear, hbyte, if_neg (discCheck_inRange h1 h2), hm, hk]

theorem mapClear_unnamed {m : MapSlot} (hm : slotFor s.maps n.toNat = some m)
    (hk : lowestNaming n.toNat s.jobs = none) :
    mapClear [n] s =
      if (m.trims.toList.any fun r => r.state.inSearch) = true then refuse .inUse 0 s
      else accept (clearMap n.toNat s) := by
  have hbyte : byteAt [n] 0 = n.toNat := rfl
  simp only [mapClear, hbyte, if_neg (discCheck_inRange h1 h2), hm, hk]

end

/-- The lowest number of the jobs naming a disc is their least (R10). -/
theorem lowestNaming_some {disc k : Nat} {js : List Job} (hk : k ∈ (js.filter fun j => j.disc == disc).map Job.number)
    (hle : ∀ i ∈ (js.filter fun j => j.disc == disc).map Job.number, k ≤ i) : lowestNaming disc js = some k :=
  List.min?_eq_some_iff.2 ⟨hk, hle⟩

theorem lowestNaming_none {disc : Nat} {js : List Job}
    (h : (js.filter fun j => j.disc == disc).map Job.number = []) : lowestNaming disc js = none :=
  List.min?_eq_none_iff.2 h

/-- The slot is freed, and of the mounted disc the windows are cleared (R10, R11). -/
theorem clearMap_eq (disc : Nat) (s : State) :
    clearMap disc s = { s with
      maps := s.maps.map fun o => o.filter fun m => m.disc != disc
      trim := if disc = s.spin.mounted then { s.trim with windows := Oct.fill [] } else s.trim } := by
  unfold clearMap
  split
  case isTrue h => simp [h, clearWindows, State.modMaps, State.modTrim]
  case isFalse => simp [State.modMaps]

/-- Settles O22: the `mapClear_` lemmas are its checks in their order, `clearMap_eq` is its effect. -/
theorem mapClearChecksAndFreesTheSlot : Obligations.MapClearChecksAndFreesTheSlot := by
  intro l tag n s hw hp refused naming
  have exec_eq {body : ReplyBody} {f : State → State} :=
    exec_mapClear (l := l) (tag := tag) (n := n) (body := body) (f := f) hw hp
  refine ⟨fun h => exec_eq (mapClear_range h), fun h1 h2 => ⟨fun hm => exec_eq (mapClear_noMap h1 h2 hm), ?_⟩⟩
  intro m hm
  refine ⟨fun k hk hle => exec_eq (mapClear_named h1 h2 (s := emptySlot l s) hm (lowestNaming_some hk hle)),
    fun hn ht => exec_eq ?_, fun hn ht => exec_eq ?_⟩
  all_goals refine (mapClear_unnamed h1 h2 (s := emptySlot l s) hm (lowestNaming_none hn)).trans ?_
  · exact if_pos ((any_inSearch_iff m.trims).2 ht)
  · have hrest : ¬ (m.trims.toList.any fun r => r.state.inSearch) = true := by
      rw [any_inSearch_iff]
      rintro ⟨t, h | h⟩
      · exact (ht t).1 h
      · exact (ht t).2 h
    rw [if_neg hrest, clearMap_eq]
    rfl

/-! ### MAP-LOAD: its checks -/

/-- The entries of a MAP-LOAD body. -/
def rawEntries (d : List Byte) : List RawEntry := entriesFrom d 2 (byteAt d 1)

/-- The entries of a MAP-LOAD body as the store keeps them. -/
def entriesOf (d : List Byte) : List MapEntry := (rawEntries d).filterMap RawEntry.entry

theorem mapLoad_range {d : List Byte} (h : byteAt d 0 < 1 ∨ 15 < byteAt d 0) : mapLoad d s = refuse .range 255 s := by
  simp only [mapLoad, discCheck_outOfRange h, if_true]

section
variable {d : List Byte} (h1 : 1 ≤ byteAt d 0) (h2 : byteAt d 0 ≤ 15)
include h1 h2

theorem mapLoad_entryRange {i : Nat} (hi : ((rawEntries d).map RawEntry.inRange).idxOf? false = some i) :
    mapLoad d s = refuse .range i s := by
  have hfirst : firstFailing RawEntry.inRange (rawEntries d) 0 = some i := by simp [firstFailing_eq_idxOf, hi]
  rw [rawEntries] at hfirst
  simp only [mapLoad, if_neg (discCheck_inRange h1 h2), hfirst]

theorem mapLoad_of_inRange (hr : ∀ e ∈ rawEntries d, e.inRange = true) :
    mapLoad d s = loadInto (byteAt d 0) (entriesOf d) s := by
  have hfirst := firstFailing_none hr 0
  rw [rawEntries] at hfirst
  simp only [mapLoad, if_neg (discCheck_inRange h1 h2), hfirst, entriesOf, rawEntries]

end

theorem loadInto_noSlot {disc : Nat} {es : List MapEntry} (hs : slotFor s.maps disc = none)
    (hfull : ∀ o ∈ s.maps.toList, o ≠ none) : loadInto disc es s = refuse .noSlot 0 s := by
  have hfree : slotFree s.maps = false := by
    rw [← Bool.not_eq_true, slotFree_iff]
    rintro ⟨o, ho, hnone⟩
    exact hfull o ho hnone
  simp [loadInto, hs, hfree]

theorem loadInto_inUse {disc i : Nat} {es : List MapEntry} {m : MapSlot} (hs : slotFor s.maps disc = some m)
    (hn : discNamed s.jobs disc = true) (hi : (es.map fun e => hasKey m.entries e.key).idxOf? true = some i) :
    loadInto disc es s = refuse .inUse i s := by
  simp [loadInto, hs, hn, firstFailing_not_eq_idxOf, hi]

/-- With a slot to load into and no entry of a named disc replaced, the count alone decides (R7). -/
theorem loadInto_of_slot {disc : Nat} {es : List MapEntry}
    (hs : slotFor s.maps disc = none → ∃ o ∈ s.maps.toList, o = none)
    (hkeep : discNamed s.jobs disc = true → ∀ e ∈ es, hasKey (mapOf disc s) e.key = false) :
    loadInto disc es s = if 760 < countAfter (mapOf disc s) es then refuse .full (countAfter (mapOf disc s) es) s
      else accept (loadMap disc es s) := by
  have hslot : ¬ ((slotFor s.maps disc).isNone && !slotFree s.maps) = true := by
    simp only [Bool.and_eq_true, Option.isNone_iff_eq_none, Bool.not_eq_true', not_and, Bool.not_eq_false, slotFree_iff]
    exact hs
  have hreplaced : (if discNamed s.jobs disc = true
      then firstFailing (fun e => !hasKey (mapOf disc s) e.key) es 0 else none) = none := by
    split
    case isTrue hn => exact firstFailing_none (fun e he => by simp [hkeep hn e he]) 0
    case isFalse => rfl
  simp only [loadInto, if_neg hslot]
  simp only [mapOf] at hreplaced
  simp only [hreplaced]
  rfl

/-! ### Joining the trim queue -/

/-- No search can start, and no line is set: nothing follows at once when a track joins the trim queue. -/
def NothingFollows (s : State) : Prop :=
  (s.disc.locked = false ∨ s.trim.search.isSome = true) ∧ s.engine.ring = [] ∧ s.engine.state = .idle

/-- The record of a track that has joined the trim queue: its state and code are kept as prior (R92, R95). -/
def TrimRec.queued (r : TrimRec) : TrimRec :=
  { code := r.code, state := .queued, prior := some { state := r.state, code := r.code } }

/-- The slot `m'` is the slot `m` with the records of the tracks `ts` waiting for their search. -/
structure TracksQueued (ts : List Track) (m m' : MapSlot) : Prop where
  disc : m'.disc = m.disc
  entries : m'.entries = m.entries
  trims : ∀ t, m'.trims.get t = if t ∈ ts then (m.trims.get t).queued else m.trims.get t

theorem TracksQueued.nil (m : MapSlot) : TracksQueued [] m m := ⟨rfl, rfl, fun _ => by simp⟩

theorem TracksQueued.cons {t : Track} {ts : List Track} {m m' : MapSlot} (ht : t ∉ ts)
    (h : TracksQueued ts { m with trims := m.trims.set t (m.trims.get t).queued } m') : TracksQueued (t :: ts) m m' := by
  refine ⟨h.disc, h.entries, fun u => ?_⟩
  rw [h.trims u]
  by_cases hu : u = t
  · subst hu
    simp [Oct.get_set, ht]
  · simp [Oct.get_set, hu]

theorem trackNotice_idle (h : s.engine.state = .idle) : trackNotice s = s := by
  unfold trackNotice
  rw [h]

theorem startSearch_barred (h : s.disc.locked = false ∨ s.trim.search.isSome = true) : startSearch s = s := by
  unfold startSearch
  rcases h with h | h <;> simp [h]

theorem aim_empty (h : s.engine.ring = []) : aim s = s := by
  unfold aim
  rw [h]
  rfl

/-- An UNTRIMMED track joins the end of the queue, and nothing follows (R92, R95). -/
theorem joinQueue_untrimmed {t : Track} (hn : NothingFollows s) (hr : (queueRec s t).state = .untrimmed) :
    joinQueue s t = { s with
      maps := updateSlot s.maps s.trim.queueDisc fun m => { m with trims := m.trims.set t (queueRec s t).queued }
      trim := { s.trim with queue := s.trim.queue ++ [t] } } := by
  obtain ⟨hsearch, -, hidle⟩ := hn
  have hput : putRec t (queueRec s t).queued s = s.modMaps fun q =>
      updateSlot q s.trim.queueDisc fun m => { m with trims := m.trims.set t (queueRec s t).queued } := by
    simp only [putRec, TrimRec.queued, ne_eq, not_true_eq_false, false_and, if_false]
    exact trackNotice_idle hidle
  have hout : ¬ (queueRec s t).state.inSearch = true := by rw [hr]; decide
  have hkeep : (queueRec s t).state ≠ .trimmed := by rw [hr]; decide
  simp only [joinQueue, if_neg hout, if_neg hkeep]
  rw [← TrimRec.queued, hput]
  exact startSearch_barred hsearch

/-- A record written in a disc's slot reaches no other disc's slot. -/
theorem slotFor_setRec (q : Quad (Option MapSlot)) (d e : Nat) (t : Track) (r : TrimRec) :
    slotFor (updateSlot q d fun m => { m with trims := m.trims.set t r }) e
      = if e = d then (slotFor q d).map fun m => { m with trims := m.trims.set t r } else slotFor q e :=
  slotFor_updateSlot q d e fun _ h => h

/-- Tracks of the queue disc's slot that are all UNTRIMMED join in their order, and no other slot is touched. -/
theorem joinQueue_foldl {ts : List Track} (hd : ts.Nodup) {s : State} {m : MapSlot} (hn : NothingFollows s)
    (hm : slotFor s.maps s.trim.queueDisc = some m) (hu : ∀ t ∈ ts, (m.trims.get t).state = .untrimmed) :
    ∃ maps m', ts.foldl joinQueue s = { s with maps := maps, trim := { s.trim with queue := s.trim.queue ++ ts } }
      ∧ slotFor maps s.trim.queueDisc = some m' ∧ TracksQueued ts m m'
      ∧ ∀ other, other ≠ s.trim.queueDisc → slotFor maps other = slotFor s.maps other := by
  induction ts generalizing s m with
  | nil => exact ⟨s.maps, m, by simp, hm, TracksQueued.nil m, fun _ _ => rfl⟩
  | cons t ts ih =>
    obtain ⟨ht, hts⟩ := List.nodup_cons.1 hd
    obtain ⟨htu, hrest⟩ := List.forall_mem_cons.1 hu
    have hrec : queueRec s t = m.trims.get t := by simp [queueRec, hm]
    have hjoin := joinQueue_untrimmed hn (by rw [hrec]; exact htu)
    rw [hrec] at hjoin
    have hslots : ∀ other, slotFor (joinQueue s t).maps other = if other = s.trim.queueDisc
        then some { m with trims := m.trims.set t (m.trims.get t).queued } else slotFor s.maps other := by
      intro other
      rw [hjoin, slotFor_setRec, hm]
      rfl
    have hqd : (joinQueue s t).trim.queueDisc = s.trim.queueDisc := by rw [hjoin]
    obtain ⟨maps, m', hfold, hslot, hwait, hothers⟩ := ih hts (s := joinQueue s t)
      (m := { m with trims := m.trims.set t (m.trims.get t).queued })
      (by rw [hjoin]; exact hn) (by rw [hslots, hqd, if_pos rfl]) (fun u hu => by
        have hne : u ≠ t := fun h => ht (h ▸ hu)
        simpa [Oct.get_set, hne] using hrest u hu)
    refine ⟨maps, m', ?_, hqd ▸ hslot, hwait.cons ht, fun other ho => ?_⟩
    · rw [List.foldl_cons, hfold, hjoin]
      simp
    · rw [hothers other (hqd ▸ ho), hslots, if_neg ho]

/-! ### MAP-LOAD: its effect -/

/-- A disc's slot is written, or the lowest FREE slot is taken for it (R5, R8). -/
def storeSlot (q : Quad (Option MapSlot)) (m : MapSlot) : Quad (Option MapSlot) :=
  match slotFor q m.disc with
  | some _ => updateSlot q m.disc fun _ => m
  | none => takeSlot q m

theorem slotFor_storeSlot_same {q : Quad (Option MapSlot)} {m : MapSlot}
    (hfree : slotFor q m.disc = none → ∃ o ∈ q.toList, o = none) : slotFor (storeSlot q m) m.disc = some m := by
  unfold storeSlot
  cases h : slotFor q m.disc with
  | none => exact slotFor_takeSlot_same h (hfree h)
  | some o => simp [slotFor_updateSlot, h]

theorem slotFor_storeSlot_other (q : Quad (Option MapSlot)) {m : MapSlot} {other : Nat} (ho : other ≠ m.disc) :
    slotFor (storeSlot q m) other = slotFor q other := by
  unfold storeSlot
  cases h : slotFor q m.disc with
  | none => exact slotFor_takeSlot_other q ho
  | some o => simp [slotFor_updateSlot, ho]

/-- The slot a MAP-LOAD finds for its disc, or takes for it (R8). -/
def slotBefore (disc : Nat) (s : State) : MapSlot := (slotFor s.maps disc).getD (MapSlot.taken disc)

/-- The slot with the message's entries, before any track joins the trim queue (R8). -/
def slotLoaded (disc : Nat) (es : List MapEntry) (s : State) : MapSlot :=
  { slotBefore disc s with entries := putEntries es (slotBefore disc s).entries }

/-- The tracks an accepted MAP-LOAD hands to the trim queue: none unless its disc is mounted (R9). -/
def handedTracks (disc : Nat) (es : List MapEntry) (s : State) : List Track :=
  if disc = s.spin.mounted then risenTracks (slotBefore disc s) (slotLoaded disc es s) else []

theorem slotBefore_disc (disc : Nat) (s : State) : (slotBefore disc s).disc = disc := by
  unfold slotBefore
  cases h : slotFor s.maps disc with
  | none => rfl
  | some m => exact slotFor_disc h

theorem slotBefore_entries (disc : Nat) (s : State) : (slotBefore disc s).entries = mapOf disc s := by
  unfold slotBefore mapOf
  cases slotFor s.maps disc <;> rfl

theorem loadMap_eq (disc : Nat) (es : List MapEntry) (s : State) :
    loadMap disc es s = if disc = s.spin.mounted
      then joinTracks (risenTracks (slotBefore disc s) (slotLoaded disc es s))
        (s.modMaps fun q => storeSlot q (slotLoaded disc es s))
      else s.modMaps fun q => storeSlot q (slotLoaded disc es s) := by
  have hdisc : (slotLoaded disc es s).disc = disc := slotBefore_disc disc s
  simp only [storeSlot, hdisc]
  rfl

theorem risenTracks_nodup (before after : MapSlot) : (risenTracks before after).Nodup :=
  allTracks_nodup.filter _

theorem risenTracks_untrimmed {before after : MapSlot} {t : Track} (h : t ∈ risenTracks before after) :
    (before.trims.get t).state = .untrimmed := by
  simp only [risenTracks, List.mem_filter, Bool.and_eq_true, beq_iff_eq] at h
  exact h.2.2

theorem handedTracks_untrimmed {disc : Nat} {es : List MapEntry} {t : Track} (h : t ∈ handedTracks disc es s) :
    ((slotBefore disc s).trims.get t).state = .untrimmed := by
  unfold handedTracks at h
  split at h
  · exact risenTracks_untrimmed h
  · cases h

/-- An accepted MAP-LOAD stores the loaded slot and hands its tracks over; nothing else changes (R8, R9). -/
theorem loadMap_effect {disc : Nat} {es : List MapEntry}
    (hfree : slotFor s.maps disc = none → ∃ o ∈ s.maps.toList, o = none)
    (hquiet : disc = s.spin.mounted → s.trim.queueDisc = disc ∧ NothingFollows s) :
    ∃ maps m, loadMap disc es s = { s with
        maps := maps, trim := { s.trim with queue := s.trim.queue ++ handedTracks disc es s } }
      ∧ slotFor maps disc = some m ∧ TracksQueued (handedTracks disc es s) (slotLoaded disc es s) m
      ∧ ∀ other, other ≠ disc → slotFor maps other = slotFor s.maps other := by
  have hdisc : (slotLoaded disc es s).disc = disc := slotBefore_disc disc s
  have hsame : slotFor (storeSlot s.maps (slotLoaded disc es s)) disc = some (slotLoaded disc es s) := by
    have h := slotFor_storeSlot_same (q := s.maps) (m := slotLoaded disc es s)
    rw [hdisc] at h
    exact h hfree
  have hother : ∀ other, other ≠ disc →
      slotFor (storeSlot s.maps (slotLoaded disc es s)) other = slotFor s.maps other :=
    fun other ho => slotFor_storeSlot_other _ (by rw [hdisc]; exact ho)
  rw [loadMap_eq]
  unfold handedTracks
  split
  case isFalse h =>
    refine ⟨_, _, ?_, hsame, TracksQueued.nil _, hother⟩
    simp [State.modMaps]
  case isTrue h =>
    obtain ⟨hqd, hn⟩ := hquiet h
    obtain ⟨maps, m, hfold, hslot, hwait, hrest⟩ := joinQueue_foldl
      (s := s.modMaps fun q => storeSlot q (slotLoaded disc es s)) (m := slotLoaded disc es s)
      (risenTracks_nodup (slotBefore disc s) (slotLoaded disc es s)) hn
      (by rw [State.modMaps_trim, hqd]; exact hsame) fun t ht => risenTracks_untrimmed (before := slotBefore disc s) ht
    rw [State.modMaps_trim, hqd] at hslot hrest
    refine ⟨maps, m, ?_, hslot, hwait, fun other ho => (hrest other ho).trans (hother other ho)⟩
    unfold joinTracks
    rw [hfold]
    exact aim_empty hn.2.1

/-- The record of a track before the load: as it stood, or as a taken slot has it (R8). -/
theorem slotBefore_trims (disc : Nat) (s : State) (t : Track) :
    (slotBefore disc s).trims.get t = match slotFor s.maps disc with
      | some o => o.trims.get t
      | none => { code := 8, state := .untrimmed, prior := none } := by
  unfold slotBefore
  cases slotFor s.maps disc with
  | none => exact Oct.get_fill _ t
  | some o => rfl

theorem slotLoaded_entries (disc : Nat) (es : List MapEntry) (s : State) :
    (slotLoaded disc es s).entries = putEntries es (mapOf disc s) := by
  rw [← slotBefore_entries]
  rfl

/-- Settles O21: the `mapLoad_` and `loadInto_` lemmas are its checks in their order, `loadMap_effect` is its effect. -/
theorem mapLoadChecksAndApplies : Obligations.MapLoadChecksAndApplies := by
  constructor
  · intro l tag d s hw hp hm refused raw disc es slot held
    have exec_eq {body : ReplyBody} {f : State → State} := exec_mapLoad (body := body) (f := f) hw hp hm
    refine ⟨fun h => exec_eq (mapLoad_range h),
      fun h1 h2 => ⟨fun i hi => exec_eq (mapLoad_entryRange h1 h2 (s := emptySlot l s) hi), fun hr => ?_⟩⟩
    have load_eq := mapLoad_of_inRange (s := emptySlot l s) h1 h2 hr
    refine ⟨fun hs hfull => exec_eq (load_eq.trans (loadInto_noSlot (s := emptySlot l s) hs hfull)),
      fun m i hs hn hi => exec_eq (load_eq.trans (loadInto_inUse (s := emptySlot l s) hs hn hi)),
      fun m hs hkeep hfull => ?_⟩
    have hheld : mapOf disc (emptySlot l s) = m.entries := by simp [mapOf, show slotFor s.maps disc = some m from hs]
    have hcount := loadInto_of_slot (s := emptySlot l s) (es := es)
      (fun h => absurd (hs.symm.trans h) (by simp)) (by rw [hheld]; exact hkeep)
    exact exec_eq (load_eq.trans (hcount.trans (if_pos hfull)))
  · intro l tag d s hw hp hm raw disc es old held record h1 h2 hr hquiet hfree hkeep hcount
    have hload : mapLoad d (emptySlot l s) = accept (loadMap disc es (emptySlot l s)) :=
      (mapLoad_of_inRange (s := emptySlot l s) h1 h2 hr).trans
        ((loadInto_of_slot (s := emptySlot l s) hfree hkeep).trans (if_neg (Nat.not_lt.2 hcount)))
    have hrecord : ∀ t, (slotBefore disc s).trims.get t = record t := slotBefore_trims disc s
    have hheld : (slotBefore disc s).entries = held := slotBefore_entries disc s
    obtain ⟨maps, m, heff, hslot, hwait, hothers⟩ := loadMap_effect (s := emptySlot l s) (es := es) hfree hquiet
    have hentries : m.entries = putEntries es held := hwait.entries.trans (slotLoaded_entries disc es s)
    refine ⟨maps, handedTracks disc es s, exec_mapLoad hw hp hm (hload.trans (congrArg accept heff)),
      m, hslot, slotFor_disc hslot, ?_, fun t => ?_, fun font code => ?_, hothers⟩
    · simp only [hwait.entries, handedTracks, risenTracks, hrecord, hheld]
      rfl
    · have htrims : m.trims.get t = if t ∈ handedTracks disc es s then (record t).queued else record t :=
        hrecord t ▸ hwait.trims t
      rw [htrims]
      refine ite_congr rfl (fun ht => ?_) fun _ => rfl
      have hstate : (record t).state = .untrimmed := hrecord t ▸ handedTracks_untrimmed ht
      rw [TrimRec.queued, hstate]
    · rw [hentries, lookup_putEntries]
      cases es.reverse.find? fun e => e.font == font && e.code == code <;> rfl

end Sys2Proof.Machine
end

