-- ==== Sys2Proof/Proofs/Reports.lean ====
section
/-!
SUPPORT. The layouts of chapter 12: fields, event records, and the parts of the four REPORT topics.
-/
namespace Sys2Proof.Machine

variable {s : State}

/-! ### Fields (R200) -/

@[simp] theorem u16_length (n : Nat) : (u16 n).length = 2 := rfl
@[simp] theorem u24_length (n : Nat) : (u24 n).length = 3 := rfl
@[simp] theorem i16_length (n : Int) : (i16 n).length = 2 := rfl

@[simp] theorem u8_toNat (n : Nat) : (u8 n).toNat = n % 256 := BitVec.toNat_ofNat n 8

@[simp] theorem freeBytes_length (s : State) (k n : Nat) : (freeBytes s k n).length = n := by simp [freeBytes]

@[simp] theorem padTo_length (n : Nat) (fill : Byte) (bs : List Byte) :
    (padTo n fill bs).length = max n bs.length := by
  simp only [padTo, List.length_append, List.length_replicate]
  omega

theorem append_congr {a a' b b' : List Byte} (ha : a = a') (hb : b = b') : a ++ b = a' ++ b' := by rw [ha, hb]

theorem u16_highFirst {n : Nat} (h : n < 65536) : (u16 n).map BitVec.toNat = [n / 256, n % 256] := by
  have hhigh : n / 256 % 256 = n / 256 := by omega
  simp [u16, hhigh]

theorem u24_highFirst {n : Nat} (h : n < 16777216) :
    (u24 n).map BitVec.toNat = [n / 65536, n / 256 % 256, n % 256] := by
  have hhigh : n / 65536 % 256 = n / 65536 := by omega
  simp [u24, hhigh]

theorem i16_twosComplement {n : Int} (h1 : -32768 ≤ n) (h2 : n < 32768) :
    i16 n = u16 (if n < 0 then n + 65536 else n).toNat := by
  have hmod : n % 65536 = if n < 0 then n + 65536 else n := by split <;> omega
  rw [i16, hmod]

theorem i8_twosComplement {n : Int} (h1 : -128 ≤ n) (h2 : n < 128) :
    i8 n = u8 (if n < 0 then n + 256 else n).toNat := by
  have hmod : n % 256 = if n < 0 then n + 256 else n := by split <;> omega
  rw [i8, hmod]

theorem flag_eq (b : Bool) : flag b = if b = true then 1 else 0 := by cases b <;> rfl

/-! ### Times (log 24) -/

/-- A time without stated rounding is a whole number of units next to the time left. -/
theorem unitsFree_near (s : State) (k n : Nat) {unit : Nat} (hu : 0 < unit) :
    n / unit ≤ unitsFree s k unit n ∧ unitsFree s k unit n ≤ (n + (unit - 1)) / unit := by
  unfold unitsFree
  split
  case isTrue => exact ⟨Nat.le_refl _, Nat.div_le_div_right (by omega)⟩
  case isFalse h =>
    have hup : n / unit + 1 ≤ (n + (unit - 1)) / unit := by
      rw [Nat.le_div_iff_mul_le hu]
      have hdiv := Nat.div_add_mod n unit
      have hpos : 1 ≤ n % unit := Nat.pos_of_ne_zero h
      rw [Nat.add_mul, Nat.mul_comm (n / unit)]
      omega
    have hbit := Bool.toNat_le (Config.partUnitUp (s.freeCount + k))
    exact ⟨Nat.le_add_right _ _, by omega⟩

/-- A time in whole units, rounded up. -/
theorem unitsUp_eq {unit : Nat} (hu : 0 < unit) (n : Nat) : unitsUp unit n = (n + (unit - 1)) / unit := by
  rw [unitsUp, Nat.add_sub_assoc hu]

/-! ### Event records (R203) -/

theorem Event.code_bounds (e : Event) : 1 ≤ e.code ∧ e.code ≤ 27 := by
  cases e
  case fault k x => cases k <;> simp [Event.code, FaultKind.code]
  all_goals simp [Event.code]

theorem Event.detail_length (e : Event) : e.detail.length ≤ 8 := by
  cases e <;> simp [Event.detail]

theorem Event.bytes_length (e : Event) : e.bytes.length = 12 := by
  simp [Event.bytes, e.detail_length]

theorem Event.bytes_code (e : Event) : e.bytes[0]? = some (u8 e.code) := rfl

/-! ### JOB topic (R161) -/

theorem insertByOrder_perm (j : Job) (js : List Job) : (insertByOrder j js).Perm (j :: js) := by
  induction js with
  | nil => exact .refl _
  | cons k ks ih =>
    unfold insertByOrder
    split
    · exact .refl _
    · exact (ih.cons k).trans (.swap j k ks)

theorem byOrder_perm (js : List Job) : (byOrder js).Perm js := by
  induction js with
  | nil => exact .refl _
  | cons j js ih => exact (insertByOrder_perm j _).trans (ih.cons j)

/-- The list stands in ascending open order. -/
def Ordered (js : List Job) : Prop := js.Pairwise fun j k => j.order ≤ k.order

theorem insertByOrder_ordered (j : Job) {js : List Job} (h : Ordered js) : Ordered (insertByOrder j js) := by
  induction js with
  | nil => exact List.pairwise_singleton _ _
  | cons k ks ih =>
    obtain ⟨hk, hks⟩ := List.pairwise_cons.1 h
    unfold insertByOrder
    split
    case isTrue hjk =>
      refine List.pairwise_cons.2 ⟨fun x hx => ?_, h⟩
      rcases List.mem_cons.1 hx with rfl | hx
      · exact hjk
      · exact Nat.le_trans hjk (hk x hx)
    case isFalse hjk =>
      refine List.pairwise_cons.2 ⟨fun x hx => ?_, ih hks⟩
      rcases List.mem_cons.1 ((insertByOrder_perm j ks).subset hx) with rfl | hx
      · omega
      · exact hk x hx

theorem byOrder_ordered (js : List Job) : Ordered (byOrder js) := by
  induction js with
  | nil => exact List.Pairwise.nil
  | cons j js ih => exact insertByOrder_ordered j ih

theorem Job.rows_length (js : List Job) : (js.flatMap Job.row).length = 5 * js.length := by
  induction js with
  | nil => rfl
  | cons j js ih =>
    have hrow : j.row.length = 5 := rfl
    rw [List.flatMap_cons, List.length_append, ih, hrow, List.length_cons]
    omega

theorem jobTable_length (s : State) : (jobTable s).length = 8 + 5 * s.jobs.length := by
  have hrows : ((byOrder s.jobs).flatMap Job.row).length = 5 * s.jobs.length := by
    rw [Job.rows_length, (byOrder_perm s.jobs).length_eq]
  simp only [jobTable, List.length_append, List.length_cons, List.length_nil, u16_length, hrows]

/-! ### UNIT topic (R178, R90, R116, R135, R190, R196) -/

theorem spinPart_length (s : State) : (spinPart s).length = 14 := by
  cases h : s.spin.lastFault <;> simp [spinPart, h]

theorem discPart_length (h : s.disc.samples.length ≤ 8) : (discPart s).length = 24 := by
  simp [discPart, h]

theorem bankPart_length (s : State) : (bankPart s).length = 13 := rfl

theorem cutRuns_eq (s : State) : cutRuns s = s.engine.close.any fun c => c.phase == .cutting := by
  unfold cutRuns
  cases s.engine.close <;> rfl

theorem drivePart_length (s : State) : (drivePart s).length = 20 := by
  cases h : s.drive.deflector.target <;> simp [drivePart, h]

theorem unitTopic_length (h : s.disc.samples.length ≤ 8) :
    (unitTopic s).length = 14 + 24 + 13 + 20 + 2 * 5 + 2 * 2 := by
  simp [unitTopic, spinPart_length, discPart_length h, bankPart_length, drivePart_length, Iface.part, Queue.part]

/-! ### TRIMS topic (R15, R107) -/

/-- The prior code is sent while the track waits or is searched, and 255 otherwise (R107). -/
theorem TrimRec.part_eq (r : TrimRec) : r.part = [u8 r.code, u8 r.state.code,
    u8 (if r.state = .queued ∨ r.state = .searching then (r.prior.map Prior.code).getD r.code else 255)] := by
  simp only [TrimRec.part, TrimState.inSearch_iff]

/-- A slot IN_USE: its disc, its counts, and its records in the order of the tracks (R15, R107). -/
theorem slotPart_some (m : MapSlot) : slotPart (some m) = [u8 m.disc] ++ u16 m.entries.length
    ++ (allTracks.flatMap fun t => u16 (m.entries.filter fun e => e.track == t).length)
    ++ allTracks.flatMap fun t => (m.trims.get t).part := by
  simp only [slotPart, MapSlot.trackCount, List.countP_eq_length_filter, Oct.toList_eq_map, List.flatMap_map]

theorem missCount_eq (w : List Bool) : missCount w = (w.filter id).length := List.countP_eq_length_filter

theorem slotPart_length (o : Option MapSlot) : (slotPart o).length = 43 := by
  cases o <;> rfl

theorem searchPart_length (s : State) : (searchPart s).length = 7 := by
  unfold searchPart
  cases s.trim.search <;> simp

theorem trimPart_length (h : s.trim.queue.length ≤ 8) : (trimPart s).length = 38 := by
  simp [trimPart, h, searchPart_length, Oct.toList]

theorem trimsTopic_length (h : s.trim.queue.length ≤ 8) : (trimsTopic s).length = 4 * 43 + 38 := by
  simp [trimsTopic, trimPart_length h, Quad.toList, slotPart_length]

/-! ### LINE topic (R42, R71) -/

/-- An open assembly: its line, its counts, and its deadline in whole units rounded up (R42). -/
theorem assemblyPart_some (s : State) (k : Nat) (a : Assembly) : assemblyPart s k (some a) =
    [u8 a.header.job] ++ u16 a.header.line
      ++ [u8 a.header.count, u8 a.sorts.length, u8 ((a.deadline + 999) / 1000)] := by
  rw [assemblyPart, unitsUp_eq (by decide)]
  rfl

theorem assemblyPart_length (s : State) (k : Nat) (o : Option Assembly) : (assemblyPart s k o).length = 6 := by
  cases o <;> simp [assemblyPart]

theorem storePart_length (s : State) : (storePart s).length = 17 := by
  simp [storePart, assemblyPart_length]

/-- The x of the current stop, as sent; of a line that has no stop it is not stated. -/
def stopBytes (s : State) : List Byte :=
  match stopAt s.engine.stops s.engine.stopNo with
  | some st => u16 st.x
  | none => freeBytes s 22 2

theorem stopBytes_length (s : State) : (stopBytes s).length = 2 := by
  unfold stopBytes
  split <;> simp

theorem stopBytes_of_stop {st : Stop} (hn : 1 ≤ s.engine.stopNo)
    (hst : s.engine.stops[s.engine.stopNo - 1]? = some st) : stopBytes s = u16 st.x := by
  obtain ⟨k, hk⟩ := Nat.exists_eq_add_of_le' hn
  rw [hk, Nat.add_sub_cancel] at hst
  simp [stopBytes, stopAt, hk, hst]

theorem enginePart_length (s : State) : (enginePart s).length = 17 := by
  cases h : s.engine.current with
  | none => simp [enginePart, h]
  | some r => cases hstop : stopAt s.engine.stops s.engine.stopNo <;> simp [enginePart, h, hstop]

theorem lineTopic_length (s : State) : (lineTopic s).length = 17 + 17 := by
  simp [lineTopic, storePart_length, enginePart_length]

/-! ### The layouts -/

/-- Settles O44, conjunct by conjunct: the topics part by part, each with the free values the report reads. -/
theorem reportsAndEventsHaveTheirLayout : Obligations.ReportsAndEventsHaveTheirLayout := by
  unfold Obligations.ReportsAndEventsHaveTheirLayout
  intro ticks near line queue event
  refine ⟨?lengths, ?record, ?events, ?job, ?jobTable, ?unit, ?trims, ?line, ?fields, ?codes⟩
  case lengths =>
    exact fun s hsamples hqueue =>
      ⟨unitTopic_length hsamples, trimsTopic_length hqueue, lineTopic_length s, jobTable_length s⟩
  case record => exact fun e => ⟨e.bytes_length, e.bytes_code, e.code_bounds⟩
  case events =>
    intro e
    cases e
    case lineAbandoned t => cases t <;> rfl
    case jobResumed r k => cases r <;> rfl
    case fault k x => cases k <;> rfl
    case lineFault l => cases l <;> rfl
    all_goals rfl
  case job =>
    rintro ⟨_, _, _, _, _, _, _, _, _, _, _, _, reason⟩
    cases reason with
    | none => rfl
    | some r => cases r <;> rfl
  case jobTable =>
    exact fun s => ⟨_, byOrder s.jobs, unitsFree_near s 5 (ticks s.seq.starve) (by decide), byOrder_perm s.jobs,
      byOrder_ordered s.jobs, rfl⟩
  case unit =>
    intro s
    refine ⟨freeByteAt s 0, freeByteAt s 1, freeByteAt s 4, _, _,
      unitsFree_near s 2 (ticks s.disc.unlock) (by decide), unitsFree_near s 3 (ticks s.bank.watch) (by decide),
      append_congr (append_congr (append_congr (append_congr (append_congr (append_congr (append_congr ?spin ?disc) ?bank)
        ?drive) rfl) rfl) rfl) rfl⟩
    case spin =>
      have hpark : unitsUp (1000 * Config.ms) (timeLeft s.spin.parkTimer)
          = (ticks s.spin.parkTimer + 99999) / 100000 := unitsUp_eq (by decide) _
      cases h : s.spin.lastFault <;> simp only [spinPart, h, hpark] <;> rfl
    case disc =>
      simp only [discPart, padTo, List.length_map, List.append_assoc]
      rfl
    case bank => rfl
    case drive => cases h : s.drive.deflector.target <;> simp only [drivePart, h, filmFlags, cutRuns_eq] <;> rfl
  case trims =>
    intro s
    refine ⟨freeBytes s 6 6, freeBytes_length s 6 6, ?_⟩
    simp only [trimsTopic, trimPart, padTo, List.append_assoc, List.length_map]
    refine append_congr (congrArg (List.flatMap · _) (funext fun o => ?slot))
      (append_congr rfl (append_congr rfl (append_congr rfl (append_congr ?search ?windows))))
    case slot =>
      cases o with
      | none => rfl
      | some m =>
        simp only [slotPart_some, List.append_assoc]
        refine append_congr rfl (append_congr rfl (append_congr rfl (congrArg (List.flatMap · _) (funext fun t => ?_))))
        rw [TrimRec.part_eq]
        split
        · cases (m.trims.get t).prior <;> rfl
        · rfl
    case search =>
      unfold searchPart
      cases s.trim.search <;> rfl
    case windows => simp only [Oct.toList_eq_map, List.flatMap_map, missCount_eq]
  case line =>
    intro s
    refine ⟨freeBytes s 12 5, freeBytes s 17 5, stopBytes s, sweepByte s s.engine.sweep, freeBytes_length s 12 5,
      freeBytes_length s 17 5, stopBytes_length s, fun _ => stopBytes_of_stop, fun d hd => congrArg (sweepByte s) hd, ?_⟩
    simp only [lineTopic, storePart, enginePart, List.append_assoc]
    refine append_congr rfl (append_congr ?records (append_congr ?lineA (append_congr ?lineB (append_congr rfl
      (append_congr ?place (append_congr rfl (append_congr ?defer (append_congr rfl (append_congr rfl ?test)))))))))
    case records =>
      simp only [List.countP_eq_length_filter]
      rfl
    case lineA =>
      cases s.store.assembly.a with
      | none => rfl
      | some a => exact assemblyPart_some s 12 a
    case lineB =>
      cases s.store.assembly.b with
      | none => rfl
      | some a => exact assemblyPart_some s 17 a
    case place => cases s.engine.current <;> rfl
    case defer =>
      rw [List.foldl_map]
      rfl
    case test => cases s.engine.ring.find? fun it => !it.isExposure <;> rfl
  case fields =>
    exact ⟨fun _ => u16_highFirst, fun _ => u24_highFirst, fun _ => i16_twosComplement, fun _ => i8_twosComplement,
      flag_eq⟩
  case codes => exact ⟨rfl, rfl, rfl, rfl, fun _ => rfl, fun _ => rfl, rfl, rfl, rfl, rfl, rfl, rfl, rfl, rfl, rfl, rfl⟩

end Sys2Proof.Machine
end

