-- ==== Sys2Proof/Proofs/EveryStep.lean ====
section
/-!
SUPPORT. The invariant of the part: it holds after a start, every command keeps it, and so does every step. A part whose
supply is NORMAL has the bounds of its blocks (`Good`) and the agreement of its tables (`Kept`); the lemmas of Laws/ say
what each effect does to either.
-/
namespace Sys2Proof.Machine

variable {s : State}

/-! ### The invariant and its two halves -/

theorem Inv.good (h : Inv s) (hu : Up s) : Good s := ⟨h.bounds, hu⟩

theorem Inv.kept (h : Inv s) : Kept s := ⟨h.bounds.jobs.1, h.rolls, h.current⟩

theorem Inv.of_bounds_kept (hb : Bounds s) (hk : Kept s) : Inv s := ⟨hb, hk.rolls, hk.current⟩

/-- An effect that a part takes only while its supply is NORMAL keeps the invariant if it keeps both halves. -/
theorem inv_powered (f : State → State) (hg : Good s → Good (f s)) (hk : Kept s → Kept (f s)) (h : Inv s) :
    Inv (powered s f) := by
  cases hu : s.spin.supply with
  | low => rw [powered_low f hu]; exact h
  | normal => rw [powered_up f hu]; exact .of_bounds_kept (hg (h.good hu)).inv (hk h.kept)

/-- The row of a message keeps the invariant if the message's effect keeps both halves, in a part in which no other
line owns the job that it names. -/
theorem inv_message (k : MsgKind) (l : CLine) (mine : List Byte → Bool) (act : Bool → List Byte → State → Handled)
    (hg : ∀ b d s, Good s → Good (act b d s).1)
    (hk : ∀ b d s, Kept s → wrongOwner k l d s = none → Kept (act b d s).1) (h : Inv s) :
    Inv (powered s (handle k l mine act)) :=
  inv_powered _ (good_handle k l mine act hg) (kept_handle k l mine act hk) h

/-- ENQUIRE changes nothing but the slot and the transmitter. -/
theorem inv_enquire (n : Nat) (l : CLine) (f : List Byte → State → Handled) (hf : ∀ d s, (f d s).1 = s) (h : Inv s) :
    Inv (powered s (handle .enquire l (choiceOr 2 n 4) fun _ d => enquire n f d)) :=
  inv_message _ l _ _ (fun _ d _ hs => good_enquire n f hf d hs) (fun _ d _ hs _ => kept_enquire n f hf d hs) h

/-- A change of one interface that keeps PASS earned keeps the invariant. -/
theorem inv_modLine (l : CLine) (f : Iface → Iface) (hf : ∀ i, PassOk i → PassOk (f i)) (h : Inv s) :
    Inv (powered s (modLine l f)) :=
  inv_powered _ (fun hs => good_modLine l f hs hf) (fun hs => kept_same hs rfl) h

/-! ### Effects that the rows write out -/

theorem good_homeLimit (m : Mech) (h : Good s) :
    Good (if s.drive.limitRunOut m then handFault .home (mechCode m) s else s) := by
  split
  · exact good_handFault _ _ h
  · exact h

theorem kept_homeLimit (m : Mech) (h : Kept s) :
    Kept (if s.drive.limitRunOut m then handFault .home (mechCode m) s else s) := by
  split
  · exact kept_handFault _ _ h
  · exact h

theorem good_discDone (h : Good s) : Good (if s.spin.unit = .discChange then enterSpinUp s else s) := by
  split
  · exact good_enterSpinUp h
  · exact h

theorem kept_discDone (h : Kept s) : Kept (if s.spin.unit = .discChange then enterSpinUp s else s) := by
  split
  · rename_i hu
    exact kept_enterSpinUp h (by rw [hu]; decide)
  · exact h

theorem good_parkTimeout (h : Good s) : Good (if runOut s.spin.parkTimer then enterParked s else s) := by
  split
  · exact good_enterParked h
  · exact h

theorem inv_outputsOff (h : Inv s) : Inv (powered s outputsOff) := by
  cases hu : s.spin.supply with
  | low => rw [powered_low _ hu]; exact h
  | normal => rw [powered_up _ hu]; exact .of_bounds_kept (bounds_outputsOff h.bounds) (kept_outputsOff h.kept)

theorem inv_started (c : StartCause) (inp : StartInputs) (s : State) : Inv (started c inp s) :=
  .of_bounds_kept (bounds_started c inp s) (kept_started c inp s)

/-- The part after a power start is one that a start has made. -/
theorem reset_eq_started : State.reset = started .power resetInputs State.reset := rfl

/-- Settles O4: the base case of the invariant. -/
theorem theInvariantHoldsAtReset : Obligations.TheInvariantHoldsAtReset := by
  unfold Obligations.TheInvariantHoldsAtReset
  rw [reset_eq_started]
  exact inv_started _ _ _

/-! ### Every command -/

/-- Every command answers with a next state, which has the invariant: what its effect does to either half is the lemma
of Laws/ about that effect. -/
theorem exec_keeps_inv (c : Instr) (h : Inv s) : ∃ t, exec c s = .next t ∧ Inv t := by
  cases c
  case enquireUnit l => exact ⟨_, rfl, inv_enquire 0 l _ (fun _ _ => rfl) h⟩
  case enquireJob l => exact ⟨_, rfl, inv_enquire 1 l _ reportJob_state h⟩
  case enquireTrims l => exact ⟨_, rfl, inv_enquire 2 l _ (fun _ _ => rfl) h⟩
  case enquireLine l => exact ⟨_, rfl, inv_enquire 3 l _ (fun _ _ => rfl) h⟩
  case poll l =>
    exact ⟨_, rfl, inv_message _ l _ _ (fun _ _ _ => good_pollQueue l _) (fun _ _ _ hs _ => kept_pollQueue l _ hs) h⟩
  case jobOpen l =>
    exact ⟨_, rfl, inv_message _ l _ _ (fun _ d _ => good_jobOpen l d) (fun _ d _ hs _ => kept_jobOpen l d hs) h⟩
  case jobEnd l =>
    exact ⟨_, rfl, inv_message _ l _ _ (fun _ d _ => good_jobEnd d) (fun _ d _ hs _ => kept_jobEnd d hs) h⟩
  case jobCancel l =>
    exact ⟨_, rfl, inv_message _ l _ _ (fun _ d _ => good_jobCancel d) (fun _ d _ hs _ => kept_jobCancel d hs) h⟩
  case jobHold l =>
    exact ⟨_, rfl, inv_message _ l _ _ (fun _ d _ => good_jobHold d) (fun _ d _ hs _ => kept_jobHold d hs) h⟩
  case jobRelease l =>
    exact ⟨_, rfl, inv_message _ l _ _ (fun _ d _ => good_jobRelease d) (fun _ d _ hs _ => kept_jobRelease d hs) h⟩
  case lineOpen l =>
    exact ⟨_, rfl, inv_message _ l _ _ (fun _ d _ => good_lineOpen l d) (fun _ d _ => kept_lineOpen l d) h⟩
  case linePart l =>
    exact ⟨_, rfl, inv_message _ l _ _ (fun _ d _ => good_linePart l d) (fun _ d _ hs _ => kept_linePart l d hs) h⟩
  case mapLoad l =>
    exact ⟨_, rfl, inv_message _ l _ _ (fun _ d _ => good_mapLoad d) (fun _ d _ hs _ => kept_mapLoad d hs) h⟩
  case mapClear l =>
    exact ⟨_, rfl, inv_message _ l _ _ (fun _ d _ => good_mapClear d) (fun _ d _ hs _ => kept_mapClear d hs) h⟩
  case trimRestart l =>
    exact ⟨_, rfl, inv_message _ l _ _ (fun _ d _ => good_trimRestart d) (fun _ d _ hs _ => kept_trimRestart d hs) h⟩
  case trimLimits l =>
    exact ⟨_, rfl, inv_message _ l _ _ (fun _ d _ => good_trimLimits d) (fun _ d _ hs _ => kept_trimLimits d hs) h⟩
  case bankSet l =>
    exact ⟨_, rfl, inv_message _ l _ _ (fun _ d _ => good_bankSet d) (fun _ d _ hs _ => kept_bankSet d hs) h⟩
  case filmSet l =>
    exact ⟨_, rfl, inv_message _ l _ _ (fun _ d _ => good_filmSet d) (fun _ d _ hs _ => kept_filmSet d hs) h⟩
  case spinSet l =>
    exact ⟨_, rfl, inv_message _ l _ _ (fun _ d _ => good_spinSet d) (fun _ d _ hs _ => kept_spinSet d hs) h⟩
  case unitHold l =>
    exact ⟨_, rfl, inv_message _ l _ _ (fun _ _ _ => good_setHold) (fun _ _ _ hs _ => kept_setHold hs) h⟩
  case unitRun l =>
    exact ⟨_, rfl, inv_message _ l _ _ (fun _ _ _ => good_clearHold) (fun _ _ _ hs _ => kept_clearHold hs) h⟩
  case restart l =>
    exact ⟨_, rfl, inv_message _ l _ _ (fun _ _ _ => good_restart) (fun _ _ _ hs _ => kept_restart hs) h⟩
  case panelSet l =>
    exact ⟨_, rfl, inv_message _ l _ _ (fun _ d _ => good_panelSet d) (fun _ d _ hs _ => kept_panelSet d hs) h⟩
  case resetUnit l =>
    exact ⟨_, rfl, inv_message _ l _ _ (fun _ d _ => good_resetUnit d) (fun _ d _ hs _ => kept_resetUnit d hs) h⟩
  case resetLine l =>
    exact ⟨_, rfl, inv_message _ l _ _ (fun _ d _ => good_resetLine l d) (fun _ d _ hs _ => kept_resetLine l d hs) h⟩
  case checkFailedEntry l => exact ⟨_, rfl, inv_powered _ (good_refuseCheck l) (kept_refuseCheck l) h⟩
  case unknownKind l => exact ⟨_, rfl, inv_powered _ (good_refuseKind l) (kept_refuseKind l) h⟩
  case stationCharacter l c => exact ⟨_, rfl, inv_modLine l _ (PassOk.taken _ fun i => PassOk.stationCharacter i c) h⟩
  case frameEnd l c => exact ⟨_, rfl, inv_modLine l _ (PassOk.taken _ fun i => PassOk.bodyCharacter i c) h⟩
  case lengthOutOfRange l c => exact ⟨_, rfl, inv_modLine l _ (PassOk.taken _ fun i => PassOk.bodyCharacter i c) h⟩
  case bodyCharacter l c => exact ⟨_, rfl, inv_modLine l _ (PassOk.taken _ fun i => PassOk.bodyCharacter i c) h⟩
  case framingError l => exact ⟨_, rfl, inv_modLine l _ PassOk.framingError h⟩
  case frameGap l => exact ⟨_, rfl, inv_modLine l _ PassOk.gapEnds h⟩
  case markingResumed l => exact ⟨_, rfl, inv_modLine l _ PassOk.marking h⟩
  case replyEnd l => exact ⟨_, rfl, inv_modLine l _ (fun _ hi => hi.of_eq rfl rfl) h⟩
  case lineBreak l => exact ⟨_, rfl, inv_powered _ (good_lineBroken l) (kept_lineBroken l) h⟩
  case silence l => exact ⟨_, rfl, inv_powered _ (good_lineSilent l) (kept_lineSilent l) h⟩
  case encoderEdge d =>
    cases d with
    | up => exact ⟨_, rfl, inv_powered _ good_edgeUp kept_edgeUp h⟩
    | down => exact ⟨_, rfl, inv_powered _ good_edgeDown kept_edgeDown h⟩
  case indexEvent ring => exact ⟨_, rfl, inv_powered _ (good_indexEvent _) (kept_indexEvent _) h⟩
  case spinupFault => exact ⟨_, rfl, inv_powered _ (good_limitFault _ _ _) (kept_limitFault _ _ _) h⟩
  case stall => exact ⟨_, rfl, inv_powered _ (good_limitFault _ _ _) (kept_limitFault _ _ _) h⟩
  case speedFault => exact ⟨_, rfl, inv_powered _ (good_limitFault _ _ _) (kept_limitFault _ _ _) h⟩
  case chargeFault => exact ⟨_, rfl, inv_powered _ (good_limitFault _ _ _) (kept_limitFault _ _ _) h⟩
  case homeFault m => exact ⟨_, rfl, inv_powered _ (good_homeLimit m) (kept_homeLimit m) h⟩
  case bankSample level =>
    exact ⟨_, rfl, inv_powered _ (fun hs => good_modBank _ hs fun b => b.sample_outputs _)
      (fun hs => kept_same hs rfl) h⟩
  case hitPulse =>
    exact ⟨_, rfl, inv_powered _ (fun hs => good_modEngine _ hs fun _ => rfl) (fun hs => kept_same hs rfl) h⟩
  case resultWatchClose => exact ⟨_, rfl, inv_powered _ good_closeWatch kept_closeWatch h⟩
  case carriageStep home => exact ⟨_, rfl, inv_powered _ (good_driveChanged _) (kept_driveChanged _) h⟩
  case deflectorStep t r => exact ⟨_, rfl, inv_powered _ (good_driveChanged _) (kept_driveChanged _) h⟩
  case turretStep home => exact ⟨_, rfl, inv_powered _ (good_driveChanged _) (kept_driveChanged _) h⟩
  case filmStep => exact ⟨_, rfl, inv_powered _ good_filmStepEnd kept_filmStepEnd h⟩
  case settleEnd m =>
    exact ⟨_, rfl, inv_powered _ (fun hs => good_carryOn (good_modDrive _ hs))
      (fun hs => kept_carryOn (kept_same hs rfl)) h⟩
  case cutEnd => exact ⟨_, rfl, inv_powered _ good_cutEnds kept_cutEnds h⟩
  case holdKey => exact ⟨_, rfl, inv_powered _ good_setHold kept_setHold h⟩
  case runKey => exact ⟨_, rfl, inv_powered _ good_runKey kept_runKey h⟩
  case discDoneKey => exact ⟨_, rfl, inv_powered _ good_discDone kept_discDone h⟩
  case filmLoadedKey => exact ⟨_, rfl, inv_powered _ good_loadFilm kept_loadFilm h⟩
  case resetKey => exact ⟨_, rfl, inv_powered _ (good_unitReset _) (kept_unitReset _) h⟩
  case assemblyTimeout l => exact ⟨_, rfl, inv_powered _ (good_deadlineEnds l) (kept_deadlineEnds l) h⟩
  case starvationTimeout => exact ⟨_, rfl, inv_powered _ good_graceEnds kept_graceEnds h⟩
  case parkTimeout => exact ⟨_, rfl, inv_powered _ good_parkTimeout kept_parkTimeout h⟩
  case supplyLow => exact ⟨_, rfl, inv_outputsOff h⟩
  case supplyStart inp =>
    refine ⟨_, rfl, ?_⟩
    split
    · exact inv_started _ _ _
    · exact h
  case powerStart inp => exact ⟨_, rfl, inv_started _ _ _⟩

/-! ### Every step -/

/-- The invariant does not speak of the commands that wait. -/
theorem inv_withPending (q : List Instr) (h : Inv s) : Inv { s with pending := q } :=
  ⟨⟨h.bounds.queues, h.bounds.pool, h.bounds.channel, h.bounds.outputs, h.bounds.jobs, h.bounds.disc, h.bounds.pass⟩,
    h.rolls, h.current⟩

/-- Settles O5: the step is a tick, or the command at the front of the queue. -/
theorem everyStepKeepsTheInvariant : Obligations.EveryStepKeepsTheInvariant := by
  unfold Obligations.EveryStepKeepsTheInvariant
  intro s t h hstep
  unfold step at hstep
  split at hstep
  · cases hstep
    exact .of_bounds_kept (bounds_idle h.bounds) (kept_idle h.kept)
  · obtain ⟨u, hu, hinv⟩ := exec_keeps_inv _ (inv_withPending _ h)
    rw [hu] at hstep
    cases hstep
    exact hinv

end Sys2Proof.Machine
end

