-- ==== Sys2Proof/Proofs/LineMessages.lean ====
section
/-!
SUPPORT. LINE-OPEN and LINE-PART: the store around an open assembly, each check of the two messages with its answer
(R24 to R28), and the three ends of a commit (R29 to R32).
-/
namespace Sys2Proof.Machine

variable {s u : State}

/-! ### The two composing lines of a store -/

@[simp] theorem Pair.get_set_same {α : Type} (p : Pair α) (l : CLine) (v : α) : (p.set l v).get l = v := by
  cases l <;> rfl

@[simp] theorem Pair.get_set_other {α : Type} (p : Pair α) (l : CLine) (v : α) :
    (p.set l v).get l.other = p.get l.other := by
  cases l <;> rfl

@[simp] theorem Pair.set_set {α : Type} (p : Pair α) (l : CLine) (v w : α) : (p.set l v).set l w = p.set l w := by
  cases l <;> rfl

/-- With no assembly open on a line, the records in use are the lines and the assembly of the other line (R21). -/
theorem freeRecords_of_get_none {st : LineStore} {l : CLine} (hn : st.assembly.get l = none) :
    st.freeRecords = 64 - (st.lines.length + (st.assembly.get l.other).isSome.toNat) := by
  cases l
  · have ha : st.assembly.a = none := hn
    simp [LineStore.freeRecords, ha, Config.lineRecords, Pair.get, CLine.other]
  · have hb : st.assembly.b = none := hn
    simp [LineStore.freeRecords, hb, Config.lineRecords, Pair.get, CLine.other]

/-! ### The discard of an assembly (R37) -/

theorem discardAssembly_of_none (r : Option DropReason) {l : CLine} (hn : s.store.assembly.get l = none) :
    discardAssembly l r s = s := by
  simp only [discardAssembly, hn]

/-- The front-end is told of the discard, and the assembly's reserved cells become free. -/
theorem discardAssembly_of_some (r : DropReason) {l : CLine} {a : Assembly} (ha : s.store.assembly.get l = some a) :
    discardAssembly l (some r) s = post l (.assemblyDropped a.header.job a.header.line r)
      (withStore { s.store with assembly := s.store.assembly.set l none,
                                freeCells := s.store.freeCells + a.header.count } s) := by
  have hst : s.store.endAssembly l = { s.store with assembly := s.store.assembly.set l none,
                                                    freeCells := s.store.freeCells + a.header.count } := by
    rw [LineStore.endAssembly, ha, reservedBy]
  simp only [discardAssembly, ha]
  rw [State.modStore, hst, withStore]

/-- The discard leaves the records and the other line's assembly. -/
theorem discardAssembly_store (l : CLine) (r : DropReason) (s : State) :
    (discardAssembly l (some r) s).store.lines = s.store.lines
      ∧ (discardAssembly l (some r) s).store.assembly.get l.other = s.store.assembly.get l.other
      ∧ (discardAssembly l (some r) s).store.freeCells = s.store.freeCells + reservedBy (s.store.assembly.get l) := by
  cases ha : s.store.assembly.get l with
  | none => rw [discardAssembly_of_none _ ha]; exact ⟨rfl, rfl, rfl⟩
  | some a => rw [discardAssembly_of_some _ ha]; exact ⟨rfl, Pair.get_set_other _ _ _, rfl⟩

/-! ### LINE-OPEN's checks, in their order (R24 to R26) -/

theorem Job.pastFinal_iff (j : Job) (n : Nat) : j.pastFinal n = true ↔ ∃ f, j.final = some f ∧ f < n := by
  unfold Job.pastFinal
  cases j.final <;> simp

section
variable {l : CLine} {d : List Byte} {j : Job}

theorem openLine_noJob (hj : findJob u.jobs (byteAt d 0) = none) : openLine l d u = refuse .noJob 0 u := by
  simp only [openLine, hj]

theorem openLine_range {k : Nat} (hj : findJob u.jobs (byteAt d 0) = some j) (hh : headerFault d = some k) :
    openLine l d u = refuse .range k u := by
  simp only [openLine, hj, hh]

theorem openLine_sequence (hj : findJob u.jobs (byteAt d 0) = some j) (hh : headerFault d = none)
    (hs : (headerOf d).line ≠ j.committed + 1 ∨ ∃ f, j.final = some f ∧ f < (headerOf d).line) :
    openLine l d u = refuse .sequence (j.committed + 1) u := by
  simp only [openLine, hj, hh]
  rw [if_pos (by rwa [Bool.or_eq_true, decide_eq_true_eq, Job.pastFinal_iff]), Job.expected]

/-- A LINE-OPEN of the line its job expects is judged by the free records and cells alone. -/
theorem openLine_expected (hj : findJob u.jobs (byteAt d 0) = some j) (hh : headerFault d = none)
    (hs : ¬ ((headerOf d).line ≠ j.committed + 1 ∨ ∃ f, j.final = some f ∧ f < (headerOf d).line)) :
    openLine l d u =
      if u.store.freeRecords = 0 then refuse .full 65535 u
      else if u.store.freeCells < (headerOf d).count then refuse .full u.store.freeCells u
      else accept (u.modStore fun st => st.openLine l (headerOf d)) := by
  simp only [openLine, hj, hh]
  rw [if_neg (by rwa [Bool.or_eq_true, decide_eq_true_eq, Job.pastFinal_iff])]

/-- LINE-OPEN is answered with what its block makes of it once PASS stands and its body has 12 bytes. -/
theorem exec_lineOpen {tag : Byte} {body : ReplyBody} {f : State → State} (hw : Waits l 0x08 tag d s)
    (hp : Passed l s) (hd : d.length = 12) (ho : Owned l (byteAt d 0) s)
    (ha : openLine l d (discardAssembly l (some .replaced) (emptySlot l s)) = (f (emptySlot l s), body)) :
    exec (.lineOpen l) s = .next (answered l tag body f s) :=
  congrArg _ (answered_of_act .lineOpen l (fun _ d => lineOpen l d) hw
    (leadingFault_none _ _ _ (by simp [malformed, MsgKind.bodyLength, hd]) (fun _ => hp)
      (wrongOwner_owned _ _ _ ho)) ha)

end

/-- The header's fields are judged in the order of Table 2-2 (R19). -/
theorem headerFault_eq (d : List Byte) :
    headerFault d =
      if 1 < byteAt d 3 then some 1
      else if 7 < (headerOf d).lens then some 2
      else if 2880 < (headerOf d).leading then some 3
      else if 14399 < (headerOf d).indent then some 4
      else if (headerOf d).measure < 1 ∨ 14400 < (headerOf d).measure
          ∨ 14400 < (headerOf d).indent + (headerOf d).measure then some 5
      else if (headerOf d).count < 1 ∨ 240 < (headerOf d).count then some 6
      else none := by
  simp only [headerFault, headerOf, Bool.or_eq_true, decide_eq_true_eq, or_assoc]
  congr

/-- Settles O14: the replacement comes first, and each check is judged on the part that it leaves. -/
theorem lineOpenChecksAndReserves : Obligations.LineOpenChecksAndReserves := by
  unfold Obligations.LineOpenChecksAndReserves
  refine ⟨?_, headerFault_eq⟩
  intro l tag d s hw hp hd ho h free replaced refused records
  obtain ⟨u, hu⟩ : ∃ u, u = discardAssembly l (some .replaced) (emptySlot l s) := ⟨_, rfl⟩
  obtain ⟨hlines, hother, hcells⟩ := discardAssembly_store l .replaced (emptySlot l s)
  rw [← hu, emptySlot_store] at hlines hother hcells
  replace hcells : u.store.freeCells = free := hcells
  have hrep : replaced (emptySlot l s) = u := by
    rw [hu]
    cases ha : s.store.assembly.get l with
    | none => simp only [replaced, emptySlot_store, ha, discardAssembly_of_none (s := emptySlot l s) _ ha]
    | some a =>
      simp only [replaced, free, emptySlot_store, ha, discardAssembly_of_some (s := emptySlot l s) _ ha, reservedBy]
  have hjobs : u.jobs = s.jobs := by rw [hu, discardAssembly_jobs, emptySlot_jobs]
  have hrecords : u.store.freeRecords = 64 - records := by
    rw [freeRecords_of_get_none (hu ▸ discardAssembly_none l .replaced _), hlines, hother]
  have hrefused : ∀ {r k}, openLine l d u = refuse r k u → exec (.lineOpen l) s = .next (refused r k) := fun hopen =>
    exec_lineOpen hw hp hd ho (by rw [hrep, ← hu, hopen]; rfl)
  cases hj : findJob s.jobs (byteAt d 0) with
  | none => exact hrefused (openLine_noJob (by rw [hjobs, hj]))
  | some j =>
    have hju : findJob u.jobs (byteAt d 0) = some j := by rw [hjobs, hj]
    dsimp only
    cases hh : headerFault d with
    | some k => exact hrefused (openLine_range hju hh)
    | none =>
      dsimp only
      split
      next hs => exact hrefused (openLine_sequence hju hh hs)
      next hs =>
      have hopen := openLine_expected (l := l) hju hh hs
      split
      next hr => exact hrefused (by rw [hopen, if_pos (by omega)])
      next hr =>
      rw [if_neg (by omega), hcells] at hopen
      split
      next hc => exact hrefused (by rw [hopen, if_pos hc])
      next hc =>
      refine exec_lineOpen hw hp hd ho ?_
      rw [hrep, ← hu, hopen, if_neg hc]
      simp only [accept, State.modStore, LineStore.openLine, hcells]
      rfl

/-! ### LINE-PART's checks, in their order (R27) -/

section
variable {l : CLine} {d : List Byte} {j : Job} {a : Assembly}

theorem linePart_noJob (hj : findJob u.jobs (byteAt d 0) = none) : linePart l d u = refuse .noJob 0 u := by
  simp only [linePart, hj]

theorem linePart_noAssembly (hj : findJob u.jobs (byteAt d 0) = some j) (ha : u.store.assembly.get l = none) :
    linePart l d u = refuse .sequence 255 u := by
  simp only [linePart, hj, ha]

/-- The part belongs to the assembly, goes on where it stands, and does not pass the job's final count. -/
theorem partInSequence_iff (j : Job) (a : Assembly) (d : List Byte) :
    partInSequence j a d = true ↔ a.header.job = byteAt d 0 ∧ a.header.line = u16At d 1
      ∧ a.sorts.length = byteAt d 3 ∧ ∀ f, j.final = some f → u16At d 1 ≤ f := by
  have hfinal : (!j.pastFinal (u16At d 1)) = true ↔ ∀ f, j.final = some f → u16At d 1 ≤ f := by
    rw [Bool.not_eq_true', ← Bool.not_eq_true, Job.pastFinal_iff]
    simp
  rw [partInSequence, Bool.and_eq_true, Bool.and_eq_true, Bool.and_eq_true, hfinal, beq_iff_eq, beq_iff_eq, beq_iff_eq,
    eq_comm (a := byteAt d 3), and_assoc, and_assoc]

theorem linePart_outOfSequence (hj : findJob u.jobs (byteAt d 0) = some j) (ha : u.store.assembly.get l = some a)
    (hs : partInSequence j a d = false) : linePart l d u = refuse .sequence a.sorts.length u := by
  simp only [linePart, hj, ha, hs]
  rfl

theorem linePart_outOfRange {i : Nat} (hj : findJob u.jobs (byteAt d 0) = some j)
    (ha : u.store.assembly.get l = some a) (hs : partInSequence j a d = true)
    (hr : ((sortsFrom d 5 (byteAt d 4)).map SetSort.inRange).idxOf? false = some i) :
    linePart l d u = refuse .range (byteAt d 3 + i) u := by
  have hf : firstFailing SetSort.inRange (sortsFrom d 5 (byteAt d 4)) (byteAt d 3) = some (byteAt d 3 + i) := by
    rw [firstFailing_eq_idxOf, hr, Option.map_some, Nat.add_comm]
  simp only [linePart, hj, ha, hs, hf]
  rfl

theorem linePart_taken (hj : findJob u.jobs (byteAt d 0) = some j) (ha : u.store.assembly.get l = some a)
    (hs : partInSequence j a d = true) (hr : ∀ g ∈ sortsFrom d 5 (byteAt d 4), g.inRange = true) :
    linePart l d u = takePart l j a (sortsFrom d 5 (byteAt d 4)) u := by
  simp only [linePart, hj, ha, hs, firstFailing_none hr]
  rfl

theorem takePart_incomplete {gs : List SetSort} (hn : a.sorts.length + gs.length < a.header.count) :
    takePart l j a gs u = accept (withStore { u.store with
      assembly := u.store.assembly.set l (some { a with sorts := a.sorts ++ gs, deadline := 200000 }) } u) := by
  simp only [takePart, List.length_append, if_pos hn]
  rfl

/-- LINE-PART is answered with what its block makes of it once PASS stands, its body is well formed, and no other line
owns the job it names. -/
theorem exec_linePart {tag : Byte} {body : ReplyBody} {f : State → State} (hw : Waits l 0x09 tag d s)
    (hp : Passed l s) (ho : Owned l (byteAt d 0) s) (hm : malformed .linePart (s.store.assembly.get l) d = none)
    (ha : linePart l d (emptySlot l s) = (f (emptySlot l s), body)) :
    exec (.linePart l) s = .next (answered l tag body f s) :=
  congrArg _ (answered_of_act .linePart l (fun _ d => linePart l d) hw
    (leadingFault_none _ _ _ hm (fun _ => hp) (wrongOwner_owned _ _ _ ho)) ha)

end

/-- Settles O16: each check by its `linePart_` lemma, and the accepted part by `takePart_incomplete`. -/
theorem linePartChecksAndStoresItsSorts : Obligations.LinePartChecksAndStoresItsSorts := by
  unfold Obligations.LinePartChecksAndStoresItsSorts
  intro l tag d s hw hp ho hm refused sorts
  have hrefused : ∀ {r k}, linePart l d (emptySlot l s) = refuse r k (emptySlot l s) →
      exec (.linePart l) s = .next (refused r k) := fun h => exec_linePart hw hp ho hm h
  refine ⟨fun hj => hrefused (linePart_noJob hj), fun j hj =>
    ⟨fun ha => hrefused (linePart_noAssembly hj ha), fun a ha => ⟨fun hs => ?_, fun hjob hline hplace hfinal => ?_⟩⟩⟩
  · refine hrefused (linePart_outOfSequence hj ha ?_)
    rw [← Bool.not_eq_true, partInSequence_iff]
    rintro ⟨hjob, hline, hplace, hfinal⟩
    obtain h | h | h | ⟨f, hf, hlt⟩ := hs
    · exact h hjob
    · exact h hline
    · exact h hplace
    · exact absurd (hfinal f hf) (Nat.not_le.2 hlt)
  · have hs : partInSequence j a d = true := (partInSequence_iff j a d).2 ⟨hjob, hline, hplace, hfinal⟩
    refine ⟨fun i hi => hrefused (linePart_outOfRange hj ha hs hi), fun hr hn => exec_linePart hw hp ho hm ?_⟩
    exact (linePart_taken (u := emptySlot l s) hj ha hs hr).trans (takePart_incomplete hn)

/-! ### The part that completes its line (R28 to R32) -/

section
variable {l : CLine} {d : List Byte} {j : Job} {a : Assembly} {gs : List SetSort}

theorem Completes.owned (h : Completes l d j a gs s) : Owned l (byteAt d 0) s := by
  obtain ⟨hj, ho, _⟩ := h
  intro k hk
  rw [hj] at hk
  cases hk
  exact ho

/-- The completed line is judged by its commit, on the store that holds all its sorts. -/
theorem linePart_completes (h : Completes l d j a gs s) :
    linePart l d s = commitLine l j { a with sorts := gs, deadline := Config.deadline }
      (s.modStore fun st => { st with
        assembly := st.assembly.set l (some { a with sorts := gs, deadline := Config.deadline }) }) := by
  obtain ⟨hj, _, ha, _, hjob, hline, hplace, hfinal, hr, rfl, hcount⟩ := h
  rw [linePart_taken hj ha ((partInSequence_iff j a d).2 ⟨hjob, hline, hplace, hfinal⟩) hr]
  simp only [takePart]
  rw [if_neg (by rw [hcount]; exact Nat.lt_irrefl _)]

/-- Taking the entry from the slot leaves what a completing part is judged by. -/
theorem Completes.emptySlot (h : Completes l d j a gs s) : Completes l d j a gs (emptySlot l s) := h

theorem exec_linePart_completes {tag : Byte} {body : ReplyBody} {f : State → State} (hw : Waits l 0x09 tag d s)
    (hp : Passed l s) (h : Completes l d j a gs s)
    (hc : commitLine l j { a with sorts := gs, deadline := Config.deadline }
      ((Machine.emptySlot l s).modStore fun st => { st with
        assembly := st.assembly.set l (some { a with sorts := gs, deadline := Config.deadline }) })
      = (f (Machine.emptySlot l s), body)) :
    exec (.linePart l) s = .next (answered l tag body f s) := by
  refine exec_linePart hw hp h.owned ?_ ((linePart_completes h.emptySlot).trans hc)
  obtain ⟨_, _, ha, hm, _⟩ := h
  rwa [ha]

/-! ### The three ends of a commit (R29 to R32) -/

theorem commitLine_noGlyph {i : Nat} (h : commitCells (mapOf j.disc u) a.header a.sorts = .noGlyph i) :
    commitLine l j a u = refuse .noGlyph i (u.modStore fun st => st.endAssembly l) := by
  unfold mapOf at h
  simp only [commitLine, h]

theorem commitLine_overset {n : Nat} (h : commitCells (mapOf j.disc u) a.header a.sorts = .overset n) :
    commitLine l j a u = refuse .overset n (u.modStore fun st => st.endAssembly l) := by
  unfold mapOf at h
  simp only [commitLine, h]

theorem commitLine_cells {cs : List Cell} (h : commitCells (mapOf j.disc u) a.header a.sorts = .cells cs) :
    commitLine l j a u = accept (gainLine j (u.modStore fun st => st.commit l a cs)) := by
  unfold mapOf at h
  simp only [commitLine, h]

end

/-- The end of an assembly whose last part had just been stored gives back its reserved cells (R31). -/
theorem endAssembly_of_stored (l : CLine) (b : Assembly) (u : State) :
    ((u.modStore fun st => { st with assembly := st.assembly.set l (some b) }).modStore fun st => st.endAssembly l)
      = withStore { u.store with
          assembly := u.store.assembly.set l none, freeCells := u.store.freeCells + b.header.count } u := by
  simp only [State.modStore, withStore, LineStore.endAssembly, Pair.get_set_same, Pair.set_set, reservedBy]

/-- The commit of an assembly whose last part had just been stored: its cells stay held (R32). -/
theorem commit_of_stored (l : CLine) (b : Assembly) (cs : List Cell) (u : State) :
    ((u.modStore fun st => { st with assembly := st.assembly.set l (some b) }).modStore fun st => st.commit l b cs)
      = withStore { u.store with
          assembly := u.store.assembly.set l none, lines := u.store.lines ++ [recordOf l b cs] } u := by
  simp only [State.modStore, withStore, LineStore.commit, Pair.set_set]

/-- Settles O17: both refusals end the assembly, and its cells are free again. -/
theorem aRefusedCommitDiscardsTheLine : Obligations.ARefusedCommitDiscardsTheLine := by
  unfold Obligations.ARefusedCommitDiscardsTheLine
  intro l tag d j a gs s hw hp h freed
  refine ⟨fun i hi => exec_linePart_completes hw hp h ?_, fun n hn => exec_linePart_completes hw hp h ?_⟩
  · rw [commitLine_noGlyph hi, endAssembly_of_stored]
    rfl
  · rw [commitLine_overset hn, endAssembly_of_stored]
    rfl

/-! ### The committed line -/

/-- A change of the records that leaves the states leaves whether a job is ACTIVE. -/
theorem activeJob_updateJob_isSome (n : Nat) (f : Job → Job) (hf : ∀ j, (f j).state = j.state) (s : State) :
    (activeJob (updateJob n f s)).isSome = (activeJob s).isSome := by
  have hst : ∀ j : Job, (if j.number = n then f j else j).state = j.state := fun j => by
    split
    · exact hf j
    · rfl
  have hsame : ((fun j : Job => j.state == .active) ∘ fun j => if j.number = n then f j else j)
      = fun j => j.state == .active :=
    funext fun j => congrArg (· == JobState.active) (hst j)
  show (List.find? _ (s.jobs.map _)).isSome = _
  rw [List.find?_map, hsame, Option.isSome_map]
  rfl

/-- Neither the store nor a slot tells whether a line is being flashed. -/
theorem Flashing.withStore (h : Flashing s) (l : CLine) (st : LineStore) :
    Flashing (Machine.withStore st (emptySlot l s)) := h

/-- While a line is being flashed a new unset line only raises the committed count. -/
theorem gainLine_flashing (j : Job) (h : Flashing s) :
    gainLine j s = withJob j.number (fun k => { k with committed := k.committed + 1 }) s := by
  obtain ⟨hflash, hcurrent, hactive⟩ := h
  have hstill := activeJob_updateJob_isSome j.number (fun k => { k with committed := k.committed + 1 }) (fun _ => rfl) s
  have hf : Flashing (updateJob j.number (fun k => { k with committed := k.committed + 1 }) s) :=
    ⟨hflash, hcurrent, hstill.trans hactive⟩
  simp only [gainLine, selectionPoint_flashing hf, carryOn_flash hf.1, ite_self]
  rfl

/-- Settles O18: while a line is being flashed the new line makes no selection. -/
theorem anAcceptedCommitJoinsTheJobsList : Obligations.AnAcceptedCommitJoinsTheJobsList := by
  unfold Obligations.AnAcceptedCommitJoinsTheJobsList
  intro l tag d j a gs cs s hw hp h hflash hcs
  refine exec_linePart_completes hw hp h ?_
  rw [commitLine_cells hcs, commit_of_stored, gainLine_flashing j (hflash.withStore l _)]
  rfl

end Sys2Proof.Machine
end

