-- ==== Sys2Proof/Proofs/Layout.lean ====
section
/-!
SUPPORT. Runs and pen intervals (R33 to R35): the flag of each sort, the cutting of a line into its runs, and where each
sort of a run begins.
-/
namespace Sys2Proof.Machine

/-! ### Sums of advances -/

@[simp] theorem totalAdvance_nil : totalAdvance [] = 0 := rfl

@[simp] theorem totalAdvance_cons (g : SetSort) (gs : List SetSort) :
    totalAdvance (g :: gs) = g.advance + totalAdvance gs := by simp [totalAdvance]

@[simp] theorem totalAdvance_append (xs ys : List SetSort) :
    totalAdvance (xs ++ ys) = totalAdvance xs + totalAdvance ys := by simp [totalAdvance]

theorem totalAdvance_take_succ {gs : List SetSort} {k : Nat} {g : SetSort} (h : gs[k]? = some g) :
    totalAdvance (gs.take (k + 1)) = totalAdvance (gs.take k) + g.advance := by
  rw [List.take_add_one, h]
  simp

theorem totalAdvance_take_le (gs : List SetSort) (k : Nat) : totalAdvance (gs.take k) ≤ totalAdvance gs := by
  have h : totalAdvance gs = totalAdvance (gs.take k) + totalAdvance (gs.drop k) := by
    rw [← totalAdvance_append, List.take_append_drop]
  omega

/-- The advances of a line up to `m` are those up to `b`, and those of the stretch from there. -/
theorem totalAdvance_take_of_le (gs : List SetSort) {b m e : Nat} (hb : b ≤ m) (hm : m ≤ e) :
    totalAdvance (gs.take m)
      = totalAdvance (gs.take b) + totalAdvance (((gs.take e).drop b).take (m - b)) := by
  rw [← totalAdvance_append]
  congr 1
  rw [List.drop_take, List.take_take, Nat.min_eq_left (by omega), ← List.take_add, Nat.add_sub_cancel' hb]

/-! ### Run flags (R33) -/

@[simp] theorem length_runFlags (b : Bool) (gs : List SetSort) : (runFlags b gs).length = gs.length := by
  induction gs generalizing b with
  | nil => rfl
  | cons g gs ih => simp [runFlags, ih]

/-- A mark takes the flag of the sort before it, which for the first sort is the flag that stands before the line. -/
theorem getElem?_runFlags {gs : List SetSort} {i : Nat} {g : SetSort} (b : Bool) (h : gs[i]? = some g) :
    (runFlags b gs)[i]? = some (if g.advance = 0 then (b :: runFlags b gs).getD i false else g.reversed) := by
  induction gs generalizing b i with
  | nil => simp at h
  | cons x xs ih =>
    cases i with
    | zero =>
      cases h
      rfl
    | succ i =>
      simp only [runFlags, List.getElem?_cons_succ] at h ⊢
      rw [ih _ h, List.getD_cons_succ]

/-! ### The runs of a line (R33) -/

/-- The run flag of each sort of a marked line. -/
abbrev flagsOf (zs : List (SetSort × Bool)) : List Bool := zs.map Prod.snd

/-- The sorts of a list of runs, in their order. -/
abbrev sortsOf (rs : List (Bool × List SetSort)) : List SetSort := rs.flatMap Prod.snd

theorem sortsOf_addToRuns (g : SetSort) (f : Bool) (rs : List (Bool × List SetSort)) :
    sortsOf (addToRuns g f rs) = g :: sortsOf rs := by
  cases rs with
  | nil => rfl
  | cons r rs =>
    rw [addToRuns]
    split <;> rfl

/-- The runs hold the line's sorts, in their order. -/
theorem sortsOf_runsOf (zs : List (SetSort × Bool)) : sortsOf (runsOf zs) = zs.map Prod.fst := by
  induction zs with
  | nil => rfl
  | cons z zs ih => rw [runsOf, sortsOf_addToRuns, ih]; rfl

theorem runsOf_ne_nil {zs : List (SetSort × Bool)} (h : zs ≠ []) : runsOf zs ≠ [] := by
  intro he
  have := sortsOf_runsOf zs
  rw [he] at this
  exact h (List.map_eq_nil_iff.1 this.symm)

/-- The first run has the flag of the first sort. -/
theorem head?_addToRuns (g : SetSort) (f : Bool) (rs : List (Bool × List SetSort)) :
    (addToRuns g f rs).head?.map Prod.fst = some f := by
  cases rs with
  | nil => rfl
  | cons r rs =>
    rw [addToRuns]
    split
    · next h => rw [h]; rfl
    · rfl

theorem head?_runsOf (zs : List (SetSort × Bool)) : (runsOf zs).head?.map Prod.fst = (flagsOf zs)[0]? := by
  cases zs with
  | nil => rfl
  | cons z zs => exact head?_addToRuns _ _ _

/-- A sort whose flag differs from that of the run that follows stands in a run of its own. -/
theorem addToRuns_of_ne {g : SetSort} {f : Bool} {rs : List (Bool × List SetSort)}
    (h : rs.head?.map Prod.fst ≠ some f) : addToRuns g f rs = (f, [g]) :: rs := by
  cases rs with
  | nil => rfl
  | cons r rs =>
    rw [addToRuns, if_neg]
    intro hf
    exact h (congrArg some hf.symm)

/-- A sort joins the first run, whatever runs come later. -/
theorem addToRuns_append {g : SetSort} {f : Bool} {rs : List (Bool × List SetSort)} (ts : List (Bool × List SetSort))
    (h : rs ≠ []) : addToRuns g f (rs ++ ts) = addToRuns g f rs ++ ts := by
  cases rs with
  | nil => exact absurd rfl h
  | cons r rs =>
    simp only [List.cons_append, addToRuns]
    split <;> rfl

/-- Where the flag changes, the runs before and the runs after are those of the two parts of the line. -/
theorem runsOf_split {zs : List (SetSort × Bool)} {k : Nat} (h : k = 0 ∨ (flagsOf zs)[k - 1]? ≠ (flagsOf zs)[k]?) :
    runsOf zs = runsOf (zs.take k) ++ runsOf (zs.drop k) := by
  induction zs generalizing k with
  | nil => simp [runsOf]
  | cons z zs ih =>
    cases k with
    | zero => rfl
    | succ k =>
      replace h : (flagsOf (z :: zs))[k]? ≠ (flagsOf zs)[k]? := by simpa using h
      cases k with
      | zero =>
        have hne : (runsOf zs).head?.map Prod.fst ≠ some z.2 := by
          rw [head?_runsOf]
          exact fun he => h he.symm
        exact addToRuns_of_ne hne
      | succ k =>
        have hrest : runsOf zs = runsOf (zs.take (k + 1)) ++ runsOf (zs.drop (k + 1)) := ih (.inr h)
        have hne : runsOf (zs.take (k + 1)) ≠ [] := by
          refine runsOf_ne_nil fun hnil => ?_
          rw [List.take_eq_nil_iff] at hnil
          simp_all
        simp only [List.take_succ_cons, List.drop_succ_cons, runsOf]
        rw [hrest, addToRuns_append _ hne]

/-- A stretch of one flag is one run. -/
theorem runsOf_constant {zs : List (SetSort × Bool)} {f : Bool} (hne : zs ≠ []) (hf : ∀ z ∈ zs, z.2 = f) :
    runsOf zs = [(f, zs.map Prod.fst)] := by
  induction zs with
  | nil => exact absurd rfl hne
  | cons z zs ih =>
    obtain ⟨hz, hzs⟩ := List.forall_mem_cons.1 hf
    cases zs with
    | nil => simp [runsOf, addToRuns, hz]
    | cons y ys => rw [runsOf, ih (by simp) hzs, addToRuns, if_pos hz]; rfl

/-! ### Where the sorts begin (R34, R35) -/

theorem getElem?_normalStarts (pen : Nat) {gs : List SetSort} {k : Nat} (hk : k < gs.length) :
    (normalStarts pen gs)[k]? = some (pen + totalAdvance (gs.take k)) := by
  induction gs generalizing pen k with
  | nil => simp at hk
  | cons g gs ih =>
    cases k with
    | zero => rfl
    | succ k =>
      rw [normalStarts, List.getElem?_cons_succ, ih _ (by simpa using hk), List.take_succ_cons, totalAdvance_cons,
        Nat.add_assoc]

theorem getElem?_reversedStarts (top : Nat) {gs : List SetSort} {k : Nat} (hk : k < gs.length) :
    (reversedStarts top gs)[k]? = some (top - totalAdvance (gs.take (k + 1))) := by
  induction gs generalizing top k with
  | nil => simp at hk
  | cons g gs ih =>
    cases k with
    | zero => simp [reversedStarts]
    | succ k =>
      rw [reversedStarts, List.getElem?_cons_succ, ih _ (by simpa using hk), List.take_succ_cons, totalAdvance_cons,
        Nat.sub_sub]

/-- Where the sorts of one run begin, from the pen on. -/
def runStarts (pen : Nat) (f : Bool) (gs : List SetSort) : List Nat :=
  if f then reversedStarts (pen + totalAdvance gs) gs else normalStarts pen gs

theorem startsOf_cons (pen : Nat) (f : Bool) (gs : List SetSort) (rs : List (Bool × List SetSort)) :
    startsOf pen ((f, gs) :: rs) = runStarts pen f gs ++ startsOf (pen + totalAdvance gs) rs := rfl

theorem getElem?_runStarts (pen : Nat) (f : Bool) {gs : List SetSort} {k : Nat} (hk : k < gs.length) :
    (runStarts pen f gs)[k]? = some (if f = true then pen + totalAdvance gs - totalAdvance (gs.take (k + 1))
      else pen + totalAdvance (gs.take k)) := by
  unfold runStarts
  split
  · exact getElem?_reversedStarts _ hk
  · exact getElem?_normalStarts _ hk

theorem length_runStarts (pen : Nat) (f : Bool) (gs : List SetSort) : (runStarts pen f gs).length = gs.length := by
  have hn : ∀ pen, (normalStarts pen gs).length = gs.length := by
    induction gs with
    | nil => exact fun _ => rfl
    | cons g gs ih => simp [normalStarts, ih]
  have hr : ∀ top, (reversedStarts top gs).length = gs.length := by
    clear hn
    induction gs with
    | nil => exact fun _ => rfl
    | cons g gs ih => simp [reversedStarts, ih]
  unfold runStarts
  split
  · exact hr _
  · exact hn _

theorem length_startsOf (pen : Nat) (rs : List (Bool × List SetSort)) :
    (startsOf pen rs).length = (sortsOf rs).length := by
  induction rs generalizing pen with
  | nil => rfl
  | cons r rs ih =>
    obtain ⟨f, gs⟩ := r
    rw [startsOf_cons, List.length_append, length_runStarts, ih]
    simp

/-- The pen stands after the runs before, whatever their flags. -/
theorem startsOf_append (pen : Nat) (rs ts : List (Bool × List SetSort)) :
    startsOf pen (rs ++ ts) = startsOf pen rs ++ startsOf (pen + totalAdvance (sortsOf rs)) ts := by
  induction rs generalizing pen with
  | nil => rfl
  | cons r rs ih =>
    obtain ⟨f, gs⟩ := r
    rw [List.cons_append, startsOf_cons, startsOf_cons, ih, List.append_assoc]
    simp [Nat.add_assoc]

theorem map_fst_zip_runFlags (gs : List SetSort) : (gs.zip (runFlags false gs)).map Prod.fst = gs :=
  List.map_fst_zip (by simp)

theorem flagsOf_zip_runFlags (gs : List SetSort) : flagsOf (gs.zip (runFlags false gs)) = runFlags false gs :=
  List.map_snd_zip (by simp)

@[simp] theorem length_penStarts (gs : List SetSort) : (penStarts gs).length = gs.length := by
  rw [penStarts, length_startsOf, sortsOf_runsOf, map_fst_zip_runFlags]

/-- In a maximal stretch of one flag the sorts begin as in one run, from the pen that stands after the sorts before. -/
theorem getElem?_startsOf_run {zs : List (SetSort × Bool)} {b e i : Nat} {f : Bool} (hbi : b ≤ i) (hie : i < e)
    (he : e ≤ zs.length) (hf : ∀ k, b ≤ k → k < e → (flagsOf zs)[k]? = some f)
    (hfirst : b = 0 ∨ (flagsOf zs)[b - 1]? ≠ some f) (hlast : e = zs.length ∨ (flagsOf zs)[e]? ≠ some f) :
    (startsOf 0 (runsOf zs))[i]? = (runStarts (totalAdvance ((zs.map Prod.fst).take b)) f
      (((zs.map Prod.fst).take e).drop b))[i - b]? := by
  have hcut : runsOf zs
      = runsOf (zs.take b) ++ ([(f, ((zs.map Prod.fst).take e).drop b)] ++ runsOf (zs.drop e)) := by
    have hstretch : runsOf ((zs.take e).drop b) = [(f, ((zs.map Prod.fst).take e).drop b)] := by
      rw [← List.map_take, ← List.map_drop]
      refine runsOf_constant (by simp; omega) fun z hz => ?_
      obtain ⟨m, hm⟩ := List.mem_iff_getElem?.1 hz
      rw [List.getElem?_drop, List.getElem?_take] at hm
      split at hm
      · next hlt =>
        have hfm := hf (b + m) (by omega) hlt
        rw [List.getElem?_map, hm] at hfm
        exact Option.some.inj hfm
      · cases hm
    have hchange : (flagsOf zs)[e - 1]? ≠ (flagsOf zs)[e]? := by
      rw [hf (e - 1) (by omega) (by omega)]
      rcases hlast with rfl | hlast
      · simp
      · exact hlast.symm
    have hfirst' : b = 0 ∨ (flagsOf (zs.take e))[b - 1]? ≠ (flagsOf (zs.take e))[b]? := by
      rw [flagsOf, List.map_take, List.getElem?_take_of_lt (by omega), List.getElem?_take_of_lt (by omega),
        hf b (Nat.le_refl b) (by omega)]
      exact hfirst
    rw [runsOf_split (.inr hchange), runsOf_split hfirst', hstretch, List.take_take, Nat.min_eq_left (by omega),
      List.append_assoc]
  have hlen : (startsOf 0 (runsOf (zs.take b))).length = b := by
    rw [length_startsOf, sortsOf_runsOf, List.length_map, List.length_take]
    omega
  rw [hcut, startsOf_append, List.getElem?_append_right (by omega), hlen, startsOf_append,
    List.getElem?_append_left (by simp [startsOf_cons, length_runStarts]; omega), sortsOf_runsOf, List.map_take,
    Nat.zero_add, startsOf_cons]
  simp [startsOf]

/-- A sort of a run ends within the run's block. -/
theorem runStarts_le {pen : Nat} {f : Bool} {gs : List SetSort} {k u : Nat} {g : SetSort}
    (hu : (runStarts pen f gs)[k]? = some u) (hg : gs[k]? = some g) : u + g.advance ≤ pen + totalAdvance gs := by
  have hk : k < gs.length := (List.getElem?_eq_some_iff.1 hg).1
  have hsucc := totalAdvance_take_succ hg
  have hle := totalAdvance_take_le gs (k + 1)
  rw [getElem?_runStarts _ _ hk] at hu
  have hu := Option.some.inj hu
  split at hu <;> omega

theorem startsOf_le {pen : Nat} {rs : List (Bool × List SetSort)} {i u : Nat} {g : SetSort}
    (hu : (startsOf pen rs)[i]? = some u) (hg : (sortsOf rs)[i]? = some g) :
    u + g.advance ≤ pen + totalAdvance (sortsOf rs) := by
  induction rs generalizing pen i with
  | nil => simp at hg
  | cons r rs ih =>
    obtain ⟨f, gs⟩ := r
    have hsorts : sortsOf ((f, gs) :: rs) = gs ++ sortsOf rs := rfl
    rw [hsorts, totalAdvance_append]
    rw [hsorts] at hg
    rw [startsOf_cons] at hu
    by_cases hi : i < gs.length
    · rw [List.getElem?_append_left (by rwa [length_runStarts])] at hu
      rw [List.getElem?_append_left hi] at hg
      have := runStarts_le hu hg
      omega
    · rw [List.getElem?_append_right (by rw [length_runStarts]; omega), length_runStarts] at hu
      rw [List.getElem?_append_right (by omega)] at hg
      have := ih hu hg
      omega

/-- Every sort ends within the total advance of its line. -/
theorem penStarts_le {gs : List SetSort} {i u : Nat} {g : SetSort} (hu : (penStarts gs)[i]? = some u)
    (hg : gs[i]? = some g) : u + g.advance ≤ totalAdvance gs := by
  have hsorts : sortsOf (runsOf (gs.zip (runFlags false gs))) = gs := by rw [sortsOf_runsOf, map_fst_zip_runFlags]
  have := startsOf_le hu (by rwa [hsorts])
  rwa [hsorts, Nat.zero_add] at this

/-- Settles O20: the flags by `getElem?_runFlags`, and a stretch's sums by `totalAdvance_take_of_le`. -/
theorem layoutFollowsTheRuns : Obligations.LayoutFollowsTheRuns := by
  unfold Obligations.LayoutFollowsTheRuns
  intro gs flags sum
  refine ⟨fun i g hg => ?_, length_penStarts gs, fun b e i hbi hie he hflag hfirst hlast => ?_⟩
  · rw [getElem?_runFlags false hg]
    cases i <;> rfl
  · have hlen : flags.length = gs.length := length_runFlags false gs
    obtain ⟨f, hf⟩ : ∃ f, flags[i]? = some f := ⟨_, List.getElem?_eq_getElem (by omega)⟩
    have hblock : i - b < ((gs.take e).drop b).length := by simp; omega
    have hrun := getElem?_startsOf_run (zs := gs.zip flags) (f := f) hbi hie (by simp; omega)
      (by rw [flagsOf_zip_runFlags]; exact fun k hk hke => (hflag k hk hke).trans hf)
      (by rw [flagsOf_zip_runFlags, ← hf]; exact hfirst)
      (by rw [flagsOf_zip_runFlags, ← hf]; simpa [hlen] using hlast)
    rw [map_fst_zip_runFlags, getElem?_runStarts _ _ hblock] at hrun
    have hbefore : sum i = sum b + totalAdvance (((gs.take e).drop b).take (i - b)) :=
      totalAdvance_take_of_le gs hbi (Nat.le_of_lt hie)
    have hthrough : sum (i + 1) = sum b + totalAdvance (((gs.take e).drop b).take (i - b + 1)) := by
      rw [← Nat.sub_add_comm hbi]
      exact totalAdvance_take_of_le gs (by omega) hie
    have hend : sum e = sum b + totalAdvance ((gs.take e).drop b) := by
      have := totalAdvance_take_of_le gs (b := b) (m := e) (by omega) (Nat.le_refl e)
      rwa [List.take_of_length_le (l := (gs.take e).drop b) (by simp; omega)] at this
    rw [penStarts, hrun, hf, hbefore, hthrough, hend, show totalAdvance (gs.take b) = sum b from rfl]
    congr 1
    cases f <;> simp
    omega

end Sys2Proof.Machine
end

