-- ==== Sys2Proof/Proofs/Commit.lean ====
section
/-!
SUPPORT. The commit of a line (R18, R29, R30, R36): what resolution answers, the cells of a resolved line, and the two
ways in which it is overset.
-/
namespace Sys2Proof.Machine

variable {entries : List MapEntry} {h : Header} {gs : List SetSort}

/-! ### Resolution (R29) -/

/-- A sort needs no entry, being a space, or the map has its key. -/
def resolvable (entries : List MapEntry) (g : SetSort) : Bool := g.code == 0 || (lookup entries g.font g.code).isSome

theorem resolvable_iff (entries : List MapEntry) (g : SetSort) :
    resolvable entries g = true ↔ g.code = 0 ∨ (lookup entries g.font g.code).isSome = true := by
  simp [resolvable]

/-- The entry that a sort is resolved to; a space is resolved to none. -/
def sortEntry (entries : List MapEntry) (g : SetSort) : Option MapEntry :=
  if g.code = 0 then none else lookup entries g.font g.code

theorem sortEntry_some_iff {g : SetSort} {e : MapEntry} :
    sortEntry entries g = some e ↔ g.code ≠ 0 ∧ lookup entries g.font g.code = some e := by
  simp [sortEntry]

theorem sortEntry_none_iff {g : SetSort} (hg : resolvable entries g = true) :
    sortEntry entries g = none ↔ g.code = 0 := by
  rw [resolvable_iff, Option.isSome_iff_ne_none] at hg
  simp only [sortEntry, ite_eq_left_iff]
  exact ⟨fun hn => Decidable.byContradiction fun hc => hg.elim hc fun h => h (hn hc), fun hc h => absurd hc h⟩

/-- Resolution stops at the first sort whose key the map lacks. -/
theorem resolve_error {n i : Nat} (hf : firstFailing (resolvable entries) gs n = some i) :
    resolve entries gs n = .error i := by
  induction gs generalizing n with
  | nil => cases hf
  | cons g gs ih =>
    rw [firstFailing] at hf
    split at hf
    · next hg =>
      have hrest := ih hf
      by_cases hc : g.code = 0
      · simp only [resolve, hc, if_true, hrest]
      · obtain ⟨e, he⟩ := Option.isSome_iff_exists.1 (((resolvable_iff entries g).1 hg).resolve_left hc)
        simp only [resolve, if_neg hc, he, hrest]
    · next hg =>
      rw [resolvable_iff, not_or, Option.not_isSome_iff_eq_none] at hg
      cases hf
      simp only [resolve, if_neg hg.1, hg.2]

/-- With every key in the map each sort is resolved to its entry. -/
theorem resolve_ok {n : Nat} (hf : ∀ g ∈ gs, resolvable entries g = true) :
    resolve entries gs n = .ok (gs.map (sortEntry entries)) := by
  induction gs generalizing n with
  | nil => rfl
  | cons g gs ih =>
    obtain ⟨hg, hgs⟩ := List.forall_mem_cons.1 hf
    by_cases hc : g.code = 0
    · simp only [resolve, hc, if_true, ih hgs, sortEntry, List.map_cons]
    · obtain ⟨e, he⟩ := Option.isSome_iff_exists.1 (((resolvable_iff entries g).1 hg).resolve_left hc)
      simp only [resolve, if_neg hc, he, ih hgs, sortEntry, List.map_cons]

/-- The first element that fails a check fails it, and none before it does. -/
theorem firstFailing_eq_some_iff {α : Type} (ok : α → Bool) (xs : List α) (i : Nat) :
    firstFailing ok xs 0 = some i ↔
      (∃ x, xs[i]? = some x ∧ ok x = false) ∧ ∀ k < i, ∀ x, xs[k]? = some x → ok x = true := by
  rw [firstFailing_eq_idxOf]
  have hplace : (∃ hi : i < xs.length, ok xs[i] = false ∧ ∀ k, (hk : k < i) → ok (xs[k]'(Nat.lt_trans hk hi)) = true) ↔
      (∃ x, xs[i]? = some x ∧ ok x = false) ∧ ∀ k < i, ∀ x, xs[k]? = some x → ok x = true := by
    grind
  simpa [List.idxOf?, List.findIdx?_map, List.findIdx?_eq_some_iff_getElem] using hplace

theorem all_of_firstFailing_none {α : Type} {ok : α → Bool} {xs : List α} {n : Nat} (h : firstFailing ok xs n = none) :
    ∀ x ∈ xs, ok x = true := by
  induction xs generalizing n with
  | nil => simp
  | cons x xs ih =>
    rw [firstFailing] at h
    split at h
    · next hx => exact List.forall_mem_cons.2 ⟨hx, ih h⟩
    · cases h

/-! ### The cells of a resolved line (R18, R36) -/

/-- The held cell of a resolved sort that begins at `u`. -/
def cellOf (entries : List MapEntry) (h : Header) (g : SetSort) (u : Nat) : Cell :=
  match sortEntry entries g with
  | some e => { glyph := g, res := .placed e.track e.position e.heavy (carriageX h u g.advance) }
  | none => { glyph := g, res := .space }

theorem cellOf_of_none {g : SetSort} (u : Nat) (he : sortEntry entries g = none) :
    cellOf entries h g u = { glyph := g, res := .space } := by
  simp only [cellOf, he]

theorem cellOf_of_some {g : SetSort} {e : MapEntry} (u : Nat) (he : sortEntry entries g = some e) :
    cellOf entries h g u
      = { glyph := g, res := .placed e.track e.position e.heavy (carriageX h u g.advance) } := by
  simp only [cellOf, he]

theorem cellsOf_eq_zipWith (entries : List MapEntry) (h : Header) (gs : List SetSort) (us : List Nat) :
    cellsOf h gs us (gs.map (sortEntry entries)) = List.zipWith (cellOf entries h) gs us := by
  induction gs generalizing us with
  | nil => rfl
  | cons g gs ih =>
    cases us with
    | nil => simp [cellsOf]
    | cons u us =>
      rw [List.map_cons, List.zipWith_cons_cons, ← ih, cellOf]
      cases sortEntry entries g <;> rfl

/-- The cells that a line has once its keys are all found. -/
def lineCells (entries : List MapEntry) (h : Header) (gs : List SetSort) : List Cell :=
  List.zipWith (cellOf entries h) gs (penStarts gs)

theorem cellOf_glyph (entries : List MapEntry) (h : Header) (g : SetSort) (u : Nat) :
    (cellOf entries h g u).glyph = g := by
  unfold cellOf
  split <;> rfl

/-- The cells keep the line's sorts. -/
theorem lineCells_glyphs (entries : List MapEntry) (h : Header) (gs : List SetSort) :
    (lineCells entries h gs).map Cell.glyph = gs := by
  simp only [lineCells, List.map_zipWith, cellOf_glyph]
  have hfst := List.map_fst_zip (l₁ := gs) (l₂ := penStarts gs) (by simp)
  rwa [List.zip, List.map_zipWith] at hfst

/-- Each cell is that of the sort at its place. -/
theorem getElem?_lineCells {i : Nat} {c : Cell} :
    (lineCells entries h gs)[i]? = some c ↔
      ∃ g u, gs[i]? = some g ∧ (penStarts gs)[i]? = some u ∧ cellOf entries h g u = c := by
  simp only [lineCells, List.getElem?_zipWith_eq_some]

/-- A sort's cell lies beyond the carriage if it is placed, and its carriage x does (R30). -/
theorem cellOf_beyond_iff {g : SetSort} (u : Nat) (hg : resolvable entries g = true) :
    (cellOf entries h g u).beyond = true ↔ g.code ≠ 0 ∧ 14399 < carriageX h u g.advance := by
  unfold cellOf
  cases he : sortEntry entries g with
  | none => simp [Cell.beyond, (sortEntry_none_iff hg).1 he]
  | some e => exact decide_eq_true_iff.trans (and_iff_right (sortEntry_some_iff.1 he).1).symm

/-- Some cell lies beyond the carriage exactly if not every placed sort lies on it. -/
theorem lineCells_beyond_iff (hf : ∀ g ∈ gs, resolvable entries g = true) :
    (lineCells entries h gs).any Cell.beyond = false ↔
      ∀ (i : Nat) (g : SetSort) (u : Nat), gs[i]? = some g → g.code ≠ 0 → (penStarts gs)[i]? = some u →
        carriageX h u g.advance ≤ 14399 := by
  rw [List.any_eq_false]
  refine ⟨fun hall i g u hg hc hu => ?_, fun hall c hc hbeyond => ?_⟩
  · have hmem : cellOf entries h g u ∈ lineCells entries h gs :=
      List.mem_of_getElem? (getElem?_lineCells.2 ⟨g, u, hg, hu, rfl⟩)
    have hnot := hall _ hmem
    rw [cellOf_beyond_iff u (hf g (List.mem_of_getElem? hg))] at hnot
    exact Nat.le_of_not_lt fun hlt => hnot ⟨hc, hlt⟩
  · obtain ⟨i, hi⟩ := List.mem_iff_getElem?.1 hc
    obtain ⟨g, u, hg, hu, rfl⟩ := getElem?_lineCells.1 hi
    obtain ⟨hcode, hlt⟩ := (cellOf_beyond_iff u (hf g (List.mem_of_getElem? hg))).1 hbeyond
    exact absurd (hall i g u hg hcode hu) (Nat.not_le.2 hlt)

/-! ### What a commit answers (R29, R30) -/

theorem commitCells_unresolved {i : Nat} (hf : firstFailing (resolvable entries) gs 0 = some i) :
    commitCells entries h gs = .noGlyph i := by
  simp only [commitCells, resolve_error hf]

/-- A line whose keys are all found is overset if its advances or its places are too great, and else has its cells. -/
theorem commitCells_resolved (hf : ∀ g ∈ gs, resolvable entries g = true) :
    commitCells entries h gs =
      if h.measure < totalAdvance gs then .overset (totalAdvance gs)
      else if (lineCells entries h gs).any Cell.beyond then .overset (totalAdvance gs)
      else .cells (lineCells entries h gs) := by
  simp only [commitCells, resolve_ok hf, cellsOf_eq_zipWith, lineCells]
  rfl

/-- A line has its first key that is not found, or all its keys are found. -/
theorem unresolved_or_resolved (entries : List MapEntry) (gs : List SetSort) :
    (∃ i, firstFailing (resolvable entries) gs 0 = some i) ∨ ∀ g ∈ gs, resolvable entries g = true := by
  cases hf : firstFailing (resolvable entries) gs 0 with
  | some i => exact .inl ⟨i, rfl⟩
  | none => exact .inr (all_of_firstFailing_none hf)

theorem commitCells_noGlyph_iff (entries : List MapEntry) (h : Header) (gs : List SetSort) (i : Nat) :
    commitCells entries h gs = .noGlyph i ↔ firstFailing (resolvable entries) gs 0 = some i := by
  rcases unresolved_or_resolved entries gs with ⟨k, hk⟩ | hf
  · rw [commitCells_unresolved hk, hk, CommitResult.noGlyph.injEq, Option.some.injEq]
  · rw [commitCells_resolved hf, firstFailing_none hf]
    split
    · simp
    · split <;> simp

/-- An overset names the total advance. -/
theorem commitCells_overset {n : Nat} (hc : commitCells entries h gs = .overset n) : n = totalAdvance gs := by
  rcases unresolved_or_resolved entries gs with ⟨k, hk⟩ | hf
  · rw [commitCells_unresolved hk] at hc
    cases hc
  · rw [commitCells_resolved hf] at hc
    split at hc
    · cases hc; rfl
    · split at hc
      · cases hc; rfl
      · cases hc

/-- A committed line has all its keys, stays within the measure, and has no sort beyond the carriage. -/
theorem commitCells_cells {cs : List Cell} (hc : commitCells entries h gs = .cells cs) :
    (∀ g ∈ gs, resolvable entries g = true) ∧ totalAdvance gs ≤ h.measure
      ∧ (lineCells entries h gs).any Cell.beyond = false ∧ cs = lineCells entries h gs := by
  rcases unresolved_or_resolved entries gs with ⟨k, hk⟩ | hf
  · rw [commitCells_unresolved hk] at hc
    cases hc
  · rw [commitCells_resolved hf] at hc
    split at hc
    · cases hc
    · next hm =>
      split at hc
      · cases hc
      · next hb =>
        cases hc
        exact ⟨hf, Nat.le_of_not_lt hm, by simpa using hb, rfl⟩

/-- The carriage x of a sort that ends within the measure lies within the measure's ends (R36). -/
theorem carriageX_within {u a : Nat} (hu : u + a ≤ h.measure) :
    h.indent ≤ carriageX h u a ∧ carriageX h u a ≤ h.indent + h.measure := by
  unfold carriageX
  cases h.direction <;> constructor <;> dsimp only <;> omega

/-- Settles O19: what is not refused has the cells of `lineCells`, placed within the measure by `penStarts_le`. -/
theorem commitResolvesAndPlacesTheSorts : Obligations.CommitResolvesAndPlacesTheSorts := by
  unfold Obligations.CommitResolvesAndPlacesTheSorts
  refine ⟨?_, fun entries h gs cs hc => ?_⟩
  · intro entries h gs found
    have hfound : (∀ g ∈ gs, found g) → ∀ g ∈ gs, resolvable entries g = true := fun hf g hg =>
      (resolvable_iff entries g).2 (hf g hg)
    refine ⟨fun i => ?_, fun n => commitCells_overset, fun hf hm => ?_, fun hf hm => ?_⟩
    · simp only [commitCells_noGlyph_iff, firstFailing_eq_some_iff, ← Bool.not_eq_true, resolvable_iff]
      rfl
    · rw [commitCells_resolved (hfound hf), if_pos hm]
    · intro onCarriage
      have hany : (lineCells entries h gs).any Cell.beyond = false ↔ onCarriage := lineCells_beyond_iff (hfound hf)
      rw [commitCells_resolved (hfound hf), if_neg (Nat.not_lt.2 hm)]
      refine ⟨fun hon => ⟨_, if_neg (by rw [hany.2 hon]; decide)⟩, fun hoff => if_pos ?_⟩
      rwa [← Bool.not_eq_false, hany]
  · obtain ⟨hf, hm, hbeyond, rfl⟩ := commitCells_cells hc
    refine ⟨hm, lineCells_glyphs entries h gs, fun i c hi => ?_⟩
    obtain ⟨g, u, hg, hu, rfl⟩ := getElem?_lineCells.1 hi
    have hres := hf g (List.mem_of_getElem? hg)
    cases he : sortEntry entries g with
    | none =>
      rw [cellOf_of_none u he]
      exact (sortEntry_none_iff hres).1 he
    | some e =>
      obtain ⟨hcode, hlook⟩ := sortEntry_some_iff.1 he
      obtain ⟨hlow, hhigh⟩ := carriageX_within (h := h) (Nat.le_trans (penStarts_le hu hg) hm)
      have hon := (lineCells_beyond_iff hf).1 hbeyond i g u hg hcode hu
      rw [cellOf_of_some u he]
      exact ⟨hcode, ⟨e, hlook, rfl, rfl, rfl⟩, ⟨u, hu, rfl⟩, hlow, hhigh, hon⟩

end Sys2Proof.Machine
end

