-- ==== Sys2Proof/Proofs/Timers.lean ====
section
/-!
SUPPORT. The running out of the assembly, starvation and park timers (R38, R40, R97, R155, R168): what each does
while its timer stands, and the discard, the departure with its galley close, and the parking that follow.
-/
namespace Sys2Proof.Machine

variable {s : State}

theorem runOut_iff {t : Option Nat} : runOut t = true ↔ t = some 0 := beq_iff_eq

/-! ### The assembly deadline (R38, R40) -/

theorem deadlineEnds_of_none {l : CLine} (hn : s.store.assembly.get l = none) : deadlineEnds l s = s := by
  simp [deadlineEnds, hn, runOut_iff]

theorem deadlineEnds_of_timeLeft {l : CLine} {a : Assembly} (ha : s.store.assembly.get l = some a)
    (hd : a.deadline ≠ 0) : deadlineEnds l s = s := by
  simp [deadlineEnds, ha, runOut_iff, hd]

theorem deadlineEnds_of_runOut {l : CLine} {a : Assembly} (ha : s.store.assembly.get l = some a)
    (hd : a.deadline = 0) : deadlineEnds l s = discardAssembly l (some .timeout) s := by
  simp [deadlineEnds, ha, runOut_iff, hd]

/-! ### An engine that goes on once -/

theorem carryOnFor_of_moveEnded {n : Nat} (h : moveEnded s = s) : carryOnFor n s = s := by
  induction n with
  | zero => rfl
  | succ n ih => rw [carryOnFor, h, ih]

/-- An engine after whose one end of a move nothing more ends. -/
theorem carryOn_once (h : moveEnded (moveEnded s) = moveEnded s) : carryOn s = moveEnded s :=
  carryOnFor_of_moveEnded (n := 2 * s.store.lines.length + 3) h

/-- With every mechanism at rest an ordered close begins at once (R68, R132). -/
theorem moveEnded_ordered {c : Close} (he : s.engine.state = .closing) (hc : s.engine.close = some c)
    (hp : c.phase = .ordered) (hr : s.drive.allAtRest = true) : moveEnded s = beginClose c s := by
  simp [moveEnded, he, hc, hp, hr]

/-- A close that has begun waits for no mechanism but the film and the cut. -/
theorem moveEnded_begun {c : Close} (he : s.engine.state = .closing) (hc : s.engine.close = some c)
    (hp : c.phase ≠ .ordered) : moveEnded s = s := by
  simp [moveEnded, he, hc, hp]

/-- With the galley open and film left a close begins with the head margin's advance (R132). -/
theorem beginClose_advances {c : Close} (hg : s.drive.film.galleyOpen = true) (hf : 0 < s.drive.film.remaining) :
    beginClose c s = { s with
      engine := { s.engine with
        close := some { c with phase := .advancing, steps := min 720 s.drive.film.remaining } }
      drive := { s.drive with
        film := { s.drive.film with advance := some (min 720 s.drive.film.remaining), left := 20 } } } := by
  have hne : min Config.headMargin s.drive.film.remaining ≠ 0 := by
    simp [Config.headMargin]
    omega
  rw [beginClose, if_pos hg]
  simp only [if_neg hne, Film.begin]
  rfl

/-- A close ordered with the mechanisms at rest, the galley open and film left begins with its advance (R68, R132). -/
theorem carryOn_ordered {c : Close} (he : s.engine.state = .closing) (hc : s.engine.close = some c)
    (hp : c.phase = .ordered) (hr : s.drive.allAtRest = true) (hg : s.drive.film.galleyOpen = true)
    (hf : 0 < s.drive.film.remaining) :
    carryOn s = { s with
      engine := { s.engine with
        close := some { c with phase := .advancing, steps := min 720 s.drive.film.remaining } }
      drive := { s.drive with
        film := { s.drive.film with advance := some (min 720 s.drive.film.remaining), left := 20 } } } := by
  have hfirst := moveEnded_ordered he hc hp hr
  have hbegun := beginClose_advances (c := c) hg hf
  have hlast : moveEnded (beginClose c s) = beginClose c s := by
    rw [hbegun]
    exact moveEnded_begun he rfl ClosePhase.noConfusion
  rw [← hfirst] at hlast
  rw [carryOn_once hlast, hfirst, hbegun]

/-! ### The starvation timer (R155) -/

theorem graceEnds_of_ne (h : s.seq.starve ≠ some 0) : graceEnds s = s := by
  rw [graceEnds, if_neg (by rwa [runOut_iff])]

theorem Job.eligible_iff (j : Job) :
    j.eligible = true ↔ j.state ≠ .held ∧ j.held = false ∧ j.setCount < j.committed := by
  simp [Job.eligible, and_assoc]

theorem otherEligible_iff (n : Nat) (s : State) : otherEligible n s = true ↔
    ∃ k ∈ s.jobs, k.number ≠ n ∧ k.state ≠ .held ∧ k.held = false ∧ k.setCount < k.committed := by
  simp only [otherEligible, List.any_eq_true, Bool.and_eq_true, Job.eligible_iff, bne_iff_ne]
  grind

/-- The part after the starvation timer has run out, with its mark set. -/
def graced (s : State) : State := s.modSeq fun q => { q with starve := none, grace := true }

/-- With no other job eligible the mark is set, and nothing more. -/
theorem graceEnds_alone (h : s.seq.starve = some 0)
    (ho : ∀ j, activeJob s = some j → otherEligible j.number s = false) : graceEnds s = graced s := by
  have hact : activeJob (graced s) = activeJob s := rfl
  rw [graceEnds, if_pos (runOut_iff.2 h), ← graced]
  dsimp only
  rw [hact]
  cases hj : activeJob s with
  | none => rfl
  | some j => exact if_neg (by rw [show otherEligible j.number (graced s) = _ from ho j hj]; decide)

/-- With another job eligible the ACTIVE job departs as STARVED. -/
theorem graceEnds_departs {j : Job} (h : s.seq.starve = some 0) (hj : activeJob s = some j)
    (ho : otherEligible j.number s = true) :
    graceEnds s = carryOn (depart j .suspended .starved (graced s)) := by
  have hact : activeJob (graced s) = some j := hj
  rw [graceEnds, if_pos (runOut_iff.2 h), ← graced]
  dsimp only
  rw [hact]
  exact if_pos ho

/-! ### The park timer (R97, R168) -/

/-- What neither a change of a trim record nor one of the ring reaches: of the disc timing all but the compare
channel. -/
structure Aside where
  iface : Pair Iface
  queues : Pair Queue
  store : LineStore
  jobs : List Job
  seq : Seq
  disc : Disc
  bank : Bank
  drive : Drive
  spin : Spin

/-- These fields of a part. -/
def aside (s : State) : Aside :=
  ⟨s.iface, s.queues, s.store, s.jobs, s.seq, { s.disc with channel := none }, s.bank, s.drive, s.spin⟩

@[simp] theorem aside_modTrim (f : Trim → Trim) (s : State) : aside (s.modTrim f) = aside s := rfl

/-- The engine takes notice of a record by its state alone. -/
theorem trackNotice_eq_or (s : State) :
    trackNotice s = s ∨ ∃ st, trackNotice s = s.modEngine fun e => { e with state := st } := by
  unfold trackNotice
  split
  · split
    · exact .inr ⟨_, rfl⟩
    · exact .inl rfl
  · split
    · exact .inl rfl
    · exact .inr ⟨_, rfl⟩
  all_goals exact .inl rfl

@[simp] theorem aside_trackNotice (s : State) : aside (trackNotice s) = aside s := by
  obtain h | ⟨st, h⟩ := trackNotice_eq_or s <;> rw [h]
  rfl

@[simp] theorem trackNotice_trim (s : State) : (trackNotice s).trim = s.trim := by
  obtain h | ⟨st, h⟩ := trackNotice_eq_or s <;> rw [h]
  rfl

@[simp] theorem aside_putRec (t : Track) (r : TrimRec) (s : State) : aside (putRec t r s) = aside s := by
  rw [putRec, aside_trackNotice]
  split <;> rfl

@[simp] theorem putRec_trim (t : Track) (r : TrimRec) (s : State) : (putRec t r s).trim = s.trim := by
  rw [putRec, trackNotice_trim]
  split <;> rfl

/-- The halt of a search changes the trim records and the ring alone. -/
theorem aside_haltSearch (s : State) : aside (haltSearch s) = aside s := by
  unfold haltSearch
  split
  · rfl
  · simp only [aside_modTrim, aside_putRec]
    unfold dropSearch
    split <;> rfl

/-- A halted search goes back to the head of the queue. -/
theorem haltSearch_trim (s : State) :
    (haltSearch s).trim.search = none ∧ (haltSearch s).trim.queue = (match s.trim.search with
      | some x => x.track :: s.trim.queue
      | none => s.trim.queue) := by
  unfold haltSearch
  cases hx : s.trim.search with
  | none => exact ⟨hx, rfl⟩
  | some x =>
    simp only [State.modTrim_trim, putRec_trim, dropSearch, hx]
    exact ⟨rfl, rfl⟩

/-- The unit parks: motor, charger and disc timing stop, a search is halted, and nothing else is lost (R97, R168). -/
theorem enterParked_fields (s : State) :
    (enterParked s).spin = { s.spin with unit := .parked, motor := false, parkTimer := none }
      ∧ (enterParked s).bank = { s.bank with charger := false, strobeHeld := true, watch := none }
      ∧ ((enterParked s).disc.valid = false ∧ (enterParked s).disc.locked = false ∧ (enterParked s).disc.spinup = none
        ∧ (enterParked s).disc.stall = none ∧ (enterParked s).disc.unlock = none)
      ∧ (enterParked s).drive.film = s.drive.film ∧ (enterParked s).jobs = s.jobs ∧ (enterParked s).seq = s.seq
      ∧ (enterParked s).store = s.store ∧ (enterParked s).queues = s.queues ∧ (enterParked s).iface = s.iface := by
  have haside : aside (enterParked s) = aside (stopDisc (setUnit .parked s)) := aside_haltSearch _
  have hdisc := congrArg Aside.disc haside
  exact ⟨congrArg Aside.spin haside, congrArg Aside.bank haside,
    ⟨congrArg Disc.valid hdisc, congrArg Disc.locked hdisc, congrArg Disc.spinup hdisc, congrArg Disc.stall hdisc,
      congrArg Disc.unlock hdisc⟩,
    congrArg (fun a => a.drive.film) haside, congrArg Aside.jobs haside, congrArg Aside.seq haside,
    congrArg Aside.store haside, congrArg Aside.queues haside, congrArg Aside.iface haside⟩

/-! ### The three timers' commands -/

theorem exec_assemblyTimeout (l : CLine) (hu : Up s) : exec (.assemblyTimeout l) s = .next (deadlineEnds l s) :=
  congrArg _ (powered_up _ hu)

theorem exec_starvationTimeout (hu : Up s) : exec .starvationTimeout s = .next (graceEnds s) :=
  congrArg _ (powered_up _ hu)

theorem exec_parkTimeout (hu : Up s) :
    exec .parkTimeout s = .next (if runOut s.spin.parkTimer then enterParked s else s) :=
  congrArg _ (powered_up _ hu)

/-- Settles O54: each timer does nothing while it stands elsewhere than at 0, and else what its section above says. -/
theorem theAssemblyStarvationAndParkTimersRunOut : Obligations.TheAssemblyStarvationAndParkTimersRunOut := by
  unfold Obligations.TheAssemblyStarvationAndParkTimersRunOut
  refine ⟨fun l s hu => ?deadline, ?starvation, fun s hu => ?park⟩
  case deadline =>
    rw [exec_assemblyTimeout l hu]
    refine ⟨fun hn => by rw [deadlineEnds_of_none hn], fun a ha hd => by rw [deadlineEnds_of_timeLeft ha hd],
      fun a ha hd => ?_⟩
    rw [deadlineEnds_of_runOut ha hd, discardAssembly_of_some _ ha]
  case starvation =>
    intro s hu waiting
    rw [exec_starvationTimeout hu]
    refine ⟨fun h => by rw [graceEnds_of_ne h], fun h hnone => ?alone,
      fun j k h hj hk hn hw hc hd ht hf hg hr => ?other⟩
    case alone =>
      rw [graceEnds_alone h fun j hj => ?_]
      · rfl
      · rw [← Bool.not_eq_true, otherEligible_iff]
        rintro ⟨k, hk, hn, hw⟩
        exact hnone j hj k hk hn hw
    case other =>
      intro steps
      rw [graceEnds_departs h hj ((otherEligible_iff _ _).2 ⟨k, hk, hn, hw⟩)]
      have hrest : s.drive.allAtRest = true := by simp [Drive.allAtRest, hc, hd, ht, hf]
      rw [carryOn_ordered (s := depart j .suspended .starved (graced s))
        (c := { job := some (j.number, j.owner), phase := .ordered, steps := 0 }) rfl rfl rfl hrest hg hr]
      exact ⟨_, rfl, rfl, rfl, rfl, rfl, rfl, rfl, rfl⟩
  case park =>
    rw [exec_parkTimeout hu]
    refine ⟨fun h => by rw [if_neg (by rwa [runOut_iff])], fun h => ?_⟩
    rw [if_pos (runOut_iff.2 h)]
    obtain ⟨hspin, hbank, hdisc, hrest⟩ := enterParked_fields s
    obtain ⟨hsearch, hqueue⟩ := haltSearch_trim (stopDisc (setUnit .parked s))
    exact ⟨_, rfl, hspin, hbank, hdisc, hsearch, hqueue, hrest⟩

end Sys2Proof.Machine
end

