-- ==== Sys2Proof/Proofs/TrimMessages.lean ====
section
/-!
SUPPORT. TRIM-RESTART and TRIM-LIMITS (R94, R95, R102): their own checks in order, the joining of the trim queue from
any state out of search while nothing follows, and the replacement of the limits.
-/
namespace Sys2Proof.Machine

variable {s : State}

/-! ### The answers -/

/-- TRIM-RESTART is answered with what `trimRestart` makes of it once PASS stands and its body is one byte. -/
theorem exec_trimRestart {l : CLine} {tag n : Byte} {body : ReplyBody} {f : State → State}
    (hw : Waits l 0x0C tag [n] s) (hp : Passed l s)
    (ha : trimRestart [n] (emptySlot l s) = (f (emptySlot l s), body)) :
    exec (.trimRestart l) s = .next (answered l tag body f s) :=
  congrArg _ (answered_of_act .trimRestart l (fun _ d => trimRestart d) hw
    (leadingFault_none _ _ _ rfl (fun _ => hp) (wrongOwner_unnamed _ _ _ rfl)) ha)

/-- TRIM-LIMITS is answered with what `trimLimits` makes of it once PASS stands and its body is five bytes. -/
theorem exec_trimLimits {l : CLine} {tag f c w m n : Byte} {body : ReplyBody} {g : State → State}
    (hw : Waits l 0x0D tag [f, c, w, m, n] s) (hp : Passed l s)
    (ha : trimLimits [f, c, w, m, n] (emptySlot l s) = (g (emptySlot l s), body)) :
    exec (.trimLimits l) s = .next (answered l tag body g s) :=
  congrArg _ (answered_of_act .trimLimits l (fun _ d => trimLimits d) hw
    (leadingFault_none _ _ _ rfl (fun _ => hp) (wrongOwner_unnamed _ _ _ rfl)) ha)

/-! ### TRIM-LIMITS (R94) -/

theorem trimLimits_of_fault {d : List Byte} {k : Nat} (h : (limitsOf d).fault = some k) :
    trimLimits d s = refuse .range k s := by
  simp only [trimLimits, h]

theorem trimLimits_of_noFault {d : List Byte} (h : (limitsOf d).fault = none) :
    trimLimits d s = accept { s with trim := { s.trim with limits := limitsOf d } } := by
  simp only [trimLimits, h]
  rfl

/-- The ranges of Table 5-4, in the order in which a message is judged by them. -/
theorem Limits.fault_eq (u : Limits) : u.fault =
    if 15 < u.floor then some 1
    else if 15 < u.ceiling ∨ u.ceiling < u.floor then some 2
    else if u.dwell < 1 ∨ 16 < u.dwell then some 3
    else if 3 < u.searchMiss then some 4
    else if u.monitorMiss < 1 ∨ 16 < u.monitorMiss then some 5
    else none := by
  simp only [Limits.fault, Bool.or_eq_true, decide_eq_true_eq]

theorem elim_ite_some {α β : Type} {c : Prop} [Decidable c] (k : α) (o : Option α) (b : β) (g : α → β) :
    (if c then some k else o).elim b g = if c then g k else o.elim b g := by
  split <;> rfl

/-- What is answered to the place of the first limit out of range, or to limits that are all in range. -/
theorem Limits.fault_elim {β : Type} (u : Limits) (ok : β) (place : Nat → β) : u.fault.elim ok place =
    if 15 < u.floor then place 1
    else if 15 < u.ceiling ∨ u.ceiling < u.floor then place 2
    else if u.dwell < 1 ∨ 16 < u.dwell then place 3
    else if 3 < u.searchMiss then place 4
    else if u.monitorMiss < 1 ∨ 16 < u.monitorMiss then place 5
    else ok := by
  simp only [Limits.fault_eq, elim_ite_some, Option.elim_none]

/-- Settles O24: the first range failed, by `Limits.fault_elim`, is the place the refusal names. -/
theorem trimLimitsReplacesAllFiveOrNone : Obligations.TrimLimitsReplacesAllFiveOrNone := by
  unfold Obligations.TrimLimitsReplacesAllFiveOrNone
  intro l tag f c w m n s hw hp refused limits
  have hlimits : limitsOf [f, c, w, m, n] = limits := rfl
  have hanswer : exec (.trimLimits l) s = .next (limits.fault.elim
      (answered l tag .accepted (fun s => { s with trim := { s.trim with limits := limits } }) s) refused) := by
    cases h : limits.fault with
    | some k => exact exec_trimLimits hw hp (trimLimits_of_fault (hlimits ▸ h))
    | none =>
      rw [Option.elim_none]
      exact exec_trimLimits hw hp (trimLimits_of_noFault (hlimits ▸ h))
  exact hanswer.trans (congrArg _ (limits.fault_elim _ refused))

/-! ### TRIM-RESTART: its checks (R102) -/

theorem trackOf?_of_val {t : Track} {k : Nat} (h : t.val = k) : trackOf? k = some t := by
  subst h
  simp [trackOf?]

theorem trimRestart_range {n : Byte} (h : 8 ≤ n.toNat) : trimRestart [n] s = refuse .range 0 s := by
  have hnone : trackOf? (byteAt [n] 0) = none := dif_neg (Nat.not_lt.2 h)
  simp only [trimRestart, hnone]

section
variable {n : Byte} {t : Track} (ht : t.val = n.toNat)
include ht

theorem trimRestart_noDisc (h : s.spin.mounted = 0 ∨ s.spin.unit = .discChange) :
    trimRestart [n] s = refuse .state 0 s := by
  have htrack : trackOf? (byteAt [n] 0) = some t := trackOf?_of_val ht
  simp only [trimRestart, htrack, Bool.or_eq_true, decide_eq_true_eq, if_pos h]

theorem trimRestart_mounted (hm : s.spin.mounted ≠ 0) (hu : s.spin.unit ≠ .discChange) :
    trimRestart [n] s = if slotFor s.maps s.spin.mounted = none then refuse .noMap 0 s
      else accept (restartTrack t s) := by
  have htrack : trackOf? (byteAt [n] 0) = some t := trackOf?_of_val ht
  simp only [trimRestart, htrack, Bool.or_eq_true, decide_eq_true_eq, if_neg (not_or.2 ⟨hm, hu⟩),
    Option.isNone_iff_eq_none]

end

/-! ### TRIM-RESTART: the track that joins (R95, R102) -/

/-- A track that is not being searched is restarted by joining the queue. -/
theorem restartTrack_joins {t : Track} (h : ∀ c, s.trim.search = some c → c.track ≠ t) :
    restartTrack t s = joinTracks [t] s := by
  unfold restartTrack
  cases hc : s.trim.search with
  | none => rfl
  | some c => exact if_neg (h c hc)

/-- In IDLE a record put with its old code changes nothing but the slot. -/
theorem putRec_sameCode {t : Track} {r : TrimRec} (hidle : s.engine.state = .idle)
    (hc : r.code = (queueRec s t).code) : putRec t r s = s.modMaps fun q =>
      updateSlot q s.trim.queueDisc fun m => { m with trims := m.trims.set t r } := by
  simp only [putRec, hc, ne_eq, not_true_eq_false, false_and, if_false]
  exact trackNotice_idle hidle

/-- A track in search keeps its place in the queue. -/
theorem joinQueue_inSearch {t : Track} (h : (queueRec s t).state.inSearch = true) : joinQueue s t = s := if_pos h

/-- A track in no search joins the end of the queue, with its window cleared if it was TRIMMED, and nothing follows
(R92, R95, R105). -/
theorem joinQueue_notInSearch {t : Track} (hn : NothingFollows s) (hr : (queueRec s t).state.inSearch = false) :
    joinQueue s t = { s with
      maps := updateSlot s.maps s.trim.queueDisc fun m => { m with trims := m.trims.set t (queueRec s t).queued }
      trim := { s.trim with
        queue := s.trim.queue ++ [t]
        windows := if (queueRec s t).state = .trimmed then s.trim.windows.set t [] else s.trim.windows } } := by
  obtain ⟨hsearch, -, hidle⟩ := hn
  simp only [joinQueue, hr, Bool.false_eq_true, if_false]
  rw [← TrimRec.queued]
  split
  case isTrue =>
    rw [putRec_sameCode (s := clearWindow t s) (r := (queueRec s t).queued) hidle rfl]
    exact startSearch_barred hsearch
  case isFalse =>
    rw [putRec_sameCode (r := (queueRec s t).queued) hidle rfl]
    exact startSearch_barred hsearch

/-- With an empty ring the deflector is not sent anywhere after a track has joined. -/
theorem joinTracks_single {t : Track} (h : (joinQueue s t).engine.ring = []) : joinTracks [t] s = joinQueue s t :=
  aim_empty h

/-- Settles O23: the `trimRestart_` lemmas are its checks in their order, the `joinQueue_` lemmas are its effect. -/
theorem trimRestartChecksAndQueues : Obligations.TrimRestartChecksAndQueues := by
  unfold Obligations.TrimRestartChecksAndQueues
  intro l tag n s hw hp refused joined
  have exec_eq {body : ReplyBody} {f : State → State} :=
    exec_trimRestart (l := l) (tag := tag) (n := n) (body := body) (f := f) hw hp
  refine ⟨fun h => exec_eq (trimRestart_range h), fun t ht => ⟨fun h => exec_eq (trimRestart_noDisc ht h),
    fun hmounted hunit => ?_⟩⟩
  have hjudged := trimRestart_mounted (s := emptySlot l s) ht hmounted hunit
  refine ⟨fun hnone => exec_eq (hjudged.trans (if_pos hnone)), fun hslot hdisc hbarred hother hring hidle => ?_⟩
  have hn : NothingFollows (emptySlot l s) := ⟨hbarred, hring, hidle⟩
  have hjoins : trimRestart [n] (emptySlot l s) = accept (joinTracks [t] (emptySlot l s)) :=
    hjudged.trans ((if_neg (Option.isSome_iff_ne_none.1 hslot)).trans (congrArg accept (restartTrack_joins hother)))
  refine ⟨fun hqueued => exec_eq (f := id) ?keeps, fun hout => exec_eq ?joins⟩
  case keeps =>
    have hkeep : joinQueue (emptySlot l s) t = emptySlot l s :=
      joinQueue_inSearch ((TrimState.inSearch_iff _).2 (.inl hqueued))
    rw [hjoins, joinTracks_single (by rw [hkeep]; exact hring), hkeep]
    rfl
  case joins =>
    have hjoin := joinQueue_notInSearch hn hout
    rw [hjoins, joinTracks_single (by rw [hjoin]; exact hring), hjoin, emptySlot_trim, hdisc]
    rfl

end Sys2Proof.Machine
end

