-- ==== Sys2Proof/Proofs/Search.lean ====
section
/-!
SUPPORT. The search for a track's trim code (R98 to R101): how it starts, and what follows the result of the test flash
that completes the dwell of a code, in an engine that is IDLE.
-/
namespace Sys2Proof.Machine

variable {s : State}

/-! ### What the ring's operations leave unchanged -/

@[simp] theorem aim_maps (s : State) : (aim s).maps = s.maps := by unfold aim; split <;> rfl
@[simp] theorem aim_trim (s : State) : (aim s).trim = s.trim := by unfold aim; split <;> rfl
@[simp] theorem aim_engine (s : State) : (aim s).engine = s.engine := by unfold aim; split <;> rfl
@[simp] theorem aim_queues (s : State) : (aim s).queues = s.queues := by unfold aim; split <;> rfl

/-- An inserted item stands in the ring, wherever its angle puts it. -/
theorem mem_insertItem (counter : Int) (it : Item) (ring : List Item) : it ∈ insertItem counter it ring := by
  induction ring with
  | nil => exact List.mem_singleton_self it
  | cons x xs ih =>
    unfold insertItem
    split
    · exact List.mem_cons_of_mem x ih
    · exact List.mem_cons_self

/-- The test item of a search stands in the ring, at the angle of its code (R51, R57). -/
theorem mem_insertTest (t : Track) (code : Nat) (s : State) :
    .test t ((code + 2872) % 2880) ∈ (insertTest t code s).engine.ring := by
  have hangle : targetAngle 0 code = (code + 2872) % 2880 := by simp [targetAngle, Config.countsPerRev]
  rw [← hangle]
  exact mem_insertItem _ _ _

/-! ### The record a search writes -/

/-- A track's record in the queue is read from the slots and the queue disc alone. -/
theorem queueRec_congr {u : State} (hm : u.maps = s.maps) (hd : u.trim.queueDisc = s.trim.queueDisc) (t : Track) :
    queueRec u t = queueRec s t := by
  unfold queueRec
  rw [hm, hd]

@[simp] theorem queueRec_aim (s : State) (t : Track) : queueRec (aim s) t = queueRec s t :=
  queueRec_congr (aim_maps s) (by rw [aim_trim]) t

@[simp] theorem trackNotice_maps (s : State) : (trackNotice s).maps = s.maps := by
  obtain h | ⟨st, h⟩ := trackNotice_eq_or s <;> rw [h]
  rfl

theorem putRec_maps (t : Track) (r : TrimRec) (s : State) : (putRec t r s).maps =
    updateSlot s.maps s.trim.queueDisc fun m => { m with trims := m.trims.set t r } := by
  rw [putRec, trackNotice_maps]
  split <;> rfl

@[simp] theorem putRec_queues (t : Track) (r : TrimRec) (s : State) : (putRec t r s).queues = s.queues :=
  congrArg Aside.queues (aside_putRec t r s)

/-- A record put is the record read. -/
theorem queueRec_putRec {t : Track} {r : TrimRec} (h : (slotFor s.maps s.trim.queueDisc).isSome = true) :
    queueRec (putRec t r s) t = r := by
  obtain ⟨m, hm⟩ := Option.isSome_iff_exists.1 h
  simp [queueRec, putRec_maps, slotFor_setRec, hm, Oct.get_set]

theorem trackNotice_keeps_idle (h : s.engine.state = .idle) : (trackNotice s).engine.state = .idle := by
  rw [trackNotice_idle h]
  exact h

/-- An IDLE engine takes no notice of a record. -/
theorem putRec_idle (t : Track) (r : TrimRec) (h : s.engine.state = .idle) : (putRec t r s).engine.state = .idle := by
  unfold putRec
  dsimp only
  split <;> exact trackNotice_keeps_idle h

/-! ### A search starts (R98) -/

theorem startCode_eq (l : Limits) (p : Prior) :
    startCode l p = if p.state = .trimmed then nextCode l p.code else l.floor := by
  obtain ⟨st, k⟩ := p
  cases st <;> rfl

/-- With speed lock LOCKED and no search running, the head of the queue is searched from its start code. -/
theorem startSearch_starts {t : Track} {rest : List Track} {p : Prior} (hl : s.disc.locked = true)
    (hn : s.trim.search = none) (hq : s.trim.queue = t :: rest) (hp : (queueRec s t).prior = some p) :
    startSearch s = insertTest t (startCode s.trim.limits p)
      (putRec t { code := startCode s.trim.limits p, state := .searching, prior := some p }
        (s.modTrim fun u => { u with
          queue := rest, search := some (freshSearch s.trim.limits t (startCode s.trim.limits p)) })) := by
  simp only [startSearch, hl, hn, hq, hp]
  rfl

theorem startSearch_of_empty (h : s.trim.queue = []) : startSearch s = s := by
  unfold startSearch
  rw [h]
  exact ite_self s

theorem startSearch_idle (h : s.engine.state = .idle) : (startSearch s).engine.state = .idle := by
  unfold startSearch
  split
  · exact h
  · split
    · exact h
    · exact putRec_idle _ _ h

/-! ### A code is judged (R100, R101) -/

/-- What a search ends with, whatever its result: the track's record `r` and the event `e`; the next one starts. -/
def endSearch (t : Track) (r : TrimRec) (e : Event) (s : State) : State :=
  startSearch (postBoth e (removeTest ((putRec t r s).modTrim fun u => { u with search := none })))

theorem judgeCode_passes {c : Search} (h : c.misses ≤ c.missLimit) : judgeCode c s =
    endSearch c.track { code := c.code, state := .trimmed, prior := none }
      (.trackTrimmed s.trim.queueDisc c.track c.code c.tried c.misses) s := if_pos h

theorem judgeCode_steps {c : Search} (h : c.missLimit < c.misses) (ht : c.tried < c.limit) : judgeCode c s =
    putRec c.track { queueRec s c.track with code := nextCode s.trim.limits c.code } (s.modTrim fun u =>
      { u with search := some { c with
          code := nextCode s.trim.limits c.code, tried := c.tried + 1, fired := 0, misses := 0 } }) :=
  (if_neg (Nat.not_le.2 h)).trans (if_pos ht)

theorem judgeCode_fails {c : Search} {p : Prior} (h : c.missLimit < c.misses) (ht : c.limit ≤ c.tried)
    (hp : (queueRec s c.track).prior = some p) : judgeCode c s =
    endSearch c.track { code := p.code, state := .unusable, prior := none }
      (.trackUnusable s.trim.queueDisc c.track p.code c.tried) s := by
  rw [judgeCode, if_neg (Nat.not_le.2 h), if_neg (Nat.not_lt.2 ht)]
  simp only [searchFails, hp]
  rfl

theorem endSearch_idle (t : Track) (r : TrimRec) (e : Event) (h : s.engine.state = .idle) :
    (endSearch t r e s).engine.state = .idle := startSearch_idle (putRec_idle t r h)

theorem judgeCode_idle (c : Search) (h : s.engine.state = .idle) : (judgeCode c s).engine.state = .idle := by
  unfold judgeCode
  split
  · exact endSearch_idle _ _ _ h
  · split
    · exact putRec_idle _ _ h
    · exact endSearch_idle _ _ _ h

/-- The end of the last search: no search runs, the track has its record, the test item is gone, and the event is
posted. -/
theorem endSearch_last {t : Track} {r : TrimRec} {e : Event} (hq : s.trim.queue = [])
    (hslot : (slotFor s.maps s.trim.queueDisc).isSome = true) :
    (endSearch t r e s).trim.search = none ∧ queueRec (endSearch t r e s) t = r
      ∧ (endSearch t r e s).engine.ring.all Item.isExposure = true
      ∧ (endSearch t r e s).queues = (postBoth e s).queues := by
  have hlast : endSearch t r e s =
      postBoth e (removeTest ((putRec t r s).modTrim fun u => { u with search := none })) := by
    refine startSearch_of_empty ?_
    show (putRec t r s).trim.queue = []
    rw [putRec_trim, hq]
  rw [hlast]
  refine ⟨rfl, (queueRec_congr rfl rfl t).trans (queueRec_putRec hslot), ?ring, ?queues⟩
  case ring =>
    show ((putRec t r s).engine.ring.filter Item.isExposure).all Item.isExposure = true
    simp
  case queues =>
    have hbefore : (removeTest ((putRec t r s).modTrim fun u => { u with search := none })).queues = s.queues :=
      putRec_queues t r s
    simp only [postBoth, post, State.modQueues_queues, hbefore]

/-! ### The result of a test flash (R59, R99) -/

/-- The part after its result watch has closed. -/
def watchClosed (s : State) : State := s.modEngine fun e => { e with watch := none }

/-- The search with the result of one more test flash counted. -/
def Search.counted (c : Search) (hit : Bool) : Search :=
  { c with fired := c.fired + 1, misses := if hit then c.misses else c.misses + 1 }

/-- The result that completes the dwell has the code judged. -/
theorem testResult_judges {c : Search} {hit : Bool} (hc : s.trim.search = some c) (hd : c.fired + 1 = c.dwell) :
    testResult (!hit) s = aim (judgeCode (c.counted hit) s) := by
  have hcounted : c.counted hit = { c with fired := c.fired + 1, misses := c.misses + (!hit).toNat } := by
    cases hit <;> rfl
  simp only [testResult, hc, hcounted]
  exact if_neg (by rw [hd]; exact Nat.lt_irrefl _)

/-- In an IDLE engine nothing follows a result that leaves it IDLE. -/
theorem closeWatch_idle {w : Watch} (hw : s.engine.watch = some w)
    (h : (giveResult w (watchClosed s)).engine.state = .idle) : closeWatch s = giveResult w (watchClosed s) := by
  have hstop : stopComplete (giveResult w (watchClosed s)) = false := by
    unfold stopComplete
    rw [h]
    rfl
  have hrest : moveEnded (giveResult w (watchClosed s)) = giveResult w (watchClosed s) := by
    unfold moveEnded
    rw [h]
  simp only [closeWatch, hw]
  rw [← watchClosed, hstop]
  exact carryOn_of_moveEnded hrest

/-- The close of the watch of the flash that completes the dwell has the code judged, and the deflector follows the
ring. -/
theorem exec_resultWatchClose_judges {c : Search} {hit : Bool} {left : Nat} (hu : Up s) (hidle : s.engine.state = .idle)
    (hw : s.engine.watch = some { of := .test c.track true, hit := hit, left := left })
    (hc : s.trim.search = some c) (hd : c.fired + 1 = c.dwell) :
    exec .resultWatchClose s = .next (aim (judgeCode (c.counted hit) (watchClosed s))) := by
  have hresult : giveResult { of := .test c.track true, hit := hit, left := left } (watchClosed s)
      = aim (judgeCode (c.counted hit) (watchClosed s)) := testResult_judges hc hd
  have hstill : (aim (judgeCode (c.counted hit) (watchClosed s))).engine.state = .idle := by
    rw [aim_engine]
    exact judgeCode_idle _ hidle
  refine congrArg _ ((powered_up closeWatch hu).trans ?_)
  rw [closeWatch_idle hw (by rw [hresult]; exact hstill), hresult]

/-- Settles O48: a search starts by `startSearch_starts`; its code is judged by the three `judgeCode_` equations, of
which two end it by `endSearch_last`. -/
theorem theSearchTriesCodeAfterCode : Obligations.TheSearchTriesCodeAfterCode := by
  unfold Obligations.TheSearchTriesCodeAfterCode
  intro next
  refine ⟨?starts, ?judged⟩
  case starts =>
    intro t rest p s hl hn hq hslot hp _ _ code u
    have hcode : startCode s.trim.limits p = code := startCode_eq s.trim.limits p
    have hu : u = _ := startSearch_starts hl hn hq hp
    rw [hu, hcode]
    exact ⟨congrArg Trim.queue (putRec_trim _ _ _), congrArg Trim.search (putRec_trim _ _ _),
      (queueRec_congr rfl rfl t).trans (queueRec_putRec hslot), mem_insertTest t code _⟩
  case judged =>
    intro hit left c p s hu hidle hw hc hd hq hslot hp misses posted
    refine ⟨_, exec_resultWatchClose_judges hu hidle hw hc hd, fun hpass => ?passes, fun hfail hleft => ?steps,
      fun hfail hnone => ?fails⟩
    all_goals simp only [aim_trim, aim_engine, aim_queues, queueRec_aim]
    case passes =>
      rw [judgeCode_passes (c := c.counted hit) hpass]
      exact endSearch_last hq hslot
    case steps =>
      rw [judgeCode_steps (c := c.counted hit) hfail hleft]
      exact ⟨congrArg Trim.search (putRec_trim _ _ _), queueRec_putRec hslot, putRec_queues _ _ _⟩
    case fails =>
      rw [judgeCode_fails (s := watchClosed s) (c := c.counted hit) hfail hnone hp]
      exact endSearch_last hq hslot

end Sys2Proof.Machine
end

