-- ==== Sys2Proof/Proofs/BankMonitor.lean ====
section
/-!
SUPPORT. The Flash Bank Monitor (R110, R111): BANK-SET's own checks and its effect, also by a broadcast frame, and the
judgement of a sample against the thresholds of the selected set.
-/
namespace Sys2Proof.Machine

variable {s : State}

/-! ### Bank states (R109) -/

theorem BankState.isReady_iff (b : BankState) : b.isReady = true ↔ b = .ready ∨ b = .heavyReady := by
  cases b <;> simp [BankState.isReady]

theorem BankState.not_isReady_iff (b : BankState) : (!b.isReady) = true ↔ b = .drained ∨ b = .charging := by
  cases b <;> simp [BankState.isReady]

/-! ### BANK-SET (R111) -/

/-- A broadcast frame that passes the leading checks has its effect and gets no reply (R189). -/
theorem handled_broadcast (k : MsgKind) (l : CLine) (mine : List Byte → Bool)
    (act : Bool → List Byte → State → Handled) {tag : Byte} {d : List Byte} (hu : Up s)
    (htx : (s.iface.get l).tx = none) (hslot : (s.iface.get l).slot = some (.frame true (u8 k.code) tag d))
    (hm : mine d = true) (hl : leadingFault k l d s = none) :
    powered s (handle k l mine act) = (act true d (emptySlot l s)).1 := by
  rw [powered_up _ hu]
  simp only [handle, takeable, htx, hslot, code_u8, hm, judgeMsg, leadingFault_emptySlot, hl, answer, decide_true,
    Bool.and_self, if_true]

theorem leadingFault_bankSet {l : CLine} (n q : Byte) (hp : Passed l s) : leadingFault .bankSet l [n, q] s = none :=
  leadingFault_none _ _ _ rfl (fun _ => hp) (wrongOwner_unnamed _ _ _ rfl)

/-- BANK-SET is answered with what `bankSet` makes of it once PASS stands and its body is two bytes. -/
theorem exec_bankSet {l : CLine} {tag n q : Byte} {body : ReplyBody} {f : State → State}
    (hw : Waits l 0x0E tag [n, q] s) (hp : Passed l s)
    (ha : bankSet [n, q] (emptySlot l s) = (f (emptySlot l s), body)) :
    exec (.bankSet l) s = .next (answered l tag body f s) :=
  congrArg _ (answered_of_act .bankSet l (fun _ d => bankSet d) hw (leadingFault_bankSet n q hp) ha)

/-- A broadcast BANK-SET has the effect that `bankSet` gives it. -/
theorem exec_bankSet_broadcast {l : CLine} {tag n q : Byte} (hu : Up s) (hp : Passed l s)
    (htx : (s.iface.get l).tx = none) (hslot : (s.iface.get l).slot = some (.frame true 0x0E tag [n, q])) :
    exec (.bankSet l) s = .next (bankSet [n, q] (emptySlot l s)).1 :=
  congrArg _ (handled_broadcast .bankSet l anyBody (fun _ d => bankSet d) hu htx hslot rfl
    (leadingFault_bankSet n q hp))

theorem bankSet_setRange {n q : Byte} (hn : 3 < n.toNat) : bankSet [n, q] s = refuse .range 1 s := if_pos hn

section
variable {n q : Byte} (hn : ¬ 3 < n.toNat)
include hn

theorem bankSet_timeRange (hq : q.toNat ≠ 1 ∧ q.toNat ≠ 3) : bankSet [n, q] s = refuse .range 2 s :=
  (if_neg hn).trans (if_pos (by simpa [byteAt] using hq))

theorem bankSet_inRange (hq : ¬ (q.toNat ≠ 1 ∧ q.toNat ≠ 3)) :
    bankSet [n, q] s = accept (s.modBank fun b => b.select n.toNat q.toNat) :=
  (if_neg hn).trans (if_neg (by simpa [byteAt] using hq))

end

/-- The runs begin anew, and a bank that was READY or HEAVY_READY is CHARGING (R111). -/
theorem Bank.select_eq (b : Bank) (set qualMs : Nat) : b.select set qualMs =
    { b with
      set := set, qualMs := qualMs, readyRun := 0, heavyRun := 0
      state := if b.state = .ready ∨ b.state = .heavyReady then .charging else b.state } := by
  simp only [Bank.select, BankState.isReady_iff]

/-- Settles O25: the `bankSet_` lemmas are its checks in their order, `Bank.select_eq` is its effect. -/
theorem bankSetMakesTheBankQualifyAfresh : Obligations.BankSetMakesTheBankQualifyAfresh := by
  unfold Obligations.BankSetMakesTheBankQualifyAfresh
  intro l tag n q s hp selected
  have hselected (u : State) : u.modBank (fun b => b.select n.toNat q.toNat) = selected u := by
    simp only [State.modBank, Bank.select_eq, selected]
  refine ⟨fun hw => ?addressed, fun hu htx hslot => ?broadcast⟩
  case addressed =>
    by_cases hn : 3 < n.toNat
    · rw [if_pos hn]
      exact exec_bankSet hw hp (bankSet_setRange hn)
    by_cases hq : q.toNat ≠ 1 ∧ q.toNat ≠ 3
    · rw [if_neg hn, if_pos hq]
      exact exec_bankSet hw hp (bankSet_timeRange hn hq)
    · rw [if_neg hn, if_neg hq]
      exact exec_bankSet hw hp ((bankSet_inRange hn hq).trans (congrArg accept (hselected _)))
  case broadcast =>
    rw [exec_bankSet_broadcast hu hp htx hslot]
    by_cases hn : 3 < n.toNat
    · rw [if_pos (.inl hn), bankSet_setRange hn]
      rfl
    by_cases hq : q.toNat ≠ 1 ∧ q.toNat ≠ 3
    · rw [if_pos (.inr hq), bankSet_timeRange hn hq]
      rfl
    · rw [if_neg (not_or.2 ⟨hn, hq⟩), bankSet_inRange hn hq, hselected]
      rfl

/-! ### The thresholds of a set (Table 6-1) -/

section
variable {set : Nat} (hset : set ≤ 3)
include hset

theorem threshold_sets : set = 0 ∨ set = 1 ∨ set = 2 ∨ set = 3 := by omega

theorem dropLevel_eq : dropLevel set = 150 + 10 * set := by
  obtain rfl | rfl | rfl | rfl := threshold_sets hset <;> rfl

theorem readyLevel_eq : readyLevel set = 170 + 10 * set := by
  obtain rfl | rfl | rfl | rfl := threshold_sets hset <;> rfl

theorem heavyLevel_eq : heavyLevel set = 200 + 10 * set := by
  obtain rfl | rfl | rfl | rfl := threshold_sets hset <;> rfl

end

/-! ### A sample (R110) -/

section
variable {b : Bank} {v left : Nat}

theorem Bank.sample_unwatched (hw : b.watch = none) : b.sample v = b.judge v := by
  simp only [Bank.sample, hw]

/-- With the watch running, the sample by which the bank becomes READY stops it and records the time. -/
theorem Bank.sample_watched (hw : b.watch = some left) : b.sample v =
    if (b.state = .drained ∨ b.state = .charging)
        ∧ ((b.judge v).state = .ready ∨ (b.judge v).state = .heavyReady) then
      { b.judge v with
        watch := none, lastRecharge := rechargeTime left
        longestRecharge := max b.longestRecharge (rechargeTime left) }
    else b.judge v := by
  simp only [Bank.sample, hw, Bool.and_eq_true, BankState.not_isReady_iff, BankState.isReady_iff]

end

/-- Settles O46: the bank after the sample is `Bank.judge`'s at the thresholds of Table 6-1, and a watch that runs is
stopped as `Bank.sample_watched` says. -/
theorem aBankSampleIsJudged : Obligations.ABankSampleIsJudged := by
  unfold Obligations.ABankSampleIsJudged
  intro level s hu hset b v n drop ready heavy r h judged time becomes
  have hdrop : dropLevel b.set = drop := dropLevel_eq hset
  have hready : readyLevel b.set = ready := readyLevel_eq hset
  have hheavy : heavyLevel b.set = heavy := heavyLevel_eq hset
  have hjudged : b.judge v = judged := by
    unfold Bank.judge
    rw [hdrop, hready, hheavy]
    rfl
  have hsample : exec (.bankSample level) s = .next { s with bank := b.sample v } := congrArg _ (powered_up _ hu)
  rw [hsample]
  cases hw : b.watch with
  | none => rw [Bank.sample_unwatched hw, hjudged]
  | some left =>
    rw [Bank.sample_watched hw, hjudged]
    rfl

end Sys2Proof.Machine
end

