-- ==== Sys2Proof/Proofs/MechanismSteps.lean ====
section
/-!
SUPPORT. The ends of steps of the carriage, the deflector and the turret (R119 to R124): that no such end brings a
mechanism to rest, so that nothing follows it in the engine; the counts; and what the move or the homing goes on with.
-/
namespace Sys2Proof.Machine

variable {s : State}

/-! ### A drive in which no mechanism comes to rest -/

/-- Every mechanism that is at rest in the drive `e` is at rest in the drive `d`. -/
structure NoneCameToRest (d e : Drive) : Prop where
  carriage : e.carriage.act = .atRest → d.carriage.act = .atRest
  deflector : e.deflector.act = .atRest → d.deflector.act = .atRest
  turret : e.turret.act = .atRest → d.turret.act = .atRest
  film : e.film.advance = none → d.film.advance = none

theorem prepared_iff (s : State) : prepared s = true ↔
    s.drive.turret.act = .atRest ∧ s.drive.film.advance = none ∧ s.drive.carriage.act = .atRest := by
  simp [prepared, and_assoc]

theorem Drive.allAtRest_iff (d : Drive) : d.allAtRest = true ↔
    d.carriage.act = .atRest ∧ d.deflector.act = .atRest ∧ d.film.advance = none ∧ d.turret.act = .atRest := by
  simp [Drive.allAtRest, and_assoc]

/-- While the carriage is in motion the engine waits for it, whatever it waits for (R49, R62, R68). -/
theorem noEndWaits_of_carriage (h : s.drive.carriage.act ≠ .atRest) : NoEndWaits s := by
  unfold NoEndWaits
  split
  case h_1 => exact Bool.eq_false_iff.2 fun hp => h ((prepared_iff s).1 hp).2.2
  case h_2 => exact h
  case h_3 => exact fun c _ _ => Bool.eq_false_iff.2 fun hr => h ((Drive.allAtRest_iff _).1 hr).1
  all_goals trivial

/-- The engine that waited still waits after a change of the drive that brings no mechanism to rest. -/
theorem NoEndWaits.of_noneCameToRest {d : Drive} (h : NoEndWaits s) (hr : NoneCameToRest s.drive d) :
    NoEndWaits { s with drive := d } := by
  obtain ⟨hcarriage, hdeflector, hturret, hfilm⟩ := hr
  unfold NoEndWaits at h ⊢
  split at h <;> rename_i he <;> simp only [he]
  case h_1 =>
    rw [Bool.eq_false_iff, ne_eq, prepared_iff] at h ⊢
    exact fun ⟨ht, hf, hc⟩ => h ⟨hturret ht, hfilm hf, hcarriage hc⟩
  case h_2 => exact fun hc => h (hcarriage hc)
  case h_3 =>
    intro c hclose hphase
    have hbefore := h c hclose hphase
    rw [Bool.eq_false_iff, ne_eq, Drive.allAtRest_iff] at hbefore ⊢
    exact fun ⟨hc, hd, hf, ht⟩ => hbefore ⟨hcarriage hc, hdeflector hd, hfilm hf, hturret ht⟩

theorem judgeSpinUp_stays (h : s.spin.unit ≠ .spinUp ∨ s.drive.homingDone = false ∨ s.disc.locked = false) :
    judgeSpinUp s = s := by
  refine if_neg fun ⟨hunit, hdone, hlocked⟩ => ?_
  rw [hdone, hlocked] at h
  simp [hunit] at h

/-- A change of the drive that ends neither SPIN_UP nor anything the engine waits for changes the drive alone. -/
theorem driveChanged_alone {f : Drive → Drive} (hn : NoEndWaits s) (hr : NoneCameToRest s.drive (f s.drive))
    (hi : s.spin.unit ≠ .spinUp ∨ (f s.drive).homingDone = false ∨ s.disc.locked = false) :
    driveChanged f s = { s with drive := f s.drive } := by
  rw [driveChanged, judgeSpinUp_stays hi]
  exact carryOn_noEndWaits (hn.of_noneCameToRest hr)

/-! ### The end of a step leaves its mechanism in motion -/

theorem Carriage.goOn_moving (c : Carriage) : c.goOn.act ≠ .atRest := by
  unfold Carriage.goOn
  split
  · split <;> exact Activity.noConfusion
  · exact Activity.noConfusion

theorem Deflector.begin_moving (d : Deflector) (t : Track) (r : Int) : (d.begin t r).act ≠ .atRest := by
  unfold Deflector.begin
  split <;> exact Activity.noConfusion

theorem Deflector.goOn_moving (d : Deflector) : d.goOn.act ≠ .atRest := by
  unfold Deflector.goOn
  split
  · exact d.begin_moving _ _
  · exact Activity.noConfusion

theorem Turret.goOn_moving (t : Turret) : t.goOn.act ≠ .atRest := by
  unfold Turret.goOn
  split
  · split <;> exact Activity.noConfusion
  · exact Activity.noConfusion

theorem carriageStepEnd_noneCameToRest (home : Bool) (d : Drive) : NoneCameToRest d (d.carriageStepEnd home) := by
  unfold Drive.carriageStepEnd
  dsimp only
  split
  case h_1 => exact ⟨fun h => absurd h (Carriage.goOn_moving _), id, id, id⟩
  case h_2 => exact ⟨Activity.noConfusion, id, id, id⟩
  case h_3 => split <;> exact ⟨Activity.noConfusion, id, id, id⟩
  all_goals exact ⟨id, id, id, id⟩

theorem deflectorHomed_noneCameToRest (c : Deflector) (d : Drive) : NoneCameToRest d (d.deflectorHomed c) := by
  unfold Drive.deflectorHomed
  split
  · exact ⟨id, Activity.noConfusion, id, id⟩
  · exact ⟨id, fun h => absurd h (Deflector.begin_moving _ _ _), id, id⟩

theorem deflectorStepEnd_noneCameToRest (trackHome riseHome : Bool) (d : Drive) :
    NoneCameToRest d (d.deflectorStepEnd trackHome riseHome) := by
  unfold Drive.deflectorStepEnd
  dsimp only
  split
  case h_1 => exact ⟨id, fun h => absurd h (Deflector.goOn_moving _), id, id⟩
  case h_2 => exact ⟨id, Activity.noConfusion, id, id⟩
  case h_3 =>
    split
    · split
      · obtain ⟨hc, hd, ht, hf⟩ := deflectorHomed_noneCameToRest d.deflector.countStep
          { d with sensors := { d.sensors with deflTrack := trackHome, deflRise := riseHome } }
        exact ⟨hc, hd, ht, hf⟩
      · exact ⟨id, Activity.noConfusion, id, id⟩
    · split <;> exact ⟨id, Activity.noConfusion, id, id⟩
  all_goals exact ⟨id, id, id, id⟩

theorem turretStepEnd_noneCameToRest (home : Bool) (d : Drive) : NoneCameToRest d (d.turretStepEnd home) := by
  unfold Drive.turretStepEnd
  dsimp only
  split
  case h_1 => exact ⟨id, id, fun h => absurd h (Turret.goOn_moving _), id⟩
  case h_2 => exact ⟨id, id, Activity.noConfusion, id⟩
  case h_3 => split <;> exact ⟨id, id, Activity.noConfusion, id⟩
  all_goals exact ⟨id, id, id, id⟩

/-! ### The three commands, with the drive after the step `d` -/

section
variable {d : Drive} {home trackHome riseHome : Bool}

theorem exec_carriageStep (hu : Up s) (hn : NoEndWaits s) (hd : s.drive.carriageStepEnd home = d)
    (hi : s.spin.unit ≠ .spinUp ∨ d.homingDone = false ∨ s.disc.locked = false) :
    exec (.carriageStep home) s = .next { s with drive := d } := by
  subst hd
  exact congrArg _ ((powered_up _ hu).trans (driveChanged_alone hn (carriageStepEnd_noneCameToRest _ _) hi))

theorem exec_deflectorStep (hu : Up s) (hn : NoEndWaits s) (hd : s.drive.deflectorStepEnd trackHome riseHome = d)
    (hi : s.spin.unit ≠ .spinUp ∨ d.homingDone = false ∨ s.disc.locked = false) :
    exec (.deflectorStep trackHome riseHome) s = .next { s with drive := d } := by
  subst hd
  exact congrArg _ ((powered_up _ hu).trans (driveChanged_alone hn (deflectorStepEnd_noneCameToRest _ _ _) hi))

theorem exec_turretStep (hu : Up s) (hn : NoEndWaits s) (hd : s.drive.turretStepEnd home = d)
    (hi : s.spin.unit ≠ .spinUp ∨ d.homingDone = false ∨ s.disc.locked = false) :
    exec (.turretStep home) s = .next { s with drive := d } := by
  subst hd
  exact congrArg _ ((powered_up _ hu).trans (driveChanged_alone hn (turretStepEnd_noneCameToRest _ _) hi))

end

/-! ### The carriage (R120, R121) -/

/-- The take-up left as the step begins to count: a step against the engaged direction takes up the rest of the six. -/
def Carriage.takeUpLeft (c : Carriage) : Nat := if c.stepDir = c.dir then c.takeUp else 6 - c.takeUp

theorem Carriage.engage_eq (c : Carriage) : c.engage = { c with dir := c.stepDir, takeUp := c.takeUpLeft } := by
  obtain ⟨position, dir, takeUp, act, target, stepDir, left, phase⟩ := c
  by_cases h : stepDir = dir
  · subst h
    simp [Carriage.engage, Carriage.takeUpLeft]
  · simp [Carriage.engage, Carriage.takeUpLeft, h]

/-- The take-up left is counted down first, and the position after it. -/
theorem Carriage.countStep_eq (c : Carriage) : c.countStep = { c with
    dir := c.stepDir
    takeUp := c.takeUpLeft - 1
    position := if 0 < c.takeUpLeft then c.position else carriageMoved c.stepDir c.position
    phase := nextPhase c.phase (c.stepDir == .ascending) } := by
  unfold Carriage.countStep
  simp only [Carriage.engage_eq]
  split
  · rfl
  · next h => simp [Nat.eq_zero_of_not_pos h]

theorem Carriage.goOn_settles {c : Carriage} (h : c.target = none ∨ c.target = some c.position) :
    c.goOn = c.settle := by
  unfold Carriage.goOn
  obtain h | h := h
  · rw [h]
  · rw [h]
    exact if_pos rfl

theorem Carriage.goOn_begins {c : Carriage} {x : Nat} (h : c.target = some x) (hx : x ≠ c.position) :
    c.goOn = c.begin x := by
  unfold Carriage.goOn
  rw [h]
  exact if_neg hx.symm

/-- What goes on with a move is its activity, its next step and its time, and no count. -/
theorem Carriage.goOn_counts (c : Carriage) : c.goOn.position = c.position ∧ c.goOn.dir = c.dir
    ∧ c.goOn.takeUp = c.takeUp ∧ c.goOn.target = c.target := by
  by_cases h : c.target = none ∨ c.target = some c.position
  · rw [Carriage.goOn_settles h]
    exact ⟨rfl, rfl, rfl, rfl⟩
  · obtain ⟨hnone, hother⟩ := not_or.1 h
    obtain ⟨x, hx⟩ := Option.ne_none_iff_exists'.1 hnone
    rw [Carriage.goOn_begins hx fun he => hother (by rw [hx, he])]
    exact ⟨rfl, rfl, rfl, hx.symm⟩

theorem Drive.carriageStepEnd_moves {d : Drive} {home : Bool} (h : d.carriage.act = .stepping) :
    d.carriageStepEnd home =
      { d with carriage := d.carriage.countStep.goOn, sensors := { d.sensors with carriage := home } } := by
  simp only [Drive.carriageStepEnd, h]

/-- Settles O49: `Carriage.countStep_eq` is the count, and the two ways of `Carriage.goOn` are what follows it. -/
theorem aCarriageStepCountsItsBacklash : Obligations.ACarriageStepCountsItsBacklash := by
  unfold Obligations.ACarriageStepCountsItsBacklash
  intro home s hu hstep hi c takeUp position
  have hn : NoEndWaits s := noEndWaits_of_carriage (by rw [hstep]; exact Activity.noConfusion)
  have hposition : c.countStep.position = position := by
    rw [Carriage.countStep_eq]
    rfl
  have htarget : c.countStep.target = c.target := by rw [Carriage.countStep_eq]
  obtain ⟨hgoOn, hdir, htakeUp, hgoal⟩ := c.countStep.goOn_counts
  refine ⟨_, exec_carriageStep hu hn (Drive.carriageStepEnd_moves hstep) hi, hgoOn.trans hposition, ?dir, ?takeUp,
    hgoal.trans htarget, fun h => ?settles, fun x hx hne => ?begins, rfl⟩
  case dir => exact hdir.trans (by rw [Carriage.countStep_eq])
  case takeUp => exact htakeUp.trans (by rw [Carriage.countStep_eq]; rfl)
  case settles =>
    rw [← htarget, ← hposition] at h
    show c.countStep.goOn.act = _ ∧ c.countStep.goOn.left = _
    rw [Carriage.goOn_settles h]
    exact ⟨rfl, rfl⟩
  case begins =>
    rw [← htarget] at hx
    rw [← hposition] at hne ⊢
    show c.countStep.goOn.act = _ ∧ c.countStep.goOn.left = _ ∧ c.countStep.goOn.stepDir = _
    rw [Carriage.goOn_begins hx hne]
    exact ⟨rfl, rfl, rfl⟩

/-! ### The deflector (R122) -/

/-- The setting after the step in progress. -/
theorem Deflector.countStep_setting (d : Deflector) : (d.countStep.track, d.countStep.rise) = (match d.step with
    | .trackUp => (min 7 (d.track + 1), d.rise)
    | .trackDown => (d.track - 1, d.rise)
    | .riseUp => (d.track, min 7 (d.rise + 1))
    | .riseDown => (d.track, max (-7) (d.rise - 1))) := by
  cases h : d.step <;> simp only [Deflector.countStep, h] <;> rfl

theorem Deflector.countStep_target (d : Deflector) : d.countStep.target = d.target := by
  cases h : d.step <;> simp only [Deflector.countStep, h]

theorem Deflector.countStep_homingRise (d : Deflector) : d.countStep.homingRise = d.homingRise := by
  cases h : d.step <;> simp only [Deflector.countStep, h]

section
variable {d : Deflector} {t : Track} {r : Int}

theorem Deflector.begin_settles (ht : d.track = t.val) (hr : d.rise = r) :
    d.begin t r = { d with target := some (t, r) }.settle := by
  simp [Deflector.begin, Deflector.nextStep, ht, hr]

/-- Track steps come first. -/
theorem Deflector.begin_track (ht : d.track ≠ t.val) : d.begin t r = { d with
    act := .stepping, target := some (t, r), left := 150
    step := if d.track < t.val then .trackUp else .trackDown } := by
  by_cases h : d.track < t.val
  · simp [Deflector.begin, Deflector.nextStep, h, DefStep.time, Config.trackStep]
  · have hdown : t.val < d.track := by omega
    simp [Deflector.begin, Deflector.nextStep, h, hdown, DefStep.time, Config.trackStep]

theorem Deflector.begin_rise (ht : d.track = t.val) (hr : d.rise ≠ r) : d.begin t r = { d with
    act := .stepping, target := some (t, r), left := 50
    step := if d.rise < r then .riseUp else .riseDown } := by
  by_cases h : d.rise < r
  · simp [Deflector.begin, Deflector.nextStep, ht, h, DefStep.time, Config.riseStep]
  · have hdown : r < d.rise := by omega
    simp [Deflector.begin, Deflector.nextStep, ht, h, hdown, DefStep.time, Config.riseStep]

end

theorem Deflector.begin_setting (d : Deflector) (t : Track) (r : Int) :
    ((d.begin t r).track, (d.begin t r).rise) = (d.track, d.rise) := by
  unfold Deflector.begin
  split <;> rfl

theorem Drive.deflectorStepEnd_moves {d : Drive} {trackHome riseHome : Bool} {t : Track} {r : Int}
    (h : d.deflector.act = .stepping) (ht : d.deflector.target = some (t, r)) :
    d.deflectorStepEnd trackHome riseHome = { d with
      deflector := d.deflector.countStep.begin t r
      sensors := { d.sensors with deflTrack := trackHome, deflRise := riseHome } } := by
  simp only [Drive.deflectorStepEnd, h, Deflector.goOn, Deflector.countStep_target, ht]

/-! ### The turret (R123) -/

theorem Turret.goOn_settles {t : Turret} {p : Nat} (h : t.target = some p) (hp : t.position = p) :
    t.goOn = t.settle := by
  unfold Turret.goOn
  rw [h]
  exact if_pos hp

theorem Turret.goOn_begins {t : Turret} {p : Nat} (h : t.target = some p) (hp : t.position ≠ p) :
    t.goOn = t.begin p := by
  unfold Turret.goOn
  rw [h]
  exact if_neg hp

theorem Turret.goOn_position (t : Turret) : t.goOn.position = t.position := by
  unfold Turret.goOn
  split
  · split <;> rfl
  · rfl

theorem Drive.turretStepEnd_moves {d : Drive} {home : Bool} (h : d.turret.act = .stepping) :
    d.turretStepEnd home =
      { d with turret := d.turret.countStep.goOn, sensors := { d.sensors with turret := home } } := by
  simp only [Drive.turretStepEnd, h]

/-- Settles O50: the deflector's next step is one of the three `Deflector.begin_` cases, the turret's one of the two
ways of `Turret.goOn`. -/
theorem deflectorAndTurretStepsCount : Obligations.DeflectorAndTurretStepsCount := by
  unfold Obligations.DeflectorAndTurretStepsCount
  refine ⟨?deflector, ?turret⟩
  case deflector =>
    intro trackHome riseHome t r s hu hn hi hstep htarget _ _ _ d setting
    have hsetting : (d.countStep.track, d.countStep.rise) = setting := d.countStep_setting
    have hat : setting = (t.val, r) ↔ d.countStep.track = t.val ∧ d.countStep.rise = r := by
      rw [← hsetting, Prod.mk.injEq]
    refine ⟨_, exec_deflectorStep hu hn (Drive.deflectorStepEnd_moves hstep htarget) hi,
      (d.countStep.begin_setting t r).trans hsetting, fun heq => ?settles, fun hne => ?goesOn, rfl⟩
    case settles =>
      obtain ⟨ht, hr⟩ := hat.1 heq
      exact ⟨congrArg Deflector.act (Deflector.begin_settles ht hr),
        congrArg Deflector.left (Deflector.begin_settles ht hr)⟩
    case goesOn =>
      rw [← hsetting]
      by_cases ht : d.countStep.track = t.val
      · have hr : d.countStep.rise ≠ r := fun hr => hne (hat.2 ⟨ht, hr⟩)
        have hbegin := Deflector.begin_rise ht hr
        exact ⟨congrArg Deflector.act hbegin, fun h => absurd ht h,
          fun _ => ⟨congrArg Deflector.left hbegin, congrArg Deflector.step hbegin⟩⟩
      · have hbegin := Deflector.begin_track (r := r) ht
        exact ⟨congrArg Deflector.act hbegin,
          fun _ => ⟨congrArg Deflector.left hbegin, congrArg Deflector.step hbegin⟩, fun h => absurd h ht⟩
  case turret =>
    intro home p s hu hn hi hstep htarget _ _ c position
    refine ⟨_, exec_turretStep hu hn (Drive.turretStepEnd_moves hstep) hi, c.countStep.goOn_position,
      fun heq => ?settles, fun hne => ?goesOn, rfl⟩
    case settles =>
      have hgoOn := Turret.goOn_settles (t := c.countStep) htarget heq
      exact ⟨congrArg Turret.act hgoOn, congrArg Turret.left hgoOn⟩
    case goesOn =>
      have hgoOn := Turret.goOn_begins (t := c.countStep) htarget hne
      exact ⟨congrArg Turret.act hgoOn, congrArg Turret.left hgoOn, congrArg Turret.forward hgoOn⟩

/-! ### Homing (R124) -/

/-- The leg a homing that has not found its sensor goes on with. -/
def nextLeg (leg : HomeLeg) (active : Bool) : HomeLeg := if leg = .out ∧ active = true then .out else .seek

theorem nextLeg_out (active : Bool) : nextLeg .out active = firstLeg active := by cases active <;> rfl

section
variable {d : Drive} {leg : HomeLeg} {home trackHome riseHome : Bool}

theorem Drive.carriageStepEnd_found (h : d.carriage.act = .homing .seek) : d.carriageStepEnd true =
    { d with
      carriage := d.carriage.countStep.homed, limitC := none
      sensors := { d.sensors with carriage := true } }.judgeHoming := by
  simp [Drive.carriageStepEnd, h]

theorem Drive.carriageStepEnd_homes (h : d.carriage.act = .homing leg) (hl : leg = .out ∨ home = false) :
    d.carriageStepEnd home = { d with
      carriage := d.carriage.countStep.homeOn (nextLeg leg home)
      sensors := { d.sensors with carriage := home } } := by
  cases leg with
  | out => simp only [Drive.carriageStepEnd, h, nextLeg_out]
  | seek =>
    obtain rfl : home = false := hl.resolve_left HomeLeg.noConfusion
    simp [Drive.carriageStepEnd, h, nextLeg]

theorem Drive.turretStepEnd_found (h : d.turret.act = .homing .seek) : d.turretStepEnd true =
    { d with
      turret := d.turret.countStep.homed, limitT := none
      sensors := { d.sensors with turret := true } }.judgeHoming := by
  simp [Drive.turretStepEnd, h]

theorem Drive.turretStepEnd_homes (h : d.turret.act = .homing leg) (hl : leg = .out ∨ home = false) :
    d.turretStepEnd home = { d with
      turret := d.turret.countStep.homeOn (nextLeg leg home)
      sensors := { d.sensors with turret := home } } := by
  cases leg with
  | out => simp only [Drive.turretStepEnd, h, nextLeg_out]
  | seek =>
    obtain rfl : home = false := hl.resolve_left HomeLeg.noConfusion
    simp [Drive.turretStepEnd, h, nextLeg]

theorem Drive.deflectorStepEnd_found (h : d.deflector.act = .homing .seek) (hr : d.deflector.homingRise = true)
    (hh : d.held = none) : d.deflectorStepEnd true true =
      { d with
        deflector := d.deflector.countStep.homed, limitD := none
        sensors := { d.sensors with deflTrack := true, deflRise := true } }.judgeHoming := by
  simp [Drive.deflectorStepEnd, h, Deflector.countStep_homingRise, hr, Drive.deflectorHomed, hh]

/-- One leg of one phase of the deflector's homing goes on, or the seek of the phase follows the way out. -/
theorem Drive.deflectorStepEnd_homes (h : d.deflector.act = .homing leg)
    (hl : leg = .out ∨ (if d.deflector.homingRise = true then riseHome else trackHome) = false) :
    d.deflectorStepEnd trackHome riseHome = { d with
      deflector := d.deflector.countStep.homeOn d.deflector.homingRise
        (nextLeg leg (if d.deflector.homingRise = true then riseHome else trackHome))
      sensors := { d.sensors with deflTrack := trackHome, deflRise := riseHome } } := by
  cases leg with
  | out => simp only [Drive.deflectorStepEnd, h, Deflector.countStep_homingRise, nextLeg_out]
  | seek =>
    have hout := hl.resolve_left HomeLeg.noConfusion
    cases hr : d.deflector.homingRise <;>
      simp_all [Drive.deflectorStepEnd, Deflector.countStep_homingRise, nextLeg]

/-- With track 0 found the rise phase begins. -/
theorem Drive.deflectorStepEnd_trackFound (h : d.deflector.act = .homing .seek)
    (hr : d.deflector.homingRise = false) : d.deflectorStepEnd true riseHome = { d with
      deflector := d.deflector.countStep.homeOn true (firstLeg riseHome)
      sensors := { d.sensors with deflTrack := true, deflRise := riseHome } } := by
  simp [Drive.deflectorStepEnd, h, Deflector.countStep_homingRise, hr]

end

/-- Settles O51: each mechanism's `_found` equation is its home state, its `_homes` equation the homing that goes on. -/
theorem homeFoundSetsTheCountedState : Obligations.HomeFoundSetsTheCountedState := by
  unfold Obligations.HomeFoundSetsTheCountedState
  intro s hu hn hlocked
  have hi (d : Drive) : s.spin.unit ≠ .spinUp ∨ d.homingDone = false ∨ s.disc.locked = false :=
    .inr (.inr hlocked)
  refine ⟨fun h => ?carriageFound, fun h hr hh => ?deflectorFound, fun h => ?turretFound, ?_⟩
  case carriageFound =>
    refine ⟨_, exec_carriageStep hu hn (Drive.carriageStepEnd_found h) (hi _), ?_⟩
    exact ⟨rfl, rfl, rfl, rfl, rfl, rfl, rfl, rfl, rfl⟩
  case deflectorFound =>
    refine ⟨_, exec_deflectorStep hu hn (Drive.deflectorStepEnd_found h hr hh) (hi _), ?_⟩
    exact ⟨rfl, rfl, rfl, rfl, congrArg (· && s.drive.limitT.isNone) (Bool.and_true _), rfl, rfl, rfl⟩
  case turretFound =>
    refine ⟨_, exec_turretStep hu hn (Drive.turretStepEnd_found h) (hi _), ?_⟩
    exact ⟨rfl, rfl, rfl, Bool.and_true _, rfl, rfl, rfl⟩
  intro next goesOn
  refine ⟨fun leg home h hl => ?carriageHomes, fun leg trackHome riseHome h => ?deflectorHomes,
    fun leg home h hl => ?turretHomes⟩
  case carriageHomes =>
    have hdir : (s.drive.carriage.countStep.homeOn (nextLeg leg home)).stepDir
        = if nextLeg leg home = .out then .ascending else .descending := by
      cases hleg : nextLeg leg home <;> rfl
    refine ⟨_, exec_carriageStep hu hn (Drive.carriageStepEnd_homes h hl) (hi _), ?_⟩
    exact ⟨rfl, hdir, rfl, rfl, rfl, rfl, rfl, rfl, rfl, rfl, rfl⟩
  case deflectorHomes =>
    intro rise active on
    refine ⟨fun hl => ?goesOn, fun hseek hr hfound => ?trackFound⟩
    case goesOn =>
      refine ⟨_, exec_deflectorStep hu hn (Drive.deflectorStepEnd_homes h hl) (hi _), ?_⟩
      exact ⟨rfl, rfl, rfl, rfl, rfl, rfl, rfl, rfl, rfl, rfl, rfl, rfl⟩
    case trackFound =>
      subst hseek hfound
      refine ⟨_, exec_deflectorStep hu hn (Drive.deflectorStepEnd_trackFound h hr) (hi _), ?_⟩
      exact ⟨rfl, rfl, rfl, rfl, rfl, rfl, rfl, rfl, rfl, rfl, rfl, rfl⟩
  case turretHomes =>
    refine ⟨_, exec_turretStep hu hn (Drive.turretStepEnd_homes h hl) (hi _), ?_⟩
    exact ⟨rfl, rfl, rfl, rfl, rfl, rfl, rfl, rfl, rfl, rfl, rfl⟩

end Sys2Proof.Machine
end

