-- ==== Sys2Proof/Proofs/Preparation.lean ====
section
/-!
SUPPORT. Preparation (R45, R48 to R50, R52, R55): what the loading of a stop leaves as it was, the two outcomes of the
entry to PREPARE, and the hand-over of the head line to a job that becomes ACTIVE (R150).
-/
namespace Sys2Proof.Machine

variable {s u : State}

/-! ### What the loading of a stop leaves -/

/-- What the loading of a stop leaves: of the drive all but the deflector with its held order, of the engine all but
the ring and the mark of a flash since the index. -/
structure Standing where
  queues : Pair Queue
  store : LineStore
  jobs : List Job
  seq : Seq
  spin : Spin
  carriage : Carriage
  turret : Turret
  film : Film
  engine : Engine

/-- These fields of a part. -/
def standing (s : State) : Standing :=
  ⟨s.queues, s.store, s.jobs, s.seq, s.spin, s.drive.carriage, s.drive.turret, s.drive.film,
    { s.engine with ring := [], firedSinceIndex := false }⟩

/-- The engine is neither in FLASH nor in WAIT_TRACK, so that it takes no notice of a trim record (R63). -/
def NoStopOpen (s : State) : Prop := s.engine.state ≠ .flash ∧ s.engine.state ≠ .waitTrack

theorem NoStopOpen.of_standing (h : NoStopOpen s) (he : standing u = standing s) : NoStopOpen u := by
  have hstate : u.engine.state = s.engine.state := congrArg (fun x => x.engine.state) he
  rw [NoStopOpen, hstate]
  exact h

theorem standing_trackNotice (h : NoStopOpen s) : standing (trackNotice s) = standing s := by
  obtain ⟨hflash, hwait⟩ := h
  unfold trackNotice
  split
  · contradiction
  · contradiction
  all_goals rfl

theorem Drive.aim_keeps (d : Drive) (t : Track) (r : Int) :
    (d.aim t r).carriage = d.carriage ∧ (d.aim t r).turret = d.turret ∧ (d.aim t r).film = d.film := by
  unfold Drive.aim
  split
  case h_3 | h_4 => split <;> exact ⟨rfl, rfl, rfl⟩
  all_goals exact ⟨rfl, rfl, rfl⟩

theorem standing_aim (s : State) : standing (aim s) = standing s := by
  unfold aim
  split
  · rfl
  · next it _ =>
    obtain ⟨hcarriage, hturret, hfilm⟩ := s.drive.aim_keeps it.track it.rise
    simp only [standing, State.modDrive, hcarriage, hturret, hfilm]

theorem standing_putRec (t : Track) (r : TrimRec) (h : NoStopOpen s) : standing (putRec t r s) = standing s := by
  unfold putRec
  dsimp only
  split <;> exact standing_trackNotice h

theorem standing_startSearch (h : NoStopOpen s) : standing (startSearch s) = standing s := by
  unfold startSearch
  split
  · rfl
  · split
    · rfl
    · exact standing_putRec _ _ h

theorem standing_joinQueue (t : Track) (h : NoStopOpen s) : standing (joinQueue s t) = standing s := by
  have hjoined (u : State) (hu : standing u = standing s) (r : TrimRec) :
      standing (startSearch ((putRec t r u).modTrim fun v => { v with queue := v.queue ++ [t] })) = standing s := by
    have hput : standing (putRec t r u) = standing s := (standing_putRec t r (h.of_standing hu)).trans hu
    exact (standing_startSearch (s := (putRec t r u).modTrim _) (h.of_standing hput)).trans hput
  unfold joinQueue
  dsimp only
  split
  · rfl
  · split
    · exact hjoined (clearWindow t s) rfl _
    · exact hjoined s rfl _

theorem standing_joinTracks (ts : List Track) (h : NoStopOpen s) : standing (joinTracks ts s) = standing s := by
  have hjoin : standing (ts.foldl joinQueue s) = standing s := by
    induction ts generalizing s with
    | nil => rfl
    | cons t ts ih =>
      have hone := standing_joinQueue t h
      exact (ih (h.of_standing hone)).trans hone
  exact (standing_aim _).trans hjoin

theorem standing_loadStop (st : Stop) (h : NoStopOpen s) : standing (loadStop st s) = standing s :=
  standing_joinTracks _ h

/-! ### The entry to PREPARE (R48) -/

theorem Film.begin_advances (f : Film) {steps : Nat} (h : steps ≠ 0) :
    f.begin steps = { f with advance := some steps, left := 20 } := if_neg h

theorem Carriage.order_atRest {c : Carriage} (h : c.act = .atRest) (x : Nat) :
    c.order x = if c.position = x then c else { c with
      act := .stepping, target := some x, left := 25
      stepDir := if c.position < x then .ascending else .descending } := by
  unfold Carriage.order
  rw [h]
  rfl

theorem Turret.order_atRest {t : Turret} (h : t.act = .atRest) (p : Nat) :
    t.order p = if t.position = p then t else { t with
      act := .stepping, target := some p, left := 4000
      forward := decide ((p + 8 - t.position) % 8 ≤ 4) } := by
  unfold Turret.order
  rw [h]
  rfl

theorem prepare_waits {h : Header} (hf : s.drive.film.remaining < filmNeeded h.leading s.drive.film.galleyOpen) :
    prepare h s = waitForFilm h (filmNeeded h.leading s.drive.film.galleyOpen) s := if_pos hf

/-- With film enough the three moves start, and the loading of the first stop leaves them. -/
theorem standing_prepare {h : Header} (hf : filmNeeded h.leading s.drive.film.galleyOpen ≤ s.drive.film.remaining) :
    standing (prepare h s) = standing (startMoves h (filmNeeded h.leading s.drive.film.galleyOpen) s.engine.stops.head?
      (s.modEngine fun e => { e with state := .prepare })) := by
  simp only [prepare, if_neg (Nat.not_lt.2 hf)]
  split
  · rfl
  · exact standing_loadStop _ ⟨EngineState.noConfusion, EngineState.noConfusion⟩

/-- Preparation leaves the jobs, the sequencer and Spin Control, and the engine its line and its close. -/
theorem prepare_keeps (h : Header) (s : State) : (prepare h s).jobs = s.jobs ∧ (prepare h s).seq = s.seq
    ∧ (prepare h s).spin = s.spin ∧ (prepare h s).engine.current = s.engine.current
    ∧ (prepare h s).engine.close = s.engine.close
    ∧ ((prepare h s).engine.state = .prepare ∨ (prepare h s).engine.state = .waitFilm) := by
  by_cases hf : s.drive.film.remaining < filmNeeded h.leading s.drive.film.galleyOpen
  · rw [prepare_waits hf]
    exact ⟨rfl, rfl, rfl, rfl, rfl, .inr rfl⟩
  · have hkept := standing_prepare (Nat.not_lt.1 hf)
    exact ⟨congrArg Standing.jobs hkept, congrArg Standing.seq hkept, congrArg Standing.spin hkept,
      congrArg (fun x => x.engine.current) hkept, congrArg (fun x => x.engine.close) hkept,
      .inl (congrArg (fun x => x.engine.state) hkept)⟩

theorem filmNeeded_closed (leading : Nat) : filmNeeded leading false = 720 + leading := rfl

/-- While the film advances the engine waits for it, but in MOVE (R49, R68). -/
theorem noEndWaits_of_film (hf : s.drive.film.advance ≠ none) (hm : s.engine.state ≠ .move) : NoEndWaits s := by
  unfold NoEndWaits
  split
  case h_1 => exact Bool.eq_false_iff.2 fun hp => hf ((prepared_iff s).1 hp).2.1
  case h_2 he => exact absurd he hm
  case h_3 => exact fun c _ _ => Bool.eq_false_iff.2 fun hr => hf ((Drive.allAtRest_iff _).1 hr).2.2.1
  all_goals trivial

theorem noEndWaits_of_noMoveAwaited (h : NoMoveAwaited s) : NoEndWaits s := by
  obtain ⟨hprepare, hmove, hclosing⟩ := h
  unfold NoEndWaits
  split
  case h_1 | h_2 | h_3 => contradiction
  all_goals trivial

/-- With the galley closed PREPARE waits for the advance of the head margin at least, so that the engine does not go on
at once (log 26). -/
theorem prepare_noEndWaits (h : Header) (hg : s.drive.film.galleyOpen = false) : NoEndWaits (prepare h s) := by
  by_cases hf : s.drive.film.remaining < filmNeeded h.leading s.drive.film.galleyOpen
  · rw [prepare_waits hf]
    exact noEndWaits_of_noMoveAwaited ⟨EngineState.noConfusion, EngineState.noConfusion, EngineState.noConfusion⟩
  · have hkept := standing_prepare (Nat.not_lt.1 hf)
    have hneed : filmNeeded h.leading s.drive.film.galleyOpen ≠ 0 := by
      rw [hg, filmNeeded_closed]
      omega
    have hfilm : (prepare h s).drive.film = s.drive.film.begin _ := congrArg Standing.film hkept
    have hstate : (prepare h s).engine.state = .prepare := congrArg (fun x => x.engine.state) hkept
    refine noEndWaits_of_film ?_ (by rw [hstate]; exact EngineState.noConfusion)
    rw [hfilm, Film.begin_advances _ hneed]
    exact Option.some_ne_none _

/-! ### The hand-over to a job that becomes ACTIVE (R45, R150) -/

/-- The part with the line `r` of job `n` handed over, before it is prepared (R45, R155, R167). -/
def handed (n : Nat) (r : LineRecord) (s : State) : State :=
  let dir := sweepFrom s.drive.carriage.position (stopsOf r.cells)
  { s with
    store := (setCurrent n r.header.line true s).store
    engine := { s.engine with
      state := .prepare, current := some { job := n, line := r.header.line }
      stops := inSweep dir (stopsOf r.cells), sweep := some dir, stopNo := 1, stuck := 0, misreg := 0, deferral := 0
      firedSinceIndex := false }
    seq := { s.seq with starve := none, grace := false }
    spin := { s.spin with unit := .exposing, motor := true, parkTimer := none }
    bank := { s.bank with charger := true, strobeHeld := false } }

theorem handOver_eq {n : Nat} {r : LineRecord} (h : headLine s.store.lines n = some r) :
    handOver n s = prepare r.header (handed n r s) := by
  simp only [handOver, h]
  rfl

/-- The part with the job `j` ACTIVE, and JOB_RESUMED posted if it was SUSPENDED (R150). -/
def madeActive (j : Job) (s : State) : State :=
  { s with
    queues := if j.state = .suspended then (post j.owner (.jobResumed j.number j.reason j.setCount) s).queues
      else s.queues
    jobs := s.jobs.map fun k => if k.number = j.number then
      { k with state := .active, started := true, reason := if j.state = .suspended then none else k.reason } else k }

theorem activate_eq (j : Job) (s : State) : activate j s = handOver j.number (madeActive j s) := by
  by_cases h : j.state = .suspended
  · simp only [activate, madeActive, if_pos h]
    rfl
  · simp only [activate, madeActive, if_neg h]
    rfl

/-- A job made ACTIVE has its head line prepared. -/
theorem activate_prepares {j : Job} {r : LineRecord} (h : headLine s.store.lines j.number = some r) :
    activate j s = prepare r.header (handed j.number r (madeActive j s)) :=
  (activate_eq j s).trans (handOver_eq h)

end Sys2Proof.Machine
end

