-- ==== Sys2Proof/Proofs/Film.lean ====
section
/-!
SUPPORT. The film (R126 to R133): FILM-SET, the FILM LOADED key, the film step and the galley close, with the selection
that is pending as the close ends (R149, R150).
-/
namespace Sys2Proof.Machine

variable {s : State}

/-! ### FILM_LOW (R130) -/

theorem Film.lowDue_iff (f : Film) : f.lowDue = true ↔ f.lowArm = true ∧ f.remaining < 14400 := by
  rw [Film.lowDue, Bool.and_eq_true, decide_eq_true_iff]
  rfl

theorem judgeFilmLow_due (h : s.drive.film.lowArm = true ∧ s.drive.film.remaining < 14400) : judgeFilmLow s =
    { postBoth (.filmLow s.drive.film.remaining) s with
      drive := { s.drive with film := { s.drive.film with lowArm := false, low := true } } } :=
  if_pos ((Film.lowDue_iff _).2 h)

theorem judgeFilmLow_notDue (h : ¬ (s.drive.film.lowArm = true ∧ s.drive.film.remaining < 14400)) :
    judgeFilmLow s = s :=
  if_neg (by rwa [Film.lowDue_iff])

theorem judgeFilmLow_engine (s : State) : (judgeFilmLow s).engine = s.engine := by
  unfold judgeFilmLow
  split <;> rfl

theorem judgeFilmLow_advance (s : State) : (judgeFilmLow s).drive.film.advance = s.drive.film.advance := by
  unfold judgeFilmLow
  split <;> rfl

theorem filmBusy_iff (s : State) : filmBusy s = true ↔
    ¬ (s.drive.film.advance = none ∧ ∀ c, s.engine.close = some c → c.phase ≠ .cutting) := by
  unfold filmBusy
  cases s.drive.film.advance <;> cases s.engine.close <;> simp

/-! ### FILM-SET (R128) -/

/-- FILM-SET is answered with what `filmSet` makes of it once PASS stands and its body is three bytes. -/
theorem exec_filmSet {l : CLine} {tag a b c : Byte} {body : ReplyBody} {f : State → State}
    (hw : Waits l 0x0F tag [a, b, c] s) (hp : Passed l s)
    (ha : filmSet [a, b, c] (emptySlot l s) = (f (emptySlot l s), body)) :
    exec (.filmSet l) s = .next (answered l tag body f s) :=
  congrArg _ (answered_of_act .filmSet l (fun _ d => filmSet d) hw
    (leadingFault_none _ _ _ rfl (fun _ => hp) (wrongOwner_unnamed _ _ _ rfl)) ha)

section
variable {d : List Byte}

theorem filmSet_range (h : 100000 < u24At d 0) : filmSet d s = refuse .range 1 s := if_pos h

theorem filmSet_busy (h : ¬ 100000 < u24At d 0) (hb : filmBusy s = true) : filmSet d s = refuse .state 0 s :=
  (if_neg h).trans (if_pos hb)

theorem filmSet_sets (h : ¬ 100000 < u24At d 0) (hb : ¬ filmBusy s = true) :
    filmSet d s = accept (setFilm (u24At d 0 * 20) s) :=
  (if_neg h).trans (if_neg hb)

end

/-- Settles O26: the `filmSet_` lemmas are its checks in their order, and FILM_LOW is judged on the film set. -/
theorem filmSetSetsTheFilm : Obligations.FilmSetSetsTheFilm := by
  unfold Obligations.FilmSetSetsTheFilm
  intro l tag a b c s hw hp points steps set low
  by_cases hrange : 100000 < points
  · rw [if_pos hrange]
    exact exec_filmSet hw hp (filmSet_range hrange)
  by_cases hbusy : filmBusy s = true
  · rw [if_neg hrange, if_pos hbusy]
    exact exec_filmSet hw hp (filmSet_busy hrange hbusy)
  have hsets : filmSet [a, b, c] (emptySlot l s) = accept (judgeFilmLow (set (emptySlot l s))) :=
    filmSet_sets hrange hbusy
  rw [if_neg hrange, if_neg hbusy]
  by_cases hlow : s.drive.film.lowArm = true ∧ steps < 14400
  · rw [if_pos hlow]
    exact exec_filmSet hw hp (hsets.trans (congrArg accept (judgeFilmLow_due (s := set (emptySlot l s)) hlow)))
  · rw [if_neg hlow]
    exact exec_filmSet hw hp (hsets.trans (congrArg accept (judgeFilmLow_notDue (s := set (emptySlot l s)) hlow)))

/-! ### The end of a close (R68, R133, R149, R168) -/

theorem postClosed_eq (c : Close) (cut : Bool) (s : State) :
    postClosed c cut s = { s with queues := (postClosed c cut s).queues } := by
  unfold postClosed
  split <;> rfl

/-- GALLEY_CLOSED goes to the named job's owner line, or names no job and goes to both. -/
theorem postClosed_queues (c : Close) (cut : Bool) (s : State) : (postClosed c cut s).queues =
    (match c.job with
    | some (n, l) => (post l (.galleyClosed n c.steps cut s.drive.film.remaining) s).queues
    | none => (postBoth (.galleyClosed 0 c.steps cut s.drive.film.remaining) s).queues) := by
  cases h : c.job <;> simp only [postClosed, h]

/-- The part as a close has ended, before a pending selection is judged. -/
def closeOver (c : Close) (cut : Bool) (s : State) : State :=
  { s with
    queues := (postClosed c cut s).queues
    engine := { s.engine with state := .idle, close := none }
    spin := { s.spin with parkTimer :=
      if s.spin.unit = .ready then some (s.spin.parkDelay * 6000000) else s.spin.parkTimer } }

theorem endClose_eq (c : Close) (cut : Bool) (s : State) :
    endClose c cut s = pendingSelection (closeOver c cut s) := by
  unfold endClose
  rw [postClosed_eq]
  refine congrArg pendingSelection ?_
  by_cases hu : s.spin.unit = .ready
  · simp only [parkStart, closeOver, if_pos hu]
    exact if_pos ⟨hu, rfl⟩
  · simp only [parkStart, closeOver, if_neg hu]
    exact if_neg fun h => hu h.1

/-- The part with its pending mark cleared. -/
def unmarked (s : State) : State := { s with seq := { s.seq with pendingSel := false } }

theorem unmarked_of_clear (h : s.seq.pendingSel = false) : unmarked s = s := by
  unfold unmarked
  rw [← h]

/-- With the engine IDLE and no job ACTIVE the pending selection is a free one, with the mark cleared. -/
theorem pendingSelection_free (h : s.seq.pendingSel = true) (he : s.engine.state = .idle)
    (ha : activeJob s = none) : pendingSelection s = selectFree (unmarked s) := by
  have hidle : ¬ (unmarked s).engine.state = .closing := by
    show ¬ s.engine.state = .closing
    rw [he]
    exact EngineState.noConfusion
  have hact : activeJob (unmarked s) = none := ha
  refine (if_pos h).trans ?_
  show selectionPoint (unmarked s) = _
  rw [selectionPoint, if_neg hidle, hact]

theorem selectFree_nothing (h : winner s = none ∨ s.spin.hold = true) : selectFree s = s := by
  unfold selectFree
  split
  · rfl
  · next hhold => rw [h.resolve_right hhold]

/-- In READY with the winner's disc mounted the winner becomes ACTIVE (R150). -/
theorem selectFree_activates {j : Job} (hh : s.spin.hold = false) (hw : winner s = some j)
    (hu : s.spin.unit = .ready) (hd : j.disc = s.spin.mounted) : selectFree s = activate j s := by
  simp only [selectFree, hh, hw, selectWinner, hu, if_pos hd]
  rfl

/-- A close that ends with no selection pending, or with none that is acted on, clears the mark and nothing more. -/
theorem endClose_quiet (c : Close) (cut : Bool)
    (h : s.seq.pendingSel = false ∨ activeJob s = none ∧ (winner s = none ∨ s.spin.hold = true)) :
    endClose c cut s = unmarked (closeOver c cut s) := by
  rw [endClose_eq]
  cases hp : s.seq.pendingSel with
  | false =>
    have hclear : (closeOver c cut s).seq.pendingSel = false := hp
    rw [unmarked_of_clear hclear]
    exact if_neg (by rw [hclear]; exact Bool.false_ne_true)
  | true =>
    rw [hp] at h
    obtain ⟨hactive, hnothing⟩ := h.resolve_left Bool.noConfusion
    rw [pendingSelection_free (s := closeOver c cut s) hp rfl hactive]
    exact selectFree_nothing (s := unmarked (closeOver c cut s)) hnothing

/-! ### The FILM LOADED key (R50, R69, R129) -/

/-- The part after a press of the key, before an engine in WAIT_FILM prepares afresh. -/
def reloaded (s : State) : State :=
  let f := s.drive.film
  { s with
    queues := if f.load < 14400 then (postBoth (.filmLow f.load) s).queues else s.queues
    drive := { s.drive with film := { f with
      remaining := f.load, galleyOpen := false, out := false, low := decide (f.load < 14400)
      lowArm := decide (14400 ≤ f.load) } } }

theorem judgeFilmLow_loaded (s : State) :
    judgeFilmLow (s.modDrive fun d => { d with film := d.film.loaded }) = reloaded s := by
  unfold reloaded
  by_cases hlow : s.drive.film.load < 14400
  · have harm : ¬ 14400 ≤ s.drive.film.load := Nat.not_le.2 hlow
    rw [judgeFilmLow_due ⟨rfl, hlow⟩]
    simp only [hlow, harm, if_true, decide_true, decide_false]
    rfl
  · have harm : 14400 ≤ s.drive.film.load := Nat.not_lt.1 hlow
    rw [judgeFilmLow_notDue fun h => hlow h.2]
    simp only [hlow, harm, if_false, decide_true, decide_false]
    rfl

theorem exec_filmLoadedKey_busy (hu : Up s) (hb : filmBusy s = true) : exec .filmLoadedKey s = .next s :=
  congrArg _ ((powered_up loadFilm hu).trans (if_pos hb))

theorem exec_filmLoadedKey (hu : Up s) (hb : ¬ filmBusy s = true) :
    exec .filmLoadedKey s = .next (carryOn (prepareAfresh (reloaded s))) := by
  rw [← judgeFilmLow_loaded]
  exact congrArg _ ((powered_up loadFilm hu).trans (if_neg hb))

theorem prepareAfresh_elsewhere (h : s.engine.state ≠ .waitFilm) : prepareAfresh s = s := if_neg h

theorem prepareAfresh_waiting {r : LineRecord} (h : s.engine.state = .waitFilm) (hr : currentRecord s = some r) :
    prepareAfresh s = prepare r.header s := by
  rw [prepareAfresh, if_pos h, hr]

/-- An ordered close that finds the mechanisms at rest and the galley closed ends with no step and no cut (R132). -/
theorem carryOn_orderedClosed {c : Close} (he : s.engine.state = .closing) (hc : s.engine.close = some c)
    (hp : c.phase = .ordered) (hr : s.drive.allAtRest = true) (hg : s.drive.film.galleyOpen = false)
    (hq : activeJob s = none ∧ winner s = none) : carryOn s = unmarked (closeOver c false s) := by
  have hends : moveEnded s = unmarked (closeOver c false s) := by
    rw [moveEnded_ordered he hc hp hr, beginClose, if_neg (by rw [hg]; exact Bool.false_ne_true)]
    exact endClose_quiet c false (.inr ⟨hq.1, .inl hq.2⟩)
  have hlast : moveEnded (moveEnded s) = moveEnded s := by rw [hends]; rfl
  rw [carryOn_once hlast, hends]

/-- Settles O55: the key sets the film as `reloaded` says, and then `prepareAfresh` or the ordered close goes on. -/
theorem filmLoadedLoadsTheFilm : Obligations.FilmLoadedLoadsTheFilm := by
  unfold Obligations.FilmLoadedLoadsTheFilm
  intro film told free
  have hbusy (s : State) : filmBusy s = true ↔ ¬ free s := filmBusy_iff s
  have htold (s : State) : told s = { s with queues := (reloaded s).queues } := by
    simp only [told, reloaded]
    split <;> rfl
  have hqueues (s : State) : (reloaded s).queues = (told s).queues := by rw [htold]
  refine ⟨fun s hu hfree => exec_filmLoadedKey_busy hu ((hbusy s).2 hfree), fun s hu hfree hstate hn => ?elsewhere,
    fun job s hu he hc hrest hjobs => ?ordered, fun r s hu hfree hstate hr => ?waiting⟩
  case elsewhere =>
    rw [exec_filmLoadedKey hu fun hb => (hbusy s).1 hb hfree, prepareAfresh_elsewhere (s := reloaded s) hstate,
      htold]
    exact congrArg _ (carryOn_noEndWaits
      (hn.of_noneCameToRest (d := (reloaded s).drive) ⟨id, id, id, id⟩))
  case ordered =>
    intro closed
    have hfree : free s := by
      obtain ⟨-, -, hadvance, -⟩ := (Drive.allAtRest_iff _).1 hrest
      refine ⟨hadvance, fun c h => ?_⟩
      rw [hc, Option.some.injEq] at h
      rw [← h]
      exact ClosePhase.noConfusion
    have hnone : activeJob (reloaded s) = none ∧ winner (reloaded s) = none := by
      have h : (reloaded s).jobs = [] := hjobs
      constructor <;> simp [activeJob, winner, h, highestClass, onMounted, lowestOrder]
    rw [exec_filmLoadedKey hu fun hb => (hbusy s).1 hb hfree,
      prepareAfresh_elsewhere (s := reloaded s) (by show s.engine.state ≠ _; rw [he]; exact EngineState.noConfusion),
      carryOn_orderedClosed (s := reloaded s) he hc rfl hrest rfl hnone]
    refine ⟨_, rfl, rfl, rfl, rfl, ?queues, hjobs, rfl⟩
    show (postClosed _ false (reloaded s)).queues = _
    rw [postClosed_queues, htold]
    cases job <;> rfl
  case waiting =>
    intro need out
    have hexec : exec .filmLoadedKey s = .next (prepare r.header (reloaded s)) := by
      rw [exec_filmLoadedKey hu fun hb => (hbusy s).1 hb hfree,
        prepareAfresh_waiting (s := reloaded s) (r := r) hstate hr]
      exact congrArg _ (carryOn_noEndWaits (prepare_noEndWaits r.header rfl))
    rw [hexec]
    refine ⟨fun hshort => ⟨_, rfl, ?short⟩, fun henough => ⟨_, rfl, ?enough⟩⟩
    case short =>
      rw [prepare_waits (s := reloaded s) hshort, htold]
      refine ⟨?_, rfl, rfl⟩
      show { s.engine with state := .waitFilm } = s.engine
      rw [← hstate]
    case enough =>
      have hkept := standing_prepare (s := reloaded s) (h := r.header) henough
      have hadvance : (reloaded s).drive.film.begin need = { film s with advance := some need, left := 20 } :=
        Film.begin_advances _ (by omega)
      refine ⟨congrArg (fun x => x.engine.state) hkept, congrArg (fun x => x.engine.current) hkept,
        (congrArg Standing.queues hkept).trans (hqueues s), (congrArg Standing.film hkept).trans hadvance,
        fun hturret => (congrArg Standing.turret hkept).trans (Turret.order_atRest hturret _),
        fun st hst hcarriage => ?_⟩
      refine (congrArg Standing.carriage hkept).trans (Eq.trans ?_ (Carriage.order_atRest hcarriage st.x))
      show (match s.engine.stops.head? with
        | none => s.drive.carriage
        | some st => s.drive.carriage.order st.x) = _
      rw [hst]

/-! ### A film step (R126, R127, R132) -/

theorem advanceEnded_eq_or (s : State) : advanceEnded s = s ∨ ∃ c, advanceEnded s = startCut c s := by
  unfold advanceEnded
  split
  · split
    · exact .inr ⟨_, rfl⟩
    · exact .inl rfl
  · exact .inl rfl

theorem advanceEnded_cuts {c : Close} (hc : s.engine.close = some c) (hp : c.phase = .advancing)
    (ha : s.drive.film.advance = none) : advanceEnded s = startCut c s := by
  simp only [advanceEnded, hc, hp, ha]
  rfl

/-- The start of a cut changes the engine's close and the time of the cut alone. -/
theorem advanceEnded_keeps (s : State) : (advanceEnded s).drive.film = s.drive.film
    ∧ (advanceEnded s).drive.carriage = s.drive.carriage ∧ (advanceEnded s).engine.state = s.engine.state
    ∧ (advanceEnded s).queues = s.queues ∧ (advanceEnded s).jobs = s.jobs ∧ (advanceEnded s).store = s.store
    ∧ (advanceEnded s).spin = s.spin := by
  obtain h | ⟨c, h⟩ := advanceEnded_eq_or s <;> rw [h] <;> exact ⟨rfl, rfl, rfl, rfl, rfl, rfl, rfl⟩

/-- The part after the count of a film step. -/
def filmStepped (n : Nat) (s : State) : State :=
  { s with drive := { s.drive with film := s.drive.film.countStep n } }

/-- The part after the count of a film step, with FILM_LOW judged. -/
def filmCounted (n : Nat) (s : State) : State := judgeFilmLow (filmStepped n s)

theorem exec_filmStep {n : Nat} (hu : Up s) (ha : s.drive.film.advance = some n) :
    exec .filmStep s = .next (carryOn (advanceEnded (filmCounted n s))) := by
  refine congrArg _ ((powered_up _ hu).trans ?_)
  simp only [filmStepEnd, ha]
  rfl

theorem filmCounted_engine (n : Nat) (s : State) : (filmCounted n s).engine = s.engine := judgeFilmLow_engine _

theorem filmCounted_advance (n : Nat) (s : State) :
    (filmCounted n s).drive.film.advance = if n ≤ 1 then none else some (n - 1) := judgeFilmLow_advance _

/-- After a film step that is not the last of a move the engine waits for, it does not go on. -/
theorem filmStep_noEndWaits {n : Nat} (h : NoMoveAwaited s ∨ 2 ≤ n ∧ s.engine.state ≠ .move) :
    NoEndWaits (advanceEnded (filmCounted n s)) := by
  obtain ⟨hfilm, -, hstate, -⟩ := advanceEnded_keeps (filmCounted n s)
  rw [filmCounted_engine] at hstate
  obtain hnot | ⟨hn, hmove⟩ := h
  · refine noEndWaits_of_noMoveAwaited ?_
    rw [NoMoveAwaited, hstate]
    exact hnot
  · refine noEndWaits_of_film ?_ (by rwa [hstate])
    rw [hfilm, filmCounted_advance, if_neg (by omega)]
    exact Option.some_ne_none _

/-! ### The cut (R132, R133) -/

/-- The part with the film cut, as the close ends. -/
def galleyCut (s : State) : State :=
  { s with drive := { s.drive with cutLeft := 0, film := { s.drive.film with galleyOpen := false } } }

theorem exec_cutEnd {c : Close} (hu : Up s) (hc : s.engine.close = some c) (hp : c.phase = .cutting) :
    exec .cutEnd s = .next (carryOn (endClose c true (galleyCut s))) := by
  refine congrArg _ ((powered_up _ hu).trans ?_)
  simp only [cutEnds, hc, if_pos hp]
  rfl

/-- The end of a cut after which no selection is acted on. -/
theorem exec_cutEnd_quiet {c : Close} (hu : Up s) (hc : s.engine.close = some c) (hp : c.phase = .cutting)
    (h : s.seq.pendingSel = false ∨ activeJob s = none ∧ (winner s = none ∨ s.spin.hold = true)) :
    exec .cutEnd s = .next (unmarked (closeOver c true (galleyCut s))) := by
  rw [exec_cutEnd hu hc hp, endClose_quiet (s := galleyCut s) c true h]
  exact congrArg _ (carryOn_noEndWaits
    (noEndWaits_of_noMoveAwaited ⟨EngineState.noConfusion, EngineState.noConfusion, EngineState.noConfusion⟩))

/-- Settles O52: a film step by the two equations of `judgeFilmLow`, the last of an advance by `advanceEnded_cuts`, the
end of the cut by `endClose_quiet` or, with a winner to make ACTIVE, by `activate_prepares`. -/
theorem filmStepsAndTheGalleyClose : Obligations.FilmStepsAndTheGalleyClose := by
  unfold Obligations.FilmStepsAndTheGalleyClose
  refine ⟨fun n s hu ha h => ?step, fun job steps s hu he hc ha => ?lastStep,
    fun job steps s hu he hc hp => ?cut, fun job steps s hu he hc hp hactive => ⟨fun h => ?quiet, ?selects⟩⟩
  case step =>
    intro left low
    rw [exec_filmStep hu ha, carryOn_noEndWaits (filmStep_noEndWaits h)]
    obtain ⟨hfilm, hcarriage, -, hqueues, hjobs, hstore, hspin⟩ := advanceEnded_keeps (filmCounted n s)
    refine ⟨_, rfl, ?_⟩
    rw [hfilm, hcarriage, hqueues, hjobs, hstore, hspin, filmCounted]
    by_cases hlow : low
    · rw [judgeFilmLow_due (s := filmStepped n s) hlow]
      exact ⟨rfl, rfl, rfl, fun _ => ⟨rfl, rfl, rfl⟩, fun h => absurd hlow h, rfl, rfl, rfl, rfl, rfl, rfl⟩
    · rw [judgeFilmLow_notDue (s := filmStepped n s) hlow]
      exact ⟨rfl, rfl, rfl, fun h => absurd h hlow, fun _ => ⟨rfl, rfl, rfl⟩, rfl, rfl, rfl, rfl, rfl, rfl⟩
  case lastStep =>
    have hclose : (filmCounted 1 s).engine.close = some { job := job, phase := .advancing, steps := steps } := by
      rw [filmCounted_engine, hc]
    have hstate : (filmCounted 1 s).engine.state = .closing := by rw [filmCounted_engine, he]
    have hcut := advanceEnded_cuts hclose rfl (filmCounted_advance 1 s)
    rw [exec_filmStep hu ha, hcut, carryOn_of_moveEnded (moveEnded_begun (s := startCut _ (filmCounted 1 s))
      (c := { job := job, phase := .cutting, steps := steps }) hstate rfl ClosePhase.noConfusion)]
    exact ⟨_, rfl, hstate, rfl, rfl⟩
  case cut =>
    intro closed
    refine ⟨_, exec_cutEnd_quiet hu hc rfl (.inl hp), rfl, rfl, rfl, ?queues, rfl, rfl, rfl⟩
    show (postClosed _ true (galleyCut s)).queues = _
    rw [postClosed_queues]
    cases job <;> rfl
  case quiet =>
    exact ⟨_, exec_cutEnd_quiet hu hc rfl (.inr ⟨hactive, h⟩), rfl, rfl, rfl, rfl, rfl⟩
  case selects =>
    intro j r hunit hhold hwinner hdisc hline
    let ended := unmarked (closeOver { job := job, phase := .cutting, steps := steps } true (galleyCut s))
    have hends : endClose { job := job, phase := .cutting, steps := steps } true (galleyCut s)
        = prepare r.header (handed j.number r (madeActive j ended)) := by
      rw [endClose_eq, pendingSelection_free (s := closeOver _ true (galleyCut s)) hp rfl hactive,
        selectFree_activates (s := ended) hhold hwinner hunit hdisc, activate_prepares (s := ended) hline]
    rw [exec_cutEnd hu hc rfl, hends, carryOn_noEndWaits (prepare_noEndWaits r.header rfl)]
    obtain ⟨hjobs, hseq, hspin, hcurrent, hclose, hstate⟩ :=
      prepare_keeps r.header (handed j.number r (madeActive j ended))
    exact ⟨_, rfl, hseq, hclose, hcurrent, hstate, hspin, hjobs⟩

end Sys2Proof.Machine
end

