-- ==== Sys2Proof/Proofs/Winner.lean ====
section
/-!
SUPPORT. The winner of a selection (R147, R148): who is left by each of its three steps, and that each step leaves
somebody as long as there is somebody to choose from.
-/
namespace Sys2Proof.Machine

variable {s : State} {js : List Job} {j : Job}

/-! ### The three steps (R148) -/

theorem mem_highestClass : j ∈ highestClass js ↔ j ∈ js ∧ ∀ k ∈ js, k.cls.rank ≤ j.cls.rank := by
  simp [highestClass]

theorem highestClass_eq_nil : highestClass js = [] ↔ js = [] := by
  refine ⟨fun h => Decidable.byContradiction fun hne => ?_, fun h => by rw [h]; rfl⟩
  have hmem : js.maxOn (fun k => k.cls.rank) hne ∈ highestClass js :=
    mem_highestClass.2 ⟨List.maxOn_mem, fun k hk => List.le_apply_maxOn_of_mem (f := fun i => i.cls.rank) hk⟩
  rw [h] at hmem
  exact List.not_mem_nil hmem

theorem mem_onMounted {disc : Nat} :
    j ∈ onMounted disc js ↔ j ∈ js ∧ ((∃ k ∈ js, k.disc = disc) → j.disc = disc) := by
  unfold onMounted
  split <;> rename_i h
  · have hany : ∃ k ∈ js, k.disc = disc := by simpa using h
    simp [hany]
  · have hnone : ¬ ∃ k ∈ js, k.disc = disc := by simpa using h
    simp [hnone]

theorem onMounted_eq_nil {disc : Nat} : onMounted disc js = [] ↔ js = [] := by
  unfold onMounted
  split <;> rename_i h
  · obtain ⟨k, hk, hdisc⟩ := List.any_eq_true.1 h
    have hkept : k ∈ js.filter fun j => j.disc == disc := List.mem_filter.2 ⟨hk, hdisc⟩
    exact iff_of_false (List.ne_nil_of_mem hkept) (List.ne_nil_of_mem hk)
  · exact Iff.rfl

theorem lowestOrder_some (h : lowestOrder js = some j) : j ∈ js ∧ ∀ k ∈ js, j.order ≤ k.order :=
  ⟨List.mem_of_find?_eq_some h, by simpa using List.find?_some h⟩

theorem lowestOrder_eq_none : lowestOrder js = none ↔ js = [] := by
  refine ⟨fun h => Decidable.byContradiction fun hne => ?_, fun h => by rw [h]; rfl⟩
  refine List.find?_eq_none.1 h (js.minOn Job.order hne) List.minOn_mem (List.all_eq_true.2 fun k hk => ?_)
  exact decide_eq_true (List.apply_minOn_le_of_mem hk)

/-! ### The winner (R147, R148) -/

theorem winner_eq_none (s : State) : winner s = none ↔ ∀ k ∈ s.jobs, ¬ k.eligible = true := by
  rw [winner, lowestOrder_eq_none, onMounted_eq_nil, highestClass_eq_nil, List.filter_eq_nil_iff]

/-- The winner is eligible and of the highest class; it names the mounted disc if an eligible job of its class does, and
among those left with it its open order is the lowest. -/
theorem winner_some (h : winner s = some j) :
    j ∈ s.jobs ∧ j.eligible = true ∧ ∀ k ∈ s.jobs, k.eligible = true → k.cls.rank ≤ j.cls.rank
      ∧ (k.cls.rank = j.cls.rank → k.disc = s.spin.mounted → j.disc = s.spin.mounted)
      ∧ (k.cls.rank = j.cls.rank → (j.disc = s.spin.mounted → k.disc = s.spin.mounted) → j.order ≤ k.order) := by
  obtain ⟨hmem, hlowest⟩ := lowestOrder_some h
  obtain ⟨hclass, hmounted⟩ := mem_onMounted.1 hmem
  obtain ⟨helig, hhighest⟩ := mem_highestClass.1 hclass
  have hjob := List.mem_filter.1 helig
  refine ⟨hjob.1, hjob.2, fun k hk hke => ?_⟩
  have hkelig : k ∈ s.jobs.filter Job.eligible := List.mem_filter.2 ⟨hk, hke⟩
  have hkclass (hr : k.cls.rank = j.cls.rank) : k ∈ highestClass (s.jobs.filter Job.eligible) :=
    mem_highestClass.2 ⟨hkelig, fun i hi => hr ▸ hhighest i hi⟩
  refine ⟨hhighest k hkelig, fun hr hkd => hmounted ⟨k, hkclass hr, hkd⟩, fun hr hd => ?_⟩
  exact hlowest k (mem_onMounted.2 ⟨hkclass hr, fun hany => hd (hmounted hany)⟩)

/-! ### What the trim queue's flush leaves (R96) -/

theorem aside_takeBack (s : State) (t : Track) : aside (takeBack s t) = aside s := by
  unfold takeBack
  dsimp only
  split
  · split
    · exact aside_putRec _ _ _
    · rfl
  · rfl

theorem aside_dropSearch (s : State) : aside (dropSearch s) = aside s := by
  unfold dropSearch
  split <;> rfl

/-- The flush changes the trim records, the Trim Unit and the ring alone. -/
theorem aside_flushTrims (disc : Nat) (s : State) : aside (flushTrims disc s) = aside s := by
  have hback (ts : List Track) (u : State) : aside (ts.foldl takeBack u) = aside u := by
    induction ts generalizing u with
    | nil => rfl
    | cons t ts ih => exact (ih _).trans (aside_takeBack u t)
  rw [flushTrims, aside_modTrim, clearWindows, aside_modTrim, hback, aside_dropSearch]

/-- The flush leaves the queues, the jobs, the speed lock and Spin Control. -/
theorem flushTrims_leaves (disc : Nat) (s : State) :
    (flushTrims disc s).queues = s.queues ∧ (flushTrims disc s).jobs = s.jobs
      ∧ (flushTrims disc s).disc.locked = s.disc.locked ∧ (flushTrims disc s).spin = s.spin := by
  have haside := aside_flushTrims disc s
  rw [aside, aside, Aside.mk.injEq] at haside
  obtain ⟨-, hqueues, -, hjobs, -, hdisc, -, -, hspin⟩ := haside
  have hlocked := congrArg Disc.locked hdisc
  exact ⟨hqueues, hjobs, hlocked, hspin⟩

/-- In DISC_CHANGE no disc is mounted, and the disc wanted is requested (R163, R169). -/
theorem enterDiscChange_spin (disc job : Nat) (s : State) : (enterDiscChange disc job s).spin = { s.spin with
    unit := .discChange, motor := false, parkTimer := none, mounted := 0, requested := some disc } := by
  obtain ⟨-, -, -, hspin⟩ := flushTrims_leaves 0 (stopDisc (setUnit .discChange s))
  simp only [enterDiscChange, postBoth, post, State.modQueues_spin, State.modSpin_spin, hspin]
  rfl

/-- A job that is suspended keeps its open order. -/
theorem suspendJob_orders (j : Job) (left : JobState) (reason : SuspendReason) (s : State) :
    (suspendJob j left reason s).jobs.map Job.order = s.jobs.map Job.order := by
  show (s.jobs.map _).map Job.order = _
  rw [List.map_map]
  refine List.map_congr_left fun k _ => ?_
  show Job.order (if k.number = j.number then _ else k) = k.order
  split <;> rfl

/-- Settles O57: the winner's two halves are `winner_eq_none` and `winner_some`. -/
theorem theWinnerIsByClassDiscAndOrder : Obligations.TheWinnerIsByClassDiscAndOrder := by
  unfold Obligations.TheWinnerIsByClassDiscAndOrder
  intro eligible rank
  have heligible (k : Job) : eligible k ↔ k.eligible = true := k.eligible_iff.symm
  have hrank (k : Job) : rank k = k.cls.rank := by
    simp only [rank]
    cases k.cls <;> rfl
  refine ⟨fun s => ?none, fun s j h => ?some, fun disc job s => ?change, suspendJob_orders⟩
  case none =>
    simp only [heligible]
    exact winner_eq_none s
  case some =>
    obtain ⟨hmem, helig, hbest⟩ := winner_some h
    refine ⟨hmem, (heligible j).2 helig, fun k hk hke => ?_⟩
    obtain ⟨hle, hdisc, horder⟩ := hbest k hk ((heligible k).1 hke)
    rw [hrank, hrank]
    exact ⟨hle, fun hr hkd => ⟨hdisc hr hkd, horder hr fun _ => hkd⟩, fun hr hjd => horder hr fun h => absurd h hjd⟩
  case change =>
    rw [enterDiscChange_spin]
    exact ⟨rfl, rfl⟩

end Sys2Proof.Machine
end

