-- ==== Sys2Proof/Proofs/Selection.lean ====
section
/-!
SUPPORT. A selection with no job ACTIVE (R149, R150, R156), as the RUN key lets it be made (R172): what it comes to in
each unit state, and that nothing but the winner's preparation follows it.
-/
namespace Sys2Proof.Machine

variable {s t : State} {j : Job}

/-- Which job is ACTIVE is read from the Job Table alone. -/
theorem activeJob_congr (h : t.jobs = s.jobs) : activeJob t = activeJob s := by
  unfold activeJob
  rw [h]

/-! ### The RUN key (R155, R172) -/

/-- The part with its unit hold cleared. -/
def unheld (s : State) : State := { s with spin := { s.spin with hold := false } }

theorem winner_unheld (s : State) : winner (unheld s) = winner s := rfl

/-- With the engine IDLE and no job ACTIVE a selection point is a free selection. -/
theorem selectionPoint_free (he : s.engine.state = .idle) (ha : activeJob s = none) :
    selectionPoint s = selectFree s := by
  simp only [selectionPoint, he, ha]
  rfl

/-- With no job ACTIVE, or with a line current, no job is starved. -/
theorem restartStarvation_notStarved (h : activeJob s = none ∨ s.engine.current ≠ none) :
    restartStarvation s = s := by
  refine if_neg ?_
  unfold isStarved
  cases ha : activeJob s with
  | none => exact Bool.false_ne_true
  | some j =>
    have hcurrent : s.engine.current ≠ none := h.resolve_left (by rw [ha]; exact Option.some_ne_none j)
    simp [hcurrent]

/-- In IDLE the engine waits for no move. -/
theorem noEndWaits_of_idle (he : s.engine.state = .idle) : NoEndWaits s := by
  unfold NoEndWaits
  rw [he]
  trivial

/-- The RUN key on a held part with no job ACTIVE comes to a free selection, if it leaves nothing to follow. -/
theorem exec_runKey_free (hu : Up s) (hf : s.spin.unit ≠ .faulted) (hh : s.spin.hold = true)
    (he : s.engine.state = .idle) (ha : activeJob s = none) (hs : selectFree (unheld s) = t)
    (hstarved : activeJob t = none ∨ t.engine.current ≠ none) (hn : NoEndWaits t) : exec .runKey s = .next t := by
  have hkey : runKey s = clearHold s := if_neg hf
  have hclear : clearHold s = carryOn (restartStarvation (selectionPoint (unheld s))) := if_pos hh
  have hfree : selectionPoint (unheld s) = t := (selectionPoint_free (s := unheld s) he ha).trans hs
  refine congrArg _ ((powered_up _ hu).trans ?_)
  rw [hkey, hclear, hfree, restartStarvation_notStarved hstarved, carryOn_noEndWaits hn]

/-! ### The winner by unit state (R150, R156) -/

theorem selectFree_winner (hh : s.spin.hold = false) (hw : winner s = some j) : selectFree s = selectWinner j s := by
  simp only [selectFree, hh, hw]
  rfl

theorem selectWinner_waits (h : s.spin.unit = .spinUp ∨ s.spin.unit = .identify) : selectWinner j s = s := by
  obtain h | h := h <;> simp only [selectWinner, h]

theorem selectWinner_parked (h : s.spin.unit = .parked) : selectWinner j s = enterSpinUp s := by
  simp only [selectWinner, h]

theorem selectWinner_discChange (h : s.spin.unit = .discChange) : selectWinner j s = reaim j.disc j.number s := by
  simp only [selectWinner, h]

theorem selectWinner_otherDisc (h : s.spin.unit = .ready) (hd : j.disc ≠ s.spin.mounted) :
    selectWinner j s = enterDiscChange j.disc j.number s := by
  simp only [selectWinner, h, if_neg hd]

/-- The spin-up leaves the jobs, the queues and the engine (R164). -/
theorem enterSpinUp_leaves (s : State) : (enterSpinUp s).jobs = s.jobs ∧ (enterSpinUp s).queues = s.queues
    ∧ (enterSpinUp s).engine = s.engine := ⟨rfl, rfl, rfl⟩

/-! ### DISC_CHANGE (R96, R97, R166, R169) -/

theorem dropSearch_engineState (s : State) : (dropSearch s).engine.state = s.engine.state := by
  unfold dropSearch
  split <;> rfl

theorem takeBack_idle (t : Track) (h : s.engine.state = .idle) : (takeBack s t).engine.state = .idle := by
  unfold takeBack
  dsimp only
  split
  · split
    · exact putRec_idle _ _ h
    · exact h
  · exact h

theorem flushTrims_idle (disc : Nat) (h : s.engine.state = .idle) : (flushTrims disc s).engine.state = .idle := by
  have hback (ts : List Track) (u : State) (hu : u.engine.state = .idle) :
      (ts.foldl takeBack u).engine.state = .idle := by
    induction ts generalizing u with
    | nil => exact hu
    | cons t ts ih => exact ih _ (takeBack_idle t hu)
  rw [flushTrims, State.modTrim_engine, clearWindows, State.modTrim_engine]
  exact hback _ _ ((dropSearch_engineState s).trans h)

theorem flushTrims_empties (disc : Nat) (s : State) :
    (flushTrims disc s).trim.queueDisc = disc ∧ (flushTrims disc s).trim.queue = [] := by
  simp only [flushTrims, State.modTrim_trim, and_self]

/-- The entry to DISC_CHANGE leaves the jobs, flushes the trim queue, unlocks the speed and posts DISC_REQUEST. -/
theorem enterDiscChange_leaves (disc job : Nat) (s : State) :
    (enterDiscChange disc job s).jobs = s.jobs ∧ (enterDiscChange disc job s).trim.queueDisc = 0
      ∧ (enterDiscChange disc job s).trim.queue = [] ∧ (enterDiscChange disc job s).disc.locked = false
      ∧ (enterDiscChange disc job s).queues = (postBoth (.discRequest job disc s.spin.present) s).queues := by
  obtain ⟨hqueues, hjobs, hlocked, hspin⟩ := flushTrims_leaves 0 (stopDisc (setUnit .discChange s))
  obtain ⟨hdisc, hqueue⟩ := flushTrims_empties 0 (stopDisc (setUnit .discChange s))
  simp only [enterDiscChange, postBoth, post, State.modQueues_jobs, State.modSpin_jobs, State.modQueues_trim,
    State.modSpin_trim, State.modQueues_disc, State.modSpin_disc, State.modQueues_queues, State.modSpin_queues,
    State.modSpin_spin, hqueues, hjobs, hlocked, hspin, hdisc, hqueue]
  exact ⟨rfl, trivial, trivial, rfl, rfl⟩

theorem enterDiscChange_idle (disc job : Nat) (h : s.engine.state = .idle) :
    (enterDiscChange disc job s).engine.state = .idle :=
  flushTrims_idle 0 (s := stopDisc (setUnit .discChange s)) h

/-! ### The winner's head line (R45, R48, R150) -/

/-- The engine's work on its line: all but the engine's state, the ring, and the mark of a flash since the index. -/
def Engine.lineWork (e : Engine) : Engine := { e with state := .idle, ring := [], firedSinceIndex := false }

/-- The entry to PREPARE leaves the lines and the engine's work on the current one, film enough or not. -/
theorem prepare_lineWork (h : Header) (s : State) :
    (prepare h s).store = s.store ∧ (prepare h s).engine.lineWork = s.engine.lineWork := by
  by_cases hf : s.drive.film.remaining < filmNeeded h.leading s.drive.film.galleyOpen
  · rw [prepare_waits hf]
    exact ⟨rfl, rfl⟩
  · have hkept := standing_prepare (Nat.not_lt.1 hf)
    exact ⟨congrArg Standing.store hkept, congrArg (fun x => x.engine.lineWork) hkept⟩

/-- Settles O58: each outcome is `selectWinner` in one unit state; the winner's line, prepared, is what
`prepare_keeps` and `prepare_lineWork` leave of it, with the film judged as `prepare_waits` or `standing_prepare`
says. -/
theorem aSelectionGivesTheUnitToTheWinner : Obligations.ASelectionGivesTheUnitToTheWinner := by
  unfold Obligations.ASelectionGivesTheUnitToTheWinner
  intro s hu hf hh he _ ha run both
  have exec_eq {t : State} := exec_runKey_free (t := t) hu hf hh he ha
  have hidle : NoEndWaits run := noEndWaits_of_idle (s := run) he
  refine ⟨fun hnone => exec_eq (selectFree_nothing (s := unheld s) (.inl hnone)) (.inl ha) hidle, fun j hw => ?_⟩
  have hselect : selectFree (unheld s) = selectWinner j (unheld s) := selectFree_winner (s := unheld s) rfl hw
  refine ⟨fun hunit => ?waits, fun hunit => ?parked, fun hunit hdisc => ?otherDisc, fun hunit => ?reaimed,
    fun r hunit hdisc hgalley hline => ?activated⟩
  case waits => exact exec_eq (hselect.trans (selectWinner_waits (s := unheld s) hunit)) (.inl ha) hidle
  case parked =>
    obtain ⟨hjobs, hqueues, hengine⟩ := enterSpinUp_leaves (unheld s)
    exact ⟨_, exec_eq (hselect.trans (selectWinner_parked (s := unheld s) hunit))
      (.inl ((activeJob_congr hjobs).trans ha)) (noEndWaits_of_idle (by rw [hengine]; exact he)), rfl, rfl, rfl, hjobs,
      hqueues⟩
  case otherDisc =>
    obtain ⟨hjobs, hqueueDisc, hqueue, hlocked, hqueues⟩ := enterDiscChange_leaves j.disc j.number (unheld s)
    have hnoActive : activeJob (enterDiscChange j.disc j.number (unheld s)) = none :=
      (activeJob_congr hjobs).trans ha
    exact ⟨_, exec_eq (hselect.trans (selectWinner_otherDisc (s := unheld s) hunit hdisc)) (.inl hnoActive)
      (noEndWaits_of_idle (enterDiscChange_idle _ _ (s := unheld s) he)), enterDiscChange_spin _ _ _, hjobs,
      hqueueDisc, hqueue, hlocked, hqueues⟩
  case reaimed =>
    have hreaim : reaim j.disc j.number (unheld s) = if s.spin.requested = some j.disc then run
        else both (.discRequest j.number j.disc s.spin.present)
          { run with spin := { run.spin with requested := some j.disc } } := rfl
    refine exec_eq (hselect.trans ((selectWinner_discChange (s := unheld s) hunit).trans hreaim)) (.inl ?_) ?_
    · split <;> exact ha
    · split <;> exact noEndWaits_of_idle he
  case activated =>
    intro need stops dir resumed
    let u := handed j.number r (madeActive j (unheld s))
    have hprepares : selectFree (unheld s) = prepare r.header u :=
      (selectFree_activates (s := unheld s) rfl hw hunit hdisc).trans (activate_prepares (s := unheld s) hline)
    have hneed : filmNeeded r.header.leading u.drive.film.galleyOpen = need := by
      show filmNeeded r.header.leading s.drive.film.galleyOpen = need
      rw [hgalley, filmNeeded_closed]
    have hqueues : u.queues = resumed.queues := by
      show (madeActive j (unheld s)).queues = _
      simp only [madeActive, resumed]
      split <;> rfl
    obtain ⟨hjobs, hseq, hspin, hcurrent, -, -⟩ := prepare_keeps r.header u
    obtain ⟨hstore, hwork⟩ := prepare_lineWork r.header u
    refine ⟨_, exec_eq hprepares (.inr (by rw [hcurrent]; exact Option.some_ne_none _))
      (prepare_noEndWaits r.header hgalley), hjobs, congrArg LineStore.lines hstore, hspin, hseq,
      ⟨hcurrent, congrArg Engine.stopNo hwork, congrArg Engine.stuck hwork, congrArg Engine.misreg hwork,
        congrArg Engine.deferral hwork, congrArg Engine.sweep hwork, congrArg Engine.stops hwork⟩,
      fun hshort => ?short, fun henough => ?enough⟩
    case short =>
      rw [prepare_waits (s := u) (h := r.header) (by rw [hneed]; exact hshort), hneed]
      refine ⟨rfl, rfl, ?_⟩
      show (postBoth (.filmOut r.header.job r.header.line need s.drive.film.remaining) u).queues
        = (postBoth _ resumed).queues
      rw [headLine_job hline]
      simp only [postBoth, post, State.modQueues_queues, hqueues]
    case enough =>
      have hkept := standing_prepare (s := u) (h := r.header) (by rw [hneed]; exact henough)
      rw [hneed] at hkept
      have hadvance : s.drive.film.begin need = { s.drive.film with advance := some need, left := 20 } :=
        Film.begin_advances _ (by omega)
      refine ⟨congrArg (fun x => x.engine.state) hkept, ?_, (congrArg Standing.queues hkept).trans hqueues⟩
      exact (congrArg (fun x => x.film.advance) hkept).trans (congrArg Film.advance hadvance)

end Sys2Proof.Machine
end

