-- ==== Sys2Proof/Proofs/JobMessages.lean ====
section
/-!
SUPPORT. JOB-OPEN, JOB-END, JOB-HOLD and JOB-RELEASE (R140, R141, R143, R145, R146, R154): the renumbering of open
orders, each message's own checks in their order, and what an accepted one comes to while a line of the ACTIVE job is
being flashed.
-/
namespace Sys2Proof.Machine

variable {s u : State} {j : Job} {n : Nat}

/-! ### Renumbering (R140) -/

/-- The place of an open order among those of the live jobs, counted from 1. -/
def orderRank (js : List Job) (order : Nat) : Nat := js.countP fun k => decide (k.order ≤ order)

theorem renumbered_eq (js : List Job) : renumbered js = js.map fun j => { j with order := orderRank js j.order } := rfl

theorem renumbered_orders (js : List Job) :
    (renumbered js).map Job.order = (js.map Job.order).map (orderRank js) := by
  rw [renumbered_eq, List.map_map, List.map_map]
  rfl

theorem orderRank_mono {js : List Job} {a b : Nat} (h : a ≤ b) : orderRank js a ≤ orderRank js b :=
  List.countP_mono_left fun _ _ hk => decide_eq_true (Nat.le_trans (of_decide_eq_true hk) h)

/-- A live job's place rises above that of every lower order: of the jobs up to its place, it is one that is not counted
there. -/
theorem orderRank_lt {js : List Job} {a : Nat} {k : Job} (hk : k ∈ js) (h : a < k.order) :
    orderRank js a < orderRank js k.order := by
  have hcounted : orderRank js a
      = (js.filter fun i => decide (i.order ≤ k.order)).countP fun i => decide (i.order ≤ a) := by
    rw [orderRank, List.countP_filter]
    refine List.countP_congr fun i _ => ?_
    rw [Bool.and_eq_true, decide_eq_true_eq, decide_eq_true_eq]
    omega
  rw [hcounted, orderRank, List.countP_eq_length_filter (l := js)]
  refine Nat.lt_of_le_of_ne List.countP_le_length fun hall => ?_
  have hle := List.countP_eq_length.1 hall k (List.mem_filter.2 ⟨hk, decide_eq_true (Nat.le_refl _)⟩)
  exact absurd (of_decide_eq_true hle) (Nat.not_le.2 h)

/-- The places of two orders stand as the orders do, if a live job has the second. -/
theorem orderRank_lt_iff {js : List Job} {a : Nat} {k : Job} (hk : k ∈ js) :
    orderRank js a < orderRank js k.order ↔ a < k.order :=
  ⟨fun h => Nat.lt_of_not_le fun hle => absurd h (Nat.not_lt.2 (orderRank_mono hle)), orderRank_lt hk⟩

/-- Settles O10: a live job's new order is its `orderRank`, which keeps the order of the old ones. -/
theorem renumberingKeepsTheOrderOfOpening : Obligations.RenumberingKeepsTheOrderOfOpening := by
  unfold Obligations.RenumberingKeepsTheOrderOfOpening
  intro js hnodup
  refine ⟨?range, ?nodup, fun i k a b a' b' ha hb ha' hb' => ?order, ?numbers⟩
  case range =>
    rw [renumbered_orders, List.map_map]
    intro i hi
    obtain ⟨j, hj, rfl⟩ := List.mem_map.1 hi
    exact ⟨List.countP_pos_iff.2 ⟨j, hj, decide_eq_true (Nat.le_refl _)⟩, List.countP_le_length⟩
  case nodup =>
    rw [renumbered_orders]
    refine List.pairwise_map.2 (List.Pairwise.imp_of_mem (fun ha hb hne heq => hne ?_) hnodup)
    obtain ⟨i, hi, rfl⟩ := List.mem_map.1 ha
    obtain ⟨k, hk, rfl⟩ := List.mem_map.1 hb
    obtain h | h | h := Nat.lt_trichotomy i.order k.order
    · exact absurd heq (Nat.ne_of_lt (orderRank_lt hk h))
    · exact h
    · exact absurd heq.symm (Nat.ne_of_lt (orderRank_lt hi h))
  case order =>
    rw [renumbered_eq, List.getElem?_map, ha] at ha'
    rw [renumbered_eq, List.getElem?_map, hb] at hb'
    obtain rfl := Option.some.inj ha'
    obtain rfl := Option.some.inj hb'
    exact orderRank_lt_iff (List.mem_of_getElem? hb)
  case numbers =>
    rw [renumbered_eq, List.map_map]
    rfl

/-! ### JOB-OPEN (R140, R141) -/

theorem classOf?_eq (c : Byte) : classOf? c.toNat = if 2 < c.toNat then none
    else some (if c = 0 then .routine else if c = 1 then .priority else .bulletin) := by
  have hzero : c = 0 ↔ c.toNat = 0 := BitVec.toNat_inj.symm
  have hone : c = 1 ↔ c.toNat = 1 := BitVec.toNat_inj.symm
  simp only [hzero, hone]
  match c.toNat with
  | 0 | 1 | 2 => rfl
  | k + 3 => exact (if_pos (by omega)).symm

/-- JOB-OPEN's own checks in their order. -/
theorem jobOpen_eq (l : CLine) (n c d f : Byte) (s : State) : jobOpen l [n, c, d, f] s =
    if n = 0 then refuse .range 1 s
    else if 2 < c.toNat then refuse .range 2 s
    else if d.toNat < 1 ∨ 15 < d.toNat then refuse .range 3 s
    else if (findJob s.jobs n.toNat).isSome then refuse .idInUse n.toNat s
    else if (slotFor s.maps d.toNat).isNone then refuse .noMap d.toNat s
    else if 8 ≤ s.jobs.length then refuse .tableFull 8 s
    else accept (openJob l [n, c, d, f] (if c = 0 then .routine else if c = 1 then .priority else .bulletin) s) := by
  have hzero : n = 0 ↔ byteAt [n, c, d, f] 0 = 0 := BitVec.toNat_inj.symm
  have hclass : classOf? (byteAt [n, c, d, f] 1) = _ := classOf?_eq c
  rw [jobOpen, hclass]
  refine ite_congr (propext hzero.symm) (fun _ => rfl) fun _ => ?_
  by_cases hc : 2 < c.toNat
  · simp only [if_pos hc]
  · simp only [if_neg hc, Bool.or_eq_true, decide_eq_true_eq]
    rfl

/-- The record of a new job, and the counter it takes its open order from. -/
theorem openJob_eq (l : CLine) (d : List Byte) (cls : JobClass) (s : State) : openJob l d cls s =
    if s.seq.openCounter = 65535 then
      { s with seq := { s.seq with openCounter := s.jobs.length + 1 }
               jobs := renumbered s.jobs ++ [newJob l d cls (s.jobs.length + 1)] }
    else
      { s with seq := { s.seq with openCounter := s.seq.openCounter + 1 }
               jobs := s.jobs ++ [newJob l d cls (s.seq.openCounter + 1)] } := by
  unfold openJob makeOrders
  split <;> rfl

/-- Settles O9: the checks are those of `jobOpen_eq`, the record is that of `openJob_eq`. -/
theorem jobOpenChecksAndCreatesARecord : Obligations.JobOpenChecksAndCreatesARecord := by
  unfold Obligations.JobOpenChecksAndCreatesARecord
  intro l tag n c d f s hw hp refused record created
  have hexec : exec (.jobOpen l) s
      = .next (sendReply l tag (lostOf l s) (jobOpen l [n, c, d, f] (emptySlot l s))) :=
    congrArg _ (handled .jobOpen l anyBody (fun _ d => jobOpen l d) tag _ hw rfl
      (leadingFault_none _ _ _ rfl (fun _ => hp) (wrongOwner_unnamed _ _ _ rfl)))
  have hrecord (cls : JobClass) (order : Nat) : newJob l [n, c, d, f] cls order = record cls order := by
    have hflag : flagAt [n, c, d, f] 3 = decide (f ≠ 0) := by
      rw [Bool.eq_iff_iff, decide_eq_true_eq, flagAt, bne_iff_ne]
      exact not_congr (BitVec.toNat_inj (x := f) (y := 0))
    simp only [newJob, record, hflag]
    rfl
  have hcreated (cls : JobClass) : sendReply l tag (lostOf l s) (accept (openJob l [n, c, d, f] cls (emptySlot l s)))
      = created cls := by
    rw [openJob_eq, hrecord, hrecord]
    rfl
  rw [hexec, jobOpen_eq]
  simp only [apply_ite (sendReply l tag (lostOf l s)), hcreated]
  rfl

/-! ### A message to a job of the line of arrival (R142) -/

/-- A waiting message that names a job is answered with what its block makes of it, if the line owns the job. -/
theorem answered_ofOwner {k : MsgKind} {l : CLine} {tag : Byte} {d : List Byte} {body : ReplyBody}
    {f : State → State} (act : List Byte → State → Handled) (hw : Waits l k.code tag d s) (hp : Passed l s)
    (ho : Owned l (byteAt d 0) s) (hm : malformed k (s.store.assembly.get l) d = none)
    (ha : act d (emptySlot l s) = (f (emptySlot l s), body)) :
    powered s (handle k l anyBody fun _ d => act d) = answered l tag body f s :=
  answered_of_act k l (fun _ d => act d) hw (leadingFault_none _ _ _ hm (fun _ => hp) (wrongOwner_owned _ _ _ ho)) ha

/-! ### Another job is ACTIVE (R138) -/

/-- A job of another number is ACTIVE. -/
def OtherActive (n : Nat) (s : State) : Prop := ∃ k ∈ s.jobs, k.state = .active ∧ k.number ≠ n

theorem activeJob_isSome_iff : (activeJob s).isSome = true ↔ ∃ k ∈ s.jobs, k.state = .active := by
  simp [activeJob]

/-- While a line is being flashed, the ACTIVE job is another than one that is not ACTIVE. -/
theorem otherActive_of_flashing (h : Flashing s) (hd : JobsDistinct s) (hj : findJob s.jobs n = some j)
    (hs : j.state ≠ .active) : OtherActive n s := by
  obtain ⟨-, -, hactive⟩ := h
  obtain ⟨k, hk, hka⟩ := activeJob_isSome_iff.1 hactive
  refine ⟨k, hk, hka, fun hn => hs ?_⟩
  rw [job_unique hd.1 (mem_of_findJob hj) hk ((findJob_number hj).trans hn.symm)]
  exact hka

theorem OtherActive.updateJob (h : OtherActive n s) (f : Job → Job) :
    (activeJob (updateJob n f s)).isSome = true := by
  obtain ⟨k, hk, hka, hn⟩ := h
  exact activeJob_isSome_iff.2 ⟨k, List.mem_map.2 ⟨k, hk, if_neg hn⟩, hka⟩

theorem OtherActive.removeJob (h : OtherActive n s) : (activeJob (removeJob n s)).isSome = true := by
  obtain ⟨k, hk, hka, hn⟩ := h
  exact activeJob_isSome_iff.2 ⟨k, List.mem_filter.2 ⟨hk, by simpa using hn⟩, hka⟩

/-- A record removed is removed, whatever was written in it. -/
theorem removeJob_updateJob (f : Job → Job) (hf : ∀ k, (f k).number = k.number) (s : State) :
    removeJob n (updateJob n f s) = removeJob n s := by
  have hjobs : (s.jobs.map fun k => if k.number = n then f k else k).filter (fun k => k.number != n)
      = s.jobs.filter fun k => k.number != n := by
    induction s.jobs with
    | nil => rfl
    | cons k ks ih =>
      by_cases hn : k.number = n
      · simp [hn, hf, ih]
      · simp [hn, ih]
  unfold removeJob updateJob State.modJobs
  dsimp only
  rw [hjobs]

/-! ### JOB-END (R143, R154) -/

section
variable {d : List Byte}

theorem jobEnd_noJob (hj : findJob u.jobs (byteAt d 0) = none) : jobEnd d u = refuse .noJob 0 u := by
  simp only [jobEnd, hj]

theorem jobEnd_hasFinal (hj : findJob u.jobs (byteAt d 0) = some j) (hf : j.final ≠ none) :
    jobEnd d u = refuse .state 0 u := by
  simp only [jobEnd, hj, Option.isSome_iff_ne_none.2 hf]
  rfl

theorem jobEnd_less (hj : findJob u.jobs (byteAt d 0) = some j) (hf : j.final = none)
    (h : u16At d 1 < j.committed) : jobEnd d u = refuse .count j.committed u := by
  simp only [jobEnd, hj, hf, if_pos h]
  rfl

theorem jobEnd_lineOpen {k : Nat} (hj : findJob u.jobs (byteAt d 0) = some j) (hf : j.final = none)
    (h : j.committed ≤ u16At d 1) (ho : openLineOf j u = some k) : jobEnd d u = refuse .count k u := by
  simp only [jobEnd, hj, hf, if_neg (Nat.not_lt.2 h), ho]
  rfl

theorem jobEnd_taken (hj : findJob u.jobs (byteAt d 0) = some j) (hf : j.final = none)
    (h : j.committed ≤ u16At d 1) (ho : openLineOf j u = none) : jobEnd d u = accept (endJob j (u16At d 1) u) := by
  simp only [jobEnd, hj, hf, if_neg (Nat.not_lt.2 h), ho]
  rfl

end

theorem openLineOf_open {a : Assembly} (ha : u.store.assembly.get j.owner = some a) (hn : a.header.job = j.number) :
    openLineOf j u = some a.header.line := by
  simp only [openLineOf, ha, if_pos hn]

theorem openLineOf_none (h : assemblyOfJob j.number (u.store.assembly.get j.owner) = false) :
    openLineOf j u = none := by
  unfold openLineOf
  cases ha : u.store.assembly.get j.owner with
  | none => rfl
  | some a =>
    rw [ha] at h
    exact if_neg (by simpa [assemblyOfJob] using h)

theorem endJob_stores {final : Nat} (h : j.setCount ≠ final) :
    endJob j final u = withJob j.number (fun k => { k with final := some final }) u := if_neg h

/-- A job that is complete and not ACTIVE ends, and nothing follows while another job's line is being flashed. -/
theorem endJob_completes {final : Nat} (hset : j.setCount = final) (hs : j.state ≠ .active)
    (he : u.engine.state = .flash) (ho : OtherActive j.number u) :
    endJob j final u = post j.owner (.jobDone j.number final) (withoutJob j.number u) := by
  have hidle : completeIdle j final (updateJob j.number (fun k => { k with final := some final }) u)
      = post j.owner (.jobDone j.number final) (removeJob j.number u) := by
    obtain ⟨k, hk⟩ := Option.isSome_iff_exists.1 ho.removeJob
    have hactive : activeJob (post j.owner (.jobDone j.number final) (removeJob j.number u)) = some k := hk
    unfold completeIdle
    rw [removeJob_updateJob (fun k => { k with final := some final }) fun _ => rfl]
    simp only [hactive]
  unfold endJob
  rw [if_pos hset, if_neg hs, hidle]
  exact carryOn_flash he

/-- Settles O11: the checks are those of the `jobEnd_` lemmas, the effect is `endJob_stores` or `endJob_completes`. -/
theorem jobEndStoresTheFinalCountOrCompletes : Obligations.JobEndStoresTheFinalCountOrCompletes := by
  unfold Obligations.JobEndStoresTheFinalCountOrCompletes
  intro l tag n hi lo s hw hp ho final refused
  have exec_eq {body : ReplyBody} {f : State → State}
      (ha : jobEnd [n, hi, lo] (emptySlot l s) = (f (emptySlot l s), body)) :
      exec (.jobEnd l) s = .next (answered l tag body f s) :=
    congrArg _ (answered_ofOwner (k := .jobEnd) jobEnd hw hp ho rfl ha)
  refine ⟨fun hj => exec_eq (jobEnd_noJob hj), fun j hj => ⟨fun hf => exec_eq (jobEnd_hasFinal hj hf), ?_⟩⟩
  have hnumber : j.number = n.toNat := findJob_number hj
  have howner : j.owner = l := ho j hj
  refine ⟨fun hf hless => exec_eq (jobEnd_less hj hf hless), fun hf hle a ha hjob => exec_eq ?opened,
    fun hf hle hnone => ?accepted⟩
  case opened =>
    exact jobEnd_lineOpen hj hf hle (openLineOf_open (by rw [howner]; exact ha) (hjob.trans hnumber.symm))
  case accepted =>
    have haccept : jobEnd [n, hi, lo] (emptySlot l s) = accept (endJob j final (emptySlot l s)) :=
      jobEnd_taken hj hf hle (openLineOf_none (by rw [hnumber, howner]; exact hnone))
    refine ⟨fun hset => exec_eq (haccept.trans ?_), fun hset hs hflash hdistinct => exec_eq (haccept.trans ?_)⟩
    · rw [endJob_stores hset, hnumber]
      rfl
    · have hother : OtherActive j.number (emptySlot l s) := by
        rw [hnumber]
        exact otherActive_of_flashing hflash hdistinct hj hs
      rw [endJob_completes (u := emptySlot l s) hset hs hflash.1 hother, hnumber, howner]
      rfl

/-! ### JOB-HOLD and JOB-RELEASE (R145, R146) -/

section
variable {d : List Byte}

theorem jobHold_noJob (hj : findJob u.jobs (byteAt d 0) = none) : jobHold d u = refuse .noJob 0 u := by
  simp only [jobHold, hj]

theorem jobHold_job (hj : findJob u.jobs (byteAt d 0) = some j) : jobHold d u =
    if j.state = .held ∨ j.held = true then refuse .state 0 u else accept (holdJob j u) := by
  simp only [jobHold, hj, Bool.or_eq_true, decide_eq_true_eq]

theorem jobRelease_noJob (hj : findJob u.jobs (byteAt d 0) = none) : jobRelease d u = refuse .noJob 0 u := by
  simp only [jobRelease, hj]

theorem jobRelease_job (hj : findJob u.jobs (byteAt d 0) = some j) : jobRelease d u =
    if j.state = .held then accept (releaseJob j u) else refuse .state 0 u := by
  simp only [jobRelease, hj]

end

/-- A line goes on being flashed through a change of a job's record that leaves a job ACTIVE: nothing follows it. -/
theorem goesOn_flashing (h : Flashing u) (f : Job → Job) (ha : (activeJob (updateJob n f u)).isSome = true) :
    carryOn (selectionPoint (updateJob n f u)) = updateJob n f u := by
  obtain ⟨hstate, hcurrent, -⟩ := h
  rw [selectionPoint_flashing (s := updateJob n f u) ⟨hstate, hcurrent, ha⟩]
  exact carryOn_flash hstate

theorem holdJob_waiting (hs : j.state ≠ .active) (ho : OtherActive j.number u) :
    holdJob j u = withJob j.number (fun k => { k with held := true, state := .held }) u := by
  obtain ⟨k, hk⟩ := Option.isSome_iff_exists.1 (ho.updateJob fun k => { k with held := true, state := .held })
  simp only [holdJob, if_neg hs, hk]
  rfl

theorem holdJob_active (hs : j.state = .active) (h : Flashing u) :
    holdJob j u = withJob j.number (fun k => { k with held := true }) u := by
  refine (if_pos hs).trans (goesOn_flashing h _ ?_)
  obtain ⟨-, -, hactive⟩ := h
  obtain ⟨k, hk, hka⟩ := activeJob_isSome_iff.1 hactive
  refine activeJob_isSome_iff.2 ⟨_, List.mem_map_of_mem hk, ?_⟩
  show (if k.number = j.number then { k with held := true } else k).state = .active
  split <;> exact hka

theorem releaseJob_flashing (h : Flashing u) (ho : OtherActive j.number u) :
    releaseJob j u = withJob j.number Job.released u := by
  unfold releaseJob
  dsimp only
  rw [goesOn_flashing h Job.released (ho.updateJob _), ite_self]
  rfl

/-- Settles O13: the checks are those of `jobHold_job` and `jobRelease_job`, and while a line is being flashed each
effect is a change of the job's record alone. -/
theorem jobHoldAndJobRelease : Obligations.JobHoldAndJobRelease := by
  unfold Obligations.JobHoldAndJobRelease
  refine ⟨fun l tag n s hw hp ho => ?hold, fun l tag n s hw hp ho => ?release⟩
  case hold =>
    have exec_eq {body : ReplyBody} {f : State → State}
        (ha : jobHold [n] (emptySlot l s) = (f (emptySlot l s), body)) :
        exec (.jobHold l) s = .next (answered l tag body f s) :=
      congrArg _ (answered_ofOwner (k := .jobHold) jobHold hw hp ho rfl ha)
    refine ⟨fun hj => exec_eq (jobHold_noJob hj), fun j hj => ?_⟩
    have hnumber : j.number = n.toNat := findJob_number hj
    have hjob := jobHold_job (u := emptySlot l s) (d := [n]) hj
    refine ⟨fun h => exec_eq (hjob.trans (if_pos h)), fun hs hh hna hflash hdistinct => exec_eq ?_,
      fun hs hh hflash => exec_eq ?_⟩
    · have hother : OtherActive j.number (emptySlot l s) := by
        rw [hnumber]
        exact otherActive_of_flashing hflash hdistinct hj hna
      rw [hjob, if_neg (by simp [hs, hh]), holdJob_waiting hna hother, hnumber]
      rfl
    · rw [hjob, if_neg (by simp [hs, hh]), holdJob_active (u := emptySlot l s) hs hflash, hnumber]
      rfl
  case release =>
    have exec_eq {body : ReplyBody} {f : State → State}
        (ha : jobRelease [n] (emptySlot l s) = (f (emptySlot l s), body)) :
        exec (.jobRelease l) s = .next (answered l tag body f s) :=
      congrArg _ (answered_ofOwner (k := .jobRelease) jobRelease hw hp ho rfl ha)
    refine ⟨fun hj => exec_eq (jobRelease_noJob hj), fun j hj => ?_⟩
    have hnumber : j.number = n.toNat := findJob_number hj
    have hjob := jobRelease_job (u := emptySlot l s) (d := [n]) hj
    refine ⟨fun hs => exec_eq (hjob.trans (if_neg hs)), fun hs hflash hdistinct => exec_eq ?_⟩
    have hother : OtherActive j.number (emptySlot l s) := by
      rw [hnumber]
      exact otherActive_of_flashing hflash hdistinct hj (by rw [hs]; exact JobState.noConfusion)
    rw [hjob, if_pos hs, releaseJob_flashing (u := emptySlot l s) hflash hother, hnumber]
    rfl

end Sys2Proof.Machine
end

