-- ==== Sys2Proof/Proofs/JobCancel.lean ====
section
/-!
SUPPORT. JOB-CANCEL (R39, R67 to R69, R144, R153): the freeing of a job's lines, the abandonment of the current line
with cause CANCEL, and the galley close that the cancel of the ACTIVE job orders.
-/
namespace Sys2Proof.Machine

variable {s : State} {j : Job} {n : Nat}

/-- What holds of a line and of the other one holds of both. -/
theorem CLine.forall_of {P : CLine → Prop} {l : CLine} (h : P l) (ho : P l.other) (k : CLine) : P k := by
  cases l <;> cases k <;> assumption

/-! ### Events posted (R196) -/

theorem Queue.post_room {q : Queue} (e : Event) (h : q.events.length < 32) :
    q.post e = { q with events := q.events ++ [e] } := if_pos h

theorem post_get_same (l : CLine) (e : Event) (s : State) : (post l e s).queues.get l = (s.queues.get l).post e :=
  Pair.get_set_same _ _ _

/-- Two events posted one after the other to a queue with room for both stand at its end in their order. -/
theorem post_post_events {l : CLine} (e f : Event) (h : (s.queues.get l).events.length + 2 ≤ 32) :
    ((post l f (post l e s)).queues.get l).events = (s.queues.get l).events ++ [e, f] := by
  rw [post_get_same, post_get_same, Queue.post_room e (by omega), Queue.post_room f (by simp; omega)]
  simp

theorem post_get_other (l : CLine) (e : Event) (s : State) : (post l e s).queues.get l.other = s.queues.get l.other :=
  Pair.get_set_other _ _ _

theorem ownerOf_eq (hj : findJob s.jobs n = some j) : ownerOf s n = j.owner := by
  simp only [ownerOf, hj]

/-! ### The freeing of a job's lines (R20, R39) -/

/-- The store without the job's lines, their held cells free. -/
def LineStore.withoutLines (n : Nat) (st : LineStore) : LineStore := { st with
  lines := st.lines.filter fun r => r.header.job != n
  freeCells := st.freeCells + ((st.lines.filter fun r => r.header.job == n).map fun r => r.header.count).sum }

theorem keepLines_ofOthers (n : Nat) (st : LineStore) :
    (st.keepLines fun r => r.header.job != n) = st.withoutLines n := by
  have hgone : (fun r : LineRecord => !(r.header.job != n)) = fun r => r.header.job == n :=
    funext fun r => Bool.not_not _
  rw [LineStore.keepLines, hgone]
  rfl

theorem discardOfJob_notOfJob (r : DropReason) {l : CLine} (h : assemblyOfJob n (s.store.assembly.get l) = false) :
    discardOfJob n r l s = s := if_neg (by rw [h]; exact Bool.false_ne_true)

/-- The discard of a job's assembly changes the store and the queues alone. -/
theorem discardOfJob_eq (n : Nat) (r : DropReason) (l : CLine) (s : State) : discardOfJob n r l s =
    { s with store := (discardOfJob n r l s).store, queues := (discardOfJob n r l s).queues } := by
  unfold discardOfJob
  split
  · unfold discardAssembly
    split <;> rfl
  · rfl

theorem freeLines_eq (n : Nat) (r : DropReason) (s : State) : freeLines n r s =
    { s with store := (freeLines n r s).store, queues := (freeLines n r s).queues } := by
  unfold freeLines
  rw [discardOfJob_eq n r .b, discardOfJob_eq n r .a]
  rfl

/-- With no assembly of the job on the other line, one line's assembly is all there may be to discard. -/
theorem freeLines_onOneLine (r : DropReason) {l : CLine}
    (h : assemblyOfJob n (s.store.assembly.get l.other) = false) :
    freeLines n r s = discardOfJob n r l (withStore (s.store.withoutLines n) s) := by
  have hkept : (s.modStore fun st => st.keepLines fun x => x.header.job != n) = withStore (s.store.withoutLines n) s :=
    congrArg (withStore · s) (keepLines_ofOthers n s.store)
  rw [freeLines, hkept]
  cases l with
  | a =>
    refine discardOfJob_notOfJob r ?_
    obtain ⟨-, hassembly, -⟩ := discardOfJob_store n r .a (withStore (s.store.withoutLines n) s)
    rw [hassembly]
    split <;> exact h
  | b => exact congrArg (discardOfJob n r .b) (discardOfJob_notOfJob (s := withStore _ s) r h)

/-- A job's assembly on a line is discarded with its reserved cells; another job's stands. -/
theorem discardOfJob_some (r : DropReason) {l : CLine} {a : Assembly} (ha : s.store.assembly.get l = some a) :
    discardOfJob n r l s = if a.header.job = n then
      post l (.assemblyDropped n a.header.line r) (withStore { s.store with
        assembly := s.store.assembly.set l none, freeCells := s.store.freeCells + a.header.count } s)
    else s := by
  unfold discardOfJob
  rw [ha]
  by_cases hn : a.header.job = n
  · rw [if_pos hn, if_pos (by simp [assemblyOfJob, hn]), discardAssembly_of_some r ha, hn]
  · rw [if_neg hn, if_neg (by simp [assemblyOfJob, hn])]

/-! ### The cancel of a job that waits (R144) -/

theorem cancelJob_waiting (hs : j.state ≠ .active) (ho : OtherActive j.number s) : cancelJob j s =
    withoutJob j.number
      (post j.owner (.jobCancelled j.number j.committed j.setCount) (freeLines j.number .cancel s)) := by
  obtain ⟨-, -, hjobs, -⟩ := freeLines_store j.number .cancel s
  have hactive : activeJob (removeJob j.number (post j.owner (.jobCancelled j.number j.committed j.setCount)
      (freeLines j.number .cancel s))) = activeJob (removeJob j.number s) :=
    activeJob_congr (congrArg (List.filter fun k : Job => k.number != j.number) hjobs)
  obtain ⟨k, hk⟩ := Option.isSome_iff_exists.1 ho.removeJob
  simp only [cancelJob, if_neg hs, hactive, hk]
  rfl

/-! ### The abandonment of the current line with cause CANCEL (R67) -/

/-- The part with its current line `r` given up for a cancel, before the deflector is sent to a test item that is left
and a unit that was EXPOSING is READY. -/
def lineCancelled (r : LineRef) (s : State) : State :=
  let left := s.engine.ring.filter fun it => !it.isExposure
  { s with
    queues := (post (ownerOf s r.job) (.lineAbandoned r.job r.line .cancel (s.engine.stopNo - 1) s.engine.misreg
      s.engine.deferral none) s).queues
    store := (setCurrent r.job r.line false s).store
    engine := { s.engine with
      state := .idle, current := none, stops := [], stopNo := 0, ring := left, watch := (detachWatch s).engine.watch
      stuck := 0, misreg := 0, deferral := 0, firedSinceIndex := false }
    disc := { s.disc with channel := left.head?.map Item.target }
    drive := s.drive.stop }

theorem abandon_cancel {r : LineRef} (hc : s.engine.current = some r) : abandon .cancel none s =
    if s.spin.unit = .exposing then setUnit .ready (aim (lineCancelled r s)) else aim (lineCancelled r s) := by
  have hunit : (aim (lineCancelled r s)).spin.unit = s.spin.unit :=
    congrArg (fun x => x.spin.unit) (standing_aim (lineCancelled r s))
  rw [← hunit]
  simp only [abandon, hc]
  rfl

/-- What the abandonment of the current line comes to in each block that JOB-CANCEL speaks of. -/
theorem abandon_cancel_fields {r : LineRef} (hc : s.engine.current = some r) :
    (abandon .cancel none s).jobs = s.jobs ∧ (abandon .cancel none s).maps = s.maps
      ∧ (abandon .cancel none s).trim = s.trim
      ∧ (abandon .cancel none s).queues = (lineCancelled r s).queues
      ∧ (abandon .cancel none s).store = (lineCancelled r s).store
      ∧ (abandon .cancel none s).engine = (lineCancelled r s).engine
      ∧ (abandon .cancel none s).drive.carriage = s.drive.carriage.stop
      ∧ (abandon .cancel none s).drive.film = s.drive.stop.film
      ∧ (s.spin.unit = .exposing → (abandon .cancel none s).spin.unit = .ready) := by
  have hstanding := standing_aim (lineCancelled r s)
  have hfields : (aim (lineCancelled r s)).jobs = s.jobs ∧ (aim (lineCancelled r s)).store = (lineCancelled r s).store
      ∧ (aim (lineCancelled r s)).drive.carriage = s.drive.carriage.stop
      ∧ (aim (lineCancelled r s)).drive.film = s.drive.stop.film :=
    ⟨congrArg Standing.jobs hstanding, congrArg Standing.store hstanding, congrArg Standing.carriage hstanding,
      congrArg Standing.film hstanding⟩
  obtain ⟨hjobs, hstore, hcarriage, hfilm⟩ := hfields
  rw [abandon_cancel hc]
  split
  next h =>
    exact ⟨hjobs, aim_maps _, aim_trim _, aim_queues _, hstore, aim_engine _, hcarriage, hfilm, fun _ => rfl⟩
  next h =>
    exact ⟨hjobs, aim_maps _, aim_trim _, aim_queues _, hstore, aim_engine _, hcarriage, hfilm,
      fun hu => absurd hu h⟩

/-- A line returned to COMMITTED is still one of its job's, so that the lines of the others are as they were. -/
theorem setCurrent_others (n line : Nat) (cur : Bool) (s : State) :
    (setCurrent n line cur s).store.lines.filter (fun x => x.header.job != n)
      = s.store.lines.filter fun x => x.header.job != n := by
  show (s.store.lines.map _).filter _ = _
  induction s.store.lines with
  | nil => rfl
  | cons x xs ih =>
    by_cases hn : x.header.job = n
    · by_cases hl : x.header.line = line <;> simp [hn, hl, ih]
    · simp [hn, ih]

/-! ### The cancel of the ACTIVE job (R144, R153) -/

/-- The part with the ACTIVE job `j` ended by a cancel, and its galley close ordered. -/
def activeCancelled (j : Job) (s : State) : State :=
  orderClose (some (j.number, j.owner)) (leaveActive (removeJob j.number
    (post j.owner (.jobCancelled j.number j.committed j.setCount)
      (freeLines j.number .cancel (abandon .cancel none s)))))

/-- In WAIT_FILM the close is left ordered, and otherwise a carriage in motion holds it back. -/
theorem cancelJob_active {r : LineRef} (hs : j.state = .active) (hc : s.engine.current = some r)
    (h : s.engine.state = .waitFilm ∨ s.drive.carriage.act = .stepping) : cancelJob j s = activeCancelled j s := by
  simp only [cancelJob, if_pos hs]
  unfold closeAfterCancel
  dsimp only
  split
  · rfl
  next hw =>
    obtain ⟨-, -, -, -, -, -, hcarriage, -⟩ := abandon_cancel_fields hc
    refine carryOn_noEndWaits (noEndWaits_of_carriage ?_)
    show (freeLines j.number .cancel (abandon .cancel none s)).drive.carriage.act ≠ .atRest
    rw [freeLines_eq]
    show (abandon .cancel none s).drive.carriage.act ≠ .atRest
    rw [hcarriage, Carriage.stop, h.resolve_left hw]
    exact Activity.noConfusion

theorem findJob_removed (js : List Job) (n : Nat) : findJob (js.filter fun k => k.number != n) n = none := by
  simp [findJob]

theorem Carriage.stop_stepping {c : Carriage} (h : c.act = .stepping) : c.stop = { c with target := none } := by
  simp only [Carriage.stop, h]

theorem activeCancelled_fields {r : LineRef} (hc : s.engine.current = some r) (hr : r.job = j.number) :
    (activeCancelled j s).jobs = s.jobs.filter (fun k => k.number != j.number)
      ∧ (activeCancelled j s).store.lines = s.store.lines.filter (fun x => x.header.job != j.number)
      ∧ (activeCancelled j s).engine = { (lineCancelled r s).engine with
        state := .closing, close := some { job := some (j.number, j.owner), phase := .ordered, steps := 0 } }
      ∧ (activeCancelled j s).drive.carriage = s.drive.carriage.stop
      ∧ (activeCancelled j s).drive.film = s.drive.stop.film
      ∧ (activeCancelled j s).maps = s.maps ∧ (activeCancelled j s).trim = s.trim
      ∧ (s.spin.unit = .exposing → (activeCancelled j s).spin.unit = .ready) := by
  obtain ⟨hjobs, hmaps, htrim, -, hstore, hengine, hcarriage, hfilm, hready⟩ := abandon_cancel_fields hc
  obtain ⟨hlines, -, hfreedJobs, hfreedEngine, hfreedSpin, -⟩ :=
    freeLines_store j.number .cancel (abandon .cancel none s)
  have hfreed := freeLines_eq j.number .cancel (abandon .cancel none s)
  have hfreedCarriage := congrArg (fun u => u.drive.carriage) hfreed
  have hfreedFilm := congrArg (fun u => u.drive.film) hfreed
  have hfreedMaps := congrArg State.maps hfreed
  have hfreedTrim := congrArg State.trim hfreed
  have hfreedUnit := congrArg Spin.unit hfreedSpin
  refine ⟨?jobs, ?lines, ?engine, hfreedCarriage.trans hcarriage, hfreedFilm.trans hfilm, hfreedMaps.trans hmaps,
    hfreedTrim.trans htrim, fun hu => hfreedUnit.trans (hready hu)⟩
  case jobs =>
    show (freeLines j.number .cancel (abandon .cancel none s)).jobs.filter _ = _
    rw [hfreedJobs, hjobs]
  case lines =>
    show (freeLines j.number .cancel (abandon .cancel none s)).store.lines = _
    rw [hlines, hstore, ← hr]
    exact setCurrent_others r.job r.line false s
  case engine =>
    rw [← hengine, ← hfreedEngine]
    rfl

/-- With no assembly open the cancel of the ACTIVE job posts LINE_ABANDONED and JOB_CANCELLED. -/
theorem activeCancelled_queues {r : LineRef} (hc : s.engine.current = some r)
    (ha : ∀ l, s.store.assembly.get l = none) :
    (activeCancelled j s).queues = (post j.owner (.jobCancelled j.number j.committed j.setCount)
      (post (ownerOf s r.job) (.lineAbandoned r.job r.line .cancel (s.engine.stopNo - 1) s.engine.misreg
        s.engine.deferral none) s)).queues := by
  obtain ⟨-, -, -, hqueues, hstore, -⟩ := abandon_cancel_fields hc
  have hnone (l : CLine) : assemblyOfJob j.number ((abandon .cancel none s).store.assembly.get l) = false := by
    have hassembly : (lineCancelled r s).store.assembly.get l = none := ha l
    rw [hstore, hassembly]
    rfl
  have hfreed : freeLines j.number .cancel (abandon .cancel none s)
      = withStore ((abandon .cancel none s).store.withoutLines j.number) (abandon .cancel none s) :=
    (freeLines_onOneLine (l := .a) .cancel (hnone _)).trans (discardOfJob_notOfJob (s := withStore _ _) _ (hnone _))
  show (post _ _ (freeLines j.number .cancel (abandon .cancel none s))).queues = _
  rw [hfreed]
  simp only [post, withStore, State.modQueues_queues, hqueues, lineCancelled]

/-! ### The message -/

/-- A message taken and answered leaves what its effect leaves, but for the line's interface. -/
theorem answered_leaves (l : CLine) (tag : Byte) (body : ReplyBody) (f : State → State) (s : State) :
    ∃ iface count, answered l tag body f s = { f (emptySlot l s) with iface := iface, freeCount := count }
      ∧ (iface.get l).tx.map Reply.body = some body := by
  refine ⟨_, _, rfl, ?_⟩
  show ((modLine l _ _).iface.get l).tx.map Reply.body = some body
  rw [modLine_get]
  rfl

section
variable {l : CLine} {tag m : Byte} (hw : Waits l 0x05 tag [m] s) (hp : Passed l s)
include hw hp

/-- JOB-CANCEL is answered with what `jobCancel` makes of it if the line owns the job it names. -/
theorem exec_jobCancel {body : ReplyBody} {f : State → State} (ho : Owned l m.toNat s)
    (ha : jobCancel [m] (emptySlot l s) = (f (emptySlot l s), body)) :
    exec (.jobCancel l) s = .next (answered l tag body f s) :=
  congrArg _ (answered_ofOwner (k := .jobCancel) jobCancel hw hp ho rfl ha)

theorem exec_jobCancel_noJob (hj : findJob s.jobs m.toNat = none) :
    exec (.jobCancel l) s = .next (answered l tag (.refused .noJob 0) id s) := by
  have hnone : findJob (emptySlot l s).jobs (byteAt [m] 0) = none := hj
  refine exec_jobCancel hw hp (fun j h => ?_) ?_
  · rw [hj] at h
    contradiction
  · simp only [jobCancel, hnone]
    rfl

theorem exec_jobCancel_cancels (hj : findJob s.jobs m.toNat = some j) (ho : j.owner = l) {f : State → State}
    (hf : cancelJob j (emptySlot l s) = f (emptySlot l s)) :
    exec (.jobCancel l) s = .next (answered l tag .accepted f s) := by
  have hfound : findJob (emptySlot l s).jobs (byteAt [m] 0) = some j := hj
  refine exec_jobCancel hw hp (fun k h => ?_) ?_
  · rw [hj, Option.some.injEq] at h
    rw [← h, ho]
  · simp only [jobCancel, hfound, hf]
    rfl

end

/-- Settles O12: the cancel of a waiting job is `cancelJob_waiting` with the store of `freeLines_onOneLine`; that of the
ACTIVE job is `activeCancelled`, in WAIT_FILM and elsewhere. -/
theorem jobCancelEndsTheJob : Obligations.JobCancelEndsTheJob := by
  unfold Obligations.JobCancelEndsTheJob
  refine ⟨fun l tag n s hw hp ho => ⟨exec_jobCancel_noJob hw hp, fun j hj hs hflash hdistinct hother => ?waiting⟩,
    fun l tag n j line s hw hp hj ho hs hc hunit hact hroom ⟨hown, hother⟩ => ?active,
    fun l tag n j line s hw hp hj ho hs hc hwait => ?waitFilm⟩
  case waiting =>
    intro kept gone cells
    have hnumber : j.number = n.toNat := findJob_number hj
    have hactive : OtherActive j.number (emptySlot l s) := by
      rw [hnumber]
      exact otherActive_of_flashing hflash hdistinct hj hs
    refine exec_jobCancel_cancels hw hp hj (ho j hj) ?_
    rw [cancelJob_waiting (s := emptySlot l s) hs hactive, hnumber, ho j hj,
      freeLines_onOneLine (s := emptySlot l s) .cancel hother]
    refine congrArg (fun v => withoutJob n.toNat (post l (.jobCancelled n.toNat j.committed j.setCount) v)) ?_
    cases ha : s.store.assembly.get l with
    | none =>
      simp only [emptySlot_store, ha]
      exact discardOfJob_notOfJob _ (congrArg (assemblyOfJob n.toNat) ha)
    | some a =>
      simp only [emptySlot_store, ha]
      exact discardOfJob_some _ ha
  case active =>
    have hnumber : j.number = n.toNat := findJob_number hj
    have hexec := exec_jobCancel_cancels hw hp hj ho (cancelJob_active (s := emptySlot l s) hs hc (.inr hact))
    obtain ⟨hjobs, hlines, hengine, hcarriage, hfilm, hmaps, htrim, hready⟩ :=
      activeCancelled_fields (s := emptySlot l s) (j := j) hc hnumber.symm
    have hqueues := activeCancelled_queues (s := emptySlot l s) (j := j) hc (CLine.forall_of hown hother)
    dsimp only at hqueues
    rw [ownerOf_eq (s := emptySlot l s) hj, ho] at hqueues
    obtain ⟨iface, count, htaken, hreply⟩ := answered_leaves l tag .accepted (activeCancelled j) s
    rw [hexec, htaken]
    refine ⟨_, rfl, hreply, ?_⟩
    dsimp only
    rw [hjobs, hlines, hengine, hcarriage, hfilm, hmaps, htrim, hready hunit, hqueues, hnumber, ho,
      Carriage.stop_stepping (c := (emptySlot l s).drive.carriage) hact]
    refine ⟨findJob_removed _ _, rfl, rfl, rfl, rfl, rfl, rfl, rfl, rfl, rfl, rfl, rfl, ?told, ?untold, rfl, rfl,
      rfl⟩
    case told =>
      exact post_post_events (s := emptySlot l s) _ _ (Nat.le_trans (Nat.add_le_add_right hroom 2) (by decide))
    case untold =>
      exact (post_get_other l _ _).trans (post_get_other l _ (emptySlot l s))
  case waitFilm =>
    have hnumber : j.number = n.toNat := findJob_number hj
    have hexec := exec_jobCancel_cancels hw hp hj ho (cancelJob_active (s := emptySlot l s) hs hc (.inl hwait))
    obtain ⟨hjobs, -, hengine, -, hfilm, -⟩ :=
      activeCancelled_fields (s := emptySlot l s) (j := j) hc hnumber.symm
    obtain ⟨iface, count, htaken, -⟩ := answered_leaves l tag .accepted (activeCancelled j) s
    rw [hexec, htaken]
    refine ⟨_, rfl, ?_⟩
    dsimp only
    rw [hjobs, hengine, hfilm, hnumber, ho]
    exact ⟨rfl, rfl, rfl, rfl, rfl, rfl⟩

end Sys2Proof.Machine
end

