-- ==== Sys2Proof/Proofs/Starts.lean ====
section
/-!
SUPPORT. The two starts and the loss of the supply (R172, R173, R188): the values a start leaves in every block, the
outputs that SUPPLY_LOW turns off, and that LOW takes no command but a start.
-/
namespace Sys2Proof.Machine

variable {s : State}

/-- Settles O3, block by block of the reset tables. -/
theorem resetLeavesTheSpecsValues : Obligations.ResetLeavesTheSpecsValues := by
  unfold Obligations.ResetLeavesTheSpecsValues
  intro s
  refine ⟨?spin, fun l => ?queue, fun l => ?line, ?slots, ⟨rfl, rfl, fun l => ?assembly⟩, ?jobs, ?engine, ?disc,
    ⟨rfl, rfl, rfl, rfl, Oct.get_fill []⟩, ?bank, ?positions, ?motion, ?film⟩
  case queue => cases l <;> exact ⟨rfl, rfl⟩
  case line => cases l <;> exact ⟨rfl, rfl, rfl, rfl, rfl, rfl⟩
  case slots => exact fun m hm => List.eq_of_mem_replicate (n := 4) hm
  case assembly => cases l <;> rfl
  case jobs => exact ⟨rfl, rfl, rfl, rfl, rfl⟩
  case positions => exact ⟨rfl, rfl, rfl, rfl, rfl, rfl, rfl, rfl⟩
  case film => exact ⟨rfl, rfl, rfl, rfl, rfl, rfl⟩
  case motion => exact ⟨rfl, rfl, rfl, rfl, rfl, rfl, rfl, rfl, rfl, rfl⟩
  case bank => exact ⟨rfl, rfl, rfl, rfl, rfl, rfl, rfl, rfl, rfl, rfl, rfl⟩
  case spin | engine => exact ⟨rfl, rfl, rfl, rfl, rfl, rfl, rfl, rfl, rfl, rfl, rfl, rfl⟩
  case disc => exact ⟨rfl, rfl, rfl, rfl, rfl, rfl, rfl, rfl, rfl, rfl, rfl, rfl, rfl, rfl, rfl⟩

/-- In LOW a command that is no start is not taken (R173). -/
theorem exec_low {c : Instr} (h : s.spin.supply = .low) (hsupply : ∀ inp, c ≠ .supplyStart inp)
    (hpower : ∀ inp, c ≠ .powerStart inp) : exec c s = .next s := by
  cases c
  case supplyStart inp => exact absurd rfl (hsupply inp)
  case powerStart inp => exact absurd rfl (hpower inp)
  all_goals exact congrArg _ (powered_low _ h)

theorem exec_supplyStart_low (inp : StartInputs) (h : s.spin.supply = .low) :
    exec (.supplyStart inp) s = .next (started .supply inp s) := by
  simp only [exec, execSupplyStart, h]

/-- A part whose supply is NORMAL takes no supply start (log 28). -/
theorem exec_supplyStart_up (inp : StartInputs) (hu : Up s) : exec (.supplyStart inp) s = .next s := by
  have hnormal : s.spin.supply = .normal := hu
  simp only [exec, execSupplyStart, hnormal]

/-- Settles O56: a start leaves `started`, the loss of the supply `outputsOff`, and LOW is `exec_low`. -/
theorem supplyLossAndTheTwoStarts : Obligations.SupplyLossAndTheTwoStarts := by
  unfold Obligations.SupplyLossAndTheTwoStarts
  intro line fresh
  have hfresh (cause : StartCause) (inp : StartInputs) (s : State) : started cause inp s = fresh cause inp s := rfl
  exact ⟨fun inp s => congrArg Host.Outcome.next (hfresh .power inp s),
    fun inp s h => (exec_supplyStart_low inp h).trans (congrArg _ (hfresh .supply inp s)),
    fun inp s hu => exec_supplyStart_up inp hu, fun s hu => congrArg _ (powered_up outputsOff hu),
    fun c s h hsupply hpower => exec_low h hsupply hpower⟩

end Sys2Proof.Machine
end

