-- ==== Sys2Proof/Proofs/OperatorPanel.lean ====
section
/-!
SUPPORT. SPIN-SET and PANEL-SET with the panel lamps (R168, R176), the unit hold and its release by message and by key
(R155, R172), and the ways into SPIN_UP (R164, R169, R171).
-/
namespace Sys2Proof.Machine

variable {s : State}

/-! ### SPIN-SET and PANEL-SET (R168, R176) -/

/-- SPIN-SET is answered with what `spinSet` makes of it once PASS stands and its body is one byte. -/
theorem exec_spinSet {l : CLine} {tag n : Byte} {body : ReplyBody} {f : State → State}
    (hw : Waits l 0x10 tag [n] s) (hp : Passed l s) (ha : spinSet [n] (emptySlot l s) = (f (emptySlot l s), body)) :
    exec (.spinSet l) s = .next (answered l tag body f s) :=
  congrArg _ (answered_of_act .spinSet l (fun _ d => spinSet d) hw
    (leadingFault_none _ _ _ rfl (fun _ => hp) (wrongOwner_unnamed _ _ _ rfl)) ha)

/-- PANEL-SET is answered with what `panelSet` makes of it once PASS stands and its body is one byte. -/
theorem exec_panelSet {l : CLine} {tag n : Byte} {body : ReplyBody} {f : State → State}
    (hw : Waits l 0x14 tag [n] s) (hp : Passed l s) (ha : panelSet [n] (emptySlot l s) = (f (emptySlot l s), body)) :
    exec (.panelSet l) s = .next (answered l tag body f s) :=
  congrArg _ (answered_of_act .panelSet l (fun _ d => panelSet d) hw
    (leadingFault_none _ _ _ rfl (fun _ => hp) (wrongOwner_unnamed _ _ _ rfl)) ha)

theorem spinSet_eq (n : Byte) (s : State) : spinSet [n] s =
    if n.toNat < 1 ∨ 60 < n.toNat then refuse .range 1 s
    else accept { s with spin := { s.spin with
      parkDelay := n.toNat, parkTimer := s.spin.parkTimer.map fun _ => n.toNat * 6000000 } } := by
  simp only [spinSet, Bool.or_eq_true, decide_eq_true_eq]
  rfl

/-- A timer started again at a new time, if it runs. -/
theorem map_const_eq {α β : Type} [DecidableEq α] (o : Option α) (v : β) :
    (o.map fun _ => v) = if o = none then none else some v := by
  cases o <;> rfl

theorem sourceOf?_code (src : ReadySource) : sourceOf? (byteAt [u8 src.code] 0) = some src := by cases src <;> rfl

theorem sourceOf?_beyond {n : Nat} (h : 4 ≤ n) : sourceOf? n = none := by
  obtain ⟨k, rfl⟩ := Nat.exists_eq_add_of_le' h
  rfl

theorem panelSet_sets (src : ReadySource) (s : State) : panelSet [u8 src.code] s =
    accept { s with spin := { s.spin with readySource := src } } := by
  simp only [panelSet, sourceOf?_code]
  rfl

theorem panelSet_range {n : Byte} (h : 4 ≤ n.toNat) : panelSet [n] s = refuse .range 1 s := by
  have hnone : sourceOf? (byteAt [n] 0) = none := sourceOf?_beyond h
  simp only [panelSet, hnone]

/-! ### The lamps (R176) -/

theorem lamps_up (hu : Up s) : lamps s =
    { ready := readySourceHolds s && s.spin.unit != .faulted
      disc := if s.spin.unit = .discChange then s.spin.requested else none
      filmSteady := s.drive.film.out
      filmBlinking := s.drive.film.low && !s.drive.film.out
      hold := s.spin.hold
      fault := s.spin.unit == .faulted } := by
  have hnormal : s.spin.supply = .normal := hu
  simp only [lamps, hnormal]

theorem lamps_low (h : s.spin.supply = .low) : lamps s =
    { ready := false, disc := none, filmSteady := false, filmBlinking := false, hold := false, fault := false } := by
  simp only [lamps, h]

/-- Settles O27: the two messages are `spinSet_eq` and `panelSet_sets`, the lamps `lamps_up` and `lamps_low`. -/
theorem spinSetAndPanelSetTakeTheirValue : Obligations.SpinSetAndPanelSetTakeTheirValue := by
  unfold Obligations.SpinSetAndPanelSetTakeTheirValue
  refine ⟨fun l tag n s hw hp => ?spin, fun l tag src s hw hp => exec_panelSet hw hp (panelSet_sets src _),
    fun l tag n s hw hp hn => exec_panelSet hw hp (panelSet_range hn), fun s hu => ?lamps, fun s h => lamps_low h⟩
  case spin =>
    have hspin := spinSet_eq n (emptySlot l s)
    by_cases hn : n.toNat < 1 ∨ 60 < n.toNat
    · rw [if_pos hn] at hspin ⊢
      exact exec_spinSet hw hp hspin
    · rw [if_neg hn, map_const_eq] at hspin
      rw [if_neg hn]
      exact exec_spinSet hw hp hspin
  case lamps =>
    intro holds
    have hready : readySourceHolds s = true ↔ holds := by
      simp only [holds, readySourceHolds]
      cases s.spin.readySource
      case lineA | lineB => exact Iff.rfl
      case either => exact Bool.or_eq_true_iff
      case both => exact Bool.and_eq_true_iff
    rw [lamps_up hu]
    refine ⟨?_, rfl, rfl, ?_, rfl, beq_iff_eq⟩
    · rw [Bool.and_eq_true, hready, bne_iff_ne]
    · rw [Bool.and_eq_true, Bool.not_eq_true']

/-! ### UNIT-HOLD and UNIT-RUN (R155, R172) -/

/-- UNIT-HOLD is accepted once PASS stands. -/
theorem exec_unitHold {l : CLine} {tag : Byte} (hw : Waits l 0x11 tag [] s) (hp : Passed l s) :
    exec (.unitHold l) s = .next (answered l tag .accepted setHold s) :=
  congrArg _ (answered_of_act .unitHold l (fun _ _ s => accept (setHold s)) hw
    (leadingFault_none _ _ _ rfl (fun _ => hp) (wrongOwner_unnamed _ _ _ rfl)) rfl)

/-- UNIT-RUN is accepted once PASS stands, with whatever the clearing of the hold comes to. -/
theorem exec_unitRun {l : CLine} {tag : Byte} {f : State → State} (hw : Waits l 0x12 tag [] s) (hp : Passed l s)
    (hf : clearHold (emptySlot l s) = f (emptySlot l s)) :
    exec (.unitRun l) s = .next (answered l tag .accepted f s) :=
  congrArg _ (answered_of_act .unitRun l (fun _ _ s => accept (clearHold s)) hw
    (leadingFault_none _ _ _ rfl (fun _ => hp) (wrongOwner_unnamed _ _ _ rfl)) (congrArg accept hf))

/-- Outside FAULTED the RUN key clears the hold. -/
theorem exec_runKey_clears (hu : Up s) (hf : s.spin.unit ≠ .faulted) : exec .runKey s = .next (clearHold s) :=
  congrArg _ ((powered_up runKey hu).trans (if_neg hf))

theorem unheld_of_clear (h : s.spin.hold = false) : unheld s = s := by
  rw [unheld, ← h]

theorem clearHold_clear (h : s.spin.hold = false) : clearHold s = s := if_neg (by rw [h]; exact Bool.false_ne_true)

theorem clearHold_held (h : s.spin.hold = true) :
    clearHold s = carryOn (restartStarvation (selectionPoint (unheld s))) := if_pos h

/-- While a line is being flashed nothing follows the clearing of the hold. -/
theorem clearHold_flashing (h : Flashing s) : clearHold s = unheld s := by
  cases hh : s.spin.hold with
  | false => rw [clearHold_clear hh, unheld_of_clear hh]
  | true =>
    have hflashing : Flashing (unheld s) := h
    obtain ⟨hflash, hcurrent, -⟩ := h
    rw [clearHold_held hh, selectionPoint_flashing hflashing,
      restartStarvation_notStarved (s := unheld s) (.inr (Option.isSome_iff_ne_none.1 hcurrent)),
      carryOn_flash (s := unheld s) hflash]

/-- A part without jobs makes no selection as the hold is cleared. -/
theorem clearHold_noJobs (hj : s.jobs = []) (he : s.engine.state = .idle) : clearHold s = unheld s := by
  cases hh : s.spin.hold with
  | false => rw [clearHold_clear hh, unheld_of_clear hh]
  | true =>
    have hactive : activeJob (unheld s) = none := by simp [activeJob, unheld, hj]
    have hwinner : winner (unheld s) = none := by simp [winner_eq_none, unheld, hj]
    rw [clearHold_held hh, selectionPoint_free (s := unheld s) he hactive, selectFree_nothing (.inl hwinner),
      restartStarvation_notStarved (.inl hactive), carryOn_noEndWaits (noEndWaits_of_idle (s := unheld s) he)]

/-- The only job, ACTIVE and without a line, is starved at its boundary, and nothing else is judged of it (R151). -/
theorem atBoundary_starves {j : Job} (hj : s.jobs = [j]) (hl : s.store.lines = []) (hd : j.held = false)
    (hf : j.final = none) (hh : s.spin.hold = false) (hg : s.seq.grace = false) : atBoundary j s = starved s := by
  have hgrace : graceIsOver j s = false := by simp [graceIsOver, hg]
  have hnoHigher : (s.jobs.any fun k => k.eligible && decide (j.cls.rank < k.cls.rank)) = false := by simp [hj]
  have hnoLine : headLine s.store.lines j.number = none := by simp [headLine, hl]
  simp [atBoundary, boundaryGoesOn, hf, hd, hh, hgrace, hnoHigher, hnoLine]

theorem isStarved_of_noLine {j : Job} (ha : activeJob s = some j) (hc : s.engine.current = none)
    (hl : s.store.lines = []) : isStarved s = true := by
  simp [isStarved, ha, hc, hl, headLine]

/-- A starved job's timer starts again at 5 s, whatever is left of it. -/
theorem restartStarvation_starved (h : isStarved s = true) :
    restartStarvation s = { s with seq := { s.seq with starve := some 500000 } } := if_pos h

/-- The only job, ACTIVE and starved, has its 5 s again as the hold is cleared. -/
theorem clearHold_starves {j : Job} (hj : s.jobs = [j]) (ha : j.state = .active) (hd : j.held = false)
    (hf : j.final = none) (hl : s.store.lines = []) (he : s.engine.state = .idle) (hc : s.engine.current = none)
    (hg : s.seq.grace = false) (hh : s.spin.hold = true) :
    clearHold s = { unheld s with seq := { s.seq with starve := some 500000 } } := by
  have hactive : activeJob (unheld s) = some j := by simp [activeJob, unheld, hj, ha]
  have hpoint : selectionPoint (unheld s) = starved (unheld s) := by
    have hboundary := atBoundary_starves (s := unheld s) hj hl hd hf rfl hg
    have hstate : (unheld s).engine.state ≠ .closing := by
      show s.engine.state ≠ .closing
      rw [he]
      exact EngineState.noConfusion
    have hnone : (unheld s).engine.current = none := hc
    simp only [selectionPoint, if_neg hstate, hactive, hnone, hboundary]
    rfl
  have htimer :
      restartStarvation (starved (unheld s)) = { unheld s with seq := { s.seq with starve := some 500000 } } := by
    unfold starved
    split <;> exact restartStarvation_starved (isStarved_of_noLine hactive hc hl)
  rw [clearHold_held hh, hpoint, htimer]
  exact carryOn_noEndWaits (noEndWaits_of_idle (s := { unheld s with seq := _ }) he)

/-- Settles O28: the hold is `setHold`; its clearing is `clearHold_flashing`, `clearHold_noJobs` or
`clearHold_starves`, by message and by key. -/
theorem holdAndRunSetAndClearTheFlag : Obligations.HoldAndRunSetAndClearTheFlag := by
  unfold Obligations.HoldAndRunSetAndClearTheFlag
  intro holds runs restarts quiet starves
  have hquiet (u : State) (h : quiet u) : clearHold u = runs u :=
    h.elim clearHold_flashing fun ⟨hj, he⟩ => clearHold_noJobs hj he
  have hstarves (u : State) (hh : u.spin.hold = true) (h : starves u) : clearHold u = restarts u := by
    obtain ⟨j, hj, ha, hd, hf, hl, he, hc, hg⟩ := h
    exact clearHold_starves hj ha hd hf hl he hc hg hh
  refine ⟨fun l tag s hw hp => exec_unitHold hw hp, fun s hu => congrArg _ (powered_up setHold hu),
    fun l tag s hw hp => ⟨fun h => ?_, fun hh h => ?_⟩, fun s hu hf => ⟨fun h => ?_, fun hh h => ?_⟩⟩
  · exact exec_unitRun hw hp (hquiet (emptySlot l s) h)
  · exact exec_unitRun hw hp (hstarves (emptySlot l s) hh h)
  · rw [exec_runKey_clears hu hf, hquiet s h]
  · rw [exec_runKey_clears hu hf, hstarves s hh h]

/-! ### The ways into SPIN_UP (R164, R169, R171) -/

/-- RESTART is answered with what `restart` makes of it once PASS stands. -/
theorem exec_restart {l : CLine} {tag : Byte} {body : ReplyBody} {f : State → State} (hw : Waits l 0x13 tag [] s)
    (hp : Passed l s) (ha : restart (emptySlot l s) = (f (emptySlot l s), body)) :
    exec (.restart l) s = .next (answered l tag body f s) :=
  congrArg _ (answered_of_act .restart l (fun _ _ => restart) hw
    (leadingFault_none _ _ _ rfl (fun _ => hp) (wrongOwner_unnamed _ _ _ rfl)) ha)

theorem restart_faulted (h : s.spin.unit = .faulted) : restart s = accept (enterSpinUp s) := if_pos h

theorem restart_elsewhere (h : s.spin.unit ≠ .faulted) : restart s = refuse .state 0 s := if_neg h

/-- In FAULTED the RUN key restarts the unit. -/
theorem exec_runKey_faulted (hu : Up s) (hf : s.spin.unit = .faulted) : exec .runKey s = .next (enterSpinUp s) :=
  congrArg _ ((powered_up runKey hu).trans (if_pos hf))

theorem exec_discDoneKey (hu : Up s) : exec .discDoneKey s =
    .next (if s.spin.unit = .discChange then enterSpinUp s else s) := congrArg _ (powered_up _ hu)

/-- The spin-up leaves the maps, the lines, the sequencer and the Trim Unit (R164). -/
theorem enterSpinUp_keeps (s : State) : (enterSpinUp s).maps = s.maps ∧ (enterSpinUp s).store = s.store
    ∧ (enterSpinUp s).seq = s.seq ∧ (enterSpinUp s).trim = s.trim := by
  simp [enterSpinUp, setUnit]

/-- The first leg of homing goes out of a sensor that is active, and seeks one that is not (R124). -/
theorem firstLeg_eq_out_iff (active : Bool) : firstLeg active = .out ↔ active = true := by cases active <;> decide

section
variable {d : Drive}

theorem Drive.homeCarriage_atRest (h : d.carriage.act = .atRest) :
    d.homeCarriage.act = .homing (firstLeg d.sensors.carriage)
      ∧ d.homeCarriage.stepDir = if firstLeg d.sensors.carriage = .out then .ascending else .descending := by
  rw [Drive.homeCarriage, if_pos h]
  cases hs : d.sensors.carriage <;> exact ⟨rfl, rfl⟩

theorem Drive.homeCarriage_moving (h : d.carriage.act ≠ .atRest) : d.homeCarriage = d.carriage := if_neg h

theorem Drive.homeDeflector_atRest (h : d.deflector.act = .atRest) :
    d.homeDeflector.act = .homing (firstLeg d.sensors.deflTrack)
      ∧ d.homeDeflector.step = if firstLeg d.sensors.deflTrack = .out then .trackUp else .trackDown := by
  rw [Drive.homeDeflector, if_pos h]
  cases hs : d.sensors.deflTrack <;> exact ⟨rfl, rfl⟩

theorem Drive.homeDeflector_moving (h : d.deflector.act ≠ .atRest) : d.homeDeflector = d.deflector := if_neg h

theorem Drive.homeTurret_atRest (h : d.turret.act = .atRest) :
    d.homeTurret.act = .homing (firstLeg d.sensors.turret)
      ∧ d.homeTurret.forward = decide (firstLeg d.sensors.turret = .out) := by
  rw [Drive.homeTurret, if_pos h]
  exact ⟨rfl, rfl⟩

theorem Drive.homeTurret_moving (h : d.turret.act ≠ .atRest) : d.homeTurret = d.turret := if_neg h

end

/-- Settles O29: each entry is `enterSpinUp`, whose homing of a mechanism at rest is its `_atRest` lemma, and of one in
motion its `_moving` lemma. -/
theorem spinUpStartsMotorHomingAndTimer : Obligations.SpinUpStartsMotorHomingAndTimer := by
  unfold Obligations.SpinUpStartsMotorHomingAndTimer
  intro spunUp
  have hspun (s : State) : spunUp s (enterSpinUp s) := by
    obtain ⟨hjobs, hqueues, hengine⟩ := enterSpinUp_leaves s
    obtain ⟨hmaps, hstore, hseq, htrim⟩ := enterSpinUp_keeps s
    refine ⟨rfl, rfl, rfl, ⟨rfl, rfl, rfl, rfl, rfl, rfl⟩, fun h => ?_, fun h => ?_, fun h => ?_,
      Drive.homeCarriage_moving, Drive.homeDeflector_moving, Drive.homeTurret_moving, hqueues, hmaps, hstore, hjobs,
      hseq, hengine, htrim⟩
    · obtain ⟨hact, hdir⟩ := Drive.homeCarriage_atRest h
      exact ⟨_, hact, firstLeg_eq_out_iff _, hdir⟩
    · obtain ⟨hact, hstep⟩ := Drive.homeDeflector_atRest h
      exact ⟨_, hact, firstLeg_eq_out_iff _, hstep⟩
    · obtain ⟨hact, hforward⟩ := Drive.homeTurret_atRest h
      exact ⟨_, hact, firstLeg_eq_out_iff _, hforward⟩
  refine ⟨fun l tag s hw hp hf => ⟨enterSpinUp, hspun (emptySlot l s), ?restart⟩, fun l tag s hw hp hf => ?refused,
    fun s hu hf => ⟨_, exec_runKey_faulted hu hf, hspun s⟩, fun s hu hd => ⟨enterSpinUp s, ?discDone, hspun s⟩,
    fun s hu hd => ?elsewhere⟩
  case restart => exact exec_restart hw hp (restart_faulted (s := emptySlot l s) hf)
  case refused => exact exec_restart (f := id) hw hp (restart_elsewhere (s := emptySlot l s) hf)
  case discDone => rw [exec_discDoneKey hu, if_pos hd]
  case elsewhere => rw [exec_discDoneKey hu, if_neg hd]

end Sys2Proof.Machine
end

