-- ==== Sys2Proof/Proofs/LineReset.lean ====
section
/-!
SUPPORT. RESET as a message of two rows (R174, R175), and the line reset: what goes with one line.
-/
namespace Sys2Proof.Machine

variable {s : State}

/-! ### The two rows of RESET (R174, R175, log 9) -/

/-- A waiting message of a kind with several rows is answered by a row that takes its body. -/
theorem answered_of_row (k : MsgKind) (l : CLine) {mine : List Byte → Bool} (act : Bool → List Byte → State → Handled)
    {tag : Byte} {d : List Byte} {body : ReplyBody} {f : State → State} (hw : Waits l k.code tag d s)
    (hm : mine d = true) (hl : leadingFault k l d s = none)
    (ha : act false d (emptySlot l s) = (f (emptySlot l s), body)) :
    powered s (handle k l mine act) = answered l tag body f s := by
  rw [handled k l mine act tag d hw hm hl, ha]
  rfl

/-- A row of RESET takes its own scope, and a scope beyond the list. -/
theorem choiceOr_scope {n : Byte} {scope : Nat} (h : n.toNat = scope ∨ 2 ≤ n.toNat) :
    choiceOr 1 scope 2 [n] = true := by
  show (false || n.toNat == scope || decide (2 ≤ n.toNat)) = true
  simpa using h

/-- A RESET of one byte passes the leading checks if PASS stands, and with scope LINE without it (R186, R192). -/
theorem leadingFault_reset {l : CLine} {n : Byte} (h : n.toNat ≠ 1 → Passed l s) :
    leadingFault .reset l [n] s = none :=
  leadingFault_none _ _ _ rfl (fun hn => h (bne_iff_ne.1 hn)) (wrongOwner_unnamed _ _ _ rfl)

section
variable {l : CLine} {tag n : Byte} {body : ReplyBody} {f : State → State} (hw : Waits l 0x15 tag [n] s)
include hw

theorem exec_resetUnit (hp : Passed l s) (hn : n.toNat = 0 ∨ 2 ≤ n.toNat)
    (ha : resetUnit [n] (emptySlot l s) = (f (emptySlot l s), body)) :
    exec (.resetUnit l) s = .next (answered l tag body f s) :=
  congrArg _ (answered_of_row .reset l (fun _ d => resetUnit d) hw (choiceOr_scope hn)
    (leadingFault_reset fun _ => hp) ha)

theorem exec_resetLine (hp : n.toNat ≠ 1 → Passed l s) (hn : n.toNat = 1 ∨ 2 ≤ n.toNat)
    (ha : resetLine l [n] (emptySlot l s) = (f (emptySlot l s), body)) :
    exec (.resetLine l) s = .next (answered l tag body f s) :=
  congrArg _ (answered_of_row .reset l (fun _ d => resetLine l d) hw (choiceOr_scope hn) (leadingFault_reset hp) ha)

end

/-! ### The line reset (R175) -/

/-- The part with PASS, run, slot, overrun and queue of a line cleared, before its assembly is dropped. -/
def lineCleared (l : CLine) (s : State) : State := { s with
  iface := s.iface.set l { s.iface.get l with pass := false, run := 0, slot := none, overrun := false }
  queues := s.queues.set l Queue.empty }

theorem lineReset_eq (l : CLine) (s : State) :
    lineReset l s = post l .lineReset (discardAssembly l (some .lineReset) (lineCleared l s)) := rfl

/-- The assembly open on the line goes back to the pool; LINE_RESET follows its drop, or stands alone. -/
theorem lineReset_reaches (l : CLine) (s : State) : lineReset l s = { lineCleared l s with
    queues := s.queues.set l { lost := false, events := match s.store.assembly.get l with
      | none => [.lineReset]
      | some a => [.assemblyDropped a.header.job a.header.line .lineReset, .lineReset] }
    store := match s.store.assembly.get l with
      | none => s.store
      | some a => { s.store with assembly := s.store.assembly.set l none
                                 freeCells := s.store.freeCells + a.header.count } } := by
  rw [lineReset_eq]
  cases ha : s.store.assembly.get l with
  | none =>
    rw [discardAssembly_of_none (s := lineCleared l s) _ ha]
    cases l <;> rfl
  | some a =>
    rw [discardAssembly_of_some (s := lineCleared l s) _ ha]
    cases l <;> rfl

/-- Settles O31: with scope LINE the effect is `lineReset_reaches`, and beyond the scopes both rows refuse. -/
theorem aLineResetReachesItsLineOnly : Obligations.ALineResetReachesItsLineOnly := by
  unfold Obligations.ALineResetReachesItsLineOnly
  refine ⟨fun l tag s hw => ?line, fun l tag n s hw hp hn => ⟨?beyond, ?beyondUnit⟩⟩
  case line =>
    exact exec_resetLine hw (fun h => absurd rfl h) (.inl rfl) (congrArg accept (lineReset_reaches l (emptySlot l s)))
  case beyond =>
    have hscope : byteAt [n] 0 ≠ 1 := Nat.ne_of_gt hn
    exact exec_resetLine (f := id) hw (fun _ => hp) (.inr hn) (if_neg hscope)
  case beyondUnit =>
    have hscope : byteAt [n] 0 ≠ 0 := Nat.ne_of_gt (Nat.lt_of_lt_of_le Nat.zero_lt_two hn)
    exact exec_resetUnit (f := id) hw hp (.inr hn) (if_neg hscope)

end Sys2Proof.Machine
end

