-- ==== Sys2Proof/Proofs/Abandonment.lean ====
section
/-!
SUPPORT. What the end of a search, by a halt or by a flush of the trim queue (R96, R97), leaves of the engine, and what
the abandonment of the current line (R67) comes to whatever its cause.
-/
namespace Sys2Proof.Machine

variable {s u : State}

/-! ### What the end of a search keeps (R96, R97) -/

/-- A property that the operations keep by which a search ends: records put back, changes of the Trim Unit, and the
removal of the test item with the voiding of its watch. -/
structure KeptBySearchEnd (P : State → Prop) : Prop where
  put : ∀ t r v, P v → P (putRec t r v)
  trim : ∀ f v, P v → P (v.modTrim f)
  drop : ∀ v, P v → P (voidWatch (removeTest v))

section
variable {P : State → Prop} (hP : KeptBySearchEnd P)
include hP

theorem KeptBySearchEnd.dropSearch (h : P s) : P (dropSearch s) := by
  unfold Machine.dropSearch
  split
  · exact h
  · exact hP.drop _ (hP.trim _ _ h)

theorem KeptBySearchEnd.takeBack (t : Track) (h : P s) : P (takeBack s t) := by
  unfold Machine.takeBack
  dsimp only
  split
  · split
    · exact hP.put _ _ _ h
    · exact h
  · exact h

theorem KeptBySearchEnd.foldl_takeBack (ts : List Track) (h : P s) : P (ts.foldl Machine.takeBack s) := by
  induction ts generalizing s with
  | nil => exact h
  | cons t ts ih => exact ih (hP.takeBack t h)

theorem KeptBySearchEnd.flushTrims (disc : Nat) (h : P s) : P (flushTrims disc s) := by
  unfold Machine.flushTrims clearWindows
  exact hP.trim _ _ (hP.trim _ _ (hP.foldl_takeBack _ (hP.dropSearch h)))

theorem KeptBySearchEnd.haltSearch (h : P s) : P (haltSearch s) := by
  unfold Machine.haltSearch
  split
  · exact h
  · exact hP.trim _ _ (hP.put _ _ _ (hP.dropSearch h))

end

/-- The two states at a stop, between which the engine goes as it takes notice of a record (R63), told as one. -/
def EngineState.atStop : EngineState → EngineState
  | .waitTrack => .flash
  | st => st

theorem EngineState.atStop_eq_idle {st : EngineState} : st.atStop = .idle ↔ st = .idle := by cases st <;> decide

theorem EngineState.atStop_eq_closing {st : EngineState} : st.atStop = .closing ↔ st = .closing := by
  cases st <;> decide

/-- What the end of a search leaves of the engine: all but the ring, the watch, and which of the two states at a stop it
is in. -/
def Engine.besideSearch (e : Engine) : Engine := { e with state := e.state.atStop, ring := [], watch := none }

theorem trackNotice_besideSearch (s : State) : (trackNotice s).engine.besideSearch = s.engine.besideSearch := by
  unfold trackNotice
  split
  next he =>
    split
    · simp only [Engine.besideSearch, State.modEngine_engine, he, EngineState.atStop]
    · rfl
  next he =>
    split
    · rfl
    · simp only [Engine.besideSearch, State.modEngine_engine, he, EngineState.atStop]
  all_goals rfl

theorem putRec_besideSearch (t : Track) (r : TrimRec) (s : State) :
    (putRec t r s).engine.besideSearch = s.engine.besideSearch := by
  unfold putRec
  dsimp only
  rw [trackNotice_besideSearch]
  split <;> rfl

theorem keptBySearchEnd_besideSearch (e : Engine) : KeptBySearchEnd fun v => v.engine.besideSearch = e where
  put t r v h := (putRec_besideSearch t r v).trans h
  trim _ _ h := h
  drop _ h := h

theorem flushTrims_besideSearch (disc : Nat) (s : State) :
    (flushTrims disc s).engine.besideSearch = s.engine.besideSearch :=
  (keptBySearchEnd_besideSearch _).flushTrims disc rfl

theorem haltSearch_besideSearch (s : State) : (haltSearch s).engine.besideSearch = s.engine.besideSearch :=
  (keptBySearchEnd_besideSearch _).haltSearch rfl

section
variable (h : u.engine.besideSearch = s.engine.besideSearch)
include h

/-- An engine that is IDLE is IDLE before and after, and so is one that is CLOSING. -/
theorem states_of_besideSearch : (u.engine.state = .idle ↔ s.engine.state = .idle)
    ∧ (u.engine.state = .closing ↔ s.engine.state = .closing) := by
  have hstate : u.engine.state.atStop = s.engine.state.atStop := congrArg Engine.state h
  rw [← EngineState.atStop_eq_idle, ← EngineState.atStop_eq_closing, hstate, EngineState.atStop_eq_idle,
    EngineState.atStop_eq_closing]
  exact ⟨Iff.rfl, Iff.rfl⟩

end

/-! ### The abandonment of the current line (R67) -/

/-- The part with its current line `r` given up, before the deflector is sent to a test item that is left and a unit
that was EXPOSING is READY. -/
def lineGivenUp (cause : AbandonCause) (track : Option Track) (r : LineRef) (s : State) : State :=
  let left := s.engine.ring.filter fun it => !it.isExposure
  { s with
    queues := (postAbandoned r cause track s).queues
    store := (setCurrent r.job r.line false s).store
    engine := { s.engine with
      state := .idle, current := none, stops := [], stopNo := 0, ring := left, watch := (detachWatch s).engine.watch
      stuck := 0, misreg := 0, deferral := 0, firedSinceIndex := false }
    disc := { s.disc with channel := left.head?.map Item.target }
    drive := s.drive.stop }

theorem abandon_none (cause : AbandonCause) (track : Option Track) (hc : s.engine.current = none) :
    abandon cause track s = s := by
  simp only [abandon, hc]

/-- The report of an abandonment changes the queues alone. -/
theorem postAbandoned_eq (cause : AbandonCause) (track : Option Track) (r : LineRef) (s : State) :
    postAbandoned r cause track s = { s with queues := (postAbandoned r cause track s).queues } := by
  cases cause <;> rfl

theorem abandon_current (cause : AbandonCause) (track : Option Track) {r : LineRef}
    (hc : s.engine.current = some r) : abandon cause track s =
      if s.spin.unit = .exposing then setUnit .ready (aim (lineGivenUp cause track r s))
      else aim (lineGivenUp cause track r s) := by
  have hunit : (aim (lineGivenUp cause track r s)).spin.unit = s.spin.unit :=
    congrArg (fun x => x.spin.unit) (standing_aim (lineGivenUp cause track r s))
  have hposted := postAbandoned_eq cause track r s
  rw [← hunit]
  simp only [abandon, hc]
  unfold lineGivenUp
  generalize (postAbandoned r cause track s).queues = q at hposted
  rw [hposted]
  rfl

end Sys2Proof.Machine
end

