-- ==== Sys2Proof/Proofs/Faults.lean ====
section
/-!
SUPPORT. A fault handed to Spin Control (R157, R170) by one of the five limits (R81, R82, R113, R125): when a limit
raises its fault, what the entry to FAULTED stops, and what becomes of the ACTIVE job, its line and its galley.
-/
namespace Sys2Proof.Machine

variable {s u : State} {c : Instr} {kind : FaultKind} {detail : Int}

/-! ### The five limits (log 3) -/

theorem limitFault_eq (timer : Option Nat) (kind : FaultKind) (detail : Int) (s : State) :
    limitFault timer kind detail s =
      (if timer = some 0 then some (kind, detail) else none).elim s fun f => handFault f.1 f.2 s := by
  simp only [limitFault, runOut_iff]
  split <;> rfl

/-- A limit hands over the fault it raises, and does nothing if it raises none. -/
theorem exec_limit (hu : Up s) (hc : isLimit c = true) :
    exec c s = .next ((raises c s).elim s fun f => handFault f.1 f.2 s) := by
  cases c
  case spinupFault | stall | speedFault | chargeFault =>
    exact congrArg _ ((powered_up _ hu).trans (limitFault_eq _ _ _ s))
  case homeFault m =>
    refine congrArg _ ((powered_up _ hu).trans ?_)
    cases m <;> exact limitFault_eq _ _ _ s
  all_goals cases hc

/-- Only a limit raises a fault. -/
theorem isLimit_of_raises (h : raises c s = some (kind, detail)) : isLimit c = true := by
  cases c
  case spinupFault | stall | speedFault | chargeFault | homeFault => rfl
  all_goals cases h

theorem exec_noFault (hu : Up s) (hc : isLimit c = true) (h : raises c s = none) : exec c s = .next s := by
  rw [exec_limit hu hc, h]
  rfl

theorem exec_fault (hu : Up s) (h : raises c s = some (kind, detail)) :
    exec c s = .next (handFault kind detail s) := by
  rw [exec_limit hu (isLimit_of_raises h), h]
  rfl

/-! ### The entry to FAULTED (R163, R170) -/

/-- The part with a fault's event posted and the unit FAULTED, before its ACTIVE job is judged. -/
def unitFaulted (kind : FaultKind) (detail : Int) (s : State) : State :=
  enterFaulted kind detail (postBoth (.fault kind detail) s)

theorem handFault_disregarded (h : s.spin.unit.spinning = false) : handFault kind detail s = s :=
  if_neg (by rw [h]; exact Bool.false_ne_true)

theorem handFault_taken (h : s.spin.unit.spinning = true) : handFault kind detail s =
    carryOn (faultClose ((activeJob s).map fun j => (j.number, j.owner)) (faultJob (unitFaulted kind detail s))) :=
  if_pos h

theorem unitFaulted_fields (kind : FaultKind) (detail : Int) (s : State) :
    (unitFaulted kind detail s).spin = { s.spin with
        unit := .faulted, motor := false, parkTimer := none, lastFault := some { kind := kind, detail := detail } }
      ∧ (unitFaulted kind detail s).bank = { s.bank with charger := false, strobeHeld := true, watch := none }
      ∧ ((unitFaulted kind detail s).disc.valid = false ∧ (unitFaulted kind detail s).disc.locked = false
        ∧ (unitFaulted kind detail s).disc.lockRun = 0 ∧ (unitFaulted kind detail s).disc.spinup = none
        ∧ (unitFaulted kind detail s).disc.stall = none ∧ (unitFaulted kind detail s).disc.unlock = none)
      ∧ (unitFaulted kind detail s).drive = s.drive.stopHoming
      ∧ (unitFaulted kind detail s).queues = (postBoth (.fault kind detail) s).queues
      ∧ (unitFaulted kind detail s).jobs = s.jobs ∧ (unitFaulted kind detail s).store = s.store
      ∧ (unitFaulted kind detail s).iface = s.iface := by
  have haside := aside_haltSearch (stopDisc (setUnit .faulted (postBoth (.fault kind detail) s)))
  rw [aside, aside, Aside.mk.injEq] at haside
  obtain ⟨hiface, hqueues, hstore, hjobs, -, hdisc, hbank, hdrive, hspin⟩ := haside
  rw [Disc.mk.injEq] at hdisc
  simp only [unitFaulted, enterFaulted, State.modSpin_spin, State.modSpin_bank, State.modSpin_disc, State.modSpin_drive,
    State.modSpin_queues, State.modSpin_jobs, State.modSpin_store, State.modSpin_iface, hspin, hbank, hdisc, hdrive,
    hqueues, hjobs, hstore, hiface]
  simp [stopDisc, setUnit, postBoth, post, UnitState.spinning]

theorem unitFaulted_besideSearch (kind : FaultKind) (detail : Int) (s : State) :
    (unitFaulted kind detail s).engine.besideSearch = s.engine.besideSearch := by
  simp only [unitFaulted, enterFaulted, State.modSpin_engine, haltSearch_besideSearch]
  simp [stopDisc, setUnit, postBoth, post]

/-- The search in progress goes back to the head of the queue (R97). -/
theorem unitFaulted_trim (kind : FaultKind) (detail : Int) (s : State) :
    (unitFaulted kind detail s).trim.search = none
      ∧ (unitFaulted kind detail s).trim.queue = (match s.trim.search with
        | some x => x.track :: s.trim.queue
        | none => s.trim.queue) :=
  haltSearch_trim (stopDisc (setUnit .faulted (postBoth (.fault kind detail) s)))

theorem Carriage.stopHoming_act (c : Carriage) : c.stopHoming.act = (match c.act with
    | .homing _ => .stepping
    | a => a) := by
  unfold Carriage.stopHoming
  split <;> simp only [*]

/-! ### The ACTIVE job and its line (R67, R157) -/

/-- The abandonment of a FAULTED unit's line, if it has one, moves neither Spin Control nor the film counted, and orders
no close. -/
theorem abandon_faulted (cause : AbandonCause) (track : Option Track) (hf : s.spin.unit = .faulted) :
    (abandon cause track s).spin = s.spin ∧ (abandon cause track s).jobs = s.jobs
      ∧ (abandon cause track s).drive.film.remaining = s.drive.film.remaining
      ∧ (abandon cause track s).drive.film.galleyOpen = s.drive.film.galleyOpen
      ∧ (s.drive.carriage.act = .stepping → (abandon cause track s).drive.carriage.act = .stepping)
      ∧ (s.engine.state ≠ .closing → (abandon cause track s).engine.state ≠ .closing) := by
  cases hc : s.engine.current with
  | none =>
    rw [abandon_none cause track hc]
    exact ⟨rfl, rfl, rfl, rfl, id, id⟩
  | some r =>
    have hunit : s.spin.unit ≠ .exposing := by
      rw [hf]
      exact UnitState.noConfusion
    have hstanding := standing_aim (lineGivenUp cause track r s)
    have hcarriage : (aim (lineGivenUp cause track r s)).drive.carriage = s.drive.carriage.stop :=
      congrArg Standing.carriage hstanding
    rw [abandon_current cause track hc, if_neg hunit]
    refine ⟨congrArg Standing.spin hstanding, congrArg Standing.jobs hstanding,
      congrArg (fun x => x.film.remaining) hstanding, congrArg (fun x => x.film.galleyOpen) hstanding, fun h => ?_,
      fun _ => ?_⟩
    · rw [hcarriage, Carriage.stop_stepping h]
      exact h
    · rw [aim_engine]
      exact EngineState.noConfusion

/-- A job's suspension changes its record, the sequencer and the queues alone. -/
theorem suspendJob_eq (j : Job) (left : JobState) (reason : SuspendReason) (s : State) : suspendJob j left reason s =
    { s with
      jobs := s.jobs.map fun k => if k.number = j.number then { k with state := left, reason := some reason } else k
      seq := { s.seq with starve := none, grace := false }
      queues := (post j.owner (.jobSuspended j.number reason j.committed j.setCount) s).queues } := rfl

/-- What becomes of the ACTIVE job and its line moves neither Spin Control nor the film counted, and orders no close. -/
theorem faultJob_leaves (hf : s.spin.unit = .faulted) : (faultJob s).spin = s.spin
    ∧ (faultJob s).drive.film.remaining = s.drive.film.remaining
    ∧ (faultJob s).drive.film.galleyOpen = s.drive.film.galleyOpen
    ∧ (s.drive.carriage.act = .stepping → (faultJob s).drive.carriage.act = .stepping)
    ∧ (s.engine.state ≠ .closing → (faultJob s).engine.state ≠ .closing) := by
  obtain ⟨hspin, -, hremaining, hgalley, hcarriage, hstate⟩ := abandon_faulted .fault none hf
  unfold faultJob
  dsimp only
  split
  · exact ⟨hspin, hremaining, hgalley, hcarriage, hstate⟩
  · rw [suspendJob_eq]
    exact ⟨hspin, hremaining, hgalley, hcarriage, hstate⟩

theorem faultJob_idle (hc : s.engine.current = none) (ha : activeJob s = none) : faultJob s = s := by
  simp only [faultJob, abandon_none .fault none hc, ha]

/-- The ACTIVE job of a FAULTED unit has its line given up, and is SUSPENDED. -/
theorem faultJob_suspends {j : Job} {r : LineRef} (hf : s.spin.unit = .faulted) (hc : s.engine.current = some r)
    (ha : activeJob s = some j) :
    faultJob s = suspendJob j .suspended .fault (aim (lineGivenUp .fault none r s)) := by
  have hunit : s.spin.unit ≠ .exposing := by
    rw [hf]
    exact UnitState.noConfusion
  have hactive : activeJob (aim (lineGivenUp .fault none r s)) = some j :=
    (activeJob_congr (congrArg Standing.jobs (standing_aim (lineGivenUp .fault none r s)))).trans ha
  simp only [faultJob, abandon_current .fault none hc, if_neg hunit, hactive]

/-! ### The galley close (R153, R170) -/

theorem faultClose_orders (job : Option (Nat × CLine)) (hg : s.drive.film.galleyOpen = true)
    (he : s.engine.state ≠ .closing) : faultClose job s = orderClose job s :=
  if_pos (by rw [hg, Bool.true_and, bne_iff_ne]; exact he)

theorem faultClose_closed (job : Option (Nat × CLine)) (hg : s.drive.film.galleyOpen = false) :
    faultClose job s = s :=
  if_neg (by rw [hg]; exact Bool.false_ne_true)

/-- A close ordered while the carriage is in motion waits for it. -/
theorem carryOn_orderClose (job : Option (Nat × CLine)) (h : s.drive.carriage.act = .stepping) :
    carryOn (orderClose job s) = orderClose job s := by
  refine carryOn_noEndWaits (noEndWaits_of_carriage ?_)
  show s.drive.carriage.act ≠ .atRest
  rw [h]
  exact Activity.noConfusion

/-- A fault that finds the galley open orders its close, which waits for the carriage. -/
theorem handFault_closes (hs : s.spin.unit.spinning = true) (hg : s.drive.film.galleyOpen = true)
    (he : s.engine.state ≠ .closing) (hc : s.drive.carriage.act = .stepping) : ∃ v,
      handFault kind detail s = orderClose ((activeJob s).map fun j => (j.number, j.owner)) v
        ∧ v.spin.unit = .faulted ∧ v.drive.film.remaining = s.drive.film.remaining := by
  obtain ⟨hspin, -, -, hdrive, -⟩ := unitFaulted_fields kind detail s
  obtain ⟨-, hclosing⟩ := states_of_besideSearch (unitFaulted_besideSearch kind detail s)
  have hunit : (unitFaulted kind detail s).spin.unit = .faulted := congrArg Spin.unit hspin
  obtain ⟨hleft, hremaining, hgalley, hstepping, hstate⟩ := faultJob_leaves hunit
  have hcarriage : (unitFaulted kind detail s).drive.carriage.act = .stepping := by
    rw [hdrive]
    show s.drive.carriage.stopHoming.act = .stepping
    rw [Carriage.stopHoming_act, hc]
  rw [hdrive] at hremaining hgalley
  refine ⟨_, ?_, (congrArg Spin.unit hleft).trans hunit, hremaining⟩
  rw [handFault_taken hs, faultClose_orders _ (hgalley.trans hg) (hstate (mt hclosing.1 he)),
    carryOn_orderClose _ (hstepping hcarriage)]

/-- With the galley closed nothing follows what becomes of the ACTIVE job, if it leaves the engine IDLE. -/
theorem handFault_galleyClosed (hs : s.spin.unit.spinning = true) (hg : s.drive.film.galleyOpen = false)
    (he : (faultJob (unitFaulted kind detail s)).engine.state = .idle) :
    handFault kind detail s = faultJob (unitFaulted kind detail s) := by
  obtain ⟨hspin, -, -, hdrive, -⟩ := unitFaulted_fields kind detail s
  obtain ⟨-, -, hgalley, -⟩ := faultJob_leaves (s := unitFaulted kind detail s) (congrArg Spin.unit hspin)
  rw [hdrive] at hgalley
  rw [handFault_taken hs, faultClose_closed _ (hgalley.trans hg), carryOn_noEndWaits (noEndWaits_of_idle he)]

/-! ### The job's record and its owner's queue -/

/-- A change of the records that bear a number, and keep it, is seen in the job of that number. -/
theorem findJob_map {js : List Job} {n : Nat} {f : Job → Job} (hf : ∀ k, (f k).number = k.number) :
    findJob (js.map fun k => if k.number = n then f k else k) n = (findJob js n).map f := by
  induction js with
  | nil => rfl
  | cons k ks ih =>
    by_cases hk : k.number = n
    · simp [findJob, hk, hf]
    · simpa [findJob, hk] using ih

/-- Where no two live jobs have one number, the ACTIVE job is the job of its number. -/
theorem findJob_activeJob {j : Job} (ha : activeJob s = some j) (hd : JobsDistinct s) :
    findJob s.jobs j.number = some j := by
  obtain ⟨hmem, -⟩ := mem_of_activeJob ha
  cases hk : findJob s.jobs j.number with
  | none => exact absurd (List.mem_map_of_mem hmem) (findJob_none _ _ hk)
  | some k => rw [job_unique hd.1 (mem_of_findJob hk) hmem (findJob_number hk)]

theorem postBoth_get (e : Event) (l : CLine) (s : State) : (postBoth e s).queues.get l = (s.queues.get l).post e := by
  cases l <;> rfl

/-- Three events posted one after the other to a queue with room for them stand at its end in their order. -/
theorem Queue.post_three {q : Queue} (e f g : Event) (h : q.events.length ≤ 29) :
    (((q.post e).post f).post g).events = q.events ++ [e, f, g] := by
  rw [Queue.post_room e (by omega), Queue.post_room f (by simp; omega), Queue.post_room g (by simp; omega)]
  simp

/-- The part with the ACTIVE job `j` of a faulted unit SUSPENDED and its line `r` given up. -/
def jobFaulted (kind : FaultKind) (detail : Int) (j : Job) (r : LineRef) (s : State) : State :=
  suspendJob j .suspended .fault (aim (lineGivenUp .fault none r (unitFaulted kind detail s)))

section
variable {j : Job} {r : LineRef}

theorem jobFaulted_store (kind : FaultKind) (detail : Int) (j : Job) (r : LineRef) (s : State) :
    (jobFaulted kind detail j r s).store = (setCurrent r.job r.line false s).store := by
  obtain ⟨-, -, -, -, -, -, hstore, -⟩ := unitFaulted_fields kind detail s
  have hkept := congrArg Standing.store (standing_aim (lineGivenUp .fault none r (unitFaulted kind detail s)))
  refine hkept.trans ?_
  show (setCurrent r.job r.line false (unitFaulted kind detail s)).store = _
  simp only [setCurrent, State.modStore_store, hstore]

theorem jobFaulted_jobs (kind : FaultKind) (detail : Int) (j : Job) (r : LineRef) (s : State) :
    (jobFaulted kind detail j r s).jobs = s.jobs.map fun k =>
      if k.number = j.number then { k with state := .suspended, reason := some .fault } else k := by
  obtain ⟨-, -, -, -, -, hjobs, -⟩ := unitFaulted_fields kind detail s
  have hkept := congrArg Standing.jobs (standing_aim (lineGivenUp .fault none r (unitFaulted kind detail s)))
  rw [jobFaulted, suspendJob_eq, ← hjobs]
  exact congrArg (List.map _) hkept

/-- The owner's queue takes the fault, LINE_ABANDONED with the line's tallies, and JOB_SUSPENDED, in this order. -/
theorem jobFaulted_events (hj : findJob s.jobs r.job = some j) (hroom : (s.queues.get j.owner).events.length ≤ 29) :
    ((jobFaulted kind detail j r s).queues.get j.owner).events = (s.queues.get j.owner).events
      ++ [Event.fault kind detail,
        .lineAbandoned r.job r.line .fault (s.engine.stopNo - 1) s.engine.misreg s.engine.deferral none,
        .jobSuspended j.number .fault j.committed j.setCount] := by
  obtain ⟨-, -, -, -, hqueues, hjobs, -⟩ := unitFaulted_fields kind detail s
  have hwork := unitFaulted_besideSearch kind detail s
  rw [Engine.besideSearch, Engine.besideSearch, Engine.mk.injEq] at hwork
  obtain ⟨-, -, -, -, hstopNo, -, -, -, hmisreg, hdeferral, -⟩ := hwork
  have howner : ownerOf (unitFaulted kind detail s) r.job = j.owner := ownerOf_eq (by rw [hjobs]; exact hj)
  have habandoned : (postAbandoned r .fault none (unitFaulted kind detail s)).queues
      = (post j.owner (.lineAbandoned r.job r.line .fault (s.engine.stopNo - 1) s.engine.misreg s.engine.deferral none)
        (unitFaulted kind detail s)).queues := by
    simp only [postAbandoned, howner, hstopNo, hmisreg, hdeferral]
  have hsuspended : (jobFaulted kind detail j r s).queues.get j.owner
      = ((postAbandoned r .fault none (unitFaulted kind detail s)).queues.get j.owner).post
        (.jobSuspended j.number .fault j.committed j.setCount) := by
    rw [jobFaulted, suspendJob_eq, post_get_same, aim_queues]
    rfl
  rw [hsuspended, habandoned, post_get_same, hqueues, postBoth_get]
  exact Queue.post_three _ _ _ hroom

end

/-- Settles O42: a limit is `exec_noFault` or `exec_fault`; the fault it hands over is `handFault_disregarded`,
`handFault_closes`, or, with the galley closed, `handFault_galleyClosed` with the unit of `unitFaulted_fields` and the
job of the `jobFaulted_` lemmas. -/
theorem aFaultStopsTheUnitAndSuspendsTheJob : Obligations.AFaultStopsTheUnitAndSuspendsTheJob := by
  unfold Obligations.AFaultStopsTheUnitAndSuspendsTheJob
  refine ⟨fun c s hu hc hr => exec_noFault hu hc hr, fun c kind detail s hu hr hs hg he hact => ?closes,
    fun c kind detail s hu hr => ⟨fun hs => ?disregarded, fun hs ha hc he hg => ?stops⟩,
    fun c kind detail j line s hu hr hunit ha hd hc hg hroom => ?suspends⟩
  case closes =>
    obtain ⟨v, hcloses, hfaulted, hremaining⟩ := handFault_closes (kind := kind) (detail := detail) hs hg he hact
    exact ⟨_, (exec_fault hu hr).trans (congrArg _ hcloses), hfaulted, rfl, rfl, rfl, hremaining⟩
  case disregarded => rw [exec_fault hu hr, handFault_disregarded hs]
  case stops =>
    obtain ⟨hspin, hbank, hdisc, hdrive, hqueues, hjobs, hstore, hiface⟩ := unitFaulted_fields kind detail s
    have hwork := unitFaulted_besideSearch kind detail s
    have hidle : (unitFaulted kind detail s).engine.state = .idle := (states_of_besideSearch hwork).1.2 he
    have hcurrent : (unitFaulted kind detail s).engine.current = none := (congrArg Engine.current hwork).trans hc
    have hjob := faultJob_idle hcurrent ((activeJob_congr hjobs).trans ha)
    obtain ⟨hsearch, hqueue⟩ := unitFaulted_trim kind detail s
    refine ⟨unitFaulted kind detail s, ?_, hqueues, hspin, hbank, hdisc, ?_, hsearch, hqueue, hjobs, hstore, hidle,
      hiface⟩
    · rw [exec_fault hu hr, handFault_galleyClosed hs hg (by rw [hjob]; exact hidle), hjob]
    · rw [hdrive]
      exact ⟨rfl, rfl, rfl, s.drive.carriage.stopHoming_act⟩
  case suspends =>
    obtain ⟨hspin, -, -, -, -, hjobs, -⟩ := unitFaulted_fields kind detail s
    have hfaulted : (unitFaulted kind detail s).spin.unit = .faulted := congrArg Spin.unit hspin
    have hcurrent : (unitFaulted kind detail s).engine.current = some { job := j.number, line := line } :=
      (congrArg Engine.current (unitFaulted_besideSearch kind detail s)).trans hc
    have hjob : faultJob (unitFaulted kind detail s) = jobFaulted kind detail j { job := j.number, line := line } s :=
      faultJob_suspends hfaulted hcurrent ((activeJob_congr hjobs).trans ha)
    have hengine : (jobFaulted kind detail j { job := j.number, line := line } s).engine
        = (lineGivenUp .fault none { job := j.number, line := line } (unitFaulted kind detail s)).engine := aim_engine _
    have hfound := findJob_activeJob ha hd
    have hrecord := findJob_map (js := s.jobs) (n := j.number)
      (f := fun k => { k with state := .suspended, reason := some .fault }) fun _ => rfl
    rw [hfound] at hrecord
    refine ⟨jobFaulted kind detail j { job := j.number, line := line } s, ?exec, ?unit, ?_⟩
    case exec =>
      rw [exec_fault hu hr, handFault_galleyClosed (by rw [hunit]; rfl) hg (by rw [hjob, hengine]; rfl), hjob]
    case unit =>
      rw [← hjob]
      exact (congrArg Spin.unit (faultJob_leaves hfaulted).1).trans hfaulted
    rw [hengine, jobFaulted_jobs, jobFaulted_store]
    refine ⟨rfl, rfl, fun it hit => by simpa using (List.mem_filter.1 hit).2, ⟨_, hrecord, rfl⟩, fun x hx => ?kept,
      fun x hx hxj hxl => ?unset, rfl, jobFaulted_events hfound hroom⟩
    case kept =>
      refine ⟨_, List.mem_map_of_mem hx, ?_⟩
      split <;> exact ⟨rfl, rfl⟩
    case unset =>
      obtain ⟨y, -, rfl⟩ := List.mem_map.1 hx
      by_cases hy : y.header.job = j.number ∧ y.header.line = line
      · rw [if_pos hy]
      · rw [if_neg hy] at hxj hxl
        exact absurd ⟨hxj, hxl⟩ hy

end Sys2Proof.Machine
end

