-- ==== Sys2Proof/Proofs/UnitReset.lean ====
section
/-!
SUPPORT. The unit reset (R70, R93, R160, R174): the work that goes, the trim records that take back their prior state
and code, the parking of the unit, and the galley close that is ordered or goes on.
-/
namespace Sys2Proof.Machine

variable {s u : State} {cause : StartCause}

/-! ### The records of a flushed trim queue (R92, R96) -/

/-- A record that has taken back its prior state and code, if it was in search. -/
def TrimRec.takenBack (r : TrimRec) : TrimRec :=
  match r.prior with
  | some p => if r.state.inSearch then { code := p.code, state := p.state, prior := none } else r
  | none => r

theorem TrimRec.takenBack_notInSearch {r : TrimRec} (h : r.state.inSearch = false) : r.takenBack = r := by
  unfold TrimRec.takenBack
  split
  · rw [h]
    rfl
  · rfl

theorem TrimRec.takenBack_inSearch {r : TrimRec} {p : Prior} (h : r.state.inSearch = true) (hp : r.prior = some p) :
    r.takenBack = { code := p.code, state := p.state, prior := none } := by
  simp only [TrimRec.takenBack, hp, if_pos h]

/-- A track takes its record back, and changes nothing if its record is in no search. -/
theorem takeBack_eq (s : State) (t : Track) : takeBack s t = s ∧ (queueRec s t).takenBack = queueRec s t
    ∨ takeBack s t = putRec t (queueRec s t).takenBack s := by
  cases hp : (queueRec s t).prior with
  | none => exact .inl (by simp only [takeBack, TrimRec.takenBack, hp, and_self])
  | some p =>
    by_cases hin : (queueRec s t).state.inSearch = true
    · exact .inr (by simp only [takeBack, TrimRec.takenBack, hp, if_pos hin])
    · exact .inl (by simp only [takeBack, TrimRec.takenBack, hp, if_neg hin, and_self])

theorem takeBack_trim (s : State) (t : Track) : (takeBack s t).trim = s.trim := by
  obtain ⟨h, -⟩ | h := takeBack_eq s t
  · rw [h]
  · rw [h, putRec_trim]

/-- A slot of the queue disc has the track's record taken back, and every other record stands. -/
theorem slotFor_takeBack {d : Nat} {m : MapSlot} (t : Track) (hm : slotFor s.maps d = some m) :
    ∃ m', slotFor (takeBack s t).maps d = some m' ∧ ∀ tr, m'.trims.get tr =
      if d = s.trim.queueDisc ∧ tr = t then (m.trims.get tr).takenBack else m.trims.get tr := by
  by_cases hd : d = s.trim.queueDisc
  · subst hd
    have hrec : queueRec s t = m.trims.get t := by simp only [queueRec, hm]
    obtain ⟨h, hsame⟩ | h := takeBack_eq s t
    · rw [h]
      rw [hrec] at hsame
      refine ⟨m, hm, fun tr => ?_⟩
      split
      next ht => rw [ht.2, hsame]
      next => rfl
    · rw [h, putRec_maps, slotFor_setRec, if_pos rfl, hm, hrec]
      refine ⟨_, rfl, fun tr => ?_⟩
      rw [Oct.get_set]
      by_cases ht : tr = t <;> simp [ht]
  · have hother : slotFor (takeBack s t).maps d = slotFor s.maps d := by
      obtain ⟨h, -⟩ | h := takeBack_eq s t
      · rw [h]
      · rw [h, putRec_maps, slotFor_setRec, if_neg hd]
    exact ⟨m, hother.trans hm, fun tr => by simp [hd]⟩

theorem slotFor_foldl_takeBack {ts : List Track} (hts : ts.Nodup) {s : State} {d : Nat} {m : MapSlot}
    (hm : slotFor s.maps d = some m) :
    ∃ m', slotFor (ts.foldl takeBack s).maps d = some m' ∧ ∀ tr, m'.trims.get tr =
      if d = s.trim.queueDisc ∧ tr ∈ ts then (m.trims.get tr).takenBack else m.trims.get tr := by
  induction ts generalizing s m with
  | nil => exact ⟨m, hm, fun tr => by simp⟩
  | cons t ts ih =>
    obtain ⟨ht, hrest⟩ := List.nodup_cons.1 hts
    obtain ⟨m₁, hm₁, hfirst⟩ := slotFor_takeBack t hm
    obtain ⟨m₂, hm₂, hothers⟩ := ih hrest hm₁
    refine ⟨m₂, hm₂, fun tr => ?_⟩
    rw [hothers, hfirst, takeBack_trim]
    by_cases htr : tr = t
    · simp [htr, ht]
    · simp [htr]

theorem dropSearch_leaves (s : State) :
    (dropSearch s).maps = s.maps ∧ (dropSearch s).trim = { s.trim with search := none } := by
  unfold dropSearch
  split
  next h => exact ⟨rfl, by rw [← h]⟩
  next => exact ⟨rfl, rfl⟩

theorem flushTrims_maps (disc : Nat) (s : State) :
    (flushTrims disc s).maps = (allTracks.foldl takeBack (dropSearch s)).maps := by
  rw [flushTrims, State.modTrim_maps, clearWindows, State.modTrim_maps]

/-- The flush takes back every record in search of the queue disc's slot. -/
theorem slotFor_flushTrims (disc : Nat) {d : Nat} {m : MapSlot} (hm : slotFor s.maps d = some m) :
    ∃ m', slotFor (flushTrims disc s).maps d = some m' ∧ ∀ tr, m'.trims.get tr =
      if d = s.trim.queueDisc then (m.trims.get tr).takenBack else m.trims.get tr := by
  obtain ⟨hmaps, htrim⟩ := dropSearch_leaves s
  obtain ⟨m', hm', hrecs⟩ := slotFor_foldl_takeBack allTracks_nodup (s := dropSearch s) (d := d) (m := m)
    (by rw [hmaps]; exact hm)
  refine ⟨m', by rw [flushTrims_maps]; exact hm', fun tr => ?_⟩
  simp [hrecs, htrim, mem_allTracks]

theorem flushTrims_trim (disc : Nat) (s : State) : (flushTrims disc s).trim =
    { s.trim with queue := [], search := none, queueDisc := disc, windows := Oct.fill [] } := by
  have hback (ts : List Track) (v : State) : (ts.foldl takeBack v).trim = v.trim := by
    induction ts generalizing v with
    | nil => rfl
    | cons t ts ih => exact (ih _).trans (takeBack_trim v t)
  obtain ⟨-, htrim⟩ := dropSearch_leaves s
  rw [flushTrims, clearWindows, State.modTrim_trim, State.modTrim_trim, hback, htrim]

/-- What the slots hold beside their trim records. -/
def slotOutlines (q : Quad (Option MapSlot)) : List (Option (Nat × List MapEntry)) :=
  q.toList.map (Option.map fun m => (m.disc, m.entries))

theorem slotOutlines_updateSlot (q : Quad (Option MapSlot)) (d : Nat) {f : MapSlot → MapSlot}
    (hf : ∀ m, (f m).disc = m.disc ∧ (f m).entries = m.entries) : slotOutlines (updateSlot q d f) = slotOutlines q := by
  have hslot (o : Option MapSlot) : (o.map fun m => if m.disc = d then f m else m).map (fun m => (m.disc, m.entries))
      = o.map fun m => (m.disc, m.entries) := by
    cases o with
    | none => rfl
    | some m =>
      obtain ⟨hdisc, hentries⟩ := hf m
      simp only [Option.map_some, apply_ite MapSlot.disc, apply_ite MapSlot.entries, hdisc, hentries, ite_self]
  have hlist : (updateSlot q d f).toList = q.toList.map (Option.map fun m => if m.disc = d then f m else m) := rfl
  rw [slotOutlines, hlist, List.map_map]
  exact List.map_congr_left fun o _ => hslot o

theorem keptBySearchEnd_slotOutlines (outlines : List (Option (Nat × List MapEntry))) :
    KeptBySearchEnd fun v => slotOutlines v.maps = outlines where
  put t r v h := by
    rw [putRec_maps]
    exact (slotOutlines_updateSlot _ _ (f := fun m => { m with trims := m.trims.set t r }) fun _ => ⟨rfl, rfl⟩).trans h
  trim _ _ h := h
  drop _ h := h

/-- No item stands in the ring, and the compare channel is unloaded. -/
def RingEmpty (s : State) : Prop := s.engine.ring = [] ∧ s.disc.channel = none

theorem ringEmpty_trackNotice (h : RingEmpty s) : RingEmpty (trackNotice s) := by
  obtain hn | ⟨st, hn⟩ := trackNotice_eq_or s <;> rw [hn] <;> exact h

theorem keptBySearchEnd_ringEmpty : KeptBySearchEnd RingEmpty where
  put t r v h := by
    obtain ⟨hring, -⟩ := id h
    unfold putRec
    dsimp only
    split
    · refine ringEmpty_trackNotice ?_
      simp [replaceTrack, setRing, reload, RingEmpty, insertAll, hring]
    · exact ringEmpty_trackNotice h
  trim _ _ h := h
  drop v h := by
    obtain ⟨hring, -⟩ := h
    simp [voidWatch, removeTest, setRing, reload, RingEmpty, hring]

/-! ### The work that goes (R70, R93, R160) -/

/-- The part with its line, jobs, lines and ring gone, before the trim queue is flushed. -/
def workDropped (s : State) : State :=
  let s1 := (abandon .reset none (setRing [] s)).modEngine fun e => { e with sweep := none, misreg := 0, deferral := 0 }
  ((s1.modJobs fun _ => []).modStore fun _ => LineStore.started).modSeq fun _ => Seq.started

theorem clearWork_eq (s : State) : clearWork s = flushTrims (workDropped s).spin.mounted (workDropped s) := rfl

theorem workDropped_noLine (hc : s.engine.current = none) : workDropped s = { s with
    jobs := [], store := LineStore.started, seq := Seq.started
    engine := { s.engine with ring := [], sweep := none, misreg := 0, deferral := 0 }
    disc := { s.disc with channel := none } } := by
  rw [workDropped, abandon_none (s := setRing [] s) .reset none hc]
  simp only [setRing, reload, State.modEngine, State.modDisc, State.modJobs, State.modStore, State.modSeq,
    List.head?_nil, Option.map_none]

/-- A reset's abandonment leaves no item, so that the deflector is sent nowhere. -/
theorem workDropped_line {r : LineRef} (hc : s.engine.current = some r) : workDropped s = { s with
    jobs := [], store := LineStore.started, seq := Seq.started
    engine := { s.engine with
      state := .idle, current := none, stops := [], sweep := none, stopNo := 0, ring := []
      watch := (detachWatch s).engine.watch, stuck := 0, misreg := 0, deferral := 0, firedSinceIndex := false }
    disc := { s.disc with channel := none }
    drive := s.drive.stop
    spin := if s.spin.unit = .exposing then (setUnit .ready s).spin else s.spin
    bank := if s.spin.unit = .exposing then (setUnit .ready s).bank else s.bank } := by
  have hdropped : lineGivenUp .reset none r (setRing [] s) = { s with
      store := (setCurrent r.job r.line false s).store
      engine := { s.engine with
        state := .idle, current := none, stops := [], stopNo := 0, ring := [], watch := (detachWatch s).engine.watch
        stuck := 0, misreg := 0, deferral := 0, firedSinceIndex := false }
      disc := { s.disc with channel := none }
      drive := s.drive.stop } := by
    simp only [lineGivenUp, postAbandoned, setCurrent, detachWatch, setRing, reload, State.modEngine, State.modDisc,
      State.modStore, List.head?_nil, Option.map_none, List.filter_nil]
  rw [workDropped, abandon_current (s := setRing [] s) .reset none hc, hdropped, aim_empty rfl]
  by_cases hunit : s.spin.unit = .exposing
  · rw [if_pos hunit, if_pos hunit, if_pos (show (setRing [] s).spin.unit = .exposing from hunit)]
    simp only [setUnit, State.modEngine, State.modJobs, State.modStore, State.modSeq, State.modSpin, State.modBank]
  · rw [if_neg hunit, if_neg hunit, if_neg (show ¬ (setRing [] s).spin.unit = .exposing from hunit)]
    simp only [State.modEngine, State.modJobs, State.modStore, State.modSeq]

/-- The work of the part `s` is gone in the part `t`: what a reset leaves of each block before the unit parks. -/
structure WorkGone (s t : State) : Prop where
  jobs : t.jobs = []
  store : t.store = LineStore.started
  seq : t.seq = Seq.started
  iface : t.iface = s.iface
  disc : t.disc = { s.disc with channel := none }
  spin : ∃ unit motor timer, t.spin = { s.spin with unit := unit, motor := motor, parkTimer := timer }
  bank : ∃ charger held, t.bank = { s.bank with charger := charger, strobeHeld := held }
  drive : t.drive = s.drive ∨ t.drive = s.drive.stop
  ring : t.engine.ring = []
  current : t.engine.current = none
  sweep : t.engine.sweep = none
  misreg : t.engine.misreg = 0
  deferral : t.engine.deferral = 0
  close : t.engine.close = s.engine.close
  line : s.engine.current.isSome = true → t.engine.stops = [] ∧ t.engine.stopNo = 0 ∧ t.engine.stuck = 0
  idle : (s.engine.current = none → s.engine.state = .idle) → t.engine.state = .idle
  closing : s.engine.current = none → s.engine.state = .closing → t.engine.state = .closing

theorem workDropped_workGone (s : State) : WorkGone s (workDropped s) := by
  cases hc : s.engine.current with
  | none =>
    rw [workDropped_noLine hc]
    exact ⟨rfl, rfl, rfl, rfl, rfl, ⟨_, _, _, rfl⟩, ⟨_, _, rfl⟩, .inl rfl, rfl, hc, rfl, rfl, rfl, rfl,
      fun h => (by simp [hc] at h), fun h => h hc, fun _ h => h⟩
  | some r =>
    rw [workDropped_line hc]
    refine ⟨rfl, rfl, rfl, rfl, rfl, ?_, ?_, .inr rfl, rfl, rfl, rfl, rfl, rfl, rfl, fun _ => ⟨rfl, rfl, rfl⟩,
      fun _ => rfl, fun h => (by simp [hc] at h)⟩
    · split <;> exact ⟨_, _, _, rfl⟩
    · split <;> exact ⟨_, _, rfl⟩

/-- A reset's abandonment leaves the maps, the Trim Unit and the queues, and no disc is unmounted by it. -/
theorem workDropped_leaves (s : State) : (workDropped s).maps = s.maps ∧ (workDropped s).trim = s.trim
    ∧ (workDropped s).spin.mounted = s.spin.mounted := by
  cases hc : s.engine.current with
  | none =>
    rw [workDropped_noLine hc]
    exact ⟨rfl, rfl, rfl⟩
  | some r =>
    rw [workDropped_line hc]
    refine ⟨rfl, rfl, ?_⟩
    dsimp only
    split <;> rfl

theorem Disc.eq_of_channel {d e : Disc} (h : ({ d with channel := none } : Disc) = { e with channel := none })
    (hc : d.channel = e.channel) : d = e := by
  cases d
  cases e
  simp_all

/-- The flush leaves the work gone (R96). -/
theorem WorkGone.flushTrims {t : State} (disc : Nat) (h : WorkGone s t) : WorkGone s (flushTrims disc t) := by
  have haside := aside_flushTrims disc t
  rw [aside, aside, Aside.mk.injEq] at haside
  obtain ⟨hiface, -, hstore, hjobs, hseq, hdisc, hbank, hdrive, hspin⟩ := haside
  have hwork := flushTrims_besideSearch disc t
  obtain ⟨hidle, hclosing⟩ := states_of_besideSearch hwork
  rw [Engine.besideSearch, Engine.besideSearch, Engine.mk.injEq] at hwork
  obtain ⟨-, hcurrent, hstops, hsweep, hstopNo, -, -, hstuck, hmisreg, hdeferral, -, hclose⟩ := hwork
  obtain ⟨hring, hchannel⟩ := keptBySearchEnd_ringEmpty.flushTrims disc (s := t) ⟨h.ring, by rw [h.disc]⟩
  have hdiscKept : (Machine.flushTrims disc t).disc = t.disc :=
    Disc.eq_of_channel hdisc (hchannel.trans (by rw [h.disc]))
  exact
    { jobs := hjobs.trans h.jobs
      store := hstore.trans h.store
      seq := hseq.trans h.seq
      iface := hiface.trans h.iface
      disc := hdiscKept.trans h.disc
      spin := by rw [hspin]; exact h.spin
      bank := by rw [hbank]; exact h.bank
      drive := by rw [hdrive]; exact h.drive
      ring := hring
      current := hcurrent.trans h.current
      sweep := hsweep.trans h.sweep
      misreg := hmisreg.trans h.misreg
      deferral := hdeferral.trans h.deferral
      close := hclose.trans h.close
      line := by rw [hstops, hstopNo, hstuck]; exact h.line
      idle := fun hi => hidle.mpr (h.idle hi)
      closing := fun hn hc => hclosing.mpr (h.closing hn hc) }

theorem clearWork_workGone (s : State) : WorkGone s (clearWork s) := by
  rw [clearWork_eq]
  exact (workDropped_workGone s).flushTrims _

/-! ### The parking (R89, R134, R174) -/

/-- The drive after a unit reset: homing, moves and the held order go, and the film out flag is cleared. -/
def Drive.reset (d : Drive) : Drive :=
  { d.stopHoming with
    carriage := d.carriage.stopHoming.stop, deflector := d.deflector.stopHoming.stop, homingDone := false, held := none
    film := { d.film with out := false } }

/-- The disc timing after a unit reset. -/
def Disc.reset (d : Disc) : Disc :=
  { d with valid := false, locked := false, lockRun := 0, slipCount := 0, slipMark := false, reached := false
           spinup := none, stall := none, unlock := none }

theorem parkForReset_eq (cause : StartCause) (h : s.trim.search = none) : parkForReset cause s = { s with
    spin := { s.spin with unit := .parked, hold := false, parkTimer := none, lastFault := none, requested := none
                          cause := cause, motor := false }
    bank := { s.bank with watch := none, charger := false, strobeHeld := true }
    disc := s.disc.reset
    drive := s.drive.reset } := by
  have hhalt : haltSearch (stopDisc (setUnit .parked s)) = stopDisc (setUnit .parked s) := by
    have hsearch : (stopDisc (setUnit .parked s)).trim.search = none := h
    simp only [haltSearch, hsearch]
  rw [parkForReset, enterParked, hhalt]
  simp only [resetMotion, stopDisc, setUnit, State.modSpin, State.modBank, State.modDisc, State.modDrive]
  rfl

/-- The part parked by a reset, with UNIT_RESET alone in both queues, before its close is judged. -/
def resetParked (cause : StartCause) (s : State) : State := resetQueues cause (parkForReset cause (clearWork s))

theorem unitReset_eq (cause : StartCause) (s : State) :
    unitReset cause s = carryOn (resetClose (resetParked cause s)) := rfl

theorem clearWork_trim (s : State) : (clearWork s).trim =
    { s.trim with queue := [], search := none, queueDisc := s.spin.mounted, windows := Oct.fill [] } := by
  obtain ⟨-, htrim, hmounted⟩ := workDropped_leaves s
  rw [clearWork_eq, flushTrims_trim, htrim, hmounted]

theorem resetParked_eq (cause : StartCause) (s : State) : resetParked cause s = { clearWork s with
    queues := ⟨{ events := [.unitReset cause], lost := false }, { events := [.unitReset cause], lost := false }⟩
    spin := { (clearWork s).spin with unit := .parked, hold := false, parkTimer := none, lastFault := none
                                      requested := none, cause := cause, motor := false }
    bank := { (clearWork s).bank with watch := none, charger := false, strobeHeld := true }
    disc := (clearWork s).disc.reset
    drive := (clearWork s).drive.reset } := by
  have hsearch : (clearWork s).trim.search = none := by rw [clearWork_trim]
  rw [resetParked, parkForReset_eq cause hsearch]
  simp only [resetQueues, postBoth, post, State.modQueues]
  rfl

/-! ### The close, and what goes on (R68, R132, R133) -/

/-- The part beside its galley close: all but the queues, the engine's state and close, the film advance and the cut. -/
def besideClose (s : State) : State := { s with
  queues := ⟨Queue.empty, Queue.empty⟩
  engine := { s.engine with state := .idle, close := none }
  drive := { s.drive with film := { s.drive.film with advance := none, left := 0 }, cutLeft := 0 } }

/-- A part that a unit reset has parked: no line is current, and no selection is pending. -/
structure Parked (s : State) : Prop where
  current : s.engine.current = none
  unit : s.spin.unit = .parked
  pendingSel : s.seq.pendingSel = false

theorem Parked.of_besideClose (h : Parked s) (he : besideClose u = besideClose s) : Parked u where
  current := (congrArg (fun v => v.engine.current) he).trans h.current
  unit := (congrArg (fun v => v.spin.unit) he).trans h.unit
  pendingSel := (congrArg (fun v => v.seq.pendingSel) he).trans h.pendingSel

theorem Queue.post_head {q : Queue} {e : Event} (f : Event) (h : q.events.head? = some e) :
    (q.post f).events.head? = some e := by
  unfold Queue.post
  split
  · exact head?_append h
  · exact h

theorem post_head {e : Event} (l : CLine) (f : Event) (h : ∀ k, (s.queues.get k).events.head? = some e) (k : CLine) :
    ((post l f s).queues.get k).events.head? = some e := by
  have hsame : ((post l f s).queues.get l).events.head? = some e := by
    rw [post_get_same]
    exact Queue.post_head f (h l)
  have hother : ((post l f s).queues.get l.other).events.head? = some e := by
    rw [post_get_other]
    exact h l.other
  exact CLine.forall_of (P := fun k => ((post l f s).queues.get k).events.head? = some e) hsame hother k

theorem postClosed_head {e : Event} (c : Close) (cut : Bool) (h : ∀ k, (s.queues.get k).events.head? = some e)
    (k : CLine) : ((postClosed c cut s).queues.get k).events.head? = some e := by
  unfold postClosed
  split
  · exact post_head _ _ h k
  · exact post_head _ _ (post_head _ _ h) k

/-- The engine of a parked part goes on with its galley close alone, and what leads the queues leads them still. -/
theorem moveEnded_parked {e : Event} (hp : Parked s) (hq : ∀ l, (s.queues.get l).events.head? = some e) :
    besideClose (moveEnded s) = besideClose s ∧ ∀ l, ((moveEnded s).queues.get l).events.head? = some e := by
  have hlineSet : lineSet s = s := by simp only [lineSet, hp.current]
  have hbegin (c : Close) : besideClose (beginClose c s) = besideClose s
      ∧ ∀ l, ((beginClose c s).queues.get l).events.head? = some e := by
    unfold beginClose
    dsimp only
    split
    · split
      · exact ⟨rfl, hq⟩
      · next hn =>
        simp only [Film.begin_advances _ hn]
        exact ⟨rfl, hq⟩
    · rw [endClose_quiet c false (.inl hp.pendingSel), unmarked_of_clear (s := closeOver c false s) hp.pendingSel]
      refine ⟨?_, postClosed_head c false hq⟩
      have hunit : s.spin.unit ≠ .ready := by
        rw [hp.unit]
        exact UnitState.noConfusion
      simp only [besideClose, closeOver, if_neg hunit]
  unfold moveEnded
  split
  · split
    · split
      · rw [hlineSet]
        exact ⟨rfl, hq⟩
      · exact ⟨rfl, hq⟩
    · exact ⟨rfl, hq⟩
  · split <;> exact ⟨rfl, hq⟩
  · split
    · exact ⟨rfl, hq⟩
    · split
      · exact hbegin _
      · exact ⟨rfl, hq⟩
  all_goals exact ⟨rfl, hq⟩

theorem carryOn_parked {e : Event} (hp : Parked s) (hq : ∀ l, (s.queues.get l).events.head? = some e) :
    besideClose (carryOn s) = besideClose s ∧ ∀ l, ((carryOn s).queues.get l).events.head? = some e := by
  have hgoesOn (n : Nat) (v : State) (hv : Parked v) (hqv : ∀ l, (v.queues.get l).events.head? = some e) :
      besideClose (carryOnFor n v) = besideClose v ∧ ∀ l, ((carryOnFor n v).queues.get l).events.head? = some e := by
    induction n generalizing v with
    | zero => exact ⟨rfl, hqv⟩
    | succ n ih =>
      obtain ⟨hbeside, hlead⟩ := moveEnded_parked hv hqv
      obtain ⟨hbesides, hleads⟩ := ih (moveEnded v) (hv.of_besideClose hbeside) hlead
      exact ⟨hbesides.trans hbeside, hleads⟩
  exact hgoesOn _ s hp hq

theorem resetClose_goesOn {c : Close} (h : s.engine.close = some c) :
    resetClose s = { s with engine := { s.engine with close := some { c with job := none } } } := by
  simp only [resetClose, h]
  rfl

theorem resetClose_closed (h : s.engine.close = none) (hg : s.drive.film.galleyOpen = false) : resetClose s = s := by
  simp only [resetClose, h, hg]
  rfl

/-- The close that a reset orders marks no selection, and finds the park timer stopped. -/
theorem resetClose_orders (h : s.engine.close = none) (hg : s.drive.film.galleyOpen = true)
    (hp : s.seq.pendingSel = false) (ht : s.spin.parkTimer = none) : resetClose s = { s with
      engine := { s.engine with state := .closing, close := some { job := none, phase := .ordered, steps := 0 } } } := by
  have hseq : ({ s.seq with pendingSel := false } : Seq) = s.seq := by rw [← hp]
  have hspin : ({ s.spin with parkTimer := none } : Spin) = s.spin := by rw [← ht]
  simp only [resetClose, h, hg, if_true, orderClose, parkStop, State.modEngine, State.modSeq, State.modSpin]
  simp only [hseq, hspin]

/-- The close of a reset, ordered or going on, changes the engine's state and close alone. -/
theorem resetClose_leaves (hp : s.seq.pendingSel = false) (ht : s.spin.parkTimer = none) :
    besideClose (resetClose s) = besideClose s ∧ (resetClose s).queues = s.queues := by
  cases hc : s.engine.close with
  | some c =>
    rw [resetClose_goesOn hc]
    exact ⟨rfl, rfl⟩
  | none =>
    cases hg : s.drive.film.galleyOpen with
    | false =>
      rw [resetClose_closed hc hg]
      exact ⟨rfl, rfl⟩
    | true =>
      rw [resetClose_orders hc hg hp ht]
      exact ⟨rfl, rfl⟩

/-! ### What a unit reset comes to, block by block -/

theorem resetParked_engine (cause : StartCause) (s : State) :
    (resetParked cause s).engine = (clearWork s).engine := by
  rw [resetParked_eq]

theorem resetParked_drive (cause : StartCause) (s : State) :
    (resetParked cause s).drive = (clearWork s).drive.reset := by
  rw [resetParked_eq]

/-- Neither a reset nor an abandonment before it counts film. -/
theorem resetParked_galleyOpen (cause : StartCause) (s : State) :
    (resetParked cause s).drive.film.galleyOpen = s.drive.film.galleyOpen := by
  rw [resetParked_drive]
  obtain h | h := (clearWork_workGone s).drive <;> rw [h] <;> rfl

theorem resetParked_parked (cause : StartCause) (s : State) : Parked (resetParked cause s) := by
  have hgone := clearWork_workGone s
  generalize hv : clearWork s = v at hgone
  rw [resetParked_eq, hv]
  exact ⟨hgone.current, rfl, by rw [hgone.seq]; rfl⟩

theorem resetParked_queues (cause : StartCause) (s : State) (l : CLine) :
    (resetParked cause s).queues.get l = { events := [.unitReset cause], lost := false } := by
  rw [resetParked_eq]
  cases l <;> rfl

theorem resetClose_resetParked (cause : StartCause) (s : State) :
    besideClose (resetClose (resetParked cause s)) = besideClose (resetParked cause s)
      ∧ (resetClose (resetParked cause s)).queues = (resetParked cause s).queues :=
  resetClose_leaves (resetParked_parked cause s).pendingSel (by rw [resetParked_eq])

/-- A unit reset leaves the part as it parked it, beside its close, and UNIT_RESET leads both queues. -/
theorem unitReset_besideClose (cause : StartCause) (s : State) :
    besideClose (unitReset cause s) = besideClose (resetParked cause s)
      ∧ ∀ l, ((unitReset cause s).queues.get l).events.head? = some (.unitReset cause) := by
  obtain ⟨hclose, hqueues⟩ := resetClose_resetParked cause s
  obtain ⟨hbeside, hlead⟩ := carryOn_parked (e := .unitReset cause)
    ((resetParked_parked cause s).of_besideClose hclose) fun l => by rw [hqueues, resetParked_queues]; rfl
  rw [unitReset_eq]
  exact ⟨hbeside.trans hclose, hlead⟩

theorem unitReset_fields (cause : StartCause) (s : State) :
    (unitReset cause s).iface = s.iface ∧ (unitReset cause s).maps = (clearWork s).maps
      ∧ (unitReset cause s).store = LineStore.started ∧ (unitReset cause s).jobs = []
      ∧ (unitReset cause s).seq = Seq.started
      ∧ (unitReset cause s).disc = ({ s.disc with channel := none } : Disc).reset
      ∧ (unitReset cause s).trim =
        { s.trim with queue := [], search := none, queueDisc := s.spin.mounted, windows := Oct.fill [] }
      ∧ (unitReset cause s).bank = { s.bank with watch := none, charger := false, strobeHeld := true }
      ∧ (unitReset cause s).spin = { s.spin with unit := .parked, hold := false, parkTimer := none, lastFault := none
                                                 requested := none, cause := cause, motor := false } := by
  have hgone := clearWork_workGone s
  have htrimGone := clearWork_trim s
  obtain ⟨_, _, _, hspinGone⟩ := hgone.spin
  obtain ⟨_, _, hbankGone⟩ := hgone.bank
  obtain ⟨hbeside, -⟩ := unitReset_besideClose cause s
  rw [resetParked_eq, besideClose, besideClose, State.mk.injEq] at hbeside
  generalize unitReset cause s = t at hbeside ⊢
  generalize clearWork s = v at *
  obtain ⟨hiface, -, hmaps, hstore, hjobs, hseq, -, hdisc, htrim, hbank, -, hspin, -, -⟩ := hbeside
  refine ⟨hiface.trans hgone.iface, hmaps, hstore.trans hgone.store, hjobs.trans hgone.jobs, hseq.trans hgone.seq,
    ?_, htrim.trans htrimGone, ?_, ?_⟩
  · rw [hdisc, hgone.disc]
  · rw [hbank, hbankGone]
  · rw [hspin, hspinGone]

theorem unitReset_engine (cause : StartCause) (s : State) :
    (unitReset cause s).engine.ring = [] ∧ (unitReset cause s).engine.current = none
      ∧ (unitReset cause s).engine.sweep = none ∧ (unitReset cause s).engine.misreg = 0
      ∧ (unitReset cause s).engine.deferral = 0
      ∧ (s.engine.current.isSome = true → (unitReset cause s).engine.stops = []
        ∧ (unitReset cause s).engine.stopNo = 0 ∧ (unitReset cause s).engine.stuck = 0) := by
  have hgone := clearWork_workGone s
  obtain ⟨hbeside, -⟩ := unitReset_besideClose cause s
  rw [resetParked_eq] at hbeside
  generalize unitReset cause s = t at hbeside ⊢
  generalize clearWork s = v at *
  have hengine := congrArg State.engine hbeside
  rw [besideClose, besideClose, Engine.mk.injEq] at hengine
  obtain ⟨-, hcurrent, hstops, hsweep, hstopNo, hring, -, hstuck, hmisreg, hdeferral, -⟩ := hengine
  rw [hring, hcurrent, hsweep, hmisreg, hdeferral, hstops, hstopNo, hstuck]
  exact ⟨hgone.ring, hgone.current, hgone.sweep, hgone.misreg, hgone.deferral, hgone.line⟩

theorem unitReset_drive (cause : StartCause) (s : State) :
    (unitReset cause s).drive.homingDone = false ∧ (unitReset cause s).drive.limitC = none
      ∧ (unitReset cause s).drive.limitD = none ∧ (unitReset cause s).drive.limitT = none
      ∧ (unitReset cause s).drive.held = none ∧ (unitReset cause s).drive.film.out = false
      ∧ (unitReset cause s).drive.film.remaining = s.drive.film.remaining
      ∧ (unitReset cause s).drive.film.load = s.drive.film.load
      ∧ (unitReset cause s).drive.film.galleyOpen = s.drive.film.galleyOpen
      ∧ (unitReset cause s).drive.film.low = s.drive.film.low
      ∧ (unitReset cause s).drive.film.lowArm = s.drive.film.lowArm := by
  have hgone := clearWork_workGone s
  obtain ⟨hbeside, -⟩ := unitReset_besideClose cause s
  rw [resetParked_eq] at hbeside
  generalize unitReset cause s = t at hbeside ⊢
  generalize clearWork s = v at *
  have hdrive := congrArg State.drive hbeside
  rw [besideClose, besideClose, Drive.mk.injEq, Film.mk.injEq] at hdrive
  obtain ⟨-, -, -, ⟨hremaining, hload, hgalley, hlowArm, hlow, hout, -⟩, hheld, hdone, hlimitC, hlimitD, hlimitT, -⟩ :=
    hdrive
  rw [hremaining, hload, hgalley, hlowArm, hlow, hout, hheld, hdone, hlimitC, hlimitD, hlimitT]
  obtain h | h := hgone.drive
  all_goals
    rw [h]
    exact ⟨rfl, rfl, rfl, rfl, rfl, rfl, rfl, rfl, rfl, rfl, rfl⟩

theorem clearWork_outlines (s : State) : slotOutlines (clearWork s).maps = slotOutlines s.maps := by
  obtain ⟨hmaps, -⟩ := workDropped_leaves s
  rw [clearWork_eq]
  exact (keptBySearchEnd_slotOutlines (slotOutlines s.maps)).flushTrims _ (by rw [hmaps])

theorem slotFor_clearWork {d : Nat} {m : MapSlot} (hm : slotFor s.maps d = some m) :
    ∃ m', slotFor (clearWork s).maps d = some m' ∧ ∀ tr, m'.trims.get tr =
      if d = s.trim.queueDisc then (m.trims.get tr).takenBack else m.trims.get tr := by
  obtain ⟨hmaps, htrim, -⟩ := workDropped_leaves s
  rw [clearWork_eq, ← htrim]
  exact slotFor_flushTrims _ (by rw [hmaps]; exact hm)

/-! ### The galley close of a unit reset (R68, R133, R174) -/

/-- With the galley closed and no close in progress nothing goes on. -/
theorem unitReset_closed (cause : StartCause) (hg : s.drive.film.galleyOpen = false) (hc : s.engine.close = none)
    (hi : s.engine.current = none → s.engine.state = .idle) :
    (unitReset cause s).engine.state = .idle ∧ (unitReset cause s).engine.close = none
      ∧ (unitReset cause s).queues = (resetParked cause s).queues := by
  have hgone := clearWork_workGone s
  have hidle : (resetParked cause s).engine.state = .idle := by rw [resetParked_engine, hgone.idle hi]
  have hclose : (resetParked cause s).engine.close = none := by rw [resetParked_engine, hgone.close, hc]
  have hgalley := (resetParked_galleyOpen cause s).trans hg
  rw [unitReset_eq, resetClose_closed hclose hgalley, carryOn_noEndWaits (noEndWaits_of_idle hidle)]
  exact ⟨hidle, hclose, rfl⟩

/-- With the galley open a close is ordered, and waits for a carriage in motion, which is stopped. -/
theorem unitReset_orders (cause : StartCause) (hg : s.drive.film.galleyOpen = true) (hc : s.engine.close = none)
    (ha : s.drive.carriage.act = .stepping) : (unitReset cause s).engine.state = .closing
      ∧ (unitReset cause s).engine.close = some { job := none, phase := .ordered, steps := 0 }
      ∧ (unitReset cause s).drive.carriage.target = none
      ∧ (unitReset cause s).queues = (resetParked cause s).queues := by
  have hgone := clearWork_workGone s
  have hparked := resetParked_parked cause s
  have hclose : (resetParked cause s).engine.close = none := by rw [resetParked_engine, hgone.close, hc]
  have hgalley := (resetParked_galleyOpen cause s).trans hg
  have hcarriage : (resetParked cause s).drive.carriage = { s.drive.carriage with target := none } := by
    have hstop (c : Carriage) (h : c.act = .stepping) : c.stopHoming.stop = { c with target := none } := by
      simp only [Carriage.stopHoming, Carriage.stop, h]
    rw [resetParked_drive]
    show (clearWork s).drive.carriage.stopHoming.stop = _
    obtain h | h := hgone.drive
    · rw [h, hstop _ ha]
    · have hstopped : s.drive.stop.carriage = { s.drive.carriage with target := none } := Carriage.stop_stepping ha
      rw [h, hstopped, hstop { s.drive.carriage with target := none } ha]
  have horders := resetClose_orders hclose hgalley hparked.pendingSel (by rw [resetParked_eq])
  have hwaits : carryOn (resetClose (resetParked cause s)) = resetClose (resetParked cause s) := by
    refine carryOn_noEndWaits (noEndWaits_of_carriage ?_)
    rw [horders, hcarriage]
    show s.drive.carriage.act ≠ .atRest
    rw [ha]
    exact Activity.noConfusion
  rw [unitReset_eq, hwaits, horders]
  exact ⟨rfl, rfl, congrArg Carriage.target hcarriage, rfl⟩

/-- A close that has begun goes on, and names no job. -/
theorem unitReset_goesOn (cause : StartCause) {c : Close} (hc : s.engine.close = some c)
    (he : s.engine.state = .closing) (hn : s.engine.current = none) (hp : c.phase ≠ .ordered) :
    (unitReset cause s).engine.state = .closing ∧ (unitReset cause s).engine.close = some { c with job := none }
      ∧ (unitReset cause s).queues = (resetParked cause s).queues := by
  have hgone := clearWork_workGone s
  have hclose : (resetParked cause s).engine.close = some c := by rw [resetParked_engine, hgone.close, hc]
  have hclosing : (resetParked cause s).engine.state = .closing := by rw [resetParked_engine, hgone.closing hn he]
  have hgoesOn := resetClose_goesOn hclose
  have hbegun : moveEnded (resetClose (resetParked cause s)) = resetClose (resetParked cause s) := by
    rw [hgoesOn]
    exact moveEnded_begun (c := { c with job := none }) hclosing rfl hp
  rw [unitReset_eq, carryOn_of_moveEnded hbegun, hgoesOn]
  exact ⟨hclosing, rfl, rfl⟩

/-- RESET_UNIT with scope UNIT is accepted once PASS stands. -/
theorem exec_resetUnit_accepted {l : CLine} {tag : Byte} (hw : Waits l 0x15 tag [0] s) (hp : Passed l s) :
    exec (.resetUnit l) s = .next (answered l tag .accepted (unitReset .message) s) :=
  exec_resetUnit hw hp (.inl rfl) rfl

theorem exec_resetKey (hu : Up s) : exec .resetKey s = .next (unitReset .panel s) :=
  congrArg Host.Outcome.next (powered_up (unitReset .panel) hu)

/-- Settles O30: the blocks are those of the `unitReset_` lemmas, the slots those of `clearWork`, and the close is
`unitReset_closed`, `unitReset_orders` or `unitReset_goesOn`. -/
theorem aUnitResetClearsTheWorkAndParks : Obligations.AUnitResetClearsTheWorkAndParks := by
  unfold Obligations.AUnitResetClearsTheWorkAndParks
  intro cleared alone reset
  have hcleared (cause : StartCause) (s : State) : cleared cause s (unitReset cause s) := by
    obtain ⟨hiface, hmaps, hstore, hjobs, hseq, hdisc, htrim, hbank, hspin⟩ := unitReset_fields cause s
    obtain ⟨hring, hcurrent, hsweep, hmisreg, hdeferral, hline⟩ := unitReset_engine cause s
    obtain ⟨-, hlead⟩ := unitReset_besideClose cause s
    have hdrive := unitReset_drive cause s
    generalize unitReset cause s = t at *
    refine ⟨⟨hjobs, ?_, ?_, fun l => ?_, hseq⟩, ⟨hring, ?_, hcurrent, hsweep, hmisreg, hdeferral, hline⟩, htrim, ?_,
      fun d m hm => ?slot, hspin, ?_, ?_, hbank, hdrive, hlead, hiface⟩
    case slot =>
      obtain ⟨m', hm', hrecs⟩ := slotFor_clearWork hm
      rw [hmaps]
      refine ⟨m', hm', fun tr => ⟨fun hd => ?_, fun hq hs => ?_, fun hd hin p hprior => ?_⟩⟩
      · rw [hrecs, if_neg hd]
      · have hout : (m.trims.get tr).state.inSearch = false := by
          rw [← Bool.not_eq_true, TrimState.inSearch_iff]
          exact not_or.2 ⟨hq, hs⟩
        rw [hrecs, TrimRec.takenBack_notInSearch hout, ite_self]
      · rw [hrecs, if_pos hd, TrimRec.takenBack_inSearch ((TrimState.inSearch_iff _).2 hin) hprior]
    · rw [hstore]
      rfl
    · rw [hstore]
      rfl
    · rw [hstore]
      cases l <;> rfl
    · rw [hdisc]
      rfl
    · rw [hmaps]
      exact clearWork_outlines s
    · rw [hdisc]
      exact ⟨rfl, rfl, rfl, rfl, rfl, rfl, rfl, rfl, rfl⟩
    · rw [hdisc]
      exact ⟨rfl, rfl, rfl, rfl, rfl⟩
  have hreset (cause : StartCause) (s : State) : reset cause s (unitReset cause s) := by
    have halone (h : (unitReset cause s).queues = (resetParked cause s).queues) : alone cause (unitReset cause s) :=
      fun l => by rw [h]; exact resetParked_queues cause s l
    refine ⟨hcleared cause s, fun hg hc hi => ?closed, fun hg hc ha => ?orders, fun c hc he hn hp => ?goesOn⟩
    case closed =>
      obtain ⟨hstate, hclose, hqueues⟩ := unitReset_closed cause hg hc hi
      exact ⟨hstate, hclose, halone hqueues⟩
    case orders =>
      obtain ⟨hstate, hclose, htarget, hqueues⟩ := unitReset_orders cause hg hc ha
      exact ⟨hstate, hclose, htarget, halone hqueues⟩
    case goesOn =>
      obtain ⟨hstate, hclose, hqueues⟩ := unitReset_goesOn cause hc he hn hp
      exact ⟨hstate, hclose, halone hqueues⟩
  exact ⟨fun l tag s hw hp =>
      ⟨unitReset .message, exec_resetUnit_accepted hw hp, hreset .message (emptySlot l s)⟩,
    fun s hu => ⟨unitReset .panel s, exec_resetKey hu, hreset .panel s⟩⟩

end Sys2Proof.Machine
end

