-- ==== Sys2Proof/Proofs/Receiver.lean ====
section
/-!
SUPPORT. The receiver of a composing line (R180 to R188): what each of its commands makes of the line's interface, place
by place of the frame in progress, and the breaks and silences that reach beyond it.
-/
namespace Sys2Proof.Machine

variable {s : State} {l : CLine} {i k : Iface} {f : Partial} {c : Byte}

/-! ### One interface of the part -/

@[simp] theorem withLine_get (l : CLine) (i : Iface) (s : State) : (withLine l i s).iface.get l = i :=
  Pair.get_set_same _ _ _

@[simp] theorem withLine_self (l : CLine) (s : State) : withLine l (s.iface.get l) s = s := by cases l <;> rfl

@[simp] theorem withLine_withLine (l : CLine) (i k : Iface) (s : State) :
    withLine l k (withLine l i s) = withLine l k s := by cases l <;> rfl

theorem powered_modLine (g : Iface → Iface) (hu : Up s) :
    powered s (modLine l g) = withLine l (g (s.iface.get l)) s := powered_up _ hu

/-! ### Station characters (R180, R182) -/

theorem exec_stationCharacter (hu : Up s) : exec (.stationCharacter l c) s
    = .next (withLine l ((s.iface.get l).taken fun i => i.stationCharacter c) s) :=
  congrArg _ (powered_modLine _ hu)

/-- The interface with the frame `f` in progress, and the gap timed afresh. -/
def Iface.framing (i : Iface) (f : Partial) : Iface :=
  { i with rx := .taking f, gap := some (gapLimit i.rate), spell := .nothing }

theorem Iface.inService_iff : i.inService = true ↔ ¬ (i.station.toNat = 0 ∨ i.station.toNat = 31) := by
  simp [Iface.inService]

theorem Iface.judgeStation_passes
    (h : (i.station.toNat = 0 ∨ i.station.toNat = 31) ∨ (c.toNat ≠ i.station.toNat ∧ c.toNat ≠ 31)) :
    i.judgeStation c = { i with rx := .passing, gap := none } := by
  obtain hout | ⟨hown, hall⟩ := h
  · exact if_neg (mt Iface.inService_iff.1 (not_not_intro hout))
  · rw [Iface.judgeStation, if_neg hown, if_neg hall, ite_self]
    rfl

theorem Iface.judgeStation_own (hin : ¬ (i.station.toNat = 0 ∨ i.station.toNat = 31))
    (hc : c.toNat = i.station.toNat) :
    i.judgeStation c = { i with rx := .taking (.start false), gap := some (gapLimit i.rate) } := by
  rw [Iface.judgeStation, if_pos (Iface.inService_iff.2 hin), if_pos hc]
  rfl

theorem Iface.judgeStation_broadcast (hin : ¬ (i.station.toNat = 0 ∨ i.station.toNat = 31)) (hc : c.toNat = 31) :
    i.judgeStation c = { i with rx := .taking (.start true), gap := some (gapLimit i.rate) } := by
  have hown : c.toNat ≠ i.station.toNat := fun h => hin (.inr (h ▸ hc))
  rw [Iface.judgeStation, if_pos (Iface.inService_iff.2 hin), if_neg hown, if_pos hc]
  rfl

theorem Iface.spellEnds_judgeStation (i : Iface) (c : Byte) :
    (i.judgeStation c).spellEnds = i.spellEnds.judgeStation c := by
  simp only [Iface.judgeStation, apply_ite Iface.spellEnds]
  rfl

theorem Iface.taken_of_silent (g : Iface → Iface) (h : i.rx = .silent) : i.taken g = i := by
  simp only [Iface.taken, h]

theorem Iface.taken_of_ne_silent (g : Iface → Iface) (h : i.rx ≠ .silent) : i.taken g = (g i).spellEnds := by
  unfold Iface.taken
  split
  case h_1 hs => exact absurd hs h
  all_goals rfl

/-- A station character is judged by the interface `k` that is left once a frame in progress is dropped (R182). -/
theorem Iface.taken_stationCharacter (hs : i.rx ≠ .silent)
    (htaking : (∃ f, i.rx = .taking f) → k = i.clearPass.spellEnds)
    (hfree : (∀ f, i.rx ≠ .taking f) → k = i.spellEnds) :
    (i.taken fun i => i.stationCharacter c) = k.judgeStation c := by
  rw [Iface.taken_of_ne_silent _ hs]
  cases h : i.rx with
  | silent => exact absurd h hs
  | taking f =>
    rw [htaking ⟨f, h⟩, ← Iface.spellEnds_judgeStation]
    simp only [Iface.stationCharacter, h]
  | hunt | passing | discard =>
    rw [hfree (by simp [h]), ← Iface.spellEnds_judgeStation]
    simp only [Iface.stationCharacter, h]

/-- Settles O32: the interface left by the drop of a frame in progress judges the character by its number. -/
theorem aStationCharacterStartsOrPassesAFrame : Obligations.AStationCharacterStartsOrPassesAFrame := by
  unfold Obligations.AStationCharacterStartsOrPassesAFrame
  intro l c s hu i out limit fresh
  rw [exec_stationCharacter hu]
  refine ⟨fun hs => by rw [Iface.taken_of_silent _ hs, withLine_self], fun hs k htaking hfree => ?_⟩
  have hstation : k.station = i.station ∧ k.rate = i.rate := by
    by_cases h : ∃ f, i.rx = .taking f
    · rw [htaking h]
      exact ⟨rfl, rfl⟩
    · rw [hfree (not_exists.1 h)]
      exact ⟨rfl, rfl⟩
  obtain ⟨hnumber, hrate⟩ := hstation
  have hlimit : limit = gapLimit k.rate := by rw [hrate]; rfl
  rw [Iface.taken_stationCharacter hs htaking hfree, hlimit]
  simp only [out, ← hnumber]
  refine ⟨fun h => ?passes, fun hin hc => ?own, fun hin hc => ?broadcast⟩
  case passes => rw [Iface.judgeStation_passes h]
  case own =>
    rw [Iface.judgeStation_own hin hc]
    rfl
  case broadcast =>
    rw [Iface.judgeStation_broadcast hin hc]
    rfl

/-! ### Body characters (R181, R183) -/

/-- The interface after a body character. -/
def Iface.hears (i : Iface) (c : Byte) : Iface := i.taken fun i => i.bodyCharacter c

theorem exec_bodyCharacter (hu : Up s) :
    exec (.bodyCharacter l c) s = .next (withLine l ((s.iface.get l).hears c) s) :=
  congrArg _ (powered_modLine _ hu)

theorem exec_frameEnd (hu : Up s) : exec (.frameEnd l c) s = .next (withLine l ((s.iface.get l).hears c) s) :=
  congrArg _ (powered_modLine _ hu)

theorem exec_lengthOutOfRange (hu : Up s) :
    exec (.lengthOutOfRange l c) s = .next (withLine l ((s.iface.get l).hears c) s) :=
  congrArg _ (powered_modLine _ hu)

theorem Iface.hears_silent (h : i.rx = .silent) : i.hears c = i := Iface.taken_of_silent _ h

theorem Iface.hears_disregarded (h : i.rx = .hunt ∨ i.rx = .passing ∨ i.rx = .discard) :
    i.hears c = { i with spell := .nothing } := by
  obtain h | h | h := h <;> simp only [Iface.hears, Iface.taken, Iface.bodyCharacter, h, Iface.spellEnds]

theorem Iface.hears_taking (h : i.rx = .taking f) : i.hears c = (i.takeBody f c).spellEnds := by
  simp only [Iface.hears, Iface.taken, Iface.bodyCharacter, h]

section
variable (h : i.rx = .taking f) {kind tag n hi : Byte}
include h

theorem Iface.hears_kind (hkind : f.kind = none) :
    i.hears c = i.framing { f with kind := some c, check := crcByte f.check c } := by
  simp only [Iface.hears_taking h, Iface.takeBody, hkind]
  rfl

theorem Iface.hears_tag (hkind : f.kind = some kind) (htag : f.tag = none) :
    i.hears c = i.framing { f with tag := some c, check := crcByte f.check c } := by
  simp only [Iface.hears_taking h, Iface.takeBody, hkind, htag]
  rfl

theorem Iface.hears_length (hkind : f.kind = some kind) (htag : f.tag = some tag) (hlen : f.len = none)
    (hc : c.toNat ≤ 250) : i.hears c = i.framing { f with len := some c, check := crcByte f.check c } := by
  simp only [Iface.hears_taking h, Iface.takeBody, hkind, htag, hlen, if_neg (Nat.not_lt.2 hc)]
  rfl

theorem Iface.hears_longLength (hkind : f.kind = some kind) (htag : f.tag = some tag) (hlen : f.len = none)
    (hc : 250 < c.toNat) : i.hears c = i.spoil.spellEnds := by
  simp only [Iface.hears_taking h, Iface.takeBody, hkind, htag, hlen, if_pos hc]

theorem Iface.hears_data (hkind : f.kind = some kind) (htag : f.tag = some tag) (hlen : f.len = some n)
    (hhi : f.checkHi = none) (hn : f.data.length < n.toNat) :
    i.hears c = i.framing { f with data := f.data ++ [c], check := crcByte f.check c } := by
  simp only [Iface.hears_taking h, Iface.takeBody, hkind, htag, hlen, hhi, if_pos hn]
  rfl

theorem Iface.hears_firstCheck (hkind : f.kind = some kind) (htag : f.tag = some tag) (hlen : f.len = some n)
    (hhi : f.checkHi = none) (hn : n.toNat ≤ f.data.length) :
    i.hears c = i.framing { f with checkHi := some c } := by
  simp only [Iface.hears_taking h, Iface.takeBody, hkind, htag, hlen, hhi, if_neg (Nat.not_lt.2 hn)]
  rfl

theorem Iface.hears_lastCheck (hkind : f.kind = some kind) (htag : f.tag = some tag) (hlen : f.len = some n)
    (hhi : f.checkHi = some hi) : i.hears c = (i.frameEnds f kind tag hi c).spellEnds := by
  simp only [Iface.hears_taking h, Iface.takeBody, hkind, htag, hlen, hhi]

end

/-! ### The end of a frame and the offer to the slot (R183, R186, R187) -/

theorem Iface.offer_empty (e : Entry) (h : i.slot = none) : i.offer e = { i with slot := some e } := by
  simp only [Iface.offer, h]

theorem Iface.offer_full (e : Entry) (h : i.slot ≠ none) : i.offer e = { i with overrun := true } := by
  obtain ⟨waiting, hw⟩ := Option.ne_none_iff_exists'.1 h
  simp only [Iface.offer, hw]

section
variable {kind tag hi lo : Byte}

theorem Partial.checkGood_iff : f.checkGood hi lo = true ↔ f.check = hi ++ lo := beq_iff_eq

theorem Iface.frameEnds_good (h : f.check = hi ++ lo) :
    i.frameEnds f kind tag hi lo = (i.receive .hunt).goodFrame.offer (.frame f.broadcast kind tag f.data) :=
  if_pos (Partial.checkGood_iff.2 h)

theorem Iface.frameEnds_good_placed (h : f.check = hi ++ lo) (hs : i.slot = none) : i.frameEnds f kind tag hi lo =
    { (i.receive .hunt).goodFrame with slot := some (.frame f.broadcast kind tag f.data) } :=
  (Iface.frameEnds_good h).trans (Iface.offer_empty _ hs)

theorem Iface.frameEnds_good_overrun (h : f.check = hi ++ lo) (hs : i.slot ≠ none) :
    i.frameEnds f kind tag hi lo = { (i.receive .hunt).goodFrame with overrun := true } :=
  (Iface.frameEnds_good h).trans (Iface.offer_full _ hs)

theorem Iface.frameEnds_failed_broadcast (h : f.check ≠ hi ++ lo) (hb : f.broadcast = true) :
    i.frameEnds f kind tag hi lo = (i.receive .hunt).clearPass :=
  (if_neg (mt Partial.checkGood_iff.1 h)).trans (if_pos hb)

theorem Iface.frameEnds_failed_addressed (h : f.check ≠ hi ++ lo) (hb : f.broadcast = false) :
    i.frameEnds f kind tag hi lo = (i.receive .hunt).clearPass.offer (.checkFailed tag) :=
  (if_neg (mt Partial.checkGood_iff.1 h)).trans (if_neg (Bool.eq_false_iff.1 hb))

theorem Iface.frameEnds_failed_placed (h : f.check ≠ hi ++ lo) (hb : f.broadcast = false) (hs : i.slot = none) :
    i.frameEnds f kind tag hi lo = { (i.receive .hunt).clearPass with slot := some (.checkFailed tag) } :=
  (Iface.frameEnds_failed_addressed h hb).trans (Iface.offer_empty _ hs)

theorem Iface.frameEnds_failed_overrun (h : f.check ≠ hi ++ lo) (hb : f.broadcast = false) (hs : i.slot ≠ none) :
    i.frameEnds f kind tag hi lo = { (i.receive .hunt).clearPass with overrun := true } :=
  (Iface.frameEnds_failed_addressed h hb).trans (Iface.offer_full _ hs)

end

/-- Settles O33: one rule for each place of the frame in progress, and one for each outcome of its end. -/
theorem charactersBuildAFrameAndItsEndIsOffered : Obligations.CharactersBuildAFrameAndItsEndIsOffered := by
  unfold Obligations.CharactersBuildAFrameAndItsEndIsOffered
  refine ⟨fun l c s hu => ?builds, fun l hi lo kind tag n f s hu => ?ends⟩
  case builds =>
    simp only [exec_bodyCharacter hu, Option.ne_none_iff_exists']
    refine ⟨fun h => by rw [Iface.hears_disregarded h], fun h => by rw [Iface.hears_silent h, withLine_self],
      fun f hf => ⟨fun hk => ?_, ?_, ?_, ?_, ?_⟩⟩
    · rw [Iface.hears_kind hf hk]
      rfl
    · rintro ⟨_, hk⟩ ht
      rw [Iface.hears_tag hf hk ht]
      rfl
    · rintro ⟨_, hk⟩ ⟨_, ht⟩ hn hc
      rw [Iface.hears_length hf hk ht hn hc]
      rfl
    · rintro n ⟨_, hk⟩ ⟨_, ht⟩ hn hhi hlt
      rw [Iface.hears_data hf hk ht hn hhi hlt]
      rfl
    · rintro n ⟨_, hk⟩ ⟨_, ht⟩ hn hhi hle
      rw [Iface.hears_firstCheck hf hk ht hn hhi hle]
      rfl
  case ends =>
    intro i hf hk ht hn hhi ended good failed
    rw [exec_frameEnd hu, Iface.hears_lastCheck hf hk ht hn hhi]
    refine ⟨fun h => ⟨fun hs => ?placed, fun hs => ?overrun⟩,
      fun h => ⟨fun hb => ?broadcast, fun hb hs => ?failedPlaced, fun hb hs => ?failedOverrun⟩⟩
    case placed =>
      rw [Iface.frameEnds_good_placed h hs]
      rfl
    case overrun =>
      rw [Iface.frameEnds_good_overrun h hs]
      rfl
    case broadcast =>
      rw [Iface.frameEnds_failed_broadcast h hb]
      rfl
    case failedPlaced =>
      rw [Iface.frameEnds_failed_placed h hb hs]
      rfl
    case failedOverrun =>
      rw [Iface.frameEnds_failed_overrun h hb hs]
      rfl

/-! ### Spoiled frames (R184) -/

theorem exec_framingError (hu : Up s) :
    exec (.framingError l) s = .next (withLine l (s.iface.get l).framingError s) :=
  congrArg _ (powered_modLine _ hu)

theorem exec_frameGap (hu : Up s) : exec (.frameGap l) s = .next (withLine l (s.iface.get l).gapEnds s) :=
  congrArg _ (powered_modLine _ hu)

theorem Iface.framingError_taking (h : i.rx = .taking f) : i.framingError = i.spoil := by
  simp only [Iface.framingError, h]

theorem Iface.framingError_free (h : ∀ f, i.rx ≠ .taking f) : i.framingError = i := by
  unfold Iface.framingError
  split
  case h_1 f hf => exact absurd hf (h f)
  all_goals rfl

theorem Iface.gapEnds_taking (h : i.rx = .taking f) (hg : i.gap = some 0) :
    i.gapEnds = i.clearPass.receive .hunt := by
  simp only [Iface.gapEnds, h, if_pos (runOut_iff.2 hg)]

theorem Iface.gapEnds_running (hg : i.gap ≠ some 0) : i.gapEnds = i := by
  unfold Iface.gapEnds
  rw [if_neg (mt runOut_iff.1 hg)]
  split <;> rfl

theorem Iface.gapEnds_free (h : ∀ f, i.rx ≠ .taking f) : i.gapEnds = i := by
  unfold Iface.gapEnds
  split
  case h_1 f hf => exact absurd hf (h f)
  all_goals rfl

/-! ### Breaks, silences and marking (R185), and the end of a reply (R188) -/

theorem exec_lineBreak (hu : Up s) : exec (.lineBreak l) s = .next (lineBroken l s) := congrArg _ (powered_up _ hu)

theorem exec_silence (hu : Up s) : exec (.silence l) s = .next (lineSilent l s) := congrArg _ (powered_up _ hu)

theorem exec_markingResumed (hu : Up s) :
    exec (.markingResumed l) s = .next (withLine l (s.iface.get l).marking s) :=
  congrArg _ (powered_modLine _ hu)

theorem exec_replyEnd (hu : Up s) :
    exec (.replyEnd l) s = .next (withLine l { s.iface.get l with tx := none } s) :=
  congrArg _ (powered_modLine _ hu)

theorem Iface.detectorActs_iff : i.detectorActs = true ↔ i.rx ≠ .silent := bne_iff_ne

theorem lineBroken_of_ne_silent (h : (s.iface.get l).rx ≠ .silent) :
    lineBroken l s = discardAssembly l (some .lineBreak) (withLine l (s.iface.get l).takeBreak s) :=
  if_pos (Iface.detectorActs_iff.2 h)

theorem lineBroken_of_silent (h : (s.iface.get l).rx = .silent) : lineBroken l s = s :=
  if_neg (mt Iface.detectorActs_iff.1 (not_not_intro h))

theorem lineSilent_of_ne_silent (h : (s.iface.get l).rx ≠ .silent) :
    lineSilent l s = post l.other (.lineFault l) (withLine l (s.iface.get l).fallSilent s) :=
  if_pos (Iface.detectorActs_iff.2 h)

theorem lineSilent_of_silent (h : (s.iface.get l).rx = .silent) : lineSilent l s = s :=
  if_neg (mt Iface.detectorActs_iff.1 (not_not_intro h))

theorem Iface.marking_silent (h : i.rx = .silent) : i.marking = (i.receive .hunt).spellEnds := by
  simp only [Iface.marking, h]

/-- Settles O34: the rules above, with the discard of an assembly (R37) at a break. -/
theorem spoiledFramesBreaksAndSilence : Obligations.SpoiledFramesBreaksAndSilence := by
  unfold Obligations.SpoiledFramesBreaksAndSilence
  refine ⟨fun l c s hu => ?spoiled, fun l s hu => ?spells⟩
  case spoiled =>
    rw [exec_framingError hu, exec_frameGap hu, exec_lengthOutOfRange hu]
    simp only [Option.ne_none_iff_exists']
    refine ⟨fun f hf => ⟨?_, fun hg => ?_, ?_⟩, fun hg => ?_, fun hf => ⟨?_, ?_⟩⟩
    · rw [Iface.framingError_taking hf]
      rfl
    · rw [Iface.gapEnds_taking hf hg]
      rfl
    · rintro ⟨_, hk⟩ ⟨_, ht⟩ hn hc
      rw [Iface.hears_longLength hf hk ht hn hc]
      rfl
    · rw [Iface.gapEnds_running hg, withLine_self]
    · rw [Iface.framingError_free hf, withLine_self]
    · rw [Iface.gapEnds_free hf, withLine_self]
  case spells =>
    intro i broken
    rw [exec_lineBreak hu, exec_silence hu, exec_markingResumed hu, exec_replyEnd hu]
    refine ⟨fun h => ?acts, fun h => ?silent, rfl⟩
    case acts =>
      rw [lineBroken_of_ne_silent h, lineSilent_of_ne_silent h]
      exact ⟨fun hn => congrArg _ (discardAssembly_of_none (s := broken) _ hn),
        fun a ha => congrArg _ (discardAssembly_of_some (s := broken) _ ha), rfl⟩
    case silent =>
      rw [lineBroken_of_silent h, lineSilent_of_silent h, Iface.marking_silent h]
      exact ⟨rfl, rfl, rfl⟩

end Sys2Proof.Machine
end

