-- ==== Sys2Proof/Proofs/WholeFrames.lean ====
section
/-!
SUPPORT. A whole frame, character by character (R182, R183, R200): the frame in progress after each part of what is
sent, and what its end leaves of the interface.
-/
namespace Sys2Proof.Machine

variable {s : State} {l : CLine} {i : Iface} {f : Partial}

/-! ### Commands one after another -/

theorem runAll_cons {c : Instr} (cs : List Instr) (h : exec c s = .next t) : runAll (c :: cs) s = runAll cs t := by
  simp only [runAll, h]

/-- Body characters are heard one after another by their line's interface. -/
theorem runAll_bodyCharacters (l : CLine) (bs : List Byte) (rest : List Instr) (hu : Up s) :
    runAll (bs.map (Instr.bodyCharacter l) ++ rest) s
      = runAll rest (withLine l (bs.foldl Iface.hears (s.iface.get l)) s) := by
  induction bs generalizing s with
  | nil => rw [List.foldl_nil, withLine_self, List.map_nil, List.nil_append]
  | cons b bs ih =>
    have hnext : Up (withLine l ((s.iface.get l).hears b) s) := hu
    rw [List.map_cons, List.cons_append, runAll_cons _ (exec_bodyCharacter hu), ih hnext, withLine_get,
      withLine_withLine, List.foldl_cons]

/-! ### The frame in progress -/

theorem Iface.taken_stationCharacter_starts {c : Byte} (hhunt : i.rx = .hunt) (hzero : i.station.toNat ≠ 0)
    (hall : i.station.toNat ≠ 31) (hc : c.toNat = i.station.toNat ∨ c.toNat = 31) :
    (i.taken fun i => i.stationCharacter c) = i.framing (.start (decide (c.toNat = 31))) := by
  have hin : ¬ (i.spellEnds.station.toNat = 0 ∨ i.spellEnds.station.toNat = 31) := not_or_intro hzero hall
  rw [Iface.taken_stationCharacter (k := i.spellEnds) (by simp [hhunt]) (by simp [hhunt]) fun _ => rfl]
  obtain hown | hbroadcast := hc
  · rw [Iface.judgeStation_own hin hown, decide_eq_false (hown ▸ hall)]
    rfl
  · rw [Iface.judgeStation_broadcast hin hbroadcast, decide_eq_true hbroadcast]
    rfl

/-- Data up to the length joins the frame in progress and goes into its check. -/
theorem Iface.foldl_hears_data {kind tag n : Byte} (data : List Byte) (hkind : f.kind = some kind)
    (htag : f.tag = some tag) (hlen : f.len = some n) (hhi : f.checkHi = none)
    (hn : f.data.length + data.length ≤ n.toNat) : data.foldl Iface.hears (i.framing f)
      = i.framing { f with data := f.data ++ data, check := crcBytes f.check data } := by
  induction data generalizing f with
  | nil => rw [List.append_nil]; rfl
  | cons d data ih =>
    rw [List.length_cons] at hn
    have hroom : f.data.length < n.toNat := by omega
    have hfirst : (i.framing f).hears d = i.framing { f with data := f.data ++ [d], check := crcByte f.check d } :=
      Iface.hears_data rfl hkind htag hlen hhi hroom
    have hrest : (f.data ++ [d]).length + data.length ≤ n.toNat := by
      rw [List.length_append, List.length_singleton]
      omega
    have hdata := ih (f := { f with data := f.data ++ [d], check := crcByte f.check d }) hkind htag hlen hhi hrest
    rw [List.foldl_cons, hfirst, hdata, List.append_assoc]
    rfl

/-- The frame in progress after its length. -/
def Partial.headed (broadcast : Bool) (kind tag n : Byte) : Partial :=
  { Partial.start broadcast with
    kind := some kind, tag := some tag, len := some n, check := crcBytes crcStart [kind, tag, n] }

/-- The frame in progress before its last check byte. -/
def Partial.received (broadcast : Bool) (kind tag hi : Byte) (data : List Byte) : Partial :=
  { broadcast := broadcast, kind := some kind, tag := some tag, len := some (u8 data.length), data := data
    check := crcBytes crcStart ([kind, tag, u8 data.length] ++ data), checkHi := some hi }

theorem Iface.foldl_hears_header (broadcast : Bool) (kind tag : Byte) {n : Byte} (hn : n.toNat ≤ 250) :
    [kind, tag, n].foldl Iface.hears (i.framing (.start broadcast)) = i.framing (.headed broadcast kind tag n) := by
  have hkind : (i.framing (.start broadcast)).hears kind = i.framing _ := Iface.hears_kind rfl rfl
  rw [List.foldl_cons, hkind, List.foldl_cons, Iface.hears_tag rfl rfl rfl, List.foldl_cons,
    Iface.hears_length rfl rfl rfl rfl hn]
  rfl

/-- All that is sent between the station character and the last check byte. -/
theorem Iface.foldl_hears_body (broadcast : Bool) (kind tag hi : Byte) {data : List Byte} (hd : data.length ≤ 250) :
    ([kind, tag, u8 data.length] ++ data ++ [hi]).foldl Iface.hears (i.framing (.start broadcast))
      = i.framing (.received broadcast kind tag hi data) := by
  have hlen : (u8 data.length).toNat = data.length := by
    rw [u8_toNat]
    omega
  have hroom : 0 + data.length ≤ (u8 data.length).toNat := by omega
  have hcount : (u8 data.length).toNat ≤ 250 := by omega
  have hdata := Iface.foldl_hears_data (i := i) (f := .headed broadcast kind tag (u8 data.length)) data rfl rfl rfl rfl
    hroom
  rw [List.foldl_append, List.foldl_append, Iface.foldl_hears_header _ _ _ hcount, hdata, List.foldl_cons,
    Iface.hears_firstCheck rfl rfl rfl rfl rfl (Nat.le_of_eq hlen)]
  simp only [Partial.received, crcBytes, List.foldl_append]
  rfl

section
variable {station kind tag hi lo : Byte} {data : List Byte} {broadcast : Bool}

/-- The commands by which a whole frame is sent leave the interface with the frame ended. -/
theorem runAll_frame (hu : Up s) (hline : s.iface.get l = i) (hd : data.length ≤ 250) (hhunt : i.rx = .hunt)
    (hzero : i.station.toNat ≠ 0) (hall : i.station.toNat ≠ 31)
    (hc : station.toNat = i.station.toNat ∨ station.toNat = 31) :
    runAll (.stationCharacter l station
        :: ([kind, tag, u8 data.length] ++ data ++ [hi]).map (Instr.bodyCharacter l) ++ [.frameEnd l lo]) s
      = some (withLine l ((i.framing (.received (decide (station.toNat = 31)) kind tag hi data)).hears lo) s) := by
  have hup (k : Iface) : Up (withLine l k s) := hu
  rw [List.cons_append, runAll_cons _ (exec_stationCharacter hu), hline,
    Iface.taken_stationCharacter_starts hhunt hzero hall hc, runAll_bodyCharacters _ _ _ (hup _), withLine_get,
    withLine_withLine, Iface.foldl_hears_body _ _ _ _ hd, runAll_cons _ (exec_frameEnd (hup _)), withLine_get,
    withLine_withLine]
  rfl

/-! ### The end of the frame -/

/-- A check that agrees puts the frame in the empty slot, and it counts toward PASS. -/
theorem Iface.hears_received_good (hs : i.slot = none)
    (h : hi ++ lo = crcBytes crcStart ([kind, tag, u8 data.length] ++ data)) :
    (i.framing (.received broadcast kind tag hi data)).hears lo = { i with
      rx := .hunt, gap := none, spell := .nothing, run := min 4 (i.run + 1)
      pass := i.pass || decide (4 ≤ i.run + 1), slot := some (.frame broadcast kind tag data) } := by
  have hslot : (i.framing (.received broadcast kind tag hi data)).slot = none := hs
  rw [Iface.hears_lastCheck rfl rfl rfl rfl rfl, Iface.frameEnds_good_placed h.symm hslot]
  rfl

/-- A check that does not agree puts a check-failed entry in the empty slot if the frame is addressed. -/
theorem Iface.hears_received_failed (hs : i.slot = none)
    (h : hi ++ lo ≠ crcBytes crcStart ([kind, tag, u8 data.length] ++ data)) :
    (i.framing (.received broadcast kind tag hi data)).hears lo = { i with
      rx := .hunt, gap := none, spell := .nothing, run := 0, pass := false
      slot := if broadcast = true then none else some (.checkFailed tag) } := by
  have hslot : (i.framing (.received broadcast kind tag hi data)).slot = none := hs
  rw [Iface.hears_lastCheck rfl rfl rfl rfl rfl]
  cases broadcast with
  | false =>
    rw [Iface.frameEnds_failed_placed (Ne.symm h) rfl hslot]
    rfl
  | true =>
    rw [Iface.frameEnds_failed_broadcast (Ne.symm h) rfl, if_pos rfl, ← hs]
    rfl

end

/-- Settles O35: what is sent ends in `runAll_frame`'s interface, whose slot is as the check decides. -/
theorem aWholeFrameReachesTheSlotAsSent : Obligations.AWholeFrameReachesTheSlotAsSent := by
  unfold Obligations.AWholeFrameReachesTheSlotAsSent
  intro l station kind tag hi lo data s hu hd i hhunt hs hzero hall hc covered check sent
  refine ⟨_, runAll_frame hu rfl hd hhunt hzero hall hc, ?ended, Pair.get_set_other _ _ _, fun h => ?good,
    fun h => ?failed, rfl, rfl, rfl, rfl⟩
  case ended =>
    rw [withLine_get]
    by_cases h : hi ++ lo = check
    · rw [Iface.hears_received_good hs h]
    · rw [Iface.hears_received_failed hs h]
  case good =>
    rw [withLine_get, Iface.hears_received_good hs h]
    exact ⟨rfl, rfl, rfl⟩
  case failed =>
    rw [withLine_get, Iface.hears_received_failed hs h]
    exact ⟨by simp only [decide_eq_true_eq], rfl, rfl⟩

end Sys2Proof.Machine
end

