-- ==== Sys2Proof/Proofs/Handler.lean ====
section
/-!
SUPPORT. The Message Handler's own part of a message: the reply it builds (R193, R194), the leading checks of its
refusal order (R192) with the MALFORMED bodies (R4, R27, R201), and the rows that handle a message.
-/
namespace Sys2Proof.Machine

variable {s : State} {l : CLine} {tag : Byte} {d : List Byte} {k : MsgKind}

/-! ### The reply (R193, R194) -/

/-- The line's interface after its reply has been built from the part `u` that the message left. -/
def Iface.replying (tag : Byte) (l : CLine) (lost : Bool) (u : State) (body : ReplyBody) (i : Iface) : Iface :=
  { i with tx := some (replyOf l tag lost (u, body)), overrun := false }

theorem sendReply_get (l : CLine) (tag : Byte) (lost : Bool) (u : State) (body : ReplyBody) :
    (sendReply l tag lost (u, body)).iface.get l = (u.iface.get l).replying tag l lost u body :=
  modLine_get l (Iface.replying tag l lost u body) u

theorem sendReply_get_other (l : CLine) (tag : Byte) (lost : Bool) (u : State) (body : ReplyBody) :
    (sendReply l tag lost (u, body)).iface.get l.other = u.iface.get l.other :=
  Pair.get_set_other _ _ _

/-- Settles O6: the line's interface is `sendReply_get`'s, and nothing else of the part is touched. -/
theorem aReplyShowsThePartAfterTheMessage : Obligations.AReplyShowsThePartAfterTheMessage := by
  unfold Obligations.AReplyShowsThePartAfterTheMessage
  intro l tag body f s u t
  have hline : t.iface.get l = (u.iface.get l).replying tag l (lostOf l s) u body := sendReply_get _ _ _ _ _
  refine ⟨?reply, ?_, sendReply_get_other _ _ _ _ _, ?_, ?_, rfl, rfl, rfl, rfl, rfl, rfl, rfl, rfl, rfl, rfl, rfl⟩
  case reply =>
    rw [hline]
    cases body <;> rfl
  all_goals rw [hline, Iface.replying]

/-! ### MALFORMED bodies (R4, R27, R201) -/

theorem malformed_wrongLength (asm : Option Assembly) (h : d.length ≠ k.bodyLength d) :
    malformed k asm d = some 255 := if_pos h

theorem bodyLength_of_malformed_none {asm : Option Assembly} (h : malformed k asm d = none) :
    d.length = k.bodyLength d := by
  by_contra hlen
  rw [malformed_wrongLength asm hlen] at h
  cases h

/-- A repeated key is named by the index of its first repeat. -/
theorem firstRepeat_some {es : List RawEntry} {seen : List (Nat × Nat)} {i : Nat} {key : Nat × Nat} (n : Nat)
    (hi : (es.map RawEntry.key)[i]? = some key) (hkey : key ∈ seen ∨ key ∈ (es.map RawEntry.key).take i)
    (hfresh : ∀ e ∈ (es.map RawEntry.key).take i, e ∉ seen) (hnodup : ((es.map RawEntry.key).take i).Nodup) :
    firstRepeat seen es n = some (n + i) := by
  induction es generalizing seen i n with
  | nil => simp at hi
  | cons e es ih =>
    cases i with
    | zero =>
      obtain rfl : e.key = key := by simpa using hi
      have hseen : e.key ∈ seen := by simpa using hkey
      simp [firstRepeat, hseen]
    | succ i =>
      simp only [List.map_cons, List.take_succ_cons, List.mem_cons, List.nodup_cons, forall_eq_or_imp,
        List.getElem?_cons_succ] at hi hkey hfresh hnodup
      obtain ⟨hnew, hfresh⟩ := hfresh
      obtain ⟨hhead, hnodup⟩ := hnodup
      have hrest := ih (seen := e.key :: seen) (n + 1) hi
        (by rwa [List.mem_cons, or_comm (a := key = e.key), or_assoc])
        (fun x hx => List.not_mem_cons_of_ne_of_not_mem (fun h => hhead (h ▸ hx)) (hfresh x hx)) hnodup
      simp [firstRepeat, hnew, hrest, Nat.add_assoc, Nat.add_comm 1 i]

/-- Keys that differ from each other and from those seen have no repeat. -/
theorem firstRepeat_none {es : List RawEntry} {seen : List (Nat × Nat)} (n : Nat)
    (hfresh : ∀ e ∈ es.map RawEntry.key, e ∉ seen) (hnodup : (es.map RawEntry.key).Nodup) :
    firstRepeat seen es n = none := by
  induction es generalizing seen n with
  | nil => rfl
  | cons e es ih =>
    simp only [List.map_cons, List.mem_cons, List.nodup_cons, forall_eq_or_imp] at hfresh hnodup
    obtain ⟨hnew, hfresh⟩ := hfresh
    obtain ⟨hhead, hnodup⟩ := hnodup
    have hrest := ih (seen := e.key :: seen) (n + 1)
      (fun x hx => List.not_mem_cons_of_ne_of_not_mem (fun h => hhead (h ▸ hx)) (hfresh x hx)) hnodup
    simp [firstRepeat, hnew, hrest]

section
variable {asm : Option Assembly}

theorem malformed_mapLoad_count (hlen : d.length = 2 + 5 * byteAt d 1) (h : byteAt d 1 < 1 ∨ 49 < byteAt d 1) :
    malformed .mapLoad asm d = some 255 := by
  simp only [malformed, MsgKind.bodyLength, hlen, ne_eq, not_true_eq_false, if_false, Bool.or_eq_true,
    decide_eq_true_eq, if_pos h]

theorem malformed_mapLoad_entries (hlen : d.length = 2 + 5 * byteAt d 1) (h1 : 1 ≤ byteAt d 1)
    (h2 : byteAt d 1 ≤ 49) : malformed .mapLoad asm d = firstRepeat [] (rawEntries d) 0 := by
  have hcount : ¬ (byteAt d 1 < 1 ∨ 49 < byteAt d 1) := by omega
  simp only [malformed, MsgKind.bodyLength, hlen, ne_eq, not_true_eq_false, if_false, Bool.or_eq_true,
    decide_eq_true_eq, if_neg hcount, rawEntries]

theorem partPasses_iff : partPasses asm d = true ↔ ∃ a, asm = some a ∧ a.header.job = byteAt d 0
    ∧ a.header.line = u16At d 1 ∧ a.header.count < byteAt d 3 + byteAt d 4 := by
  cases asm <;> simp [partPasses, and_assoc]

theorem malformed_linePart (hlen : d.length = 5 + 6 * byteAt d 4) : malformed .linePart asm d =
    if byteAt d 4 < 1 ∨ 40 < byteAt d 4 ∨ partPasses asm d = true then some 255 else none := by
  simp only [malformed, MsgKind.bodyLength, hlen, ne_eq, not_true_eq_false, if_false, Bool.or_eq_true,
    decide_eq_true_eq]
  by_cases hcount : byteAt d 4 < 1 ∨ 40 < byteAt d 4
  · rw [if_pos hcount, if_pos (or_assoc.1 (.inl hcount))]
  · obtain ⟨hlow, hhigh⟩ := not_or.1 hcount
    simp only [hlow, hhigh, false_or, if_false]

end

/-! ### The first leading check that fails (R192) -/

theorem leadingFault_malformed {n : Nat} (h : malformed k (s.store.assembly.get l) d = some n) :
    leadingFault k l d s = some (.malformed, n) := by
  simp only [leadingFault, h]

theorem leadingFault_notPassed (hb : malformed k (s.store.assembly.get l) d = none) (hk : k.needsPass d = true)
    (hp : ¬ Passed l s) : leadingFault k l d s = some (.notPassed, 0) := by
  have hpass : (s.iface.get l).pass = false := Bool.eq_false_of_not_eq_true hp
  simp [leadingFault, hb, hk, hpass]

theorem leadingFault_notOwner {j : Job} (hb : malformed k (s.store.assembly.get l) d = none) (hp : Passed l s)
    (hk : k.namesJob = true) (hj : findJob s.jobs (byteAt d 0) = some j) (ho : j.owner = l.other) :
    leadingFault k l d s = some (.notOwner, lineCode l.other) := by
  have hpass : (s.iface.get l).pass = true := hp
  have hother : l.other ≠ l := by cases l <;> decide
  simp [leadingFault, hb, hpass, wrongOwner, hk, hj, ho, hother]

/-- The six messages that name a job (R142). -/
theorem namesJob_of_mem :
    ∀ k ∈ [MsgKind.jobEnd, .jobCancel, .jobHold, .jobRelease, .lineOpen, .linePart], k.namesJob = true := by
  decide

theorem needsPass_of_other (h1 : k ≠ .enquire) (h2 : k ≠ .poll) (h3 : k = .reset → byteAt d 0 ≠ 1) :
    k.needsPass d = true := by
  cases k
  case enquire => exact absurd rfl h1
  case poll => exact absurd rfl h2
  case reset => exact bne_iff_ne.2 (h3 rfl)
  all_goals rfl

/-! ### The rows that handle messages (Table 11-1, log 9) -/

/-- The bodies that the row of a kind takes: the row of RESET its own scope, and every row what its kind refuses. -/
def rowTakes (k : MsgKind) : List Byte → Bool :=
  match k with
  | .enquire => choiceOr 2 0 4
  | .reset => choiceOr 1 0 2
  | _ => anyBody

theorem exec_messageRow (k : MsgKind) (l : CLine) (s : State) :
    ∃ act, exec (messageRow k l) s = .next (powered s (handle k l (rowTakes k) act)) := by
  cases k <;> exact ⟨_, rfl⟩

theorem exec_messageRow_refused {r : Reason} {n : Nat} (hw : Waits l k.code tag d s) (hm : rowTakes k d = true)
    (hl : leadingFault k l d s = some (r, n)) :
    exec (messageRow k l) s = .next (answered l tag (.refused r n) id s) := by
  obtain ⟨act, hexec⟩ := exec_messageRow k l s
  rw [hexec, handled_refused k l _ act tag d r n hw hm hl]

theorem choiceOr_wrongLength {len choice choices : Nat} (h : d.length ≠ len) :
    choiceOr len choice choices d = true := by
  simp [choiceOr, h]

theorem rowTakes_wrongLength (h : d.length ≠ k.bodyLength d) : rowTakes k d = true := by
  cases k
  case enquire => exact choiceOr_wrongLength h
  case reset => exact choiceOr_wrongLength h
  all_goals rfl

theorem rowTakes_of_needsPass (hlen : d.length = k.bodyLength d) (hk : k.needsPass d = true) :
    rowTakes k d = true := by
  cases k
  case enquire => exact absurd hk Bool.false_ne_true
  case reset =>
    have hscope : byteAt d 0 ≠ 1 := bne_iff_ne.1 hk
    obtain ⟨n, rfl⟩ := List.length_eq_one_iff.1 hlen
    have hn : n.toNat ≠ 1 := hscope
    exact choiceOr_scope (by omega)
  all_goals rfl

theorem rowTakes_of_namesJob (h : k.namesJob = true) : rowTakes k d = true := by
  cases k
  case enquire => exact absurd h Bool.false_ne_true
  case reset => exact absurd h Bool.false_ne_true
  all_goals rfl

/-! ### Entries of no kind (R183, R192) -/

theorem exec_checkFailedEntry (hu : Up s) (ht : (s.iface.get l).tx = none)
    (hs : (s.iface.get l).slot = some (.checkFailed tag)) :
    exec (.checkFailedEntry l) s = .next (answered l tag (.refused .check 0) id s) := by
  have htake : refuseCheck l s = answered l tag (.refused .check 0) id s := by
    simp only [refuseCheck, takeable, ht, hs]
    rfl
  rw [← htake]
  exact congrArg _ (powered_up _ hu)

theorem knownKind_false {kind : Byte} (h : kind = 0 ∨ 0x15 < kind.toNat) : knownKind kind = false := by
  obtain rfl | h := h
  · rfl
  · simp [knownKind, h]

theorem exec_unknownKind {kind : Byte} {broadcast : Bool} (hu : Up s) (ht : (s.iface.get l).tx = none)
    (hs : (s.iface.get l).slot = some (.frame broadcast kind tag d)) (hk : kind = 0 ∨ 0x15 < kind.toNat) :
    exec (.unknownKind l) s = .next (answer l broadcast tag (lostOf l s)
      (refuse .unknownKind kind.toNat (emptySlot l s))) := by
  have htake : refuseKind l s
      = answer l broadcast tag (lostOf l s) (refuse .unknownKind kind.toNat (emptySlot l s)) := by
    simp only [refuseKind, takeable, ht, hs, knownKind_false hk]
    rfl
  rw [← htake]
  exact congrArg _ (powered_up _ hu)

/-- Settles O8: each refusal is `exec_messageRow_refused` of the leading check that fails. -/
theorem theLeadingChecksRefuseWithoutEffect : Obligations.TheLeadingChecksRefuseWithoutEffect := by
  unfold Obligations.TheLeadingChecksRefuseWithoutEffect
  refine ⟨⟨?check, ?unknown, ?broadcast⟩, ?notPassed, ?wrongLength, ?mapLoad, ?linePart, ?notOwner⟩
  case check => exact fun l tag s => exec_checkFailedEntry
  case unknown => exact fun l kind tag d s => exec_unknownKind
  case broadcast => exact fun l kind tag d s => exec_unknownKind
  case notPassed =>
    intro k l tag d s h1 h2 h3 hw hp hb
    have hpass := needsPass_of_other h1 h2 h3
    exact exec_messageRow_refused hw (rowTakes_of_needsPass (bodyLength_of_malformed_none hb) hpass)
      (leadingFault_notPassed hb hpass hp)
  case wrongLength =>
    intro k l tag d s hw hlen
    exact exec_messageRow_refused hw (rowTakes_wrongLength hlen)
      (leadingFault_malformed (malformed_wrongLength _ hlen))
  case mapLoad =>
    intro l tag d s hw hlen refused keys
    have refusal {n : Nat} (h : malformed .mapLoad (s.store.assembly.get l) d = some n) :
        exec (.mapLoad l) s = .next (refused n) :=
      exec_messageRow_refused (k := .mapLoad) hw rfl (leadingFault_malformed h)
    refine ⟨fun h => refusal (malformed_mapLoad_count hlen h), fun h1 h2 => ⟨?_, fun hnodup => ?_⟩⟩
    · intro i key hi hmem hnodup
      have hrepeat := firstRepeat_some (seen := []) 0 hi (.inr hmem) (fun _ _ => List.not_mem_nil) hnodup
      rw [Nat.zero_add] at hrepeat
      exact refusal ((malformed_mapLoad_entries hlen h1 h2).trans hrepeat)
    · exact (malformed_mapLoad_entries hlen h1 h2).trans (firstRepeat_none 0 (fun _ _ => List.not_mem_nil) hnodup)
  case linePart =>
    intro l tag d s hw hlen passes
    have hbody := malformed_linePart (asm := s.store.assembly.get l) hlen
    have hpasses : partPasses (s.store.assembly.get l) d = true ↔ passes := partPasses_iff
    refine ⟨fun h => ?_, fun h1 h2 hfits => hbody.trans (if_neg ?_)⟩
    · refine exec_messageRow_refused (k := .linePart) hw rfl (leadingFault_malformed (hbody.trans (if_pos ?_)))
      rwa [hpasses]
    · exact not_or_intro (Nat.not_lt.2 h1) (not_or_intro (Nat.not_lt.2 h2) (mt hpasses.1 hfits))
  case notOwner =>
    intro k l tag d j s hk hw hp hb hj ho
    have hnames := namesJob_of_mem k hk
    exact exec_messageRow_refused hw (rowTakes_of_namesJob hnames) (leadingFault_notOwner hb hp hnames hj ho)

end Sys2Proof.Machine
end

