-- ==== Sys2Proof/Proofs/Enquiries.lean ====
section
/-!
SUPPORT. The messages that read the part: ENQUIRE with its four rows (R195, log 9), and POLL with the event queue
(R196, R197).
-/
namespace Sys2Proof.Machine

variable {s : State} {l : CLine} {tag n : Byte} {d : List Byte} {body : ReplyBody}

/-! ### ENQUIRE -/

/-- The row of ENQUIRE for a topic. -/
def enquireRow (l : CLine) (topic : Nat) (data : List Byte → State → Handled) (s : State) : State :=
  powered s (handle .enquire l (choiceOr 2 topic 4) fun _ d => enquire topic data d)

/-- ENQUIRE needs no PASS and names no job, so a body of two bytes passes the leading checks. -/
theorem leadingFault_enquire (hlen : d.length = 2) : leadingFault .enquire l d s = none :=
  leadingFault_none _ _ _ (if_neg (not_not_intro hlen)) (fun h => absurd h Bool.false_ne_true)
    (wrongOwner_unnamed _ _ _ rfl)

section
variable {topic : Nat} {data : List Byte → State → Handled}

theorem enquireRow_own {b : Byte} (hb : b.toNat = topic) (hw : Waits l 0x01 tag [b, n] s)
    (hd : data [b, n] (emptySlot l s) = (emptySlot l s, body)) :
    enquireRow l topic data s = answered l tag body id s := by
  subst hb
  exact answered_of_row (f := id) .enquire l (fun _ d => enquire b.toNat data d) hw (by simp [choiceOr, byteAt])
    (leadingFault_enquire rfl) ((if_pos rfl).trans hd)

theorem enquireRow_beyond {b : Byte} (ht : topic < 4) (hb : 4 ≤ b.toNat) (hw : Waits l 0x01 tag [b, n] s) :
    enquireRow l topic data s = answered l tag (.refused .range 1) id s :=
  answered_of_row (f := id) .enquire l (fun _ d => enquire topic data d) hw (by simp [choiceOr, byteAt, hb])
    (leadingFault_enquire rfl) (if_neg (Nat.ne_of_gt (Nat.lt_of_lt_of_le ht hb)))

theorem enquireRow_wrongLength (hlen : d.length ≠ 2) (hw : Waits l 0x01 tag d s) :
    enquireRow l topic data s = answered l tag (.refused .malformed 255) id s :=
  handled_refused .enquire l _ _ tag d .malformed 255 hw (choiceOr_wrongLength hlen)
    (leadingFault_malformed (malformed_wrongLength _ hlen))

end

/-- Each of the four rows is the row of a topic of the list. -/
theorem exec_enquireRow {row : Instr}
    (h : row ∈ [Instr.enquireUnit l, .enquireJob l, .enquireTrims l, .enquireLine l]) :
    ∃ topic < 4, ∃ data, exec row s = .next (enquireRow l topic data s) := by
  simp only [List.mem_cons, List.not_mem_nil, or_false] at h
  obtain rfl | rfl | rfl | rfl := h
  · exact ⟨0, by decide, _, rfl⟩
  · exact ⟨1, by decide, _, rfl⟩
  · exact ⟨2, by decide, _, rfl⟩
  · exact ⟨3, by decide, _, rfl⟩

/-- The slot of a line is not in the report of the unit (Table 12-6). -/
theorem unitTopic_emptySlot (l : CLine) (s : State) : unitTopic (emptySlot l s) = unitTopic s := by
  cases l <;> rfl

theorem reportJob_table (t : Byte) (s : State) : reportJob [t, 0] s = report 1 (jobTable s) s := rfl

theorem reportJob_live {t : Byte} {j : Job} (hn : n ≠ 0) (hj : findJob s.jobs n.toNat = some j) :
    reportJob [t, n] s = report 1 j.part s := by
  have hnum : byteAt [t, n] 1 = n.toNat := rfl
  have hne : n.toNat ≠ 0 := fun h => hn (BitVec.eq_of_toNat_eq h)
  simp only [reportJob, hnum, if_neg hne, hj]

theorem reportJob_noJob {t : Byte} (hn : n ≠ 0) (hj : findJob s.jobs n.toNat = none) :
    reportJob [t, n] s = refuse .noJob 0 s := by
  have hnum : byteAt [t, n] 1 = n.toNat := rfl
  have hne : n.toNat ≠ 0 := fun h => hn (BitVec.eq_of_toNat_eq h)
  simp only [reportJob, hnum, if_neg hne, hj]

/-- Settles O43: each row answers its topic by `enquireRow_own`, and all four refuse the rest alike. -/
theorem enquiriesReportAndChangeNothing : Obligations.EnquiriesReportAndChangeNothing := by
  unfold Obligations.EnquiriesReportAndChangeNothing
  intro l tag n s
  refine ⟨fun hw => ?unit, fun hw => ⟨?table, ?live, ?noJob⟩,
    fun hw => congrArg _ (enquireRow_own rfl hw rfl), fun hw => congrArg _ (enquireRow_own rfl hw rfl), ?refusals⟩
  case unit =>
    refine congrArg _ (enquireRow_own rfl hw ?_)
    rw [report, unitTopic_emptySlot]
  case table =>
    rintro rfl
    exact congrArg _ (enquireRow_own rfl hw (reportJob_table _ _))
  case live => exact fun j hn hj => congrArg _ (enquireRow_own rfl hw (reportJob_live hn hj))
  case noJob => exact fun hn hj => congrArg _ (enquireRow_own rfl hw (reportJob_noJob hn hj))
  case refusals =>
    intro row hrow
    obtain ⟨topic, ht, data, hexec⟩ := exec_enquireRow (s := s) hrow
    rw [hexec]
    exact ⟨fun b hb hw => congrArg _ (enquireRow_beyond ht hb hw),
      fun d hlen hw => congrArg _ (enquireRow_wrongLength hlen hw)⟩

/-! ### The event queue and POLL -/

theorem Queue.post_eq (q : Queue) (e : Event) : q.post e = if q.events.length < 32
    then { events := q.events ++ [e], lost := q.lost } else { events := q.events, lost := true } := rfl

/-- Events are left after a POLL if the queue held more than it takes. -/
theorem Queue.polled_eq (q : Queue) :
    q.polled = { events := q.events.drop 8, lost := q.lost && !(q.events.drop 8).isEmpty } := by
  have hleft : decide (8 < q.events.length) = !(q.events.drop 8).isEmpty := by
    rw [Bool.eq_iff_iff]
    simp
  rw [Queue.polled, pollMax, hleft]

/-- POLL needs no PASS and names no job, so an empty body passes the leading checks. -/
theorem leadingFault_poll : leadingFault .poll l [] s = none :=
  leadingFault_none _ _ _ rfl (fun h => absurd h Bool.false_ne_true) (wrongOwner_unnamed _ _ _ rfl)

/-- The part after a POLL of a line's queue. -/
def pollTaken (l : CLine) (q : Queue) (s : State) : State := { s with queues := s.queues.set l q.polled }

theorem exec_poll (hw : Waits l 0x02 tag [] s) : exec (.poll l) s
    = .next (answered l tag (.events ((s.queues.get l).events.take 8)) (pollTaken l (s.queues.get l)) s) :=
  congrArg _ (answered_of_act .poll l (fun bc _ => pollQueue l bc) hw leadingFault_poll rfl)

theorem exec_poll_body (hd : d ≠ []) (hw : Waits l 0x02 tag d s) :
    exec (.poll l) s = .next (answered l tag (.refused .malformed 255) id s) :=
  exec_messageRow_refused (k := .poll) hw rfl
    (leadingFault_malformed (malformed_wrongLength _ (mt List.length_eq_zero_iff.1 hd)))

theorem exec_poll_broadcast (hu : Up s) (ht : (s.iface.get l).tx = none)
    (hs : (s.iface.get l).slot = some (.frame true 0x02 tag [])) : exec (.poll l) s = .next (emptySlot l s) := by
  have htake : handle .poll l anyBody (fun bc _ => pollQueue l bc) s = emptySlot l s := by
    simp only [handle, takeable, ht, hs, judgeMsg, leadingFault_emptySlot, leadingFault_poll]
    rfl
  rw [← htake]
  exact congrArg _ (powered_up _ hu)

/-- Settles O45: the reply's flags are those of `aReplyShowsThePartAfterTheMessage` after `pollTaken`. -/
theorem pollSendsTheOldestEight : Obligations.PollSendsTheOldestEight := by
  unfold Obligations.PollSendsTheOldestEight
  refine ⟨fun l e s => ⟨(post_get_same l e s).trans (Queue.post_eq _ e), post_get_other l e s⟩,
    fun l tag s => ⟨fun hw => ?polled, fun d => exec_poll_body, exec_poll_broadcast⟩⟩
  have hleft : (pollTaken l (s.queues.get l) (emptySlot l s)).queues.get l = (s.queues.get l).polled :=
    Pair.get_set_same _ _ _
  obtain ⟨hreply, -⟩ := aReplyShowsThePartAfterTheMessage l tag (.events ((s.queues.get l).events.take 8))
    (pollTaken l (s.queues.get l)) s
  refine ⟨_, exec_poll hw, ?_, ?_, ?_⟩
  · rw [← Queue.polled_eq]
    rfl
  · rw [hreply]
    rfl
  · rw [hreply, hleft, Queue.polled_eq]
    rfl

end Sys2Proof.Machine
end

