-- ==== Sys2Proof/Proofs/FrameAndSortLayouts.lean ====
section
/-!
SUPPORT. The frame of a reply with its check (R181, R183, R188), and the six bytes of a sort read back field by field
(R200, R201).
-/
namespace Sys2Proof.Machine

/-! ### Reply frames -/

/-- The bytes that the check covers: kind, tag, length, and data beginning with the status byte. -/
theorem Reply.covered_eq (r : Reply) :
    r.covered = [u8 r.body.code, r.tag, u8 (r.status.byte :: r.body.data).length] ++ r.status.byte :: r.body.data := rfl

/-- The frame has its check's two bytes last, and marker 1 on its station character alone. -/
theorem Reply.frame_eq (r : Reply) :
    r.frame = { marker := true, data := u8 r.station.toNat }
      :: (r.covered ++ [u8 ((crcBytes crcStart r.covered).toNat / 256), u8 (crcBytes crcStart r.covered).toNat]).map
        fun b => { marker := false, data := b } := rfl

/-- The nine digits in ASCII give the published check value of the CRC-16 with R183's polynomial and start. -/
theorem crcBytes_nineDigits :
    crcBytes crcStart [0x31, 0x32, 0x33, 0x34, 0x35, 0x36, 0x37, 0x38, 0x39] = 0x29B1 := by
  simp [crcBytes, crcStart, crcByte, crcShift, BitVec.msb, BitVec.getMsbD]

/-- Settles O7, by the two equations of the frame and the check value. -/
theorem aReplyFrameCarriesItsCheck : Obligations.AReplyFrameCarriesItsCheck := by
  unfold Obligations.AReplyFrameCarriesItsCheck
  exact ⟨fun r => ⟨_, rfl, r.covered_eq, r.frame_eq⟩, crcBytes_nineDigits⟩

/-! ### Fields read as they were sent (R200) -/

theorem u16_readBack {n : Nat} (h : n < 65536) : (u8 (n / 256)).toNat * 256 + (u8 n).toNat = n := by
  rw [u8_toNat, u8_toNat]
  omega

theorem signed8_i8 {n : Int} (h1 : -128 ≤ n) (h2 : n < 128) : signed8 (i8 n).toNat = n := by
  have hbyte : ((i8 n).toNat : Int) = n % 256 := by
    rw [i8, u8_toNat]
    omega
  unfold signed8
  split
  case isTrue => omega
  case isFalse => omega

/-! ### Sorts (Table 12-3) -/

section
variable {font : Nat} (h : font < 128) (reversed : Bool)
include h

/-- The reversed flag is bit 7 above the seven bits of the font, so the two share a byte. -/
theorem fontByte_toNat :
    (u8 (font + if reversed then 128 else 0)).toNat = font + if reversed then 128 else 0 := by
  rw [u8_toNat]
  split <;> omega

theorem fontByte_font : (u8 (font + if reversed then 128 else 0)).toNat % 128 = font := by
  rw [fontByte_toNat h]
  split <;> omega

theorem fontByte_reversed : decide (128 ≤ (u8 (font + if reversed then 128 else 0)).toNat) = reversed := by
  rw [fontByte_toNat h]
  cases reversed
  case false => exact decide_eq_false (Nat.not_le.2 h)
  case true => exact decide_eq_true (Nat.le_add_left 128 font)

end

/-- Which byte of a sort each field is read from. -/
theorem sortAt_sixBytes (f c1 c0 a1 a0 r : Byte) (rest : List Byte) :
    sortAt (f :: c1 :: c0 :: a1 :: a0 :: r :: rest) 0 =
      { font := f.toNat % 128, code := c1.toNat * 256 + c0.toNat, advance := a1.toNat * 256 + a0.toNat
        rise := signed8 r.toNat, reversed := 128 ≤ f.toNat } := rfl

/-- Settles O15: each field is read back from its own bytes. -/
theorem aSortIsReadAsItWasSent : Obligations.ASortIsReadAsItWasSent := by
  unfold Obligations.ASortIsReadAsItWasSent
  intro g rest hfont hcode hadvance hlow hhigh
  refine (sortAt_sixBytes _ _ _ _ _ _ rest).trans ?fields
  rw [fontByte_font hfont, u16_readBack hcode, u16_readBack hadvance, signed8_i8 hlow hhigh, fontByte_reversed hfont]

end Sys2Proof.Machine
end

