-- ==== Sys2Proof/Proofs/FrontCommand.lean ====
section
/-! SUPPORT. One step with a command waiting (log 2). -/
namespace Sys2Proof.Machine

theorem step_cons {c : Instr} {rest : List Instr} {s : State} (h : s.pending = c :: rest) :
    step s = exec c { s with pending := rest } := by
  rw [step, h]

/-- Settles O1, by the step's equation for a queue with a front. -/
theorem stepTakesTheFrontCommand : Obligations.StepTakesTheFrontCommand := by
  unfold Obligations.StepTakesTheFrontCommand
  exact fun _ _ _ => step_cons

end Sys2Proof.Machine
end

