-- ==== Sys2Proof/Proofs/BoundaryRefuted.lean ====
section
/-!
SUPPORT. The line boundary (R151) after a last result (R66), where the ACTIVE job's next line has no leading and no
glyph: its preparation asks no mechanism for a move, so that it has ended as it begins (log 26), and the one result sets
both lines.
-/
namespace Sys2Proof.Machine

/-- A line of one cell of job 1, with leading 0 and the lens that the turret stands at after a start. -/
def lineWithoutLeading (line : Nat) (res : Resolution) (current : Bool) : LineRecord :=
  { header :=
      { job := 1, line := line, direction := .ltr, lens := 0, leading := 0, indent := 0, measure := 100, count := 1 }
    origin := .a
    cells := [{ glyph := { font := 1, code := 65, advance := 100, rise := 0, reversed := false }, res := res }]
    current := current }

/-- A job that is ACTIVE with two lines committed and none set. -/
def jobOfTwoLines : Job :=
  { number := 1, cls := .routine, disc := 3, owner := .a, cut := true, final := none, committed := 2, setCount := 0
    order := 1, state := .active, held := false, started := true, reason := none }

/-- The job's first line, of one glyph, has had its last flash; its second line is a space. -/
def beforeALineOfSpace : State := { State.reset with
  store := { freeCells := 4094, assembly := ⟨none, none⟩
             lines := [lineWithoutLeading 1 (.placed 2 40 false 0) true, lineWithoutLeading 2 .space false] }
  jobs := [jobOfTwoLines]
  engine := { Engine.started with
    state := .flash, current := some { job := 1, line := 1 }, stopNo := 1
    stops := stopsOf (lineWithoutLeading 1 (.placed 2 40 false 0) true).cells
    watch := some { of := .exposure 2 true, hit := true, left := 0 } }
  drive := { State.reset.drive with film := { State.reset.drive.film with remaining := 1000, galleyOpen := true } }
  spin := { State.reset.spin with unit := .exposing, mounted := 3, present := 3, motor := true } }

/-- The cells of both lines are freed, and the job's set count has risen by 2. -/
theorem closeWatch_setsBothLines : (closeWatch beforeALineOfSpace).store.freeCells = 4096
    ∧ (closeWatch beforeALineOfSpace).jobs.map Job.setCount = [2] := by decide

/-- Refutes O59: it frees the cells of the line that the result sets and no other, but here the next line is set with
it (`closeWatch_setsBothLines`). -/
theorem not_theLastResultSetsTheLineAndReachesTheBoundary :
    ¬ Obligations.TheLastResultSetsTheLineAndReachesTheBoundary := by
  unfold Obligations.TheLastResultSetsTheLineAndReachesTheBoundary
  intro h
  obtain ⟨t, hexec, -, hfree, -⟩ := h jobOfTwoLines { job := 1, line := 1 } 2 true 0 beforeALineOfSpace rfl
    (by unfold JobsDistinct; decide) rfl rfl rfl rfl (by decide) (by decide) rfl rfl rfl rfl rfl
  have ht : closeWatch beforeALineOfSpace = t := Host.Outcome.next.inj hexec
  have hone : t.store.freeCells = 4095 := hfree
  rw [← ht, closeWatch_setsBothLines.1] at hone
  exact absurd hone (by decide)

end Sys2Proof.Machine
end

