-- ==== Sys2Proof/Proofs/StopsAndRing.lean ====
section
/-!
SUPPORT. The stops of a line (R46), its sweep (R47), the target angles of new items (R51) and the order of the ring ahead
of the disc (R52).
-/
namespace Sys2Proof.Machine

/-! ### The stops of a line (R46) -/

/-- Stops in ascending x, each with entries, and these in ascending sort index, all below `i`. -/
structure StopsOrdered (i : Nat) (stops : List Stop) : Prop where
  ascending : (stops.map Stop.x).Pairwise (· < ·)
  entries : ∀ st ∈ stops, st.entries ≠ [] ∧ (st.entries.map StopEntry.index).Pairwise (· < ·)
    ∧ ∀ e ∈ st.entries, e.index < i

/-- The stop at `x` has the entry `e`. -/
def EntryAt (x : Nat) (e : StopEntry) (stops : List Stop) : Prop := ∃ st ∈ stops, st.x = x ∧ e ∈ st.entries

theorem entryAt_nil (x : Nat) (e : StopEntry) : ¬ EntryAt x e [] := fun ⟨_, h, _⟩ => List.not_mem_nil h

theorem entryAt_cons {x : Nat} {e : StopEntry} {st : Stop} {stops : List Stop} :
    EntryAt x e (st :: stops) ↔ (st.x = x ∧ e ∈ st.entries) ∨ EntryAt x e stops := by
  simp [EntryAt]

/-- An entry is added at its x, and no other. -/
theorem entryAt_addToStops {x y : Nat} {e f : StopEntry} {stops : List Stop} :
    EntryAt y f (addToStops x e stops) ↔ (y = x ∧ f = e) ∨ EntryAt y f stops := by
  induction stops with
  | nil => simp [addToStops, EntryAt, eq_comm]
  | cons st stops ih =>
    unfold addToStops
    split
    next hx =>
      subst hx
      rw [entryAt_cons, entryAt_cons]
      simp only [List.mem_append, List.mem_singleton]
      grind
    next =>
      split
      · rw [entryAt_cons]
        simp only [List.mem_singleton, eq_comm]
      · rw [entryAt_cons, entryAt_cons, ih]
        grind

/-- The x of the stops after an addition. -/
theorem mem_x_addToStops {x y : Nat} {e : StopEntry} {stops : List Stop} :
    y ∈ (addToStops x e stops).map Stop.x ↔ y = x ∨ y ∈ stops.map Stop.x := by
  induction stops with
  | nil => simp [addToStops]
  | cons st stops ih =>
    unfold addToStops
    split
    next hx => simp [hx]
    next =>
      split
      · simp
      · rw [List.map_cons, List.mem_cons, ih, List.map_cons, List.mem_cons]
        exact or_left_comm

theorem addToStops_ascending {x : Nat} {e : StopEntry} {stops : List Stop}
    (h : (stops.map Stop.x).Pairwise (· < ·)) : ((addToStops x e stops).map Stop.x).Pairwise (· < ·) := by
  induction stops with
  | nil => exact List.pairwise_singleton _ _
  | cons st stops ih =>
    obtain ⟨hfirst, hrest⟩ := List.pairwise_cons.1 h
    unfold addToStops
    split
    · exact h
    · split
      next hlt =>
        refine List.pairwise_cons.2 ⟨fun y hy => ?_, h⟩
        rcases List.mem_cons.1 hy with rfl | hy
        · exact hlt
        · exact Nat.lt_trans hlt (hfirst y hy)
      next hne hnlt =>
        refine List.pairwise_cons.2 ⟨fun y hy => ?_, ih hrest⟩
        rcases mem_x_addToStops.1 hy with rfl | hy
        · omega
        · exact hfirst y hy

/-- The entries of a stop after an addition are those of a stop before, the new one alone, or the former with the new one
at their end. -/
theorem mem_addToStops {x : Nat} {e : StopEntry} {st : Stop} {stops : List Stop} (h : st ∈ addToStops x e stops) :
    st ∈ stops ∨ st.entries = [e] ∨ ∃ old ∈ stops, st.entries = old.entries ++ [e] := by
  induction stops with
  | nil => exact .inr (.inl (by rw [List.mem_singleton.1 h]))
  | cons first stops ih =>
    unfold addToStops at h
    split at h
    · rcases List.mem_cons.1 h with rfl | h
      · exact .inr (.inr ⟨first, List.mem_cons_self, rfl⟩)
      · exact .inl (List.mem_cons_of_mem _ h)
    · split at h
      · rcases List.mem_cons.1 h with rfl | h
        · exact .inr (.inl rfl)
        · exact .inl h
      · rcases List.mem_cons.1 h with rfl | h
        · exact .inl List.mem_cons_self
        · obtain hold | hnew | ⟨old, hold, heq⟩ := ih h
          · exact .inl (List.mem_cons_of_mem _ hold)
          · exact .inr (.inl hnew)
          · exact .inr (.inr ⟨old, List.mem_cons_of_mem _ hold, heq⟩)

/-- Adding the entry of the next index keeps the stops in order. -/
theorem StopsOrdered.add {i x : Nat} {e : StopEntry} {stops : List Stop} (h : StopsOrdered i stops) (he : e.index = i) :
    StopsOrdered (i + 1) (addToStops x e stops) := by
  refine ⟨addToStops_ascending h.ascending, fun st hst => ?_⟩
  obtain hold | hnew | ⟨old, hold, heq⟩ := mem_addToStops hst
  · obtain ⟨hne, hindex, hbelow⟩ := h.entries st hold
    exact ⟨hne, hindex, fun f hf => Nat.lt_succ_of_lt (hbelow f hf)⟩
  · rw [hnew]
    exact ⟨List.cons_ne_nil _ _, List.pairwise_singleton _ _, by simp [he]⟩
  · obtain ⟨-, hindex, hbelow⟩ := h.entries old hold
    rw [heq, List.map_append, List.pairwise_append]
    refine ⟨by simp, ⟨hindex, List.pairwise_singleton _ _, ?_⟩, ?_⟩
    · simpa [he] using hbelow
    · intro f hf
      rcases List.mem_append.1 hf with hf | hf
      · exact Nat.lt_succ_of_lt (hbelow f hf)
      · rw [List.mem_singleton.1 hf, he]
        exact Nat.lt_succ_self i

theorem StopsOrdered.skip {i : Nat} {stops : List Stop} (h : StopsOrdered i stops) : StopsOrdered (i + 1) stops :=
  ⟨h.ascending, fun st hst => by
    obtain ⟨hne, hindex, hbelow⟩ := h.entries st hst
    exact ⟨hne, hindex, fun f hf => Nat.lt_succ_of_lt (hbelow f hf)⟩⟩

/-- What `entryOf` says of a cell: it has glyph and place as the entry says, at its x. -/
theorem entryOf_eq_some {i x : Nat} {c : Cell} {e : StopEntry} : entryOf i c = some (x, e) ↔
    e.index = i ∧ c.res = .placed e.track e.position e.heavy x ∧ e.rise = c.glyph.rise := by
  obtain ⟨g, res⟩ := c
  obtain ⟨index, track, position, rise, heavy⟩ := e
  cases res <;> simp [entryOf]
  grind

theorem stopsFrom_cons (i : Nat) (acc : List Stop) (c : Cell) (cs : List Cell) : stopsFrom i acc (c :: cs) =
    stopsFrom (i + 1) ((entryOf i c).elim acc fun p => addToStops p.1 p.2 acc) cs := by
  rw [stopsFrom]
  split <;> rename_i h <;> rw [h] <;> rfl

theorem stopsFrom_ordered {i : Nat} {acc : List Stop} {cs : List Cell} (h : StopsOrdered i acc) :
    StopsOrdered (i + cs.length) (stopsFrom i acc cs) := by
  induction cs generalizing i acc with
  | nil => exact h
  | cons c cs ih =>
    rw [stopsFrom_cons, List.length_cons, Nat.add_comm cs.length, ← Nat.add_assoc]
    refine ih ?_
    cases hentry : entryOf i c with
    | none => exact h.skip
    | some p =>
      obtain ⟨x, e⟩ := p
      exact h.add (entryOf_eq_some.1 hentry).1

/-- The stops from index `i` on have the entries they had, and those of the cells. -/
theorem entryAt_stopsFrom {i x : Nat} {e : StopEntry} {acc : List Stop} {cs : List Cell} :
    EntryAt x e (stopsFrom i acc cs) ↔ EntryAt x e acc ∨ ∃ k c, cs[k]? = some c ∧ entryOf (i + k) c = some (x, e) := by
  induction cs generalizing i acc with
  | nil => simp [stopsFrom]
  | cons c cs ih =>
    have hcells : (∃ k d, (c :: cs)[k]? = some d ∧ entryOf (i + k) d = some (x, e)) ↔
        entryOf i c = some (x, e) ∨ ∃ k d, cs[k]? = some d ∧ entryOf (i + 1 + k) d = some (x, e) := by
      constructor
      · rintro ⟨k, d, hd, hentry⟩
        cases k with
        | zero =>
          obtain rfl : c = d := by simpa using hd
          exact .inl hentry
        | succ k => exact .inr ⟨k, d, hd, by rwa [show i + 1 + k = i + (k + 1) by omega]⟩
      · rintro (hentry | ⟨k, d, hd, hentry⟩)
        · exact ⟨0, c, rfl, hentry⟩
        · exact ⟨k + 1, d, hd, by rwa [show i + (k + 1) = i + 1 + k by omega]⟩
    rw [stopsFrom_cons, ih, hcells, ← or_assoc]
    refine or_congr_left ?_
    cases hentry : entryOf i c with
    | none => simp
    | some p =>
      rw [Option.elim_some, entryAt_addToStops, or_comm]
      simp [Prod.ext_iff, eq_comm]

theorem stopsOf_ordered (cs : List Cell) : StopsOrdered (0 + cs.length) (stopsOf cs) :=
  stopsFrom_ordered ⟨List.Pairwise.nil, fun _ h => absurd h List.not_mem_nil⟩

/-- The stops have an entry for each placed cell, and no other. -/
theorem entryAt_stopsOf {cs : List Cell} {x : Nat} {e : StopEntry} : EntryAt x e (stopsOf cs) ↔
    ∃ c, cs[e.index]? = some c ∧ c.res = .placed e.track e.position e.heavy x ∧ e.rise = c.glyph.rise := by
  rw [stopsOf, entryAt_stopsFrom]
  simp only [entryAt_nil, false_or, entryOf_eq_some, Nat.zero_add]
  constructor
  · rintro ⟨k, c, hc, rfl, hcell⟩
    exact ⟨c, hc, hcell⟩
  · rintro ⟨c, hc, hcell⟩
    exact ⟨e.index, c, hc, rfl, hcell⟩

/-! ### The sweep (R47) -/

theorem distance_eq (p x : Nat) : distance p x = if p ≤ x then x - p else p - x := by
  unfold distance
  split <;> omega

theorem sweepFrom_eq {p : Nat} {stops : List Stop} {lo hi : Stop} (hlo : stops.head? = some lo)
    (hhi : stops.getLast? = some hi) : sweepFrom p stops =
      if distance p lo.x ≤ distance p hi.x then .ascending else .descending := by
  rw [sweepFrom, hlo, hhi]

/-! ### Target angles (R51) -/

theorem targetAngle_int (position code : Nat) :
    (targetAngle position code : Int) = ((position : Int) * 30 + ((code : Int) - 8)) % 2880 := by
  simp only [targetAngle, Config.countsPerRev]
  omega

theorem targetAngle_bounds {position code : Nat} (h1 : 1 ≤ position) (h95 : position ≤ 95) (hcode : code ≤ 15) :
    22 ≤ targetAngle position code ∧ targetAngle position code ≤ 2857 := by
  simp only [targetAngle, Config.countsPerRev]
  omega

/-! ### How far ahead an angle lies (R52) -/

theorem ahead_on {counter : Int} {target : Nat} (h0 : 0 ≤ counter) (h1 : counter < 2880) (ht : target < 2880) :
    1 ≤ ahead counter target ∧ ahead counter target ≤ 2880 ∧ (counter + ahead counter target) % 2880 = target := by
  have heq : ahead counter target = if (target + 2880 - counter.toNat) % 2880 = 0 then 2880
      else (target + 2880 - counter.toNat) % 2880 := if_pos ⟨h0, h1⟩
  by_cases hturn : (target + 2880 - counter.toNat) % 2880 = 0
  · rw [heq, if_pos hturn]
    omega
  · rw [heq, if_neg hturn]
    omega

theorem ahead_off {counter : Int} (h : counter < 0 ∨ 2880 ≤ counter) (target : Nat) : ahead counter target = target :=
  if_neg (by omega)

/-! ### The place of a new item (R52) -/

section
variable {counter : Int} {it x : Item} {xs : List Item}

/-- The item goes behind the first as long as one that is reached no later than it is still to come. -/
theorem insertItem_behind (h : ∃ y ∈ x :: xs, ahead counter y.target ≤ ahead counter it.target) :
    insertItem counter it (x :: xs) = x :: insertItem counter it xs := by
  rw [insertItem, if_pos (by simpa using h)]

theorem insertItem_here (h : ∀ y ∈ x :: xs, ahead counter it.target < ahead counter y.target) :
    insertItem counter it (x :: xs) = it :: x :: xs := by
  rw [insertItem, if_neg (by simpa using h)]

end

/-- A new item stands before those that are all reached after it; and where it follows others, the last of them is
reached no later. -/
theorem insertItem_split (counter : Int) (it : Item) (ring : List Item) : ∃ before after, ring = before ++ after
    ∧ insertItem counter it ring = before ++ it :: after
    ∧ (∀ y ∈ after, ahead counter it.target < ahead counter y.target)
    ∧ (∀ y, before.getLast? = some y → ahead counter y.target ≤ ahead counter it.target) := by
  induction ring with
  | nil => exact ⟨[], [], rfl, rfl, fun _ h => absurd h List.not_mem_nil, fun _ h => by cases h⟩
  | cons x xs ih =>
    by_cases h : ∃ y ∈ x :: xs, ahead counter y.target ≤ ahead counter it.target
    · obtain ⟨before, after, hring, hplaced, hafter, hlast⟩ := ih
      refine ⟨x :: before, after, by rw [hring]; rfl, by rw [insertItem_behind h, hplaced]; rfl, hafter, fun y hy => ?_⟩
      cases before with
      | nil =>
        obtain ⟨z, hz, hle⟩ := h
        obtain rfl : x = y := by simpa using hy
        rcases List.mem_cons.1 hz with rfl | hz
        · exact hle
        · exact absurd (hafter z (by simpa [hring] using hz)) (Nat.not_lt.2 hle)
      | cons b bs => exact hlast y (by simpa using hy)
    · have hall : ∀ y ∈ x :: xs, ahead counter it.target < ahead counter y.target := fun y hy =>
        Nat.lt_of_not_le fun hle => h ⟨y, hy, hle⟩
      exact ⟨[], x :: xs, rfl, insertItem_here hall, hall, fun _ h => by cases h⟩

/-- In a sorted list whose last element is at most `n` every element is. -/
theorem le_of_getLast_le {far : Item → Nat} {n : Nat} {xs : List Item} (hs : (xs.map far).Pairwise (· ≤ ·))
    (hlast : ∀ y, xs.getLast? = some y → far y ≤ n) : ∀ y ∈ xs, far y ≤ n := by
  induction xs with
  | nil => exact fun _ h => absurd h List.not_mem_nil
  | cons x xs ih =>
    obtain ⟨hfirst, hrest⟩ := List.pairwise_cons.1 hs
    cases xs with
    | nil =>
      intro y hy
      exact hlast y (by rw [List.mem_singleton.1 hy]; rfl)
    | cons z zs =>
      have hlater := ih hrest fun y hy => hlast y hy
      intro y hy
      rcases List.mem_cons.1 hy with rfl | hy
      · exact Nat.le_trans (hfirst (far z) List.mem_cons_self) (hlater z List.mem_cons_self)
      · exact hlater y hy

/-- Settles O60: the stops by `stopsOf_ordered` and `entryAt_stopsOf`, the sweep by `sweepFrom_eq`, the angles by the
`targetAngle_` and `ahead_` lemmas, and the ring by `insertItem_split`. -/
theorem stopsAndRingKeepTheirOrders : Obligations.StopsAndRingKeepTheirOrders := by
  unfold Obligations.StopsAndRingKeepTheirOrders
  refine ⟨fun cs => ⟨(stopsOf_ordered cs).ascending, fun st hst => ?entries, fun x e => entryAt_stopsOf⟩,
    fun p stops lo hi hlo hhi => ?sweep, fun p => rfl, fun e s => ⟨_, rfl, targetAngle_int _ _, targetAngle_bounds⟩,
    fun counter target ht => ⟨fun h0 h1 => ahead_on h0 h1 ht, fun h => ahead_off h target⟩,
    fun counter it ring => ?ring⟩
  case entries =>
    obtain ⟨hne, hindex, -⟩ := (stopsOf_ordered cs).entries st hst
    exact ⟨hne, hindex⟩
  case sweep =>
    rw [sweepFrom_eq hlo hhi, distance_eq, distance_eq]
    dsimp only
    split <;> simp [*]
  case ring =>
    intro far
    obtain ⟨before, after, hring, hplaced, hafter, hlast⟩ := insertItem_split counter it ring
    refine ⟨before, after, hring, hplaced, hafter, fun hs => ?_⟩
    rw [hring, List.map_append, List.pairwise_append] at hs
    obtain ⟨hsBefore, hsAfter, hacross⟩ := hs
    have hbefore : ∀ y ∈ before, far y ≤ far it := le_of_getLast_le hsBefore hlast
    refine ⟨hbefore, ?_⟩
    rw [hplaced, List.map_append, List.pairwise_append, List.map_cons, List.pairwise_cons]
    simp only [List.mem_map, List.mem_cons, forall_exists_index, and_imp, forall_apply_eq_imp_iff₂] at hacross ⊢
    refine ⟨hsBefore, ⟨fun y hy => Nat.le_of_lt (hafter y hy), hsAfter⟩, fun y hy n hn => ?_⟩
    rcases hn with rfl | ⟨z, hz, rfl⟩
    · exact hbefore y hy
    · exact hacross y hy z hz

end Sys2Proof.Machine
end

