-- ==== Sys2Proof/Proofs/EncoderEdges.lean ====
section
/-!
SUPPORT. Encoder edges (R72, R76, R87), the take rule (R58 to R60), and the compare event of an arrival (R53, R54): what
the ring, the channel, the bank, the result watch and the deflector are left with.
-/
namespace Sys2Proof.Machine

variable {s t : State}

/-! ### The counter (R72, R76, R87) -/

theorem exec_edgeUp (hu : Up s) : exec (.encoderEdge .up) s = .next (edgeUp s) := congrArg _ (powered_up _ hu)

theorem exec_edgeDown (hu : Up s) : exec (.encoderEdge .down) s = .next (edgeDown s) := congrArg _ (powered_up _ hu)

theorem arrives_iff (d : Disc) : arrives d = true ↔
    d.valid = true ∧ d.counter < 8191 ∧ ∃ n : Nat, d.channel = some n ∧ (n : Int) = d.counter + 1 := by
  cases hchannel : d.channel <;> simp [arrives, hchannel, and_assoc]

/-- The part with its counter one up. -/
def countedOn (s : State) : State := s.modDisc fun d => { d with counter := countedUp d.counter }

theorem edgeUp_counts (h : ¬ arrives s.disc = true) : edgeUp s = countedOn s := if_neg h

theorem edgeUp_arrives (h : arrives s.disc = true) : edgeUp s = carryOn (compareEvent (countedOn s)) := if_pos h

theorem edgeDown_counts (h : s.disc.locked = false ∨ s.disc.slipMark = true ∨ s.disc.counter ≤ -4096) :
    edgeDown s = s.modDisc fun d => { d with counter := countedDown s.disc.counter } := by
  refine if_neg ?_
  simp only [Bool.and_eq_true, Bool.not_eq_true', decide_eq_true_eq]
  rintro ⟨⟨hlocked, hmark⟩, hlow⟩
  rw [hlocked, hmark] at h
  simp at h
  omega

theorem edgeDown_slips (hlocked : s.disc.locked = true) (hmark : s.disc.slipMark = false)
    (hlow : -4096 < s.disc.counter) : edgeDown s =
      (postBoth (.slip (countedDown s.disc.counter)) (s.modDisc fun d =>
        { d with counter := countedDown s.disc.counter })).modDisc fun d => { d with slipMark := true } :=
  if_pos (by simp [hlocked, hmark, hlow])

/-- Settles O36, by `arrives_iff` and the equations of the two edges. -/
theorem anEncoderEdgeCounts : Obligations.AnEncoderEdgeCounts := by
  unfold Obligations.AnEncoderEdgeCounts
  intro s hu up low down
  refine ⟨fun h => ?up, fun h => ?down, fun hlocked hmark hlow => ?slip⟩
  case up =>
    rw [exec_edgeUp hu, edgeUp_counts]
    · rfl
    · rw [arrives_iff]
      rintro ⟨hvalid, hcounter, n, hn, hnext⟩
      rw [hvalid, hn] at h
      obtain h | h | h | ⟨m, hm, hne⟩ := h
      · cases h
      · cases h
      · omega
      · cases hm
        exact hne hnext
  case down =>
    rw [exec_edgeDown hu, edgeDown_counts h]
    rfl
  case slip =>
    rw [exec_edgeDown hu, edgeDown_slips hlocked hmark hlow]
    rfl

/-! ### The deflector follows the ring (R53, R122) -/

section
variable {d : Drive} {tr : Track} {r : Int}

theorem Drive.aim_there (h : d.deflector.act = .atRest ∧ d.deflector.track = tr.val ∧ d.deflector.rise = r) :
    d.aim tr r = d := by
  obtain ⟨hact, htrack, hrise⟩ := h
  have hsettled : d.deflector.settledAt tr r = true := by simp [Deflector.settledAt, hact, htrack, hrise]
  simp only [Drive.aim, hact, Deflector.order, hsettled, if_true]

theorem Drive.aim_thither (hact : d.deflector.act = .stepping ∨ d.deflector.act = .settling)
    (htarget : d.deflector.target = some (tr, r)) : d.aim tr r = d := by
  obtain hact | hact := hact <;> simp only [Drive.aim, hact, htarget, if_true]

theorem Drive.aim_homing {leg : HomeLeg} (h : d.deflector.act = .homing leg) :
    d.aim tr r = { d with held := some (tr, r) } := by
  simp only [Drive.aim, h]

theorem Deflector.begin_target (e : Deflector) (tr : Track) (r : Int) : (e.begin tr r).target = some (tr, r) := by
  unfold Deflector.begin
  split <;> rfl

/-- A deflector that is neither there, nor on its way there, nor HOMING takes the order. -/
theorem Drive.aim_ordered
    (hthere : ¬ (d.deflector.act = .atRest ∧ d.deflector.track = tr.val ∧ d.deflector.rise = r))
    (hthither : ¬ ((d.deflector.act = .stepping ∨ d.deflector.act = .settling) ∧ d.deflector.target = some (tr, r)))
    (hhoming : ∀ leg, d.deflector.act ≠ .homing leg) :
    (d.aim tr r).deflector.target = some (tr, r) ∧ (d.aim tr r).deflector.act ≠ .atRest := by
  cases hact : d.deflector.act with
  | atRest =>
    have hsettled : ¬ d.deflector.settledAt tr r = true := by
      simpa [Deflector.settledAt, and_assoc] using hthere
    simp only [Drive.aim, hact, Deflector.order, if_neg hsettled]
    exact ⟨Deflector.begin_target _ _ _, Deflector.begin_moving _ _ _⟩
  | stepping =>
    have htarget : d.deflector.target ≠ some (tr, r) := fun h => hthither ⟨.inl hact, h⟩
    simp only [Drive.aim, hact, if_neg htarget, Deflector.order]
    exact ⟨trivial, Activity.noConfusion⟩
  | settling =>
    have htarget : d.deflector.target ≠ some (tr, r) := fun h => hthither ⟨.inr hact, h⟩
    simp only [Drive.aim, hact, if_neg htarget, Deflector.order]
    exact ⟨Deflector.begin_target _ _ _, Deflector.begin_moving _ _ _⟩
  | homing leg => exact absurd hact (hhoming leg)

theorem Drive.aim_noneCameToRest (d : Drive) (tr : Track) (r : Int) : NoneCameToRest d (d.aim tr r) := by
  obtain ⟨hcarriage, hturret, hfilm⟩ := d.aim_keeps tr r
  refine ⟨fun h => by rwa [hcarriage] at h, fun h => ?_, fun h => by rwa [hturret] at h, fun h => by rwa [hfilm] at h⟩
  refine Decidable.byContradiction fun hmoving => ?_
  by_cases hthither : (d.deflector.act = .stepping ∨ d.deflector.act = .settling) ∧ d.deflector.target = some (tr, r)
  · rw [Drive.aim_thither hthither.1 hthither.2] at h
    exact hmoving h
  · cases hact : d.deflector.act with
    | homing leg =>
      rw [Drive.aim_homing hact] at h
      exact hmoving h
    | atRest => exact hmoving hact
    | stepping | settling =>
      exact (Drive.aim_ordered (fun hthere => hmoving hthere.1) hthither (by simp [hact])).2 h

end

/-- The deflector's order reaches the drive alone, and brings no mechanism to rest. -/
theorem aim_eq (s : State) : ∃ d, NoneCameToRest s.drive d ∧ aim s = { s with drive := d } := by
  unfold aim
  split
  · exact ⟨s.drive, ⟨id, id, id, id⟩, rfl⟩
  · exact ⟨_, s.drive.aim_noneCameToRest _ _, rfl⟩

theorem aim_head {y : Item} (h : s.engine.ring.head? = some y) :
    aim s = { s with drive := s.drive.aim y.track y.rise } := by
  simp only [aim, h]
  rfl

@[simp] theorem aim_disc (s : State) : (aim s).disc = s.disc := by unfold aim; split <;> rfl
@[simp] theorem aim_bank (s : State) : (aim s).bank = s.bank := by unfold aim; split <;> rfl
@[simp] theorem aim_iface (s : State) : (aim s).iface = s.iface := by unfold aim; split <;> rfl

/-- Whether an end waits is read from the engine's state, its close and the drive. -/
theorem NoEndWaits.congr (h : NoEndWaits s) (hstate : t.engine.state = s.engine.state)
    (hclose : t.engine.close = s.engine.close) (hdrive : t.drive = s.drive) : NoEndWaits t := by
  unfold NoEndWaits prepared at h ⊢
  rw [hstate, hclose, hdrive]
  exact h

theorem NoEndWaits.aim (h : NoEndWaits s) : NoEndWaits (aim s) := by
  obtain ⟨d, hrest, heq⟩ := aim_eq s
  rw [heq]
  exact h.of_noneCameToRest hrest

/-! ### The take rule (R58 to R60) -/

theorem takes_exposure (e : StopEntry) (target n : Nat) (s : State) : takes (.exposure e target n) s = true ↔
    s.disc.locked = true ∧ (s.engine.state = .flash ∨ s.engine.state = .waitTrack) ∧ s.drive.deflector.act = .atRest
      ∧ s.drive.deflector.track = e.track.val ∧ s.drive.deflector.rise = e.rise
      ∧ (s.bank.state = .heavyReady ∨ (s.bank.state = .ready ∧ e.heavy = false))
      ∧ (mountedRec s e.track).state = .trimmed := by
  have hcharge : (if e.heavy = true then s.bank.state == .heavyReady else s.bank.state.isReady) = true ↔
      s.bank.state = .heavyReady ∨ (s.bank.state = .ready ∧ e.heavy = false) := by
    cases e.heavy <;> simp [BankState.isReady_iff, or_comm]
  simp only [takes, Bool.and_eq_true, hcharge, Bool.or_eq_true, beq_iff_eq, Deflector.settledAt, Item.track, Item.rise,
    and_assoc]

theorem takes_test (tr : Track) (target : Nat) (s : State) : takes (.test tr target) s = true ↔
    s.disc.locked = true ∧ s.drive.carriage.act = .atRest ∧ s.drive.deflector.act = .atRest
      ∧ s.drive.deflector.track = tr.val ∧ s.drive.deflector.rise = 0
      ∧ (s.bank.state = .heavyReady ∨ s.bank.state = .ready) ∧ (mountedRec s tr).state = .searching := by
  simp only [takes, Bool.and_eq_true, BankState.isReady_iff, beq_iff_eq, Deflector.settledAt, Item.track, Item.rise,
    and_assoc, or_comm]

/-- A flash leaves all but the bank and, of the engine, the watch, the stuck count and the mark since the index. -/
theorem fire_eq (it : Item) (s : State) : fire it s = { s with
    bank := (fire it s).bank
    engine := { s.engine with
      watch := (fire it s).engine.watch, stuck := (fire it s).engine.stuck
      firedSinceIndex := (fire it s).engine.firedSinceIndex } } := by
  cases it <;> rfl

theorem fire_bank (it : Item) (s : State) : (fire it s).bank = s.bank.flash := by cases it <;> rfl

/-! ### The compare event of an arrival (R53, R54) -/

/-- The part after the strobe has fired for the first item, or not. -/
def flashed (it : Item) (s : State) : State := if takes it s then fire it s else s

/-- The part with its first item judged, before the deflector is sent to the item that is first now. -/
def judged (it : Item) (rest : List Item) (s : State) : State :=
  setRing (judgedRing it rest (takes it s)) ((flashed it s).modEngine fun e =>
    { e with deferral := min 65535 (e.deferral + deferredCount it rest (takes it s)) })

theorem compareEvent_eq {it : Item} {rest : List Item} (h : s.engine.ring = it :: rest) :
    compareEvent s = aim (judged it rest s) := by
  simp only [compareEvent, h]
  rfl

theorem flashed_eq (it : Item) (s : State) : flashed it s = { s with
    bank := (flashed it s).bank
    engine := { s.engine with
      watch := (flashed it s).engine.watch, stuck := (flashed it s).engine.stuck
      firedSinceIndex := (flashed it s).engine.firedSinceIndex } } := by
  unfold flashed
  split
  · exact fire_eq it s
  · rfl

/-- What the judgement of the first item changes: the ring with its channel, the deferral total, and what a flash does. -/
theorem judged_eq (it : Item) (rest : List Item) (s : State) : judged it rest s = { s with
    bank := (flashed it s).bank
    engine := { s.engine with
      watch := (flashed it s).engine.watch, stuck := (flashed it s).engine.stuck
      firedSinceIndex := (flashed it s).engine.firedSinceIndex
      deferral := min 65535 (s.engine.deferral + deferredCount it rest (takes it s))
      ring := judgedRing it rest (takes it s) }
    disc := { s.disc with channel := (judgedRing it rest (takes it s)).head?.map Item.target } } := by
  rw [judged, flashed_eq]
  rfl

/-- An arrival of the first item has it judged, and nothing else goes on. -/
theorem exec_arrival {it : Item} {rest : List Item} (hu : Up s) (hn : NoEndWaits s) (hring : s.engine.ring = it :: rest)
    (hvalid : s.disc.valid = true) (hchannel : s.disc.channel = some it.target)
    (hcounter : s.disc.counter + 1 = it.target) (htarget : it.target < 2880) :
    exec (.encoderEdge .up) s = .next (aim (judged it rest (countedOn s))) := by
  have harrives : arrives s.disc = true := (arrives_iff _).2 ⟨hvalid, by omega, it.target, hchannel, hcounter.symm⟩
  have hjudged : NoEndWaits (judged it rest (countedOn s)) := by
    rw [judged_eq]
    exact hn.congr rfl rfl rfl
  rw [exec_edgeUp hu, edgeUp_arrives harrives, compareEvent_eq (s := countedOn s) hring, carryOn_noEndWaits hjudged.aim]

theorem countedOn_arrival {target : Nat} (hcounter : s.disc.counter + 1 = target) (htarget : target < 2880) :
    countedOn s = { s with disc := { s.disc with counter := target } } := by
  have hcount : countedUp s.disc.counter = target := by
    unfold countedUp
    omega
  unfold countedOn
  rw [← hcount]
  rfl

/-- The take rule does not read the counter. -/
theorem takes_countedOn (it : Item) (s : State) : takes it (countedOn s) = takes it s := rfl

/-- Settles O37: the take rule is `takes_exposure` and `takes_test`; `judged` has what `fire` gives if it holds, and
what was there if not. -/
theorem theTakeRule : Obligations.TheTakeRule := by
  unfold Obligations.TheTakeRule
  intro it rest s hu hn hring hvalid hchannel hcounter htarget placed charged trimmed fires flashedWatch
  have hfires : fires ↔ takes it s = true := by
    cases it with
    | exposure e target n => exact (takes_exposure e target n s).symm
    | test tr target => exact (takes_test tr target s).symm
  refine ⟨_, exec_arrival hu hn hring hvalid hchannel hcounter htarget, fun h => ?fired, fun h => ?kept⟩
  all_goals rw [aim_engine, aim_bank, judged_eq, flashed, takes_countedOn]
  case fired =>
    rw [if_pos (hfires.1 h)]
    refine ⟨fire_bank it _, ?_⟩
    cases it <;> exact ⟨rfl, rfl, rfl⟩
  case kept =>
    rw [if_neg (mt hfires.2 h)]
    exact ⟨rfl, rfl, rfl, rfl⟩

theorem judgedRing_eq (it : Item) (rest : List Item) (fired : Bool) : judgedRing it rest fired =
    (rest.filter fun y => y.target != it.target) ++ (rest.filter fun y => y.target == it.target).map Item.defer
      ++ if fired = true then (if it.isExposure = true then [] else [it]) else [it.defer] := rfl

theorem deferredCount_eq (it : Item) (rest : List Item) (fired : Bool) : deferredCount it rest fired =
    ((rest.filter fun y => y.target == it.target).filter Item.isExposure).length
      + if fired = false ∧ it.isExposure = true then 1 else 0 := by
  unfold deferredCount
  cases fired <;> simp

/-- Settles O38: the ring is `judgedRing`, the deflector is where `Drive.aim` sends it, and `judged_eq` says what else
changes. -/
theorem aCompareEventDefersWhatDoesNotFire : Obligations.ACompareEventDefersWhatDoesNotFire := by
  unfold Obligations.ACompareEventDefersWhatDoesNotFire
  intro it rest s hu hn hring hvalid hchannel hcounter htarget passed others defer last deferred
  have hdefer : defer = Item.defer := funext fun y => by cases y <;> rfl
  have hjudged : judgedRing it rest (takes it s) = others ++ passed.map defer ++ last := by
    simp only [judgedRing_eq, last, hdefer]
    rfl
  have hdeferred : deferredCount it rest (takes it s) = deferred := deferredCount_eq _ _ _
  have hafter := judged_eq it rest (countedOn s)
  rw [takes_countedOn, hjudged, hdeferred] at hafter
  have hdisc : (countedOn s).disc = { s.disc with counter := it.target } := by
    rw [countedOn_arrival hcounter htarget]
  refine ⟨_, exec_arrival hu hn hring hvalid hchannel hcounter htarget, ?_⟩
  generalize judged it rest (countedOn s) = u at hafter
  have hdrive : u.drive = s.drive := by
    rw [hafter]
    rfl
  have hstanding := standing_aim u
  have hfield {α : Type} (f : Standing → α) : f (standing (aim u)) = f (standing u) := congrArg f hstanding
  have hengine {α : Type} (f : Engine → α) : f (aim u).engine = f u.engine := congrArg f (aim_engine u)
  refine ⟨(hengine Engine.ring).trans ?ring, ?disc, (hengine Engine.deferral).trans ?deferral,
    (hengine Engine.state).trans ?state, (hengine Engine.current).trans ?current,
    (hengine Engine.misreg).trans ?misreg, fun hempty => ?unsent, fun y hy => ?sent,
    (hfield Standing.carriage).trans ?carriage, (hfield Standing.film).trans ?film,
    (hfield Standing.turret).trans ?turret, (aim_iface u).trans ?iface, (aim_queues u).trans ?queues,
    (aim_maps u).trans ?maps, (hfield Standing.store).trans ?store, (hfield Standing.jobs).trans ?jobs,
    (hfield Standing.seq).trans ?seq, (aim_trim u).trans ?trim, (hfield Standing.spin).trans ?spin⟩
  case disc =>
    rw [aim_disc, aim_engine, hafter, hdisc]
  case unsent =>
    rw [aim_engine] at hempty
    rw [aim_empty hempty, hdrive]
  case sent =>
    rw [aim_engine] at hy
    rw [aim_head hy, ← hdrive]
    exact ⟨fun h => h.elim Drive.aim_there fun hthither => Drive.aim_thither hthither.1 hthither.2, Drive.aim_ordered,
      fun leg hleg => by rw [Drive.aim_homing hleg]; exact ⟨rfl, rfl⟩⟩
  all_goals
    subst hafter
    rfl

end Sys2Proof.Machine
end

