-- ==== Sys2Proof/Proofs/EmptyQueue.lean ====
section
/-!
SUPPORT. One step with no command waiting (logs 2 and 38): what ten microseconds change, and the galley close that may
begin with them (R68, R132).
-/
namespace Sys2Proof.Machine

variable {s : State}

theorem step_nil (h : s.pending = []) : step s = .next (idle s) := by
  rw [step, h]

/-- A tick leaves the engine's state and its close. -/
theorem tick_engine (hu : Up s) : (tick s).engine =
    { s.engine with watch := s.engine.watch.map fun w => { w with left := w.left - 1 } } := by
  rw [tick, powered_up _ hu]

/-- A tick moves no mechanism: it counts the timers of the drive alone. -/
theorem tick_drive (hu : Up s) : (tick s).drive = s.drive.tick := by
  rw [tick, powered_up _ hu]

theorem idle_closing (hu : Up s) (he : s.engine.state = .closing) : idle s = carryOn (tick s) := by
  rw [idle, powered_up _ hu, if_pos he]

theorem idle_notClosing (hu : Up s) (he : s.engine.state ≠ .closing) : idle s = tick s := by
  rw [idle, powered_up _ hu, if_neg he]

/-- A close that waits goes on waiting as the tick passes. -/
theorem tick_noEndWaits (hu : Up s) (h : NoEndWaits s) : NoEndWaits (tick s) := by
  have hdrive : NoEndWaits { s with drive := s.drive.tick } := h.of_noneCameToRest ⟨id, id, id, id⟩
  refine hdrive.congr ?_ ?_ (tick_drive hu) <;> rw [tick_engine hu]

/-- Where no ordered close can begin, the tick is all that happens. -/
theorem idle_ticks (hu : Up s) (h : s.engine.state = .closing → NoEndWaits s) : idle s = tick s := by
  by_cases he : s.engine.state = .closing
  · rw [idle_closing hu he, carryOn_noEndWaits (tick_noEndWaits hu (h he))]
  · exact idle_notClosing hu he

/-- Settles O2: the tick alone by `idle_ticks`, and the ordered close that begins with it by `carryOn_ordered`. -/
theorem anEmptyQueueLetsOneTickPass : Obligations.AnEmptyQueueLetsOneTickPass := by
  unfold Obligations.AnEmptyQueueLetsOneTickPass
  refine ⟨fun s hp hu hn => ?ticks, fun job s hp hu he hc hr hg hf => ?begins⟩
  case ticks =>
    rw [step_nil hp, idle_ticks hu hn, tick, powered_up _ hu]
    rfl
  case begins =>
    intro steps
    have hstate : (tick s).engine.state = .closing := by rw [tick_engine hu]; exact he
    have hclose : (tick s).engine.close = some { job := job, phase := .ordered, steps := 0 } := by
      rw [tick_engine hu]
      exact hc
    have hrest : (tick s).drive.allAtRest = true := by rw [tick_drive hu]; exact hr
    have hgalley : (tick s).drive.film.galleyOpen = true := by rw [tick_drive hu]; exact hg
    have hfilm : (tick s).drive.film.remaining = s.drive.film.remaining := by rw [tick_drive hu]; rfl
    have hbegins := carryOn_ordered hstate hclose rfl hrest hgalley (by rw [hfilm]; exact hf)
    refine ⟨_, (step_nil hp).trans (congrArg _ ((idle_closing hu he).trans hbegins)), hstate, ?_⟩
    rw [hfilm, tick, powered_up _ hu]
    exact ⟨rfl, rfl, rfl, rfl, rfl, rfl, rfl⟩

end Sys2Proof.Machine
end

