-- ==== Sys2Proof/Proofs/IndexEvents.lean ====
section
/-!
SUPPORT. The index event (R73): the capture, the judgement of the revolution for slip (R75, R76) and for the speed lock
(R78, R79), the stuck count of a stop (R64), and the stuck stop (R65, R157).
-/
namespace Sys2Proof.Machine

variable {s t : State} {ring : Nat}

/-! ### The steps of an index event (R73) -/

/-- The part with its slip mark cleared, as the index event ends (R76). -/
def markCleared (s : State) : State := s.modDisc fun d => { d with slipMark := false }

/-- Step 3 of the index event, on the part captured. -/
def revolutionJudged (s : State) : State := judgeRevolution s.disc.counter s.disc.period (capture s)

theorem exec_index_resting {ring : BitVec 4} (hu : Up s) (hs : s.spin.unit.spinning = false) :
    exec (.indexEvent ring) s = .next (carryOn (markCleared (capture s))) := by
  refine congrArg _ ((powered_up _ hu).trans ?_)
  rw [indexEvent, if_neg (by rw [hs]; exact Bool.false_ne_true)]
  rfl

theorem exec_index_spinning {ring : BitVec 4} (hu : Up s) (hs : s.spin.unit.spinning = true) :
    exec (.indexEvent ring) s = .next (carryOn (markCleared (indexWork ring.toNat s))) := by
  refine congrArg _ ((powered_up _ hu).trans ?_)
  rw [indexEvent, if_pos hs]
  rfl

/-- A fault by the judgement ends the index event. -/
theorem indexWork_faulted (hf : (revolutionJudged s).spin.unit = .faulted) :
    indexWork ring s = revolutionJudged s := if_pos hf

/-- Outside IDENTIFY, and with no arrival at angle 0, the engine's part is the last. -/
theorem indexWork_unread (hf : (revolutionJudged s).spin.unit ≠ .faulted) (hunit : s.spin.unit ≠ .identify)
    (hchannel : s.disc.channel ≠ some 0) : indexWork ring s = indexToEngine (revolutionJudged s) := by
  have hread : ¬ (s.spin.unit = .identify ∧ (indexToEngine (revolutionJudged s)).spin.unit = .identify) :=
    fun h => hunit h.1
  rw [indexWork]
  change (if (revolutionJudged s).spin.unit = .faulted then _ else _) = _
  rw [if_neg hf]
  dsimp only
  rw [if_neg fun h => hchannel h.1]
  exact if_neg hread

/-- In IDENTIFY a sample is read. -/
theorem indexWork_reads (hunit : s.spin.unit = .identify)
    (hjudged : (indexToEngine (revolutionJudged s)).spin.unit = .identify)
    (hf : (revolutionJudged s).spin.unit ≠ .faulted) (hchannel : s.disc.channel ≠ some 0) :
    indexWork ring s = sampleRing ring (indexToEngine (revolutionJudged s)) := by
  rw [indexWork]
  change (if (revolutionJudged s).spin.unit = .faulted then _ else _) = _
  rw [if_neg hf]
  dsimp only
  rw [if_neg fun h => hchannel h.1]
  exact if_pos ⟨hunit, hjudged⟩

/-! ### The judgement of a revolution (R73 to R76) -/

theorem revolutionJudged_first (hv : s.disc.valid = false) :
    revolutionJudged s = (capture s).modDisc fun d => { d with valid := true } :=
  if_pos (by rw [show (capture s).disc.valid = s.disc.valid from rfl, hv]; rfl)

theorem revolutionJudged_slipped (hv : s.disc.valid = true) (h : s.disc.counter ≠ 2880 ∨ s.disc.slipMark = true) :
    revolutionJudged s = slipped s.disc.counter (capture s) := by
  have hvalid : ¬ (!(capture s).disc.valid) = true := by
    rw [show (capture s).disc.valid = s.disc.valid from rfl, hv]
    exact Bool.false_ne_true
  exact (if_neg hvalid).trans (if_pos h)

theorem revolutionJudged_healthy (hv : s.disc.valid = true) (hc : s.disc.counter = 2880)
    (hm : s.disc.slipMark = false) : revolutionJudged s =
      testPeriod s.disc.period ((capture s).modDisc fun d => { d with slipCount := 0 }) := by
  have hvalid : ¬ (!(capture s).disc.valid) = true := by
    rw [show (capture s).disc.valid = s.disc.valid from rfl, hv]
    exact Bool.false_ne_true
  have hslip : ¬ (s.disc.counter ≠ 2880 ∨ (capture s).disc.slipMark = true) := by
    rw [show (capture s).disc.slipMark = s.disc.slipMark from rfl, hm]
    simp [hc]
  exact (if_neg hvalid).trans (if_neg hslip)

/-- SLIP for a revolution whose slip has not been posted yet. -/
def slipPosted (value : Int) (s : State) : State := if s.disc.slipMark then s else postBoth (.slip value) s

theorem slipPosted_eq (value : Int) (s : State) :
    slipPosted value s = { s with queues := (slipPosted value s).queues } := by
  unfold slipPosted
  split <;> rfl

theorem slipPosted_capture (value : Int) (s : State) :
    (slipPosted value (capture s)).queues = (slipPosted value s).queues := by
  unfold slipPosted
  rw [show (capture s).disc.slipMark = s.disc.slipMark from rfl]
  split <;> rfl

theorem slipped_counts {value : Int} (h : s.disc.slipCount < 2) : slipped value s =
    (slipPosted value s).modDisc fun d => { d with slipCount := s.disc.slipCount + 1 } := by
  have hcount : min 3 (s.disc.slipCount + 1) = s.disc.slipCount + 1 := by omega
  rw [slipped]
  simp only [hcount, if_neg (show s.disc.slipCount + 1 ≠ 3 by omega)]
  rfl

theorem slipped_third {value : Int} (h : s.disc.slipCount = 2) : slipped value s =
    handFault .encoder value ((slipPosted value s).modDisc fun d => { d with slipCount := 3 }) := by
  simp only [slipped, h]
  rfl

/-! ### A fault of a resting engine (R170) -/

/-- What becomes of the ACTIVE job at a fault leaves an engine without a line. -/
theorem faultJob_engine (hc : s.engine.current = none) : (faultJob s).engine = s.engine := by
  simp only [faultJob, abandon_none .fault none hc]
  split <;> rfl

/-- With the galley closed and the engine IDLE without a line, a fault leaves the engine IDLE. -/
theorem handFault_idle {kind : FaultKind} {detail : Int} (hs : s.spin.unit.spinning = true)
    (hg : s.drive.film.galleyOpen = false) (he : s.engine.state = .idle) (hc : s.engine.current = none) :
    handFault kind detail s = faultJob (unitFaulted kind detail s) ∧ (handFault kind detail s).engine.state = .idle
      ∧ (handFault kind detail s).spin = { s.spin with
        unit := .faulted, motor := false, parkTimer := none, lastFault := some { kind := kind, detail := detail } } := by
  obtain ⟨hspin, -⟩ := unitFaulted_fields kind detail s
  have hwork := unitFaulted_besideSearch kind detail s
  have hcurrent : (unitFaulted kind detail s).engine.current = none := (congrArg Engine.current hwork).trans hc
  have hidle : (faultJob (unitFaulted kind detail s)).engine.state = .idle := by
    rw [faultJob_engine hcurrent]
    exact (states_of_besideSearch hwork).1.2 he
  have hfault : handFault kind detail s = faultJob (unitFaulted kind detail s) := handFault_galleyClosed hs hg hidle
  obtain ⟨hkept, -⟩ := faultJob_leaves (s := unitFaulted kind detail s) (congrArg Spin.unit hspin)
  rw [hfault]
  exact ⟨rfl, hidle, hkept.trans hspin⟩

/-! ### The engine's part (R64) -/

theorem stuckCounts_iff (s : State) : stuckCounts s = true ↔ s.engine.state = .flash ∧ exposures s ≠ []
    ∧ s.engine.firedSinceIndex = false ∧ s.disc.locked = true ∧ ∀ it ∈ exposures s,
      (mountedRec s it.track).state ≠ .queued ∧ (mountedRec s it.track).state ≠ .searching := by
  have htrack (it : Item) : (mountedRec s it.track).state.inSearch = false ↔
      (mountedRec s it.track).state ≠ .queued ∧ (mountedRec s it.track).state ≠ .searching := by
    rw [← Bool.not_eq_true, TrimState.inSearch_iff, not_or]
  simp only [stuckCounts, exposureOn, Bool.and_eq_true, beq_iff_eq, Bool.not_eq_true', List.isEmpty_eq_false_iff,
    List.any_eq_false, Bool.not_eq_true, htrack, and_assoc]

/-- The part with its mark of a flash since the index cleared. -/
def sinceIndex (s : State) : State := s.modEngine fun e => { e with firedSinceIndex := false }

theorem indexToEngine_uncounted (h : stuckCounts s = false) : indexToEngine s = sinceIndex s :=
  if_neg (by rw [h]; exact Bool.false_ne_true)

theorem indexToEngine_resting (h : s.engine.state ≠ .flash) : indexToEngine s = sinceIndex s :=
  indexToEngine_uncounted (Bool.eq_false_iff.2 fun hc => h ((stuckCounts_iff s).1 hc).1)

/-- The part with one more revolution in the stuck count. -/
def stuckCounted (s : State) : State := (sinceIndex s).modEngine fun e => { e with stuck := e.stuck + 1 }

theorem indexToEngine_counted {it : Item} (h : stuckCounts s = true) (hit : (exposures s).head? = some it) :
    indexToEngine s = if 16 ≤ s.engine.stuck + 1 then stuckStop it.track (stuckCounted s) else stuckCounted s := by
  rw [indexToEngine]
  simp only [if_pos h, hit]
  rfl

theorem carryOn_idle (he : s.engine.state = .idle) : carryOn s = s := carryOn_noEndWaits (noEndWaits_of_idle he)

/-- Outside IDENTIFY the judgement of the revolution is all that an index event comes to for an IDLE engine. -/
theorem exec_index_idle {ring : BitVec 4} (hu : Up s) (hs : s.spin.unit.spinning = true)
    (hunit : s.spin.unit ≠ .identify) (hchannel : s.disc.channel ≠ some 0) (hj : revolutionJudged s = t)
    (hf : t.spin.unit ≠ .faulted) (he : t.engine.state = .idle) :
    exec (.indexEvent ring) s = .next (markCleared (sinceIndex t)) := by
  subst hj
  have hresting : (revolutionJudged s).engine.state ≠ .flash := by
    rw [he]
    exact EngineState.noConfusion
  rw [exec_index_spinning hu hs, indexWork_unread hf hunit hchannel, indexToEngine_resting hresting,
    carryOn_idle (s := markCleared (sinceIndex _)) he]

/-- Settles O39: the unit at rest by `exec_index_resting`, the first revolution by `revolutionJudged_first`, and a
slipped one by `slipped_counts` and `slipped_third`. -/
theorem indexEventsThatDoNotTestTheSpeed : Obligations.IndexEventsThatDoNotTestTheSpeed := by
  unfold Obligations.IndexEventsThatDoNotTestTheSpeed
  refine ⟨fun ring s hu he => ?unslipped, fun ring s hu hunit he hv hchannel hslip => ⟨fun hcount => ?counts,
    fun hcount hg hc => ?third⟩⟩
  case unslipped =>
    intro captured
    refine ⟨fun hunit => ?rests, fun hunit hv hchannel => ?first⟩
    case rests =>
      have hspin : s.spin.unit.spinning = false ∧ s.spin.unit.stallRuns = false := by
        obtain h | h | h := hunit <;> rw [h] <;> exact ⟨rfl, rfl⟩
      rw [exec_index_resting hu hspin.1, carryOn_idle (s := markCleared (capture s)) he, markCleared, capture, hspin.2]
      rfl
    case first =>
      have hunread : s.spin.unit ≠ .identify ∧ s.spin.unit ≠ .faulted := by
        rw [hunit]
        exact ⟨UnitState.noConfusion, UnitState.noConfusion⟩
      rw [exec_index_idle hu (by rw [hunit]; rfl) hunread.1 hchannel (revolutionJudged_first hv) hunread.2 he, capture,
        hunit]
      rfl
  case counts =>
    have hjudged := (revolutionJudged_slipped hv hslip).trans (slipped_counts (s := capture s) hcount)
    have hunread : s.spin.unit ≠ .identify ∧ s.spin.unit ≠ .faulted := by
      rw [hunit]
      exact ⟨UnitState.noConfusion, UnitState.noConfusion⟩
    rw [slipPosted_eq, slipPosted_capture] at hjudged
    rw [exec_index_idle hu (by rw [hunit]; rfl) hunread.1 hchannel hjudged hunread.2 he, capture, hunit]
    by_cases hmark : s.disc.slipMark = true
    · rw [slipPosted, if_pos hmark, if_pos hmark]
      rfl
    · rw [slipPosted, if_neg hmark, if_neg hmark]
      rfl
  case third =>
    have hjudged := (revolutionJudged_slipped hv hslip).trans (slipped_third (s := capture s) hcount)
    rw [slipPosted_eq] at hjudged
    have hspinning : s.spin.unit.spinning = true := by
      rw [hunit]
      rfl
    obtain ⟨-, hidle, hspin⟩ := handFault_idle (kind := .encoder) (detail := s.disc.counter)
      (s := ({ capture s with queues := (slipPosted s.disc.counter (capture s)).queues }).modDisc fun d =>
        { d with slipCount := 3 }) hspinning hg he hc
    rw [← hjudged] at hidle hspin
    refine ⟨markCleared (revolutionJudged s), ?_, congrArg Spin.unit hspin, congrArg Spin.lastFault hspin⟩
    rw [exec_index_spinning hu hspinning, indexWork_faulted (congrArg Spin.unit hspin),
      carryOn_idle (s := markCleared (revolutionJudged s)) hidle]

end Sys2Proof.Machine
end

