-- ==== Sys2Proof/Proofs/SpeedLock.lean ====
section
/-!
SUPPORT. A healthy revolution (R78, R79, R82), what it counts toward the stuck count of a stop (R64), and the stuck stop
(R65, R67, R157).
-/
namespace Sys2Proof.Machine

variable {s t : State}

/-! ### The speed lock (R78, R79, R82) -/

/-- The disc timing after a healthy revolution of period `p`, as far as the speed lock is concerned. -/
def Disc.tested (p : Nat) (d : Disc) : Disc :=
  if d.locked = true then
    if 9900 ≤ p ∧ p ≤ 10100 then d
    else { d with locked := false, lockRun := 0, unlock := if d.reached = true then some 200000 else d.unlock }
  else if 9950 ≤ p ∧ p ≤ 10050 then
    if d.lockRun + 1 < 8 then { d with lockRun := d.lockRun + 1 }
    else { d with locked := true, lockRun := 8, reached := true, spinup := none, unlock := none }
  else { d with lockRun := 0 }

/-- The part with its speed LOCKED, before Spin Control and the Trim Unit are told. -/
def speedLocked (s : State) : State :=
  s.modDisc fun d => { d with locked := true, lockRun := 8, reached := true, spinup := none, unlock := none }

/-- Out of SPIN_UP, with no track waiting and the ring empty, nothing follows the lock. -/
theorem becomeLocked_quiet (hunit : s.spin.unit ≠ .spinUp) (hq : s.trim.queue = []) (hr : s.engine.ring = []) :
    becomeLocked s = speedLocked s := by
  have hstays : judgeSpinUp (speedLocked s) = speedLocked s := judgeSpinUp_stays (.inl hunit)
  show aim (startSearch (judgeSpinUp (speedLocked s))) = _
  rw [hstays, startSearch_of_empty (s := speedLocked s) hq, aim_empty (s := speedLocked s) hr]

theorem testPeriod_quiet (p : Nat) (hunit : s.spin.unit ≠ .spinUp) (hq : s.trim.queue = [])
    (hr : s.engine.ring = []) : testPeriod p s = { s with disc := s.disc.tested p } := by
  have hlock := becomeLocked_quiet hunit hq hr
  unfold testPeriod Disc.tested
  split
  · split <;> rfl
  · split
    · split
      · rfl
      · exact hlock
    · rfl

/-- A speed lock that holds, or that is far from its band, leaves all but the lock run. -/
theorem testPeriod_steady {p : Nat} (h : (s.disc.locked = true ∧ 9900 ≤ p ∧ p ≤ 10100)
    ∨ (s.disc.locked = false ∧ p < 9950)) :
    ∃ run, testPeriod p s = s.modDisc fun d => { d with lockRun := run } := by
  obtain ⟨hl, hp⟩ | ⟨hl, hp⟩ := h
  · exact ⟨s.disc.lockRun, (if_pos hl).trans (if_pos hp)⟩
  · exact ⟨0, (if_neg (by rw [hl]; exact Bool.false_ne_true)).trans (if_neg (by omega))⟩

/-- The judgement of a healthy revolution that moves no lock changes the disc timing alone. -/
theorem revolutionJudged_steady (hv : s.disc.valid = true) (hc : s.disc.counter = 2880) (hm : s.disc.slipMark = false)
    (h : (s.disc.locked = true ∧ 9900 ≤ s.disc.period ∧ s.disc.period ≤ 10100)
      ∨ (s.disc.locked = false ∧ s.disc.period < 9950)) :
    ∃ d, revolutionJudged s = { s with disc := d } ∧ d.locked = s.disc.locked := by
  obtain ⟨run, hrun⟩ := testPeriod_steady (s := (capture s).modDisc fun d => { d with slipCount := 0 }) h
  exact ⟨_, (revolutionJudged_healthy hv hc hm).trans hrun, rfl⟩

theorem Disc.slipMark_clear {d : Disc} (h : d.slipMark = false) : { d with slipMark := false } = d := by
  obtain ⟨⟩ := d
  cases h
  rfl

theorem Disc.tested_slipMark (p : Nat) (d : Disc) : (d.tested p).slipMark = d.slipMark := by
  unfold Disc.tested
  split
  · split <;> rfl
  · split
    · split <;> rfl
    · rfl

/-! ### The stuck stop (R65, R67, R157) -/

/-- A close ordered with the galley open begins at once or waits, and is of the same job. -/
theorem carryOn_closeOpen {c : Close} (he : s.engine.state = .closing) (hc : s.engine.close = some c)
    (hp : c.phase = .ordered) (hg : s.drive.film.galleyOpen = true) : ∃ c' d,
      carryOn s = { s with engine := { s.engine with close := some c' }, drive := d } ∧ c'.job = c.job := by
  by_cases hr : s.drive.allAtRest = true
  · by_cases hf : 0 < s.drive.film.remaining
    · exact ⟨_, _, carryOn_ordered he hc hp hr hg hf, rfl⟩
    · have hbegins : moveEnded s = startCut c s := by
        rw [moveEnded_ordered he hc hp hr, beginClose, if_pos hg]
        exact if_pos (by simp only [Config.headMargin]; omega)
      have hbegun : moveEnded (startCut c s) = startCut c s := moveEnded_begun he rfl ClosePhase.noConfusion
      rw [← hbegins] at hbegun
      exact ⟨_, _, (carryOn_once hbegun).trans hbegins, rfl⟩
  · have hwaits : NoEndWaits s := by
      unfold NoEndWaits
      rw [he]
      exact fun _ _ _ => Bool.eq_false_iff.2 hr
    exact ⟨c, s.drive, (carryOn_noEndWaits hwaits).trans (by rw [← hc]), rfl⟩

/-- The part with its current line given up by a stuck stop, and the job that is ACTIVE not yet ended. -/
def lineStuck (t : Track) (r : LineRef) (s : State) : State :=
  setUnit .ready (aim (lineGivenUp .stuck (some t) r s))

/-- The part with the job `j` FAILED by a stuck stop, its line `r` given up, and the galley close ordered. -/
def jobStuck (t : Track) (j : Job) (r : LineRef) (s : State) : State :=
  orderClose (some (j.number, j.owner)) (leaveActive (removeJob j.number
    (post j.owner (.jobFailed j.number t j.committed j.setCount) (freeLines j.number .failed (lineStuck t r s)))))

section
variable {tr : Track} {j : Job} {r : LineRef}

theorem stuckStop_fails (hc : s.engine.current = some r) (hunit : s.spin.unit = .exposing)
    (ha : activeJob s = some j) : stuckStop tr s = jobStuck tr j r s := by
  have hgiven : abandon .stuck (some tr) s = lineStuck tr r s := by
    rw [abandon_current _ _ hc, if_pos hunit]
    rfl
  have hactive : activeJob (lineStuck tr r s) = some j :=
    (activeJob_congr (congrArg Standing.jobs (standing_aim (lineGivenUp .stuck (some tr) r s)))).trans ha
  simp only [stuckStop, hgiven, hactive]
  rfl

theorem lineStuck_fields (tr : Track) (r : LineRef) (s : State) :
    (lineStuck tr r s).jobs = s.jobs ∧ (lineStuck tr r s).store = (setCurrent r.job r.line false s).store
      ∧ (lineStuck tr r s).queues = (postAbandoned r .stuck (some tr) s).queues
      ∧ (lineStuck tr r s).engine = (lineGivenUp .stuck (some tr) r s).engine
      ∧ (lineStuck tr r s).seq = s.seq ∧ (lineStuck tr r s).spin.unit = .ready
      ∧ (lineStuck tr r s).drive.film.galleyOpen = s.drive.film.galleyOpen := by
  have hstanding := standing_aim (lineGivenUp .stuck (some tr) r s)
  exact ⟨congrArg Standing.jobs hstanding, congrArg Standing.store hstanding, aim_queues _, aim_engine _,
    congrArg Standing.seq hstanding, rfl, congrArg (fun x => x.film.galleyOpen) hstanding⟩

/-- With no assembly open a job's lines alone are freed. -/
theorem freeLines_noAssembly {n : Nat} (reason : DropReason) (h : ∀ l, s.store.assembly.get l = none) :
    freeLines n reason s = withStore (s.store.withoutLines n) s := by
  have hnone (l : CLine) : assemblyOfJob n (s.store.assembly.get l) = false := by
    rw [h]
    rfl
  exact (freeLines_onOneLine (l := .a) reason (hnone _)).trans (discardOfJob_notOfJob (s := withStore _ _) _ (hnone _))

/-- A line returned to COMMITTED holds the cells it held. -/
theorem setCurrent_cells (n line : Nat) (cur : Bool) (s : State) :
    ((setCurrent n line cur s).store.lines.filter fun x => x.header.job == n).map (fun x => x.header.count)
      = (s.store.lines.filter fun x => x.header.job == n).map fun x => x.header.count := by
  show ((s.store.lines.map _).filter _).map _ = _
  induction s.store.lines with
  | nil => rfl
  | cons x xs ih =>
    by_cases hn : x.header.job = n
    · by_cases hl : x.header.line = line <;> simp [hn, hl, ih]
    · simp [hn, ih]

theorem jobStuck_fields (hr : r.job = j.number) (hasm : ∀ l, s.store.assembly.get l = none) :
    (jobStuck tr j r s).jobs = s.jobs.filter (fun k => k.number != j.number)
      ∧ (jobStuck tr j r s).store.lines = s.store.lines.filter (fun x => x.header.job != j.number)
      ∧ (jobStuck tr j r s).store.freeCells = s.store.freeCells
        + ((s.store.lines.filter fun x => x.header.job == j.number).map fun x => x.header.count).sum
      ∧ (jobStuck tr j r s).engine = { (lineGivenUp .stuck (some tr) r s).engine with
        state := .closing, close := some { job := some (j.number, j.owner), phase := .ordered, steps := 0 } }
      ∧ (jobStuck tr j r s).spin.unit = .ready
      ∧ (jobStuck tr j r s).seq = { s.seq with starve := none, grace := false, pendingSel := true }
      ∧ (jobStuck tr j r s).queues = (post j.owner (.jobFailed j.number tr j.committed j.setCount)
        (postAbandoned r .stuck (some tr) s)).queues
      ∧ (jobStuck tr j r s).drive.film.galleyOpen = s.drive.film.galleyOpen := by
  obtain ⟨hjobs, hstore, hqueues, hengine, hseq, hunit, hgalley⟩ := lineStuck_fields tr r s
  have hfreed : freeLines j.number .failed (lineStuck tr r s)
      = withStore ((lineStuck tr r s).store.withoutLines j.number) (lineStuck tr r s) :=
    freeLines_noAssembly .failed fun l => by rw [hstore]; exact hasm l
  unfold jobStuck
  rw [hfreed]
  refine ⟨congrArg (List.filter _) hjobs, ?lines, ?cells, congrArg (fun e : Engine => { e with
      state := .closing, close := some { job := some (j.number, j.owner), phase := .ordered, steps := 0 } }) hengine,
    hunit, congrArg (fun q : Seq => { q with starve := none, grace := false, pendingSel := true }) hseq, ?queues,
    hgalley⟩
  case lines =>
    show (lineStuck tr r s).store.lines.filter _ = _
    rw [hstore, ← hr]
    exact setCurrent_others r.job r.line false s
  case cells =>
    show (lineStuck tr r s).store.freeCells + (((lineStuck tr r s).store.lines.filter _).map _).sum = _
    rw [hstore, ← hr, setCurrent_cells]
    rfl
  case queues =>
    show (lineStuck tr r s).queues.set j.owner (((lineStuck tr r s).queues.get j.owner).post _) = _
    rw [hqueues]
    rfl

end

/-! ### What an index event counts in EXPOSING (R64) -/

/-- A lock that stands leaves what counts toward the stuck count. -/
theorem stuckCounts_congr {d : Disc} (h : d.locked = s.disc.locked) :
    stuckCounts { s with disc := d } = stuckCounts s := by
  unfold stuckCounts
  rw [← h]
  rfl

/-- In EXPOSING the engine's part is what a steady revolution comes to. -/
theorem exec_index_exposing {ring : BitVec 4} (hu : Up s) (hunit : s.spin.unit = .exposing)
    (hchannel : s.disc.channel ≠ some 0) (hv : s.disc.valid = true) (hc : s.disc.counter = 2880)
    (hm : s.disc.slipMark = false)
    (h : (s.disc.locked = true ∧ 9900 ≤ s.disc.period ∧ s.disc.period ≤ 10100)
      ∨ (s.disc.locked = false ∧ s.disc.period < 9950)) :
    ∃ d, stuckCounts { s with disc := d } = stuckCounts s ∧ exec (.indexEvent ring) s
      = .next (carryOn (markCleared (indexToEngine { s with disc := d }))) := by
  obtain ⟨d, hjudged, hlocked⟩ := revolutionJudged_steady hv hc hm h
  have hunread : s.spin.unit ≠ .identify ∧ s.spin.unit ≠ .faulted := by
    rw [hunit]
    exact ⟨UnitState.noConfusion, UnitState.noConfusion⟩
  refine ⟨d, stuckCounts_congr hlocked, ?_⟩
  rw [exec_index_spinning hu (by rw [hunit]; rfl),
    indexWork_unread (by rw [hjudged]; exact hunread.2) hunread.1 hchannel, hjudged]

/-- Settles O40: the speed lock is `testPeriod_quiet`; the stuck count is `indexToEngine_uncounted` or
`indexToEngine_counted`, and the stuck stop `jobStuck_fields` with the close of `carryOn_closeOpen`. -/
theorem aJudgedRevolutionMovesTheSpeedLock : Obligations.AJudgedRevolutionMovesTheSpeedLock := by
  unfold Obligations.AJudgedRevolutionMovesTheSpeedLock
  refine ⟨fun ring s hu hunit he hr hq hv hchannel hc hm => ?lock,
    fun ring s hu hn hunit hv hchannel hc hm hsteady => ?exposing⟩
  case lock =>
    intro d p
    obtain ⟨hstays, hunread⟩ : s.spin.unit ≠ .spinUp ∧ s.spin.unit ≠ .identify ∧ s.spin.unit ≠ .faulted := by
      rw [hunit]
      exact ⟨UnitState.noConfusion, UnitState.noConfusion, UnitState.noConfusion⟩
    have hjudged := (revolutionJudged_healthy hv hc hm).trans
      (testPeriod_quiet _ (s := (capture s).modDisc fun d => { d with slipCount := 0 })
        hstays hq hr)
    have hdisc : ((capture s).modDisc fun d => { d with slipCount := 0 }).disc = d := by
      rw [capture, hunit]
      show ({ s.disc with lastCapture := s.disc.counter, counter := 0, lastPeriod := s.disc.period, period := 0
                          slipCount := 0, stall := some 30000 } : Disc) = d
      rw [hc]
    have hclear : { d.tested p with slipMark := false } = d.tested p :=
      Disc.slipMark_clear ((Disc.tested_slipMark p d).trans hm)
    rw [exec_index_idle hu (by rw [hunit]; rfl) hunread.1 (by rw [hchannel]; exact (Option.some_ne_none _).symm)
      hjudged hunread.2 he]
    refine congrArg _ ?_
    show ({ s with engine := { s.engine with firedSinceIndex := false }
                   disc := { Disc.tested p ((capture s).modDisc fun d => { d with slipCount := 0 }).disc with
                     slipMark := false } } : State) = _
    rw [hdisc, hclear]
    rfl
  case exposing =>
    intro shown counts
    have hcounts : counts ↔ stuckCounts s = true := (stuckCounts_iff s).symm
    obtain ⟨d, hsame, hexec⟩ := exec_index_exposing (ring := ring) hu hunit hchannel hv hc hm hsteady
    refine ⟨fun h hless => ?counted, fun h => ?uncounted, fun j line it h hlast ha hd hcur hit hg hasm hroom => ?stuck⟩
    case counted =>
      obtain ⟨it, rest, hshown⟩ := List.exists_cons_of_ne_nil h.2.1
      have hhead : (exposures s).head? = some it := congrArg List.head? hshown
      have hwork := indexToEngine_counted (s := { s with disc := d }) (hsame.trans (hcounts.1 h)) hhead
      rw [if_neg (show ¬ 16 ≤ s.engine.stuck + 1 by omega)] at hwork
      have hrest : NoEndWaits (markCleared (stuckCounted { s with disc := d })) := hn.congr rfl rfl rfl
      rw [hwork, carryOn_noEndWaits hrest] at hexec
      exact ⟨_, hexec, rfl, rfl, rfl, rfl, rfl⟩
    case uncounted =>
      have hwork := indexToEngine_uncounted (s := { s with disc := d })
        (hsame.trans (Bool.eq_false_iff.2 (mt hcounts.2 h)))
      have hrest : NoEndWaits (markCleared (sinceIndex { s with disc := d })) := hn.congr rfl rfl rfl
      rw [hwork, carryOn_noEndWaits hrest] at hexec
      exact ⟨_, hexec, rfl, rfl, rfl, rfl, rfl⟩
    case stuck =>
      have hwork := indexToEngine_counted (s := { s with disc := d }) (hsame.trans (hcounts.1 h)) hit
      rw [if_pos (show 16 ≤ s.engine.stuck + 1 by omega),
        stuckStop_fails (s := stuckCounted { s with disc := d }) hcur hunit ha] at hwork
      obtain ⟨hjobs, hlines, hcells, hengine, hready, hseq, hqueues, hgalley⟩ := jobStuck_fields (tr := it.track) (j := j)
        (r := { job := j.number, line := line }) (s := stuckCounted { s with disc := d }) rfl hasm
      have howner : ownerOf (stuckCounted { s with disc := d }) j.number = j.owner :=
        ownerOf_eq (findJob_activeJob ha hd)
      obtain ⟨c, e, hclose, hjob⟩ := carryOn_closeOpen
        (s := markCleared (jobStuck it.track j { job := j.number, line := line } (stuckCounted { s with disc := d })))
        (congrArg Engine.state hengine) (congrArg Engine.close hengine) rfl (hgalley.trans hg)
      rw [hwork, hclose] at hexec
      refine ⟨_, hexec, hjobs, hlines, hcells, congrArg Engine.state hengine, congrArg Engine.current hengine,
        congrArg some hjob, congrArg Engine.ring hengine, hready, congrArg Seq.pendingSel hseq,
        congrArg Seq.starve hseq, congrArg Seq.grace hseq,
        (congrArg (fun q : Pair Queue => (q.get j.owner).events) hqueues).trans ?events,
        (congrArg (fun q : Pair Queue => q.get j.owner.other) hqueues).trans ?other⟩
      case events =>
        rw [postAbandoned, howner]
        exact post_post_events _ _ (Nat.add_le_add_right hroom 2)
      case other =>
        rw [postAbandoned, howner, post_get_other, post_get_other]
        rfl

end Sys2Proof.Machine
end

