-- ==== Sys2Proof/Proofs/TrimmingKept.lean ====
section
/-!
SUPPORT. What a change of the trim records and of the search keeps (R52, R56, R63, R95, R98): the exposure items in the
ring but for their angles and their order, the engine but for the ring and which of the two states at a stop it is in, and
every other block but the Trim Unit, the maps and the deflector.
-/
namespace Sys2Proof.Machine

variable {s t u : State}

/-! ### The exposure items of a ring, without their angles (R51, R52, R56) -/

/-- The entry of an exposure item, with its defer count. -/
def Item.shown : Item → Option (StopEntry × Nat)
  | .exposure e _ n => some (e, n)
  | .test _ _ => none

/-- The entries that a ring has items for, with their defer counts. -/
def shownEntries (ring : List Item) : List (StopEntry × Nat) := ring.filterMap Item.shown

theorem Item.shown_retarget (code : Nat) (it : Item) : (it.retarget code).shown = it.shown := by
  cases it <;> simp only [Item.retarget, Item.shown]

theorem shownEntries_map_retarget (code : Nat) (ring : List Item) :
    shownEntries (ring.map (Item.retarget code)) = shownEntries ring := by
  unfold shownEntries
  rw [List.filterMap_map]
  exact congrArg (List.filterMap · ring) (funext (Item.shown_retarget code))

theorem length_shownEntries (ring : List Item) : (shownEntries ring).length = (ring.filter Item.isExposure).length := by
  have hshown : (fun it : Item => it.shown.isSome) = Item.isExposure := funext fun it => by cases it <;> rfl
  rw [shownEntries, List.length_filterMap_eq_countP, hshown, List.countP_eq_length_filter]

theorem mem_shownEntries {e : StopEntry} {n : Nat} {ring : List Item} :
    (e, n) ∈ shownEntries ring ↔ ∃ target, .exposure e target n ∈ ring := by
  unfold shownEntries
  rw [List.mem_filterMap]
  constructor
  · rintro ⟨it, hit, hshown⟩
    cases it with
    | exposure f target m =>
      obtain ⟨rfl, rfl⟩ : f = e ∧ m = n := by simpa [Item.shown] using hshown
      exact ⟨target, hit⟩
    | test => cases hshown
  · rintro ⟨target, hit⟩
    exact ⟨_, hit, rfl⟩

theorem exposures_eq_nil (s : State) : exposures s = [] ↔ shownEntries s.engine.ring = [] := by
  rw [← List.length_eq_zero_iff, ← List.length_eq_zero_iff, length_shownEntries]
  rfl

theorem insertItem_perm (counter : Int) (it : Item) (ring : List Item) :
    (insertItem counter it ring).Perm (it :: ring) := by
  obtain ⟨before, after, hring, hplaced, -⟩ := insertItem_split counter it ring
  rw [hplaced, hring]
  exact List.perm_middle

theorem insertAll_perm (counter : Int) (items ring : List Item) :
    (insertAll counter items ring).Perm (items ++ ring) := by
  induction items generalizing ring with
  | nil => exact List.Perm.refl _
  | cons it items ih =>
    exact (ih (insertItem counter it ring)).trans
      (((insertItem_perm counter it ring).append_left items).trans List.perm_middle)

theorem replaceTrack_shown (tr : Track) (code : Nat) (s : State) :
    (shownEntries (replaceTrack tr code s).engine.ring).Perm (shownEntries s.engine.ring) := by
  let mine := s.engine.ring.filter fun it => it.track == tr
  let others := s.engine.ring.filter fun it => it.track != tr
  have hagain : ((mine.filter Item.isExposure ++ mine.filter fun it => !it.isExposure).map (Item.retarget code)
      ++ others).filterMap Item.shown = shownEntries (mine.filter Item.isExposure ++ mine.filter fun it =>
      !it.isExposure) ++ shownEntries others := by
    rw [List.filterMap_append]
    exact congrArg (· ++ shownEntries others) (shownEntries_map_retarget code _)
  have hmine := (List.filter_append_perm Item.isExposure mine).filterMap Item.shown
  have hring := (List.filter_append_perm (fun it : Item => it.track == tr) s.engine.ring).filterMap Item.shown
  have hplaced := (insertAll_perm s.disc.counter ((mine.filter Item.isExposure ++ mine.filter fun it =>
    !it.isExposure).map (Item.retarget code)) others).filterMap Item.shown
  rw [hagain] at hplaced
  rw [List.filterMap_append] at hring
  exact hplaced.trans ((hmine.append_right _).trans hring)

theorem trackNotice_ring (s : State) : (trackNotice s).engine.ring = s.engine.ring := by
  obtain h | ⟨st, h⟩ := trackNotice_eq_or s <;> rw [h]
  rfl

theorem putRec_shown (tr : Track) (r : TrimRec) (s : State) :
    (shownEntries (putRec tr r s).engine.ring).Perm (shownEntries s.engine.ring) := by
  rw [putRec, trackNotice_ring]
  split
  · exact replaceTrack_shown _ _ _
  · exact List.Perm.refl _

theorem insertTest_shown (tr : Track) (code : Nat) (s : State) :
    (shownEntries (insertTest tr code s).engine.ring).Perm (shownEntries s.engine.ring) :=
  (insertItem_perm s.disc.counter _ s.engine.ring).filterMap Item.shown

/-! ### Properties kept (R95, R98) -/

/-- A property that is kept by the operations of which a join of the trim queue and a search's start are made. -/
structure KeptByTrimming (P : State → Prop) : Prop where
  put : ∀ tr r v, P v → P (putRec tr r v)
  trim : ∀ f v, (∀ x, (f x).queueDisc = x.queueDisc) → P v → P (v.modTrim f)
  test : ∀ tr code v, P v → P (insertTest tr code v)
  aimed : ∀ v, P v → P (aim v)

section
variable {P : State → Prop} (hP : KeptByTrimming P)
include hP

theorem KeptByTrimming.startSearch (h : P s) : P (startSearch s) := by
  unfold Machine.startSearch
  split
  · exact h
  · split
    · exact h
    · exact hP.test _ _ _ (hP.put _ _ _ (hP.trim _ _ (fun _ => rfl) h))

theorem KeptByTrimming.joinQueue (tr : Track) (h : P s) : P (joinQueue s tr) := by
  have hjoined (v : State) (hv : P v) (r : TrimRec) :
      P (Machine.startSearch ((putRec tr r v).modTrim fun x => { x with queue := x.queue ++ [tr] })) :=
    hP.startSearch (hP.trim _ _ (fun _ => rfl) (hP.put _ _ _ hv))
  unfold Machine.joinQueue
  dsimp only
  split
  · exact h
  · split
    · exact hjoined (clearWindow tr s) (hP.trim _ s (fun _ => rfl) h) _
    · exact hjoined s h _

theorem KeptByTrimming.joinTracks (ts : List Track) (h : P s) : P (joinTracks ts s) := by
  refine hP.aimed _ ?_
  induction ts generalizing s with
  | nil => exact h
  | cons tr ts ih => exact ih (hP.joinQueue tr h)

theorem KeptByTrimming.monitorResult (tr : Track) (miss : Bool) (h : P s) : P (monitorResult tr miss s) := by
  unfold Machine.monitorResult
  dsimp only
  split
  · split
    · exact hP.joinTracks _ (hP.trim _ _ (fun _ => rfl) h)
    · exact hP.trim _ _ (fun _ => rfl) h
  · exact h

end

theorem keptByTrimming_shown (entries : List (StopEntry × Nat)) :
    KeptByTrimming fun v => (shownEntries v.engine.ring).Perm entries where
  put tr r v h := (putRec_shown tr r v).trans h
  trim _ _ _ h := h
  test tr code v h := (insertTest_shown tr code v).trans h
  aimed v h := by rwa [aim_engine]

/-- The engine but for the ring and which of the two states at a stop it is in. -/
def Engine.besideNotice (e : Engine) : Engine := { e with state := e.state.atStop, ring := [] }

theorem trackNotice_besideNotice (s : State) : (trackNotice s).engine.besideNotice = s.engine.besideNotice := by
  unfold trackNotice
  split
  next he =>
    split
    · simp only [Engine.besideNotice, State.modEngine_engine, he, EngineState.atStop]
    · rfl
  next he =>
    split
    · rfl
    · simp only [Engine.besideNotice, State.modEngine_engine, he, EngineState.atStop]
  all_goals rfl

theorem putRec_besideNotice (tr : Track) (r : TrimRec) (s : State) :
    (putRec tr r s).engine.besideNotice = s.engine.besideNotice := by
  unfold putRec
  dsimp only
  rw [trackNotice_besideNotice]
  split <;> rfl

theorem keptByTrimming_besideNotice (e : Engine) : KeptByTrimming fun v => v.engine.besideNotice = e where
  put tr r v h := (putRec_besideNotice tr r v).trans h
  trim _ _ _ h := h
  test _ _ _ h := h
  aimed v h := by rwa [aim_engine]

/-- The blocks beside the engine, the maps and the Trim Unit: of the disc timing all but the compare channel, of the drive
all but the deflector with its held order. -/
def apart (s : State) : Aside :=
  { aside s with drive := { s.drive with deflector := State.reset.drive.deflector, held := none } }

theorem Drive.aim_apart (d : Drive) (tr : Track) (r : Int) :
    ({ d.aim tr r with deflector := State.reset.drive.deflector, held := none } : Drive)
      = { d with deflector := State.reset.drive.deflector, held := none } := by
  unfold Drive.aim
  split
  case h_3 | h_4 => split <;> rfl
  all_goals rfl

theorem apart_aim (s : State) : apart (aim s) = apart s := by
  unfold aim
  split
  · rfl
  · next it _ =>
    have hdrive := s.drive.aim_apart it.track it.rise
    simp only [apart, aside, State.modDrive, hdrive]

theorem apart_congr (h : aside u = aside s) : apart u = apart s := by
  rw [apart, apart, h, show u.drive = s.drive from congrArg Aside.drive h]

theorem keptByTrimming_apart (x : Aside) : KeptByTrimming fun v => apart v = x where
  put tr r v h := (apart_congr (aside_putRec tr r v)).trans h
  trim _ _ _ h := h
  test _ _ _ h := h
  aimed v h := (apart_aim v).trans h

theorem keptByTrimming_queueDisc (disc : Nat) : KeptByTrimming fun v => v.trim.queueDisc = disc where
  put tr r v h := by rwa [putRec_trim]
  trim f v hf h := (hf v.trim).trans h
  test _ _ _ h := h
  aimed v h := by rwa [aim_trim]

theorem NoneCameToRest.trans {d e f : Drive} (h : NoneCameToRest d e) (h' : NoneCameToRest e f) : NoneCameToRest d f :=
  ⟨fun x => h.carriage (h'.carriage x), fun x => h.deflector (h'.deflector x), fun x => h.turret (h'.turret x),
    fun x => h.film (h'.film x)⟩

theorem keptByTrimming_moving (d : Drive) : KeptByTrimming fun v => NoneCameToRest d v.drive where
  put tr r v h := by rwa [show (putRec tr r v).drive = v.drive from congrArg Aside.drive (aside_putRec tr r v)]
  trim _ _ _ h := h
  test _ _ _ h := h
  aimed v h := by
    obtain ⟨e, hrest, heq⟩ := aim_eq v
    rw [heq]
    exact h.trans hrest

/-! ### An engine that waits, or stands at a stop -/

theorem EngineState.eq_of_atStop {st st' : EngineState} (h : st.atStop = st'.atStop) (hflash : st ≠ .flash)
    (hwait : st ≠ .waitTrack) : st' = st := by
  revert h hflash hwait
  cases st <;> cases st' <;> decide

/-- An engine that waits for the end of a move waits after what leaves it, and brings no mechanism to rest. -/
theorem NoEndWaits.of_besideNotice (h : NoEndWaits s) (he : u.engine.besideNotice = s.engine.besideNotice)
    (hd : NoneCameToRest s.drive u.drive) : NoEndWaits u := by
  by_cases hstop : u.engine.state = .flash ∨ u.engine.state = .waitTrack
  · obtain hstop | hstop := hstop <;>
      exact noEndWaits_of_noMoveAwaited ⟨by simp [hstop], by simp [hstop], by simp [hstop]⟩
  · obtain ⟨hflash, hwait⟩ := not_or.1 hstop
    have hstate := EngineState.eq_of_atStop (congrArg Engine.state he) hflash hwait
    have hclose := congrArg Engine.close he
    exact (h.of_noneCameToRest hd).congr hstate.symm hclose rfl

end Sys2Proof.Machine
end

