-- ==== Sys2Proof/Proofs/ResultWatch.lean ====
section
/-!
SUPPORT. The photocell and the result watch (R59, R60, R99, R103, R104): the hit pulse, and what a watch that closes
gives to the window of its track, to the line's tally and to the search.
-/
namespace Sys2Proof.Machine

variable {s t u : State}

theorem exec_hitPulse (hu : Up s) : exec .hitPulse s = .next (hit s) := congrArg _ (powered_up _ hu)

theorem exec_resultWatchClose (hu : Up s) : exec .resultWatchClose s = .next (closeWatch s) :=
  congrArg _ (powered_up _ hu)

/-! ### The close of the watch (R59, R61) -/

theorem stopComplete_iff (s : State) : stopComplete s = true ↔
    (s.engine.state = .flash ∨ s.engine.state = .waitTrack) ∧ exposures s = [] ∧ s.engine.watch = none := by
  simp [stopComplete, and_assoc]

theorem closeWatch_eq {w : Watch} (hw : s.engine.watch = some w) : closeWatch s =
    carryOn (if stopComplete (giveResult w (watchClosed s)) then stopDone (giveResult w (watchClosed s))
      else giveResult w (watchClosed s)) := by
  simp only [closeWatch, hw]
  rfl

/-- With a stop that is not complete, nothing follows the result. -/
theorem closeWatch_waits {w : Watch} (hw : s.engine.watch = some w) (hu : giveResult w (watchClosed s) = u)
    (hstop : stopComplete u = false) (hn : NoEndWaits u) : closeWatch s = u := by
  rw [closeWatch_eq hw, hu, if_neg (by rw [hstop]; exact Bool.false_ne_true), carryOn_noEndWaits hn]

/-- Items to be exposed are left in the ring, or the engine is at no stop. -/
def StopGoesOn (s : State) : Prop :=
  exposures s ≠ [] ∨ (s.engine.state ≠ .flash ∧ s.engine.state ≠ .waitTrack)

theorem StopGoesOn.notComplete (h : StopGoesOn s) : stopComplete s = false := by
  refine Bool.eq_false_iff.2 fun hc => ?_
  obtain ⟨hstate, hring, -⟩ := (stopComplete_iff s).1 hc
  exact h.elim (fun h => h hring) fun h => hstate.elim h.1 h.2

/-- Whether a stop goes on is read from the entries in the ring and from whether the engine is at a stop. -/
theorem StopGoesOn.of_kept (h : StopGoesOn s)
    (hr : (shownEntries u.engine.ring).Perm (shownEntries s.engine.ring))
    (he : u.engine.besideNotice = s.engine.besideNotice) : StopGoesOn u := by
  obtain h | ⟨hflash, hwait⟩ := h
  · refine .inl fun hnone => h ?_
    rw [exposures_eq_nil] at hnone ⊢
    rw [hnone] at hr
    exact hr.symm.eq_nil
  · have hstate := EngineState.eq_of_atStop (congrArg Engine.state he).symm hflash hwait
    refine .inr ?_
    rw [hstate]
    exact ⟨hflash, hwait⟩

/-! ### The result of an exposure (R59, R103, R104) -/

theorem giveResult_exposure (tr : Track) (forLine hit : Bool) (left : Nat) (s : State) :
    giveResult { of := .exposure tr forLine, hit := hit, left := left } s = (monitorResult tr (!hit) s).modEngine
      fun e => { e with misreg := if forLine = true ∧ hit = false then e.misreg + 1 else e.misreg } := by
  cases forLine <;> cases hit <;> rfl

theorem monitorResult_dropped {tr : Track} (h : (queueRec s tr).state ≠ .trimmed) (miss : Bool) :
    monitorResult tr miss s = s := if_neg h

/-- The window of a track with one result more, of at most 32. -/
def windowOf (tr : Track) (miss : Bool) (s : State) : List Bool := windowAdd (s.trim.windows.get tr) miss

/-- The part with a result recorded in its track's window. -/
def recorded (tr : Track) (miss : Bool) (s : State) : State :=
  s.modTrim fun x => { x with windows := x.windows.set tr (windowOf tr miss s) }

theorem monitorResult_recorded {tr : Track} {miss : Bool} (h : (queueRec s tr).state = .trimmed)
    (hm : missCount (windowOf tr miss s) ≤ s.trim.limits.monitorMiss) : monitorResult tr miss s = recorded tr miss s :=
  (if_pos h).trans (if_neg (Nat.not_lt.2 hm))

theorem monitorResult_rejoins {tr : Track} {miss : Bool} (h : (queueRec s tr).state = .trimmed)
    (hm : s.trim.limits.monitorMiss < missCount (windowOf tr miss s)) :
    monitorResult tr miss s = joinTracks [tr] (recorded tr miss s) :=
  (if_pos h).trans (if_pos hm)

/-- A TRIMMED track joins the queue behind the search in progress, with its state and code saved and its window cleared
(R92, R95, R105). -/
theorem joinQueue_trimmed {tr : Track} (hr : (queueRec s tr).state = .trimmed) (hs : s.trim.search.isSome = true) :
    joinQueue s tr = (putRec tr (queueRec s tr).queued (clearWindow tr s)).modTrim
      fun x => { x with queue := x.queue ++ [tr] } := by
  have hout : ¬ (queueRec s tr).state.inSearch = true := by
    rw [hr]
    exact Bool.false_ne_true
  have hbarred (v : State) (hv : v.trim.search.isSome = true) : startSearch v = v := startSearch_barred (.inr hv)
  simp only [joinQueue, if_neg hout, if_pos hr]
  refine hbarred _ ?_
  rw [State.modTrim_trim, putRec_trim]
  exact hs

section
variable {tr : Track} (hr : (queueRec s tr).state = .trimmed) (hs : s.trim.search.isSome = true)
include hr hs

/-- What a join behind the search in progress comes to. -/
theorem joinTracks_trimmed (hslot : (slotFor s.maps s.trim.queueDisc).isSome = true) :
    queueRec (joinTracks [tr] s) tr = (queueRec s tr).queued
      ∧ (joinTracks [tr] s).trim.queue = s.trim.queue ++ [tr] ∧ (joinTracks [tr] s).trim.windows.get tr = []
      ∧ (joinTracks [tr] s).queues = s.queues := by
  have hjoin : joinTracks [tr] s = aim (joinQueue s tr) := rfl
  rw [hjoin, queueRec_aim, aim_trim, aim_queues, joinQueue_trimmed hr hs, State.modTrim_trim, putRec_trim,
    State.modTrim_queues, putRec_queues]
  refine ⟨(queueRec_congr rfl rfl tr).trans (queueRec_putRec hslot), rfl, ?_, rfl⟩
  show (s.trim.windows.set tr []).get tr = []
  rw [Oct.get_set, if_pos rfl]

end

/-! ### The result of a test flash (R99) -/

theorem testResult_counts {c : Search} {hit : Bool} (hc : s.trim.search = some c) (hd : c.fired + 1 < c.dwell) :
    testResult (!hit) s = s.modTrim fun x => { x with search := some (c.counted hit) } := by
  have hcounted : c.counted hit = { c with fired := c.fired + 1, misses := c.misses + (!hit).toNat } := by
    cases hit <;> rfl
  simp only [testResult, hc, hcounted]
  exact if_pos hd

/-- Settles O47: the result goes on by `closeWatch_waits`; an exposure's is one of the three `monitorResult_` equations,
and a test flash's is `testResult_counts`. -/
theorem theResultWatchGivesItsResult : Obligations.TheResultWatchGivesItsResult := by
  unfold Obligations.TheResultWatchGivesItsResult
  refine ⟨fun s hu => exec_hitPulse hu, fun tr forLine hit left s hu hn hgoes hw => ?exposure,
    fun tr hit left c s hu hn hgoes hw hc hd => ?test⟩
  case exposure =>
    intro closed added window
    have hgoesOn : StopGoesOn (watchClosed s) := hgoes
    have hwaits : NoEndWaits (watchClosed s) := hn.congr rfl rfl rfl
    have hgive := giveResult_exposure tr forLine hit left (watchClosed s)
    have hmisses : missCount (windowOf tr (!hit) (watchClosed s)) = (window.filter id).length := missCount_eq _
    refine ⟨fun h => ?dropped, fun h hm => ?recorded, fun h hm => ?rejoins⟩
    case dropped =>
      rw [monitorResult_dropped (s := watchClosed s) h] at hgive
      rw [exec_resultWatchClose hu, closeWatch_waits hw hgive hgoesOn.notComplete (hwaits.congr rfl rfl rfl)]
      rfl
    case recorded =>
      rw [← hmisses] at hm
      rw [monitorResult_recorded (s := watchClosed s) h hm] at hgive
      rw [exec_resultWatchClose hu, closeWatch_waits hw hgive hgoesOn.notComplete (hwaits.congr rfl rfl rfl)]
      rfl
    case rejoins =>
      rw [← hmisses] at hm
      have hjoins := monitorResult_rejoins (s := watchClosed s) h hm
      rw [hjoins] at hgive
      have hring := (keptByTrimming_shown _).joinTracks [tr] (s := recorded tr (!hit) (watchClosed s))
        (List.Perm.refl _)
      have hengine := (keptByTrimming_besideNotice _).joinTracks [tr] (s := recorded tr (!hit) (watchClosed s)) rfl
      have hdrive := (keptByTrimming_moving s.drive).joinTracks [tr] (s := recorded tr (!hit) (watchClosed s))
        ⟨id, id, id, id⟩
      have hafter : StopGoesOn (joinTracks [tr] (recorded tr (!hit) (watchClosed s))) :=
        StopGoesOn.of_kept (s := watchClosed s) hgoesOn hring hengine
      have hrest : NoEndWaits (joinTracks [tr] (recorded tr (!hit) (watchClosed s))) :=
        hwaits.of_besideNotice hengine hdrive
      refine ⟨_, (exec_resultWatchClose hu).trans (congrArg _ (closeWatch_waits hw hgive hafter.notComplete
        (hrest.congr rfl rfl rfl))), fun hslot hsearch => ?_⟩
      obtain ⟨hrec, hqueue, hwindow, hqueues⟩ :=
        joinTracks_trimmed (s := recorded tr (!hit) (watchClosed s)) h hsearch hslot
      have hstate := congrArg TrimRec.state hrec
      have hcode := congrArg TrimRec.code hrec
      have hprior := congrArg TrimRec.prior hrec
      refine ⟨hstate, hcode, hprior.trans ?_, hqueue, hwindow, hqueues⟩
      rw [← h]
      rfl
  case test =>
    have hgoesOn : StopGoesOn (watchClosed s) := hgoes
    have hgive : giveResult { of := .test tr true, hit := hit, left := left } (watchClosed s) = _ :=
      testResult_counts (s := watchClosed s) hc hd
    rw [exec_resultWatchClose hu, closeWatch_waits hw hgive hgoesOn.notComplete (hn.congr rfl rfl rfl)]
    rfl

end Sys2Proof.Machine
end

