-- ==== Sys2Proof/Proofs/SettleEnds.lean ====
section
/-!
SUPPORT. The end of a settle (R49, R62, R118, R124): what it makes of the drive, and the stop it opens; the record that
a change of a trim record shows the stop's items (R63, R92); and the stop that follows a completed one (R61).
-/
namespace Sys2Proof.Machine

variable {s t u : State}

theorem exec_settleEnd (hu : Up s) (m : Mech) :
    exec (.settleEnd m) s = .next (carryOn (s.modDrive fun d => d.settleEnd m)) :=
  congrArg _ (powered_up _ hu)

/-! ### What the end of a settle makes of the drive (R118, R124) -/

section
variable {d : Drive}

theorem Drive.settleEnd_carriage_rests (h : d.carriage.act = .settling) (hl : d.limitC = none) :
    d.settleEnd .carriage =
      { d with carriage := { d.carriage with act := .atRest, target := none, left := 0 } } := by
  simp [Drive.settleEnd, h, hl]

theorem Drive.settleEnd_deflector_rests (h : d.deflector.act = .settling) (hl : d.limitD = none) :
    d.settleEnd .deflector =
      { d with deflector := { d.deflector with act := .atRest, target := none, left := 0 } } := by
  simp [Drive.settleEnd, h, hl]

theorem Drive.settleEnd_turret_rests (h : d.turret.act = .settling) (hl : d.limitT = none) :
    d.settleEnd .turret =
      { d with turret := { d.turret with act := .atRest, target := none, left := 0 } } := by
  simp [Drive.settleEnd, h, hl]

theorem Drive.settleEnd_carriage_homes (h : d.carriage.act = .settling) (hl : d.limitC.isSome = true) :
    ∃ c : Carriage, d.settleEnd .carriage = { d with carriage := c }
      ∧ c.act = .homing (firstLeg d.sensors.carriage) ∧ c.left = 25 := by
  refine ⟨Carriage.startHoming { d.carriage with act := .atRest, target := none, left := 0 } d.sensors.carriage,
    ?_, rfl, rfl⟩
  simp [Drive.settleEnd, Drive.homeCarriage, h, hl]

theorem Drive.settleEnd_deflector_homes (h : d.deflector.act = .settling) (hl : d.limitD.isSome = true) :
    ∃ c : Deflector, d.settleEnd .deflector = { d with deflector := c }
      ∧ c.act = .homing (firstLeg d.sensors.deflTrack) ∧ c.homingRise = false ∧ c.left = 150 := by
  refine ⟨Deflector.homeOn { d.deflector with act := .atRest, target := none, left := 0 } false
    (firstLeg d.sensors.deflTrack), ?_, rfl, rfl, ?_⟩
  · simp [Drive.settleEnd, Drive.homeDeflector, h, hl]
  · cases d.sensors.deflTrack <;> rfl

theorem Drive.settleEnd_turret_homes (h : d.turret.act = .settling) (hl : d.limitT.isSome = true) :
    ∃ c : Turret, d.settleEnd .turret = { d with turret := c }
      ∧ c.act = .homing (firstLeg d.sensors.turret) ∧ c.left = 4000 := by
  refine ⟨Turret.homeOn { d.turret with act := .atRest, target := none, left := 0 } (firstLeg d.sensors.turret),
    ?_, rfl, rfl⟩
  simp [Drive.settleEnd, Drive.homeTurret, h, hl]

end

/-- With no move awaited the end of a settle changes the drive alone. -/
theorem exec_settleEnd_alone {m : Mech} {d : Drive} (hu : Up s) (hn : NoMoveAwaited s) (hd : s.drive.settleEnd m = d) :
    exec (.settleEnd m) s = .next { s with drive := d } := by
  subst hd
  exact (exec_settleEnd hu m).trans (congrArg _ (carryOn_noEndWaits (s := s.modDrive _)
    (noEndWaits_of_noMoveAwaited hn)))

/-! ### The stop opens (R49, R62) -/

theorem exposureOn_iff {p : TrimState → Bool} : exposureOn p s = true ↔
    ∃ it ∈ s.engine.ring, it.isExposure = true ∧ p (mountedRec s it.track).state = true := by
  simp only [exposureOn, exposures, List.any_eq_true, List.mem_filter, and_assoc]

/-- Whether an item in the ring is on a track whose record is UNUSABLE (R63). -/
def Barred (s : State) : Prop :=
  ∃ it ∈ s.engine.ring, it.isExposure = true ∧ (mountedRec s it.track).state = .unusable

theorem exposureOn_unusable : exposureOn (fun st => st == .unusable) s = true ↔ Barred s := by
  simp only [exposureOn_iff, Barred, beq_iff_eq]

theorem enterStop_barred (h : Barred s) : enterStop s = s.modEngine fun e => { e with state := .waitTrack } := by
  rw [enterStop, if_pos (exposureOn_unusable.2 h)]

theorem enterStop_free (h : ¬ Barred s) : enterStop s = s.modEngine fun e => { e with state := .flash } := by
  rw [enterStop, if_neg (mt exposureOn_unusable.1 h)]

/-- With the carriage at rest MOVE ends, and PREPARE too once the turret and the film have ended their moves. -/
theorem carryOn_opens (hc : s.drive.carriage.act = .atRest)
    (h : s.engine.state = .move ∨ (s.engine.state = .prepare ∧ s.drive.turret.act = .atRest
      ∧ s.drive.film.advance = none ∧ s.engine.stops ≠ [])) : carryOn s = enterStop s := by
  have hends : moveEnded s = enterStop s := by
    obtain hmove | ⟨hprepare, hturret, hfilm, hstops⟩ := h
    · simp only [moveEnded, hmove, if_pos hc]
    · have hprepared : prepared s = true := (prepared_iff s).2 ⟨hturret, hfilm, hc⟩
      simp [moveEnded, hprepare, hprepared, hstops]
  have hopen : moveEnded (enterStop s) = enterStop s := by
    by_cases hb : Barred s
    · rw [enterStop_barred hb]
      rfl
    · rw [enterStop_free hb]
      rfl
  rw [carryOn_once (by rw [hends, hopen]), hends]

/-! ### The next stop (R52, R61) -/

/-- The ring of a stop just loaded has an item for each of the stop's entries beside the items it had. -/
theorem loadStop_shown (st : Stop) (h : shownEntries s.engine.ring = []) :
    (shownEntries (loadStop st s).engine.ring).Perm (st.entries.map fun e => (e, 0)) := by
  refine (keptByTrimming_shown _).joinTracks _ ?_
  refine ((insertAll_perm s.disc.counter (st.entries.map (exposureOf s)) s.engine.ring).filterMap Item.shown).trans ?_
  rw [List.filterMap_append, show s.engine.ring.filterMap Item.shown = [] from h, List.append_nil, List.filterMap_map]
  exact List.Perm.of_eq (List.filterMap_eq_map ▸ rfl)

/-- The part with the move to the next stop begun, before that stop is loaded. -/
def stopBegun (s : State) : State := s.modEngine fun e => { e with state := .move, stopNo := e.stopNo + 1, stuck := 0 }

theorem standing_nextStop (st : Stop) (s : State) : standing (nextStop st s) =
    { standing (stopBegun s) with carriage := s.drive.carriage.order st.x } := by
  have hkept : standing (loadStop st (stopBegun s)) = standing (stopBegun s) :=
    standing_loadStop st ⟨EngineState.noConfusion, EngineState.noConfusion⟩
  have hcarriage : (loadStop st (stopBegun s)).drive.carriage = s.drive.carriage := congrArg Standing.carriage hkept
  rw [← hkept, ← hcarriage]
  rfl

theorem stopComplete_of_shown (hstate : s.engine.state = .flash ∨ s.engine.state = .waitTrack)
    (hring : shownEntries s.engine.ring = []) (hwatch : s.engine.watch = none) : stopComplete s = true :=
  (stopComplete_iff s).2 ⟨hstate, (exposures_eq_nil s).2 hring, hwatch⟩

/-- A result that completes the stop has the next one loaded, and the carriage sets out for it. -/
theorem exec_resultWatchClose_nextStop {w : Watch} {v : State} {st : Stop} (hu : Up s) (hw : s.engine.watch = some w)
    (hgive : giveResult w (watchClosed s) = v) (hdone : stopComplete v = true)
    (hst : v.engine.stops[v.engine.stopNo]? = some st) (hc : v.drive.carriage.act = .atRest)
    (hx : v.drive.carriage.position ≠ st.x) : exec .resultWatchClose s = .next (nextStop st v) := by
  have hnext : stopDone v = nextStop st v := by
    have hat : stopAt v.engine.stops (v.engine.stopNo + 1) = some st := hst
    simp only [stopDone, hat]
  have hcarriage : (nextStop st v).drive.carriage = v.drive.carriage.order st.x :=
    congrArg Standing.carriage (standing_nextStop st v)
  have hmoves : NoEndWaits (nextStop st v) := by
    refine noEndWaits_of_carriage ?_
    rw [hcarriage, Carriage.order_atRest hc, if_neg hx]
    exact Activity.noConfusion
  rw [exec_resultWatchClose hu, closeWatch_eq hw, hgive, if_pos hdone, hnext, carryOn_noEndWaits hmoves]

/-- The engine but for what an exposure's result may change. -/
def Engine.besideResult (e : Engine) : Engine := { e.besideNotice with misreg := 0 }

/-- An exposure's result leaves the entries in the ring and, but for the line's tally of misses, the engine; and all
that lies apart from it. -/
theorem giveResult_exposure_leaves (tr : Track) (forLine hit : Bool) (left : Nat) (s : State) :
    let v := giveResult { of := .exposure tr forLine, hit := hit, left := left } s
    (shownEntries v.engine.ring).Perm (shownEntries s.engine.ring)
      ∧ v.engine.besideResult = s.engine.besideResult ∧ apart v = apart s := by
  have hengine : (monitorResult tr (!hit) s).engine.besideNotice = s.engine.besideNotice :=
    (keptByTrimming_besideNotice _).monitorResult tr (!hit) rfl
  rw [giveResult_exposure]
  exact ⟨(keptByTrimming_shown _).monitorResult tr (!hit) (List.Perm.refl _),
    congrArg (fun e : Engine => { e with misreg := 0 }) hengine,
    (keptByTrimming_apart _).monitorResult tr (!hit) rfl⟩

theorem EngineState.atStop_eq_flash {st : EngineState} : st.atStop = .flash ↔ st = .flash ∨ st = .waitTrack := by
  cases st <;> decide

/-- Which of the two states at a stop the engine is in is all that a notice changes of its state. -/
theorem atStop_of_besideNotice (he : u.engine.besideNotice = s.engine.besideNotice)
    (h : s.engine.state = .flash ∨ s.engine.state = .waitTrack) :
    u.engine.state = .flash ∨ u.engine.state = .waitTrack := by
  have hstate : u.engine.state.atStop = s.engine.state.atStop := congrArg Engine.state he
  exact EngineState.atStop_eq_flash.1 (hstate.trans (EngineState.atStop_eq_flash.2 h))

theorem noEndWaits_atStop (h : s.engine.state = .flash ∨ s.engine.state = .waitTrack) : NoEndWaits s := by
  refine noEndWaits_of_noMoveAwaited ⟨fun he => ?_, fun he => ?_, fun he => ?_⟩ <;> rw [he] at h <;>
    exact h.elim EngineState.noConfusion EngineState.noConfusion

/-! ### The notice of a judged code (R63, R92, R100, R101) -/

/-- The part with a record written and its track's items re-placed, before the engine takes notice (R56). -/
def written (tr : Track) (r : TrimRec) (s : State) : State :=
  let put := s.modMaps fun q => updateSlot q s.trim.queueDisc fun m => { m with trims := m.trims.set tr r }
  if r.code ≠ (queueRec s tr).code ∧ s.trim.queueDisc = s.spin.mounted then replaceTrack tr r.code put else put

theorem putRec_eq_trackNotice (tr : Track) (r : TrimRec) (s : State) : putRec tr r s = trackNotice (written tr r s) :=
  rfl

theorem written_state (tr : Track) (r : TrimRec) (s : State) : (written tr r s).engine.state = s.engine.state := by
  unfold written
  dsimp only
  split <;> rfl

theorem written_shown (tr : Track) (r : TrimRec) (s : State) :
    (shownEntries (written tr r s).engine.ring).Perm (shownEntries s.engine.ring) := by
  rw [← trackNotice_ring]
  exact putRec_shown tr r s

/-- With the queue disc mounted, the record written is the record that the engine reads, and no other changes. -/
theorem mountedRec_written {tr : Track} {r : TrimRec} (hd : s.trim.queueDisc = s.spin.mounted)
    (hslot : (slotFor s.maps s.spin.mounted).isSome = true) (tk : Track) :
    mountedRec (written tr r s) tk = if tk = tr then r else mountedRec s tk := by
  obtain ⟨m, hm⟩ := Option.isSome_iff_exists.1 hslot
  have hmaps : (written tr r s).maps =
      updateSlot s.maps s.trim.queueDisc fun m => { m with trims := m.trims.set tr r } := by
    rw [← trackNotice_maps]
    exact putRec_maps tr r s
  have hspin : (written tr r s).spin = s.spin := by
    unfold written
    dsimp only
    split <;> rfl
  simp only [mountedRec, hmaps, hspin, slotFor_setRec, hd, if_pos, hm, Option.map_some, Oct.get_set]

/-- The items of a ring on tracks of which `p` holds, told by the entries. -/
theorem exists_exposure_iff {p : Track → Prop} {ring : List Item} :
    (∃ it ∈ ring, it.isExposure = true ∧ p it.track) ↔ ∃ e ∈ shownEntries ring, p e.1.track := by
  constructor
  · rintro ⟨it, hit, hexp, hp⟩
    cases it with
    | exposure e target n => exact ⟨(e, n), mem_shownEntries.2 ⟨target, hit⟩, hp⟩
    | test => cases hexp
  · rintro ⟨⟨e, n⟩, he, hp⟩
    obtain ⟨target, hit⟩ := mem_shownEntries.1 he
    exact ⟨_, hit, rfl, hp⟩

/-- What an item on some track comes to is kept with the entries. -/
theorem exists_exposure_congr {p : Track → Prop} {ring ring' : List Item}
    (h : (shownEntries ring').Perm (shownEntries ring)) :
    (∃ it ∈ ring', it.isExposure = true ∧ p it.track) ↔ ∃ it ∈ ring, it.isExposure = true ∧ p it.track := by
  rw [exists_exposure_iff, exists_exposure_iff]
  simp only [h.mem_iff]

/-- What an item's track may be found to be after a record is written. -/
theorem exposureOn_written {p : TrimState → Bool} {tr : Track} {r : TrimRec} (hd : s.trim.queueDisc = s.spin.mounted)
    (hslot : (slotFor s.maps s.spin.mounted).isSome = true) : exposureOn p (written tr r s) = true ↔
    ∃ it ∈ s.engine.ring, it.isExposure = true
      ∧ p (if it.track = tr then r else mountedRec s it.track).state = true := by
  simp only [exposureOn_iff, mountedRec_written hd hslot]
  exact exists_exposure_congr (p := fun tk => p (if tk = tr then r else mountedRec s tk).state = true)
    (written_shown tr r s)

theorem TrimState.holds_iff {st : TrimState} : (st == .unusable || st.inSearch) = true ↔
    st = .unusable ∨ st = .queued ∨ st = .searching := by cases st <;> decide

/-- An item on another track than `tr` holds the stop up (R63). -/
def OtherHolds (tr : Track) (s : State) : Prop :=
  ∃ it ∈ s.engine.ring, it.isExposure = true ∧ it.track ≠ tr
    ∧ ((mountedRec s it.track).state = .unusable ∨ (mountedRec s it.track).state = .queued
      ∨ (mountedRec s it.track).state = .searching)

section
variable {tr : Track} {r : TrimRec} (hd : s.trim.queueDisc = s.spin.mounted)
  (hslot : (slotFor s.maps s.spin.mounted).isSome = true)
include hd hslot

theorem putRec_unusable_waits (hstate : s.engine.state = .flash ∨ s.engine.state = .waitTrack)
    (hr : r.state = .unusable) (hit : ∃ it ∈ s.engine.ring, it.isExposure = true ∧ it.track = tr) :
    (putRec tr r s).engine.state = .waitTrack := by
  obtain ⟨it, hmem, hexp, htrack⟩ := hit
  have hon {p : TrimState → Bool} (hp : p .unusable = true) : exposureOn p (written tr r s) = true :=
    (exposureOn_written hd hslot).2 ⟨it, hmem, hexp, by rw [if_pos htrack, hr, hp]⟩
  rw [putRec_eq_trackNotice]
  obtain hflash | hwait := hstate
  · have he : (written tr r s).engine.state = .flash := (written_state tr r s).trans hflash
    simp only [trackNotice, he, hon (p := fun st => st == .unusable) rfl]
    rfl
  · have he : (written tr r s).engine.state = .waitTrack := (written_state tr r s).trans hwait
    simp only [trackNotice, he, hon (p := fun st => st == .unusable || st.inSearch) rfl]
    exact he

theorem putRec_otherHolds (hwait : s.engine.state = .waitTrack) (ho : OtherHolds tr s) :
    (putRec tr r s).engine.state = .waitTrack := by
  obtain ⟨it, hmem, hexp, htrack, hholds⟩ := ho
  have hon : exposureOn (fun st => st == .unusable || st.inSearch) (written tr r s) = true :=
    (exposureOn_written hd hslot).2 ⟨it, hmem, hexp, by rw [if_neg htrack]; exact TrimState.holds_iff.2 hholds⟩
  have he : (written tr r s).engine.state = .waitTrack := (written_state tr r s).trans hwait
  rw [putRec_eq_trackNotice]
  simp only [trackNotice, he, hon]
  exact he

theorem putRec_trimmed_frees (hwait : s.engine.state = .waitTrack) (hr : r.state = .trimmed)
    (ho : ¬ OtherHolds tr s) : (putRec tr r s).engine.state = .flash := by
  have hon : ¬ exposureOn (fun st => st == .unusable || st.inSearch) (written tr r s) = true := by
    rw [exposureOn_written hd hslot]
    rintro ⟨it, hmem, hexp, hholds⟩
    rw [TrimState.holds_iff] at hholds
    by_cases htrack : it.track = tr
    · simp [if_pos htrack, hr] at hholds
    · rw [if_neg htrack] at hholds
      exact ho ⟨it, hmem, hexp, htrack, hholds⟩
  have he : (written tr r s).engine.state = .waitTrack := (written_state tr r s).trans hwait
  rw [putRec_eq_trackNotice]
  simp only [trackNotice, he, if_neg hon]
  rfl

end

theorem KeptByTrimming.judgeCode {P : State → Prop} (hP : KeptByTrimming P) (hpost : ∀ e v, P v → P (postBoth e v))
    (hremove : ∀ v, P v → P (removeTest v)) (c : Search) (h : P s) : P (judgeCode c s) := by
  have hends (tr : Track) (r : TrimRec) (e : Event) : P (endSearch tr r e s) :=
    hP.startSearch (hpost _ _ (hremove _ (hP.trim _ _ (fun _ => rfl) (hP.put _ _ _ h))))
  unfold Machine.judgeCode
  split
  · exact hends _ _ _
  · split
    · exact hP.put _ _ _ (hP.trim _ _ (fun _ => rfl) h)
    · exact hends _ _ _

theorem shownEntries_exposures (ring : List Item) : shownEntries (ring.filter Item.isExposure) = shownEntries ring := by
  unfold shownEntries
  rw [List.filterMap_filter]
  refine congrArg (List.filterMap · ring) (funext fun it => ?_)
  cases it <;> rfl

/-- The judging of a code leaves a stop that has items left to go on. -/
theorem StopGoesOn.judged {c : Search} (h : StopGoesOn s) : StopGoesOn (aim (judgeCode c s)) := by
  refine h.of_kept ((keptByTrimming_shown _).aimed _ ?_) ((keptByTrimming_besideNotice _).aimed _ ?_)
  · refine (keptByTrimming_shown _).judgeCode (fun _ _ hv => hv) (fun v hv => ?_) c (List.Perm.refl _)
    show (shownEntries (v.engine.ring.filter Item.isExposure)).Perm _
    rwa [shownEntries_exposures]
  · exact (keptByTrimming_besideNotice _).judgeCode (fun _ _ hv => hv) (fun _ hv => hv) c rfl

/-- The end of the last search in the queue leaves the engine in the state in which the record put it. -/
theorem endSearch_state (hq : s.trim.queue = []) (tr : Track) (r : TrimRec) (e : Event) :
    (endSearch tr r e s).engine.state = (putRec tr r s).engine.state := by
  have hnone : endSearch tr r e s =
      postBoth e (removeTest ((putRec tr r s).modTrim fun u => { u with search := none })) :=
    startSearch_of_empty ((congrArg Trim.queue (putRec_trim tr r s)).trans hq)
  rw [hnone]
  rfl

theorem judgeCode_unusable {c : Search} (h : c.missLimit < c.misses) (ht : c.limit ≤ c.tried) (s : State) :
    ∃ code e, judgeCode c s = endSearch c.track { code := code, state := .unusable, prior := none } e s :=
  ⟨_, _, (if_neg (Nat.not_le.2 h)).trans (if_neg (Nat.not_lt.2 ht))⟩

/-- Settles O53: the settle's own effect is one of the `settleEnd_` equations; `carryOn_opens` opens the stop; the last
result of a stop goes by `exec_resultWatchClose_nextStop`; and a judged code shows in the engine by the `putRec_`
lemmas. -/
theorem theEndOfASettleOpensTheStop : Obligations.TheEndOfASettleOpensTheStop := by
  unfold Obligations.TheEndOfASettleOpensTheStop
  refine ⟨fun s hu hn => ⟨fun h hl => ?_, fun h hl => ?_, fun h hl => ?_⟩, fun s hu hn => ?homes,
    fun s hu h hl hstate => ?opens, fun st tr forLine hit left s hu hstate hring hw hst hc hx => ?next,
    fun hit left c s hu hstate hw hc hd hq hdisc hslot hitem => ?judged⟩
  · exact exec_settleEnd_alone hu hn (Drive.settleEnd_carriage_rests h hl)
  · exact exec_settleEnd_alone hu hn (Drive.settleEnd_deflector_rests h hl)
  · exact exec_settleEnd_alone hu hn (Drive.settleEnd_turret_rests h hl)
  case homes =>
    intro leg rest
    refine ⟨fun h hl => ?_, fun h hl => ?_, fun h hl => ?_⟩
    · obtain ⟨c, hd, hact, hleft⟩ := Drive.settleEnd_carriage_homes h hl
      exact ⟨_, exec_settleEnd_alone hu hn hd, hact, hleft, rfl, rfl, rfl, rfl, rfl, rfl, rfl⟩
    · obtain ⟨c, hd, hact, hrise, hleft⟩ := Drive.settleEnd_deflector_homes h hl
      exact ⟨_, exec_settleEnd_alone hu hn hd, hact, hrise, hleft, rfl, rfl, rfl, rfl, rfl, rfl, rfl⟩
    · obtain ⟨c, hd, hact, hleft⟩ := Drive.settleEnd_turret_homes h hl
      exact ⟨_, exec_settleEnd_alone hu hn hd, hact, hleft, rfl, rfl, rfl, rfl, rfl, rfl, rfl⟩
  case opens =>
    intro unusable
    have hsettled := Drive.settleEnd_carriage_rests h hl
    have hopens : carryOn (s.modDrive fun d => d.settleEnd .carriage) = enterStop { s with drive := { s.drive with
        carriage := { s.drive.carriage with act := .atRest, target := none, left := 0 } } } := by
      rw [State.modDrive, hsettled]
      exact carryOn_opens rfl hstate
    refine ⟨_, (exec_settleEnd hu _).trans (congrArg _ hopens), rfl, fun hb => ?_, fun hb => ?_⟩
    · exact congrArg State.engine (enterStop_barred hb)
    · exact congrArg State.engine (enterStop_free hb)
  case next =>
    let v := giveResult { of := .exposure tr forLine, hit := hit, left := left } (watchClosed s)
    have hnone : shownEntries s.engine.ring = [] := (exposures_eq_nil s).1 (List.filter_eq_nil_iff.2 fun it hit =>
      ne_true_of_eq_false (hring it hit))
    obtain ⟨hentries, hengine, happart⟩ := giveResult_exposure_leaves tr forLine hit left (watchClosed s)
    have hshown : shownEntries v.engine.ring = [] := List.perm_nil.1 (hnone ▸ hentries)
    have hcurrent : v.engine.current = s.engine.current := (congrArg Engine.current hengine :)
    have hstops : v.engine.stops = s.engine.stops := (congrArg Engine.stops hengine :)
    have hstopNo : v.engine.stopNo = s.engine.stopNo := (congrArg Engine.stopNo hengine :)
    have hwatch : v.engine.watch = none := (congrArg Engine.watch hengine :)
    have hatStop : v.engine.state = .flash ∨ v.engine.state = .waitTrack := by
      have hstop : v.engine.state.atStop = s.engine.state.atStop := (congrArg Engine.state hengine :)
      exact EngineState.atStop_eq_flash.1 (hstop.trans (EngineState.atStop_eq_flash.2 hstate))
    have hcarriage : v.drive.carriage = s.drive.carriage := congrArg (fun x => x.drive.carriage) happart
    have hexec : exec .resultWatchClose s = .next (nextStop st v) :=
      exec_resultWatchClose_nextStop hu hw rfl (stopComplete_of_shown hatStop hshown hwatch)
        (by rw [hstops, hstopNo]; exact hst) (by rw [hcarriage]; exact hc) (by rw [hcarriage]; exact hx)
    have hkept := standing_nextStop st v
    have hloaded : (shownEntries (nextStop st v).engine.ring).Perm (st.entries.map fun e => (e, 0)) :=
      loadStop_shown (s := stopBegun v) st hshown
    refine ⟨_, hexec, congrArg (fun x => x.engine.state) hkept,
      (congrArg (fun x => x.engine.stopNo) hkept).trans (congrArg (· + 1) hstopNo),
      congrArg (fun x => x.engine.stuck) hkept, (congrArg (fun x => x.engine.current) hkept).trans hcurrent,
      (congrArg (fun x => x.engine.stops) hkept).trans hstops, ?_, ?_, fun e he => ?_,
      (congrArg Standing.jobs hkept).trans (congrArg Aside.jobs happart),
      (congrArg Standing.store hkept).trans (congrArg Aside.store happart),
      (congrArg Standing.film hkept).trans (congrArg (fun x => x.drive.film) happart)⟩
    · refine (congrArg Standing.carriage hkept).trans ?_
      show v.drive.carriage.order st.x = _
      rw [hcarriage, Carriage.order_atRest hc, if_neg hx]
    · rw [← length_shownEntries, hloaded.length_eq, List.length_map]
    · exact mem_shownEntries.1 (hloaded.mem_iff.2 (List.mem_map.2 ⟨e, he, rfl⟩))
  case judged =>
    intro misses other
    have hgive : giveResult { of := .test c.track true, hit := hit, left := left } (watchClosed s)
        = aim (judgeCode (c.counted hit) (watchClosed s)) := testResult_judges hc hd
    have hgoesOn : StopGoesOn (aim (judgeCode (c.counted hit) (watchClosed s))) := by
      refine StopGoesOn.judged (.inl fun hnone => ?_)
      obtain ⟨it, hmem, hexp⟩ := hitem
      exact List.not_mem_nil (hnone ▸ List.mem_filter.2 ⟨hmem, hexp⟩ : it ∈ [])
    have hatStop := (keptByTrimming_besideNotice _).aimed _ ((keptByTrimming_besideNotice _).judgeCode
      (fun _ _ hv => hv) (fun _ hv => hv) (c.counted hit) (s := watchClosed s) rfl)
    have hwaits : NoEndWaits (aim (judgeCode (c.counted hit) (watchClosed s))) :=
      noEndWaits_atStop (atStop_of_besideNotice hatStop hstate)
    refine ⟨_, (exec_resultWatchClose hu).trans (congrArg _ (closeWatch_waits hw hgive hgoesOn.notComplete hwaits)),
      fun hfail hout hmine => ?fails, fun hpass hwait ho => ?frees, fun hpass hwait ho => ?holds⟩
    all_goals rw [aim_engine]
    case fails =>
      obtain ⟨code, e, hends⟩ := judgeCode_unusable (c := c.counted hit) hfail hout (watchClosed s)
      rw [hends, endSearch_state (s := watchClosed s) hq]
      exact putRec_unusable_waits hdisc hslot hstate rfl hmine
    case frees =>
      rw [judgeCode_passes (c := c.counted hit) hpass, endSearch_state (s := watchClosed s) hq]
      exact putRec_trimmed_frees hdisc hslot hwait rfl ho
    case holds =>
      rw [judgeCode_passes (c := c.counted hit) hpass, endSearch_state (s := watchClosed s) hq]
      exact putRec_otherHolds hdisc hslot hwait ho

end Sys2Proof.Machine
end

