-- ==== Sys2Proof/Proofs/Identification.lean ====
section
/-!
SUPPORT. The identification of a disc (R84, R165, R166): how SPIN_UP gives way to it, the samples of the ID ring, the
disc mounted or refused, and what the sequencer does with it.
-/
namespace Sys2Proof.Machine

variable {s t u : State} {v : Nat}

/-! ### SPIN_UP gives way to IDENTIFY (R165) -/

theorem judgeSpinUp_identifies (hunit : s.spin.unit = .spinUp) (hhome : s.drive.homingDone = true)
    (hl : s.disc.locked = true) : judgeSpinUp s = enterIdentify s := if_pos ⟨hunit, hhome, hl⟩

/-- The unit identifies, and no sample is taken yet. -/
structure Identifies (s : State) : Prop where
  unit : s.spin.unit = .identify
  samples : s.disc.samples = []
  stall : s.disc.stall = some 30000
  spinup : s.disc.spinup = none
  locked : s.disc.locked = true

theorem Identifies.spelled (h : Identifies s) : s.spin.unit = .identify ∧ s.disc.samples = []
    ∧ s.disc.stall = some 30000 ∧ s.disc.spinup = none ∧ s.disc.locked = true :=
  ⟨h.unit, h.samples, h.stall, h.spinup, h.locked⟩

theorem enterIdentify_identifies (hl : s.disc.locked = true) : Identifies (enterIdentify s) := ⟨rfl, rfl, rfl, rfl, hl⟩

theorem Identifies.of_apart (h : Identifies s) (hkept : apart u = apart s) : Identifies u where
  unit := (congrArg (fun y => y.spin.unit) hkept).trans h.unit
  samples := (congrArg (fun y => y.disc.samples) hkept).trans h.samples
  stall := (congrArg (fun y => y.disc.stall) hkept).trans h.stall
  spinup := (congrArg (fun y => y.disc.spinup) hkept).trans h.spinup
  locked := (congrArg (fun y => y.disc.locked) hkept).trans h.locked

theorem apart_queues (h : apart u = apart s) : u.queues = s.queues := congrArg Aside.queues h

theorem apart_jobs (h : apart u = apart s) : u.jobs = s.jobs := congrArg Aside.jobs h

/-- A step of a mechanism that ends the homing begins the identification. -/
theorem driveChanged_identifies {f : Drive → Drive} (hn : NoEndWaits s) (hr : NoneCameToRest s.drive (f s.drive))
    (hunit : s.spin.unit = .spinUp) (hhome : (f s.drive).homingDone = true) (hl : s.disc.locked = true) :
    driveChanged f s = enterIdentify (s.modDrive f) := by
  have hidentify : judgeSpinUp (s.modDrive f) = enterIdentify (s.modDrive f) :=
    judgeSpinUp_identifies (s := s.modDrive f) hunit hhome hl
  rw [driveChanged, hidentify]
  exact carryOn_noEndWaits ((hn.of_noneCameToRest hr).congr rfl rfl rfl)

section
variable {d : Drive}

theorem Drive.judgeHoming_done (hc : d.limitC = none) (hd : d.limitD = none) (ht : d.limitT = none) :
    d.judgeHoming.homingDone = true := by
  simp [Drive.judgeHoming, hc, hd, ht]

theorem Drive.carriageStepEnd_done (h : d.carriage.act = .homing .seek) (hd : d.limitD = none)
    (ht : d.limitT = none) : (d.carriageStepEnd true).homingDone = true := by
  rw [Drive.carriageStepEnd_found h]
  exact Drive.judgeHoming_done rfl hd ht

theorem Drive.turretStepEnd_done (h : d.turret.act = .homing .seek) (hc : d.limitC = none)
    (hd : d.limitD = none) : (d.turretStepEnd true).homingDone = true := by
  rw [Drive.turretStepEnd_found h]
  exact Drive.judgeHoming_done hc hd rfl

theorem Drive.deflectorStepEnd_done (h : d.deflector.act = .homing .seek) (hr : d.deflector.homingRise = true)
    (hc : d.limitC = none) (ht : d.limitT = none) : (d.deflectorStepEnd true true).homingDone = true := by
  simp only [Drive.deflectorStepEnd, h, Deflector.countStep_homingRise, hr, if_true, Drive.deflectorHomed]
  split <;> exact Drive.judgeHoming_done hc rfl ht

end

/-- The eighth good period of a SPIN_UP with homing done begins the identification; the Trim Unit is told. -/
theorem testPeriod_identifies {p : Nat} (hunit : s.spin.unit = .spinUp) (hhome : s.drive.homingDone = true)
    (hl : s.disc.locked = false) (hrun : s.disc.lockRun = 7) (hp : 9950 ≤ p ∧ p ≤ 10050) :
    testPeriod p s = aim (startSearch (enterIdentify (speedLocked s))) := by
  have hidentify : judgeSpinUp (speedLocked s) = enterIdentify (speedLocked s) :=
    judgeSpinUp_identifies (s := speedLocked s) hunit hhome rfl
  have hlocks : testPeriod p s = becomeLocked s :=
    (if_neg (by rw [hl]; exact Bool.false_ne_true)).trans ((if_pos hp).trans (if_neg (by rw [hrun]; decide)))
  rw [hlocks, ← hidentify]
  rfl

/-- The index event of that period has the unit identify, and leaves the jobs and the queues. -/
theorem exec_index_identifies {ring : BitVec 4} (hu : Up s) (hidle : s.engine.state = .idle)
    (hvalid : s.disc.valid = true) (hchannel : s.disc.channel ≠ some 0) (hcounter : s.disc.counter = 2880)
    (hmark : s.disc.slipMark = false) (hunit : s.spin.unit = .spinUp) (hhome : s.drive.homingDone = true)
    (hl : s.disc.locked = false) (hrun : s.disc.lockRun = 7) (hp : 9950 ≤ s.disc.period ∧ s.disc.period ≤ 10050) :
    ∃ t, exec (.indexEvent ring) s = .next t ∧ Identifies t ∧ t.queues = s.queues ∧ t.jobs = s.jobs := by
  let x := enterIdentify (speedLocked ((capture s).modDisc fun d => { d with slipCount := 0 }))
  have hjudged : revolutionJudged s = aim (startSearch x) := (revolutionJudged_healthy hvalid hcounter hmark).trans
    (testPeriod_identifies (s := (capture s).modDisc _) hunit hhome hl hrun hp)
  have hkept : apart (aim (startSearch x)) = apart x :=
    (keptByTrimming_apart _).aimed _ ((keptByTrimming_apart _).startSearch rfl)
  obtain ⟨hidentify, hsamples, hstall, hspinup, hlocked⟩ : Identifies (aim (startSearch x)) :=
    (enterIdentify_identifies rfl).of_apart hkept
  have hrests : (aim (startSearch x)).engine.state = .idle := by
    rw [aim_engine]
    exact startSearch_idle (s := x) hidle
  have hqueues : (aim (startSearch x)).queues = s.queues := (apart_queues hkept).trans (by
    simp only [x, enterIdentify, setUnit, speedLocked, capture, State.modDisc_queues, State.modBank_queues,
      State.modSpin_queues])
  have hjobs : (aim (startSearch x)).jobs = s.jobs := (apart_jobs hkept).trans (by
    simp only [x, enterIdentify, setUnit, speedLocked, capture, State.modDisc_jobs, State.modBank_jobs,
      State.modSpin_jobs])
  generalize aim (startSearch x) = y at hjudged hidentify hsamples hstall hspinup hlocked hrests hqueues hjobs
  exact ⟨_, exec_index_idle hu (by rw [hunit]; rfl) (by rw [hunit]; exact UnitState.noConfusion) hchannel hjudged
    (by rw [hidentify]; exact UnitState.noConfusion) hrests, ⟨hidentify, hsamples, hstall, hspinup, hlocked⟩,
    hqueues, hjobs⟩

/-- The command of the step that ends the homing has the unit identify. -/
theorem exec_homed {f : Drive → Drive} {c : Instr} (hu : Up s) (hn : NoEndWaits s) (hunit : s.spin.unit = .spinUp)
    (hl : s.disc.locked = true) (hc : exec c s = .next (powered s (driveChanged f)))
    (hr : NoneCameToRest s.drive (f s.drive)) (hd : (f s.drive).homingDone = true) :
    ∃ t, exec c s = .next t ∧ Identifies t := by
  refine ⟨enterIdentify (s.modDrive f), ?_, enterIdentify_identifies hl⟩
  rw [hc, powered_up _ hu, driveChanged_identifies hn hr hunit hd hl]

/-! ### A sample of the ID ring (R84) -/

/-- The part captured by a healthy revolution, with the mark of a flash since the index cleared and the sample added. -/
def sampleAdded (v : Nat) (s : State) : State :=
  { s with
    disc := { s.disc with
      lastCapture := s.disc.counter, counter := 0, lastPeriod := s.disc.period, period := 0, slipCount := 0
      stall := if s.spin.unit.stallRuns then some 30000 else s.disc.stall, samples := s.disc.samples ++ [v] }
    engine := { s.engine with firedSinceIndex := false } }

/-- The hypotheses on an index event in IDENTIFY with the engine IDLE. -/
structure Sampling (s : State) : Prop where
  up : Up s
  idle : s.engine.state = .idle
  current : s.engine.current = none
  valid : s.disc.valid = true
  channel : s.disc.channel ≠ some 0
  counter : s.disc.counter = 2880
  unslipped : s.disc.slipMark = false
  identify : s.spin.unit = .identify
  locked : s.disc.locked = true
  inBand : 9900 ≤ s.disc.period ∧ s.disc.period ≤ 10100

/-- What an index event in IDENTIFY comes to: the sample is added to the list, and the list judged. -/
theorem Sampling.indexWork_eq {w : Nat} (h : Sampling s) : indexWork w s =
    if s.disc.samples.getLast? = some w then identified w (sampleAdded w s)
    else if s.disc.samples.length + 1 < 8 then sampleAdded w s
    else handFault .id w (sampleAdded w s) := by
  have hjudged : revolutionJudged s = (capture s).modDisc fun d => { d with slipCount := 0 } :=
    (revolutionJudged_healthy h.valid h.counter h.unslipped).trans ((if_pos h.locked).trans (if_pos h.inBand))
  have hunit : (revolutionJudged s).spin.unit = .identify := by
    rw [hjudged]
    exact h.identify
  have hresting : (revolutionJudged s).engine.state ≠ .flash := by
    rw [hjudged]
    exact fun he => EngineState.noConfusion (h.idle.symm.trans he)
  have hengine := indexToEngine_resting hresting
  have hread : (indexToEngine (revolutionJudged s)).spin.unit = .identify := by
    rw [hengine]
    exact hunit
  rw [indexWork_reads h.identify hread (by rw [hunit]; exact UnitState.noConfusion) h.channel, hengine, hjudged]
  rfl

/-- The part `t` is `u` but for the marks of the disc timing. -/
structure ReadsAs (u t : State) : Prop where
  queues : t.queues = u.queues
  jobs : t.jobs = u.jobs
  engine : t.engine = u.engine
  trim : t.trim = u.trim
  spin : t.spin = u.spin
  samples : t.disc.samples = u.disc.samples

theorem markCleared_readsAs (s : State) : ReadsAs s (markCleared s) := ⟨rfl, rfl, rfl, rfl, rfl, rfl⟩

/-- The index event ends with what its work came to, if that leaves nothing to follow. -/
theorem Sampling.exec_works {ring : BitVec 4} (h : Sampling s) (hw : indexWork ring.toNat s = u) (hn : NoEndWaits u) :
    ∃ t, exec (.indexEvent ring) s = .next t ∧ ReadsAs u t := by
  have hspinning : s.spin.unit.spinning = true := by
    rw [h.identify]
    rfl
  refine ⟨markCleared u, ?_, markCleared_readsAs u⟩
  rw [exec_index_spinning h.up hspinning, hw, carryOn_noEndWaits (s := markCleared u) (hn.congr rfl rfl rfl)]

/-! ### The disc's map is queried (R96) -/

theorem keptByTrimming_besideSearch (e : Engine) : KeptByTrimming fun v => v.engine.besideSearch = e where
  put tr r v h := (putRec_besideSearch tr r v).trans h
  trim _ _ _ h := h
  test _ _ _ h := h
  aimed v h := by rwa [aim_engine]

/-- The query leaves what lies apart from the trim records and the ring, and the engine beside the search; the queue
disc is the disc mounted. -/
theorem queryMap_leaves (s : State) : apart (queryMap s) = apart s
    ∧ (queryMap s).engine.besideSearch = s.engine.besideSearch ∧ (queryMap s).trim.queueDisc = s.spin.mounted := by
  have hflushed : ∃ x, x = (if s.spin.mounted = s.trim.queueDisc then s else flushTrims s.spin.mounted s)
      ∧ apart x = apart s ∧ x.engine.besideSearch = s.engine.besideSearch ∧ x.trim.queueDisc = s.spin.mounted := by
    refine ⟨_, rfl, ?_⟩
    split
    next h => exact ⟨rfl, rfl, h.symm⟩
    next => exact ⟨apart_congr (aside_flushTrims _ s), flushTrims_besideSearch _ s, (flushTrims_empties _ s).1⟩
  obtain ⟨x, hx, hapart, hengine, hdisc⟩ := hflushed
  unfold queryMap
  dsimp only
  rw [← hx]
  split
  · exact ⟨hapart, hengine, hdisc⟩
  · split
    · exact ⟨hapart, hengine, hdisc⟩
    · exact ⟨(keptByTrimming_apart _).joinTracks _ hapart, (keptByTrimming_besideSearch _).joinTracks _ hengine,
        (keptByTrimming_queueDisc _).joinTracks _ hdisc⟩

/-- In DISC_CHANGE, with the queue flushed, the query finds nothing to do. -/
theorem queryMap_unmounted (hm : s.spin.mounted = 0) (hd : s.trim.queueDisc = 0) : queryMap s = s := by
  unfold queryMap
  dsimp only
  rw [hm, hd, if_pos rfl]
  split <;> rfl

/-! ### The disc is mounted (R166) -/

/-- READY with the disc found mounted, before its map is queried. -/
def readied (v : Nat) (s : State) : State :=
  { s with
    queues := (postBoth (.discMounted v) s).queues
    spin := { s.spin with
      unit := .ready, motor := true, mounted := v, present := v, parkTimer := some (s.spin.parkDelay * 6000000) }
    bank := { s.bank with charger := true, strobeHeld := false } }

/-- The part with the disc found mounted, before the sequencer goes on. -/
def discUp (v : Nat) (s : State) : State := queryMap (readied v s)

theorem identified_suits {want : Option Job} (he : s.engine.state = .idle) (hw : wantedBy s = want)
    (hs : discSuits v want = true) : identified v s = afterIdentify want true (discUp v s) := by
  have hready : mountDisc v (s.modSpin fun sp => { sp with present := v }) = discUp v s := by
    refine congrArg queryMap ((if_pos ⟨rfl, he⟩).trans ?_)
    rfl
  simp only [identified, hw, if_pos hs, hready]

/-- What the mounting leaves of a part. -/
theorem discUp_leaves (v : Nat) (s : State) : apart (discUp v s) = apart (readied v s)
    ∧ (discUp v s).engine.besideSearch = s.engine.besideSearch ∧ (discUp v s).trim.queueDisc = v :=
  queryMap_leaves (readied v s)

theorem discUp_jobs (v : Nat) (s : State) : (discUp v s).jobs = s.jobs := congrArg Aside.jobs (discUp_leaves v s).1

theorem discUp_store (v : Nat) (s : State) : (discUp v s).store = s.store := congrArg Aside.store (discUp_leaves v s).1

theorem discUp_seq (v : Nat) (s : State) : (discUp v s).seq = s.seq := congrArg Aside.seq (discUp_leaves v s).1

theorem discUp_spin (v : Nat) (s : State) : (discUp v s).spin = (readied v s).spin :=
  congrArg Aside.spin (discUp_leaves v s).1

theorem discUp_queues (v : Nat) (s : State) : (discUp v s).queues = (postBoth (.discMounted v) s).queues :=
  congrArg Aside.queues (discUp_leaves v s).1

theorem discUp_galley (v : Nat) (s : State) : (discUp v s).drive.film.galleyOpen = s.drive.film.galleyOpen :=
  congrArg (fun x => x.drive.film.galleyOpen) (discUp_leaves v s).1

theorem discUp_samples (v : Nat) (s : State) : (discUp v s).disc.samples = s.disc.samples :=
  congrArg (fun x => x.disc.samples) (discUp_leaves v s).1

theorem discUp_current (v : Nat) (s : State) : (discUp v s).engine.current = s.engine.current :=
  (congrArg Engine.current (discUp_leaves v s).2.1 :)

theorem discUp_idle (v : Nat) (h : s.engine.state = .idle) : (discUp v s).engine.state = .idle :=
  (states_of_besideSearch (discUp_leaves v s).2.1).1.2 h

/-- The disc is mounted, and DISC_MOUNTED stands in both queues behind what they held, whatever follows it. -/
structure Mounts (v : Nat) (s t : State) : Prop where
  mounted : t.spin.mounted = v
  present : t.spin.present = v
  queueDisc : t.trim.queueDisc = v
  posted : ∀ l, (s.queues.get l).events ++ [.discMounted v] <+: (t.queues.get l).events

theorem Mounts.spelled (h : Mounts v s t) : t.spin.mounted = v ∧ t.spin.present = v ∧ t.trim.queueDisc = v
    ∧ ∀ l, (s.queues.get l).events ++ [.discMounted v] <+: (t.queues.get l).events :=
  ⟨h.mounted, h.present, h.queueDisc, h.posted⟩

theorem postBoth_room {e : Event} (h : ∀ l, (s.queues.get l).events.length < 32) (l : CLine) :
    ((postBoth e s).queues.get l).events = (s.queues.get l).events ++ [e] := by
  rw [postBoth_get, Queue.post_room e (h l)]

theorem discUp_mounts (v : Nat) (hq : u.queues = s.queues) (h : ∀ l, (s.queues.get l).events.length < 32) :
    Mounts v s (discUp v u) where
  mounted := congrArg Spin.mounted (discUp_spin v u)
  present := congrArg Spin.present (discUp_spin v u)
  queueDisc := (discUp_leaves v u).2.2
  posted l := by rw [discUp_queues, postBoth_room (hq ▸ h), hq]

theorem Mounts.of_readsAs (h : Mounts v s u) (ht : ReadsAs u t) : Mounts v s t where
  mounted := (congrArg Spin.mounted ht.spin).trans h.mounted
  present := (congrArg Spin.present ht.spin).trans h.present
  queueDisc := (congrArg Trim.queueDisc ht.trim).trans h.queueDisc
  posted l := by rw [ht.queues]; exact h.posted l

theorem Queue.post_prefix (q : Queue) (e : Event) : q.events <+: (q.post e).events := by
  unfold Queue.post
  split
  · exact List.prefix_append _ _
  · exact List.prefix_refl _

theorem post_prefix (l : CLine) (e : Event) (s : State) (k : CLine) :
    (s.queues.get k).events <+: ((post l e s).queues.get k).events := by
  obtain rfl | rfl : k = l ∨ k = l.other := by cases k <;> cases l <;> simp [CLine.other]
  · rw [post_get_same]
    exact Queue.post_prefix _ e
  · rw [post_get_other]

/-! ### The line of the job on the disc (R45, R48, R150, R152) -/

theorem prepare_queueDisc (h : Header) (s : State) : (prepare h s).trim.queueDisc = s.trim.queueDisc := by
  unfold prepare
  dsimp only
  split
  · rfl
  · split
    · rfl
    · exact (keptByTrimming_queueDisc _).joinTracks _ rfl

theorem prepare_prefix (h : Header) (s : State) (l : CLine) :
    (s.queues.get l).events <+: ((prepare h s).queues.get l).events := by
  by_cases hf : s.drive.film.remaining < filmNeeded h.leading s.drive.film.galleyOpen
  · rw [prepare_waits hf, waitForFilm, postBoth_get]
    exact Queue.post_prefix _ _
  · rw [show (prepare h s).queues = s.queues from congrArg Standing.queues (standing_prepare (Nat.not_lt.1 hf))]

theorem madeActive_prefix (j : Job) (s : State) (l : CLine) :
    (s.queues.get l).events <+: ((madeActive j s).queues.get l).events := by
  by_cases h : j.state = .suspended
  · rw [show (madeActive j s).queues = _ from if_pos h]
    exact post_prefix _ _ _ l
  · rw [show (madeActive j s).queues = _ from if_neg h]

theorem Mounts.madeActive (h : Mounts v s t) (j : Job) : Mounts v s (madeActive j t) where
  mounted := h.mounted
  present := h.present
  queueDisc := h.queueDisc
  posted l := (h.posted l).trans (madeActive_prefix j t l)

theorem Mounts.prepared (h : Mounts v s t) (n : Nat) (r : LineRecord) :
    Mounts v s (prepare r.header (handed n r t)) := by
  obtain ⟨-, -, hspin, -⟩ := prepare_keeps r.header (handed n r t)
  refine ⟨(congrArg Spin.mounted hspin).trans h.mounted, (congrArg Spin.present hspin).trans h.present,
    (prepare_queueDisc _ _).trans h.queueDisc, fun l => (h.posted l).trans (prepare_prefix r.header (handed n r t) l)⟩

/-! ### The disc is refused (R166, R169) -/

/-- The part in DISC_CHANGE with the disc found present and the disc wanted, or any, requested. -/
def discRefused (want : Option Job) (v : Nat) (s : State) : State :=
  enterDiscChange ((want.map Job.disc).getD 0) ((want.map Job.number).getD 0)
    (s.modSpin fun sp => { sp with present := v })

theorem discRefused_spin (want : Option Job) (v : Nat) (s : State) : (discRefused want v s).spin = { s.spin with
    unit := .discChange, motor := false, parkTimer := none, mounted := 0, present := v
    requested := some ((want.map Job.disc).getD 0) } := enterDiscChange_spin _ _ _

theorem identified_refused {want : Option Job} (hw : wantedBy s = want) (hs : discSuits v want = false) :
    identified v s = afterIdentify want false (discRefused want v s) := by
  have hquery : queryMap (discRefused want v s) = discRefused want v s :=
    queryMap_unmounted (congrArg Spin.mounted (discRefused_spin want v s)) (enterDiscChange_leaves _ _ _).2.1
  have hrefuse : refuseDisc want (s.modSpin fun sp => { sp with present := v }) = discRefused want v s := hquery
  have hunsuited : ¬ discSuits v want = true := by
    rw [hs]
    exact Bool.false_ne_true
  simp only [identified, hw, if_neg hunsuited, hrefuse]

theorem enterDiscChange_besideSearch (disc job : Nat) (s : State) :
    (enterDiscChange disc job s).engine.besideSearch = s.engine.besideSearch := by
  simp only [enterDiscChange, postBoth, post, State.modQueues_engine, State.modSpin_engine, flushTrims_besideSearch]
  rfl

theorem enterDiscChange_samples (disc job : Nat) (s : State) :
    (enterDiscChange disc job s).disc.samples = s.disc.samples := by
  simp only [enterDiscChange, postBoth, post, State.modQueues_disc, State.modSpin_disc]
  exact congrArg (fun x => x.disc.samples) (aside_flushTrims 0 (stopDisc (setUnit .discChange s)))

theorem unitFaulted_samples (kind : FaultKind) (detail : Int) (s : State) :
    (unitFaulted kind detail s).disc.samples = s.disc.samples := by
  simp only [unitFaulted, enterFaulted, State.modSpin_disc]
  exact congrArg (fun x => x.disc.samples)
    (aside_haltSearch (stopDisc (setUnit .faulted (postBoth (.fault kind detail) s))))

/-! ### The job the disc is for, and what the sequencer does (R151, R166) -/

theorem wantedBy_active {j : Job} (he : s.engine.state = .idle) (hh : s.spin.hold = false) (ha : activeJob s = some j) :
    wantedBy s = some j := by
  simp [wantedBy, he, hh, ha]

theorem wantedBy_free (he : s.engine.state = .idle) (hh : s.spin.hold = false) (ha : activeJob s = none) :
    wantedBy s = winner s := by
  simp [wantedBy, he, hh, ha]

theorem wantedBy_held (hh : s.spin.hold = true) : wantedBy s = none := by
  simp [wantedBy, hh]

theorem discSuits_any (hv : v ≠ 0) : discSuits v none = true := by simp [discSuits, hv]

theorem discSuits_job {j : Job} (hv : v ≠ 0) (hd : j.disc = v) : discSuits v (some j) = true := by
  simp [discSuits, hv, hd]

theorem discSuits_otherJob {j : Job} (hd : j.disc ≠ v) : discSuits v (some j) = false := by simp [discSuits, hd]

theorem afterIdentify_active {want : Option Job} {mounted : Bool} {j : Job} (he : s.engine.state = .idle)
    (ha : activeJob s = some j) : afterIdentify want mounted s = atBoundary j s := by
  simp [afterIdentify, he, ha]

theorem afterIdentify_winner {j : Job} (he : s.engine.state = .idle) (ha : activeJob s = none) :
    afterIdentify (some j) true s = activate j s := by
  simp [afterIdentify, he, ha]

theorem afterIdentify_rests {want : Option Job} {mounted : Bool} (he : s.engine.state = .idle)
    (ha : activeJob s = none) (h : want = none ∨ mounted = false) : afterIdentify want mounted s = s := by
  obtain rfl | rfl := h
  · simp [afterIdentify, he, ha]
  · cases want <;> simp [afterIdentify, he, ha]

/-- At a line boundary a job on the mounted disc goes on with its head line, if no other job is of a higher class. -/
theorem atBoundary_continues {j : Job} {r : LineRecord} (hunit : s.spin.unit = .ready) (hd : j.disc = s.spin.mounted)
    (hh : s.spin.hold = false) (hfinal : j.final ≠ some j.setCount) (hheld : j.held = false)
    (hgrace : s.seq.grace = false)
    (hclass : ∀ k ∈ s.jobs, k.state ≠ .held → k.held = false → k.setCount < k.committed → k.cls.rank ≤ j.cls.rank)
    (hline : headLine s.store.lines j.number = some r) : atBoundary j s = handOver j.number s := by
  have hoverGrace : graceIsOver j s = false := by simp [graceIsOver, hgrace]
  have hhigher : ¬ (s.jobs.any fun k => k.eligible && decide (j.cls.rank < k.cls.rank)) = true := by
    rw [List.any_eq_true]
    rintro ⟨k, hk, hhigher⟩
    obtain ⟨helig, hlt⟩ := Bool.and_eq_true_iff.1 hhigher
    obtain ⟨hstate, hkheld, hcount⟩ := k.eligible_iff.1 helig
    exact absurd (of_decide_eq_true hlt) (Nat.not_lt.2 (hclass k hk hstate hkheld hcount))
  simp only [atBoundary, if_neg hfinal, hheld, boundaryGoesOn, hh, hoverGrace, if_neg hhigher, hline, continueJob,
    hunit, if_pos hd]
  rfl

/-! ### The outcomes of an identification (R84, R166) -/

/-- With a line prepared for job `n` nothing follows the index event. -/
theorem Sampling.exec_prepared {ring : BitVec 4} {n : Nat} {r : LineRecord} (h : Sampling s)
    (hw : indexWork ring.toNat s = prepare r.header (handed n r u)) (hg : u.drive.film.galleyOpen = false)
    (hm : Mounts v s u) : ∃ t, exec (.indexEvent ring) s = .next t ∧ Mounts v s t ∧ t.spin.unit = .exposing
      ∧ t.jobs = u.jobs ∧ t.engine.current = some { job := n, line := r.header.line } := by
  obtain ⟨hjobs, -, hspin, hcurrent, -⟩ := prepare_keeps r.header (handed n r u)
  obtain ⟨t, hexec, ht⟩ := h.exec_works hw (prepare_noEndWaits r.header hg)
  exact ⟨t, hexec, (hm.prepared n r).of_readsAs ht, congrArg Spin.unit (ht.spin.trans hspin), ht.jobs.trans hjobs,
    (congrArg Engine.current ht.engine).trans hcurrent⟩

section
variable {ring : BitVec 4} (h : Sampling s) (hlast : s.disc.samples.getLast? = some ring.toNat)
include h hlast

/-- Two equal samples in a row end the identification. -/
theorem Sampling.indexWork_ends : indexWork ring.toNat s = identified ring.toNat (sampleAdded ring.toNat s) :=
  h.indexWork_eq.trans (if_pos hlast)

/-- The outcome of a disc mounted of which the sequencer makes nothing. -/
theorem Sampling.exec_mountsOnly (hwant : wantedBy (sampleAdded ring.toNat s) = none) (ha : activeJob s = none)
    (hv : ring.toNat ≠ 0) :
    ∃ t, exec (.indexEvent ring) s = .next t ∧ ReadsAs (discUp ring.toNat (sampleAdded ring.toNat s)) t := by
  have hidle := discUp_idle ring.toNat (s := sampleAdded ring.toNat s) h.idle
  refine h.exec_works ((h.indexWork_ends hlast).trans ?_) (noEndWaits_of_idle hidle)
  rw [identified_suits (s := sampleAdded ring.toNat s) h.idle hwant (discSuits_any hv)]
  exact afterIdentify_rests hidle ((activeJob_congr (discUp_jobs _ _)).trans ha) (.inl rfl)

/-- The outcome of a disc refused with no job ACTIVE. -/
theorem Sampling.exec_refuses {want : Option Job} (hwant : wantedBy (sampleAdded ring.toNat s) = want)
    (ha : activeJob s = none) (hs : discSuits ring.toNat want = false) :
    ∃ t, exec (.indexEvent ring) s = .next t
      ∧ ReadsAs (discRefused want ring.toNat (sampleAdded ring.toNat s)) t := by
  have hidle : (discRefused want ring.toNat (sampleAdded ring.toNat s)).engine.state = .idle :=
    enterDiscChange_idle _ _ (s := (sampleAdded ring.toNat s).modSpin _) h.idle
  have hjobs : (discRefused want ring.toNat (sampleAdded ring.toNat s)).jobs = s.jobs :=
    (enterDiscChange_leaves _ _ _).1
  refine h.exec_works ((h.indexWork_ends hlast).trans ?_) (noEndWaits_of_idle hidle)
  rw [identified_refused hwant hs]
  exact afterIdentify_rests hidle ((activeJob_congr hjobs).trans ha) (.inr rfl)

end

/-- A sample unlike the one before, with fewer than eight, waits for the next. -/
theorem Sampling.exec_waits {ring : BitVec 4} (h : Sampling s) (hlast : s.disc.samples.getLast? ≠ some ring.toNat)
    (hfew : s.disc.samples.length < 7) :
    ∃ t, exec (.indexEvent ring) s = .next t ∧ ReadsAs (sampleAdded ring.toNat s) t :=
  h.exec_works (h.indexWork_eq.trans ((if_neg hlast).trans (if_pos (by omega))))
    (noEndWaits_of_idle (s := sampleAdded ring.toNat s) h.idle)

/-- The eighth sample without two equal in a row is ID_FAULT. -/
theorem Sampling.exec_faults {ring : BitVec 4} (h : Sampling s) (hlast : s.disc.samples.getLast? ≠ some ring.toNat)
    (hmany : 7 ≤ s.disc.samples.length) (hg : s.drive.film.galleyOpen = false) (ha : activeJob s = none) :
    ∃ t, exec (.indexEvent ring) s = .next t
      ∧ ReadsAs (unitFaulted .id ring.toNat (sampleAdded ring.toNat s)) t := by
  have hspinning : (sampleAdded ring.toNat s).spin.unit.spinning = true := by
    rw [show (sampleAdded ring.toNat s).spin.unit = .identify from h.identify]
    rfl
  have hbeside := unitFaulted_besideSearch .id ring.toNat (sampleAdded ring.toNat s)
  have hjobs : (unitFaulted .id ring.toNat (sampleAdded ring.toNat s)).jobs = s.jobs := by
    obtain ⟨-, -, -, -, -, hjobs, -⟩ := unitFaulted_fields .id ring.toNat (sampleAdded ring.toNat s)
    exact hjobs
  have hnone := faultJob_idle ((congrArg Engine.current hbeside :).trans h.current) ((activeJob_congr hjobs).trans ha)
  obtain ⟨hfault, hidle, -⟩ := handFault_idle (kind := .id) (detail := ring.toNat) hspinning hg h.idle h.current
  rw [hfault, hnone] at hidle
  refine h.exec_works (h.indexWork_eq.trans ((if_neg hlast).trans ((if_neg (by omega)).trans ?_)))
    (noEndWaits_of_idle hidle)
  rw [hfault, hnone]

section
variable {ring : BitVec 4} {j : Job} {r : LineRecord} (h : Sampling s)
  (hlast : s.disc.samples.getLast? = some ring.toNat) (hr : headLine s.store.lines j.number = some r)
include h hlast hr

/-- The winner's line is prepared on the disc found. -/
theorem Sampling.indexWork_winner (hv : ring.toNat ≠ 0) (ha : activeJob s = none) (hh : s.spin.hold = false)
    (hw : winner s = some j) (hd : j.disc = ring.toNat) : indexWork ring.toNat s =
      prepare r.header (handed j.number r (madeActive j (discUp ring.toNat (sampleAdded ring.toNat s)))) := by
  have hwant : wantedBy (sampleAdded ring.toNat s) = some j :=
    (wantedBy_free (s := sampleAdded ring.toNat s) h.idle hh ha).trans hw
  have hidle := discUp_idle ring.toNat (s := sampleAdded ring.toNat s) h.idle
  have hactive := (activeJob_congr (discUp_jobs ring.toNat (sampleAdded ring.toNat s))).trans ha
  have hline : headLine (discUp ring.toNat (sampleAdded ring.toNat s)).store.lines j.number = some r := by
    rw [discUp_store]
    exact hr
  rw [h.indexWork_ends hlast, identified_suits (s := sampleAdded ring.toNat s) h.idle hwant (discSuits_job hv hd),
    afterIdentify_winner hidle hactive, activate_prepares hline]

/-- The ACTIVE job's line is prepared on its disc. -/
theorem Sampling.indexWork_active (hv : ring.toNat ≠ 0) (ha : activeJob s = some j) (hh : s.spin.hold = false)
    (hd : j.disc = ring.toNat) (hfinal : j.final ≠ some j.setCount) (hheld : j.held = false)
    (hgrace : s.seq.grace = false)
    (hclass : ∀ k ∈ s.jobs, k.state ≠ .held → k.held = false → k.setCount < k.committed → k.cls.rank ≤ j.cls.rank) :
    indexWork ring.toNat s =
      prepare r.header (handed j.number r (discUp ring.toNat (sampleAdded ring.toNat s))) := by
  have hwant : wantedBy (sampleAdded ring.toNat s) = some j :=
    wantedBy_active (s := sampleAdded ring.toNat s) h.idle hh ha
  have hidle := discUp_idle ring.toNat (s := sampleAdded ring.toNat s) h.idle
  have hjobs := discUp_jobs ring.toNat (sampleAdded ring.toNat s)
  have hspin := discUp_spin ring.toNat (sampleAdded ring.toNat s)
  have hseq := discUp_seq ring.toNat (sampleAdded ring.toNat s)
  have hline : headLine (discUp ring.toNat (sampleAdded ring.toNat s)).store.lines j.number = some r := by
    rw [discUp_store]
    exact hr
  rw [h.indexWork_ends hlast, identified_suits (s := sampleAdded ring.toNat s) h.idle hwant (discSuits_job hv hd),
    afterIdentify_active hidle ((activeJob_congr hjobs).trans ha), atBoundary_continues (congrArg Spin.unit hspin)
      (hd.trans (congrArg Spin.mounted hspin).symm) ((congrArg Spin.hold hspin).trans hh) hfinal hheld
      ((congrArg Seq.grace hseq).trans hgrace) (by rw [hjobs]; exact hclass) hline, handOver_eq hline]

end

/-- What is left of a part whose disc is refused: its jobs, its samples and its line. -/
theorem discRefused_leaves (want : Option Job) (v : Nat) (s : State) : (discRefused want v s).jobs = s.jobs
    ∧ (discRefused want v s).disc.samples = s.disc.samples
    ∧ (discRefused want v s).engine.current = s.engine.current ∧ (discRefused want v s).trim.queueDisc = 0 := by
  obtain ⟨hjobs, hdisc, -⟩ := enterDiscChange_leaves ((want.map Job.disc).getD 0) ((want.map Job.number).getD 0)
    (s.modSpin fun sp => { sp with present := v })
  exact ⟨hjobs, enterDiscChange_samples _ _ _, (congrArg Engine.current (enterDiscChange_besideSearch _ _ _) :), hdisc⟩

theorem discRefused_posts (want : Option Job) (v : Nat) (hroom : ∀ l, (s.queues.get l).events.length < 32) (l : CLine) :
    ((discRefused want v s).queues.get l).events = (s.queues.get l).events
      ++ [.discRequest ((want.map Job.number).getD 0) ((want.map Job.disc).getD 0) v] := by
  obtain ⟨-, -, -, -, hqueues⟩ := enterDiscChange_leaves ((want.map Job.disc).getD 0) ((want.map Job.number).getD 0)
    (s.modSpin fun sp => { sp with present := v })
  exact (congrArg (fun q => (q.get l).events) hqueues).trans (postBoth_room (s := s.modSpin _) hroom l)

/-- Settles O41: SPIN_UP ends by `exec_index_identifies` or `exec_homed`; a disc that two samples agree on is mounted or
refused as `exec_prepared`, `exec_mountsOnly` and `exec_refuses` say; other samples go by `exec_waits` and
`exec_faults`. -/
theorem identificationEndsOnTwoEqualSamples : Obligations.IdentificationEndsOnTwoEqualSamples := by
  unfold Obligations.IdentificationEndsOnTwoEqualSamples
  intro turned sampled identifies
  have hsampling {s : State} (h : sampled s) : Sampling s ∧ s.drive.film.galleyOpen = false
      ∧ ∀ l, (s.queues.get l).events.length < 32 := by
    obtain ⟨⟨hu, hidle, hcurrent, hvalid, hchannel, hcounter, hmark, hg, hroom⟩, hunit, hlocked, hband⟩ := h
    exact ⟨⟨hu, hidle, hcurrent, hvalid, hchannel, hcounter, hmark, hunit, hlocked, hband⟩, hg, hroom⟩
  refine ⟨fun ring s ht hunit hhome hl hrun hlow hhigh => ?locks, fun s hu hn hunit hl => ?homes,
    fun ring s hs hlast => ?ends, fun ring s hs hjobs => ?alone⟩
  case locks =>
    obtain ⟨hu, hidle, -, hvalid, hchannel, hcounter, hmark, -, -⟩ := ht
    obtain ⟨t, hexec, hidentifies, hqueues, hjobs⟩ :=
      exec_index_identifies hu hidle hvalid hchannel hcounter hmark hunit hhome hl hrun ⟨hlow, hhigh⟩
    exact ⟨t, hexec, hidentifies.spelled, hqueues, hjobs⟩
  case homes =>
    have hexec {f : Drive → Drive} {c : Instr} (hc : exec c s = .next (powered s (driveChanged f)))
        (hr : NoneCameToRest s.drive (f s.drive)) (hd : (f s.drive).homingDone = true) :
        ∃ t, exec c s = .next t ∧ identifies t := by
      obtain ⟨t, hexec, hidentifies⟩ := exec_homed hu hn hunit hl hc hr hd
      exact ⟨t, hexec, hidentifies.spelled⟩
    refine ⟨fun hc hd ht => ?_, fun hc hr hlc ht => ?_, fun hc hlc hd => ?_⟩
    · exact hexec rfl (carriageStepEnd_noneCameToRest true _) (Drive.carriageStepEnd_done hc hd ht)
    · exact hexec rfl (deflectorStepEnd_noneCameToRest true true _) (Drive.deflectorStepEnd_done hc hr hlc ht)
    · exact hexec rfl (turretStepEnd_noneCameToRest true _) (Drive.turretStepEnd_done hc hlc hd)
  case ends =>
    intro v mounts
    obtain ⟨h, hg, hroom⟩ := hsampling hs
    let a := sampleAdded v s
    have hmounts : Mounts v s (discUp v a) := discUp_mounts v (u := a) rfl hroom
    have hclosed : (discUp v a).drive.film.galleyOpen = false := (discUp_galley v a).trans hg
    refine ⟨fun j r hv ha hh hw hd hr => ?winner, fun j ha hh hw hd => ?refused, fun hv ha hh => ?held,
      fun j r hv ha hh hd hheld hfinal hgrace hclass hr => ?active⟩
    case winner =>
      obtain ⟨t, hexec, hmounted, hunit, hjobs, hcurrent⟩ :=
        h.exec_prepared (h.indexWork_winner hlast hr hv ha hh hw hd) hclosed (hmounts.madeActive j)
      refine ⟨t, hexec, hmounted.spelled, hunit, hcurrent, hjobs.trans ?_⟩
      rw [madeActive, discUp_jobs]
      rfl
    case refused =>
      have hwant : wantedBy a = some j := (wantedBy_free (s := a) h.idle hh ha).trans hw
      obtain ⟨t, hexec, ht⟩ := h.exec_refuses hlast hwant ha (discSuits_otherJob hd)
      have hspin := ht.spin.trans (discRefused_spin (some j) v a)
      obtain ⟨hjobs, -, hcurrent, -⟩ := discRefused_leaves (some j) v a
      refine ⟨t, hexec, congrArg Spin.unit hspin, congrArg Spin.mounted hspin, congrArg Spin.present hspin,
        congrArg Spin.requested hspin, ht.jobs.trans hjobs,
        (congrArg Engine.current ht.engine).trans (hcurrent.trans h.current), fun l => ?_⟩
      rw [ht.queues]
      exact discRefused_posts (some j) v (s := a) hroom l
    case held =>
      obtain ⟨t, hexec, ht⟩ := h.exec_mountsOnly hlast (wantedBy_held (s := a) hh) ha hv
      exact ⟨t, hexec, (hmounts.of_readsAs ht).spelled, congrArg Spin.unit (ht.spin.trans (discUp_spin v a)),
        ht.jobs.trans (discUp_jobs v a),
        (congrArg Engine.current ht.engine).trans ((discUp_current v a).trans h.current)⟩
    case active =>
      obtain ⟨t, hexec, hmounted, hunit, hjobs, hcurrent⟩ := h.exec_prepared
        (h.indexWork_active hlast hr hv ha hh hd hfinal hheld hgrace hclass) hclosed hmounts
      exact ⟨t, hexec, hmounted.spelled, hunit, hjobs.trans (discUp_jobs v a), hcurrent⟩
  case alone =>
    intro v before posted
    obtain ⟨h, hg, hroom⟩ := hsampling hs
    have ha : activeJob s = none := by
      unfold activeJob
      rw [hjobs]
      rfl
    have hwant : wantedBy (sampleAdded v s) = none := by
      by_cases hh : s.spin.hold = true
      · exact wantedBy_held (s := sampleAdded v s) hh
      · have hnone : winner s = none := (winner_eq_none s).2 (by simp [hjobs])
        exact (wantedBy_free (s := sampleAdded v s) h.idle (Bool.eq_false_iff.2 hh) ha).trans hnone
    by_cases hlast : before = some v
    · by_cases hv : v = 0
      · obtain ⟨t, hexec, ht⟩ := h.exec_refuses hlast hwant ha (by rw [show ring.toNat = 0 from hv]; rfl)
        obtain ⟨-, hsamples, -, hdisc⟩ := discRefused_leaves none v (sampleAdded v s)
        have hspin := ht.spin.trans (discRefused_spin none v (sampleAdded v s))
        refine ⟨t, hexec, ht.samples.trans hsamples, fun hne => absurd hlast hne, fun hne => absurd hlast hne,
          fun _ hne => absurd hv hne, fun _ _ => ⟨congrArg Spin.unit hspin, congrArg Spin.mounted hspin,
          (congrArg Spin.present hspin).trans hv, congrArg Spin.requested hspin, fun l => ?_,
          (congrArg Trim.queueDisc ht.trim).trans hdisc⟩⟩
        rw [ht.queues, discRefused_posts none v (s := sampleAdded v s) hroom l, hv]
        rfl
      · obtain ⟨t, hexec, ht⟩ := h.exec_mountsOnly hlast hwant ha hv
        have hspin := ht.spin.trans (discUp_spin v (sampleAdded v s))
        refine ⟨t, hexec, ht.samples.trans (discUp_samples v (sampleAdded v s)), fun hne => absurd hlast hne,
          fun hne => absurd hlast hne, fun _ _ => ⟨congrArg Spin.unit hspin, congrArg Spin.mounted hspin,
          congrArg Spin.present hspin, congrArg Spin.parkTimer hspin, fun l => ?_,
          (congrArg Trim.queueDisc ht.trim).trans (discUp_leaves v (sampleAdded v s)).2.2⟩,
          fun _ hz => absurd hz hv⟩
        rw [ht.queues, discUp_queues]
        exact postBoth_room (s := sampleAdded v s) hroom l
    · by_cases hfew : s.disc.samples.length < 7
      · obtain ⟨t, hexec, ht⟩ := h.exec_waits hlast hfew
        exact ⟨t, hexec, ht.samples, fun _ _ => ⟨ht.spin, ht.queues⟩, fun _ hmany => absurd hfew (Nat.not_lt.2 hmany),
          fun he => absurd he hlast, fun he => absurd he hlast⟩
      · obtain ⟨t, hexec, ht⟩ := h.exec_faults hlast (Nat.not_lt.1 hfew) hg ha
        obtain ⟨hfaulted, -, -, -, hqueues, -⟩ := unitFaulted_fields .id v (sampleAdded v s)
        have hspin := ht.spin.trans hfaulted
        refine ⟨t, hexec, ht.samples.trans (unitFaulted_samples .id v (sampleAdded v s)),
          fun _ hless => absurd hless hfew, fun _ _ => ⟨congrArg Spin.unit hspin, congrArg Spin.lastFault hspin,
          fun l => ?_⟩, fun he => absurd he hlast, fun he => absurd he hlast⟩
        rw [ht.queues, hqueues]
        exact postBoth_room (s := sampleAdded v s) hroom l

end Sys2Proof.Machine
end
